-- ==== Sys2Proof/Word.lean ====
section
/-! DEFINITION. The machine's data widths (spec 00 R13): a byte, a word and a long word. -/

namespace Sys2Proof

/-- 8 bits (R13). -/
abbrev Byte := BitVec 8

/-- 16 bits (R13); also the unit of the instruction stream (R100). -/
abbrev Word := BitVec 16

/-- 32 bits (R13): registers, the program counter and addresses while they are computed (R6, R141). -/
abbrev Long := BitVec 32

end Sys2Proof
end

