-- ==== Sys2Proof/Config.lean ====
section
/-! DEFINITION. The free values: what the spec leaves open (the `draw`s of 93_implementation_defined.md
and the parameter of U14). Every constant here is opaque: nothing can be proved of its value, so a
statement about the machine holds whatever the value is (log 9). -/

namespace Sys2Proof.Config

/-- A free bit: `freeBit k` is the k-th draw of a run, when it draws a bit (R14 `draw`; U1, U3, U15, D6, D7, D22). -/
opaque freeBit : Nat → Bool

/-- A free byte (U6: the result of BCD arithmetic on a byte that is not two decimal digits). -/
opaque freeByte : Nat → Byte

/-- A free word (U4, U5: the words of the group 0 frame that are not defined). -/
opaque freeWord : Nat → Word

/-- A free choice among several; the place that draws it takes it modulo the number of choices (D8, D22). -/
opaque freeChoice : Nat → Nat

/-- The parameter LINK_A7 of U14: does `LINK A7` push the value A7 had before the decrement? -/
opaque linkA7PushesOld : Bool

/-- The parameter of U14 for `UNLK A7`: is the value loaded from the stack top incremented by 4? -/
opaque unlkA7Increments : Bool

end Sys2Proof.Config
end

