-- ==== Sys2Proof/Syntax.lean ====
section
/-! DEFINITION. The instructions: one constructor of `Instr` per row of spec/opcode_table.json, with the
operands of the row's fields and of its extension words. -/

namespace Sys2Proof

/-- A register number, 0 to 7. -/
abbrev Reg := Fin 8

/-- The operand sizes (R13, R111). -/
inductive Size where
  | byte
  | word
  | long
deriving DecidableEq, Repr

/-- The sizes of operations on addresses and of MOVEM, MOVEP and EXT: word or long (R22, R111). -/
inductive AddrSize where
  | word
  | long
deriving DecidableEq, Repr

/-- The index extension word (R108): index register, its size, and the 8-bit displacement. Bits 10-8 are
ignored by the decoder (R119). -/
structure IndexExt where
  /-- bit 15: the index register is an address register -/
  isAddr : Bool
  /-- bits 14-12: its number -/
  reg : Reg
  /-- bit 11: the whole register (else its sign-extended low word) -/
  isLong : Bool
  /-- bits 7-0: the displacement -/
  disp : Byte
deriving DecidableEq, Repr

/-- The twelve addressing modes an effective-address field can name (R102), with their extension words. -/
inductive Ea where
  | dreg (n : Reg)
  | areg (n : Reg)
  | ind (n : Reg)
  | postInc (n : Reg)
  | preDec (n : Reg)
  | disp (n : Reg) (d : Word)
  | index (n : Reg) (x : IndexExt)
  | absShort (a : Word)
  | absLong (a : Long)
  | pcDisp (d : Word)
  | pcIndex (x : IndexExt)
  | imm (v : Long)
deriving DecidableEq, Repr

/-- The sixteen condition tests, in the order of their codes (R320). -/
inductive Cond where
  | t | f | hi | ls | cc | cs | ne | eq | vc | vs | pl | mi | ge | lt | gt | le
deriving DecidableEq, Repr

/-- The displacement of Bcc, BRA, BSR (R113): in the operation word, or in the word that follows it. -/
inductive BranchDisp where
  | short (d : Byte)
  | long (d : Word)
deriving DecidableEq, Repr

/-- The count of a register shift (R281): in the operation word (0 means 8), or in a data register. -/
inductive ShiftCount where
  | imm (k : Fin 8)
  | reg (n : Reg)
deriving DecidableEq, Repr

/-- The instructions, one constructor per row of spec/opcode_table.json, in the table's order. -/
inductive Instr where
  -- line 0
  | ori (sz : Size) (imm : Long) (ea : Ea)
  | andi (sz : Size) (imm : Long) (ea : Ea)
  | subi (sz : Size) (imm : Long) (ea : Ea)
  | addi (sz : Size) (imm : Long) (ea : Ea)
  | eori (sz : Size) (imm : Long) (ea : Ea)
  | cmpi (sz : Size) (imm : Long) (ea : Ea)
  | oriToCcr (imm : Byte)
  | oriToSr (imm : Word)
  | andiToCcr (imm : Byte)
  | andiToSr (imm : Word)
  | eoriToCcr (imm : Byte)
  | eoriToSr (imm : Word)
  | btstStatic (b : Byte) (ea : Ea)
  | btstDynamic (dn : Reg) (ea : Ea)
  | bchgStatic (b : Byte) (ea : Ea)
  | bchgDynamic (dn : Reg) (ea : Ea)
  | bclrStatic (b : Byte) (ea : Ea)
  | bclrDynamic (dn : Reg) (ea : Ea)
  | bsetStatic (b : Byte) (ea : Ea)
  | bsetDynamic (dn : Reg) (ea : Ea)
  | movepLoadWord (dn an : Reg) (d : Word)
  | movepLoadLong (dn an : Reg) (d : Word)
  | movepStoreWord (dn an : Reg) (d : Word)
  | movepStoreLong (dn an : Reg) (d : Word)
  -- lines 1, 2, 3
  | moveByte (src dst : Ea)
  | moveWord (src dst : Ea)
  | moveaWord (src : Ea) (an : Reg)
  | moveLong (src dst : Ea)
  | moveaLong (src : Ea) (an : Reg)
  -- line 4
  | negx (sz : Size) (ea : Ea)
  | moveFromSr (ea : Ea)
  | chk (ea : Ea) (dn : Reg)
  | lea (ea : Ea) (an : Reg)
  | clr (sz : Size) (ea : Ea)
  | neg (sz : Size) (ea : Ea)
  | moveToCcr (ea : Ea)
  | notEa (sz : Size) (ea : Ea)
  | moveToSr (ea : Ea)
  | nbcd (ea : Ea)
  | swap (dn : Reg)
  | pea (ea : Ea)
  | extReg (sz : AddrSize) (dn : Reg)
  | movemStore (sz : AddrSize) (mask : Word) (ea : Ea)
  | tst (sz : Size) (ea : Ea)
  | tas (ea : Ea)
  | movemLoad (sz : AddrSize) (mask : Word) (ea : Ea)
  | trap (v : Fin 16)
  | link (an : Reg) (d : Word)
  | unlk (an : Reg)
  | moveToUsp (an : Reg)
  | moveFromUsp (an : Reg)
  | resetDevices
  | nop
  | stop (imm : Word)
  | rte
  | rts
  | trapv
  | rtr
  | jsr (ea : Ea)
  | jmp (ea : Ea)
  -- line 5
  | addq (q : Fin 8) (sz : Size) (ea : Ea)
  | subq (q : Fin 8) (sz : Size) (ea : Ea)
  | scc (cond : Cond) (ea : Ea)
  | dbcc (cond : Cond) (dn : Reg) (d : Word)
  -- line 6
  | bra (d : BranchDisp)
  | bsr (d : BranchDisp)
  | bcc (cond : Cond) (d : BranchDisp)
  -- line 7
  | moveq (dn : Reg) (d : Byte)
  -- line 8
  | orToReg (sz : Size) (ea : Ea) (dn : Reg)
  | orToMem (sz : Size) (dn : Reg) (ea : Ea)
  | divu (ea : Ea) (dn : Reg)
  | divs (ea : Ea) (dn : Reg)
  | sbcd (mem : Bool) (ry rx : Reg)
  -- line 9
  | subToReg (sz : Size) (ea : Ea) (dn : Reg)
  | subToMem (sz : Size) (dn : Reg) (ea : Ea)
  | suba (sz : AddrSize) (ea : Ea) (an : Reg)
  | subx (sz : Size) (mem : Bool) (ry rx : Reg)
  -- line 11
  | cmp (sz : Size) (ea : Ea) (dn : Reg)
  | cmpa (sz : AddrSize) (ea : Ea) (an : Reg)
  | eorToEa (sz : Size) (dn : Reg) (ea : Ea)
  | cmpm (sz : Size) (ay ax : Reg)
  -- line 12
  | andToReg (sz : Size) (ea : Ea) (dn : Reg)
  | andToMem (sz : Size) (dn : Reg) (ea : Ea)
  | mulu (ea : Ea) (dn : Reg)
  | muls (ea : Ea) (dn : Reg)
  | abcd (mem : Bool) (ry rx : Reg)
  | exgData (rx ry : Reg)
  | exgAddr (rx ry : Reg)
  | exgDataAddr (rx ry : Reg)
  -- line 13
  | addToReg (sz : Size) (ea : Ea) (dn : Reg)
  | addToMem (sz : Size) (dn : Reg) (ea : Ea)
  | adda (sz : AddrSize) (ea : Ea) (an : Reg)
  | addx (sz : Size) (mem : Bool) (ry rx : Reg)
  -- line 14
  | asrReg (sz : Size) (count : ShiftCount) (dn : Reg)
  | asrMem (ea : Ea)
  | aslReg (sz : Size) (count : ShiftCount) (dn : Reg)
  | aslMem (ea : Ea)
  | lsrReg (sz : Size) (count : ShiftCount) (dn : Reg)
  | lsrMem (ea : Ea)
  | lslReg (sz : Size) (count : ShiftCount) (dn : Reg)
  | lslMem (ea : Ea)
  | roxrReg (sz : Size) (count : ShiftCount) (dn : Reg)
  | roxrMem (ea : Ea)
  | roxlReg (sz : Size) (count : ShiftCount) (dn : Reg)
  | roxlMem (ea : Ea)
  | rorReg (sz : Size) (count : ShiftCount) (dn : Reg)
  | rorMem (ea : Ea)
  | rolReg (sz : Size) (count : ShiftCount) (dn : Reg)
  | rolMem (ea : Ea)
deriving DecidableEq, Repr

end Sys2Proof
end

