-- ==== Sys2Proof/WellFormed.lean ====
section
/-! DEFINITION. Which instructions are legal: the addressing modes each row accepts (R171 and the ea_modes
and dst_modes of spec/opcode_table.json), the width of an immediate, and the rows' `where` constraints. -/

namespace Sys2Proof

/-- R170, column Memory (the immediate mode is in it). -/
def Ea.isMemory : Ea → Bool
  | .dreg _ | .areg _ => false
  | _ => true

/-- R170, column Data. -/
def Ea.isData : Ea → Bool
  | .areg _ => false
  | _ => true

/-- R170, column Control. -/
def Ea.isControl : Ea → Bool
  | .ind _ | .disp _ _ | .index _ _ | .absShort _ | .absLong _ | .pcDisp _ | .pcIndex _ => true
  | _ => false

/-- R170, column Alterable. -/
def Ea.isAlterable : Ea → Bool
  | .pcDisp _ | .pcIndex _ | .imm _ => false
  | _ => true

/-- The postincrement mode. -/
def Ea.isPostInc : Ea → Bool
  | .postInc _ => true
  | _ => false

/-- The predecrement mode. -/
def Ea.isPreDec : Ea → Bool
  | .preDec _ => true
  | _ => false

/-- The immediate mode. -/
def Ea.isImm : Ea → Bool
  | .imm _ => true
  | _ => false

/-- The address register direct mode. -/
def Ea.isAddrReg : Ea → Bool
  | .areg _ => true
  | _ => false

/-- An immediate operand of the size: it fits the bits the operation uses (R106). -/
def immFits (sz : Size) (v : Long) : Bool :=
  match sz with
  | .byte => decide (v.toNat < 2 ^ 8)
  | .word => decide (v.toNat < 2 ^ 16)
  | .long => true

/-- An immediate effective address carries an operand of the size. -/
def Ea.immOk (sz : Size) : Ea → Bool
  | .imm v => immFits sz v
  | _ => true

/-- "All" of R171: every mode, an address register only with word or long size (R165). -/
def Ea.allOk (sz : Size) (ea : Ea) : Bool :=
  ea.immOk sz && !(ea.isAddrReg && decide (sz = .byte))

/-- "Data" of R171. -/
def Ea.dataOk (sz : Size) (ea : Ea) : Bool := ea.isData && ea.immOk sz

/-- "Data except immediate" of R171. -/
def Ea.dataNotImm (ea : Ea) : Bool := ea.isData && !ea.isImm

/-- "Data alterable" of R171. -/
def Ea.dataAlterable (ea : Ea) : Bool := ea.isData && ea.isAlterable

/-- "Alterable" of R171: an address register only with word or long size (R165). -/
def Ea.alterableOk (sz : Size) (ea : Ea) : Bool :=
  ea.isAlterable && !(ea.isAddrReg && decide (sz = .byte))

/-- "Memory alterable" of R171. -/
def Ea.memAlterable (ea : Ea) : Bool := ea.isMemory && ea.isAlterable

/-- The size of an address operation as an operand size. -/
def AddrSize.toSize : AddrSize → Size
  | .word => .word
  | .long => .long

/-- A short displacement is not zero (R113: zero in the field means that a word follows). -/
def BranchDisp.ok : BranchDisp → Bool
  | .short d => decide (d ≠ 0)
  | .long _ => true

/-- The conditions of Bcc: codes 2 to 15 (R323). -/
def Cond.bccOk : Cond → Bool
  | .t | .f => false
  | _ => true

/-- The instruction is one the table accepts (R116, R171). -/
def Instr.wellFormed : Instr → Bool
  | .ori sz v ea | .andi sz v ea | .subi sz v ea | .addi sz v ea | .eori sz v ea | .cmpi sz v ea =>
      immFits sz v && ea.dataAlterable
  | .oriToCcr _ | .oriToSr _ | .andiToCcr _ | .andiToSr _ | .eoriToCcr _ | .eoriToSr _ => true
  | .btstStatic _ ea => ea.dataNotImm
  | .btstDynamic _ ea => ea.dataOk .byte
  | .bchgStatic _ ea | .bchgDynamic _ ea | .bclrStatic _ ea | .bclrDynamic _ ea
  | .bsetStatic _ ea | .bsetDynamic _ ea => ea.dataAlterable
  | .movepLoadWord _ _ _ | .movepLoadLong _ _ _ | .movepStoreWord _ _ _ | .movepStoreLong _ _ _ => true
  | .moveByte src dst => src.allOk .byte && dst.dataAlterable
  | .moveWord src dst => src.allOk .word && dst.dataAlterable
  | .moveaWord src _ => src.allOk .word
  | .moveLong src dst => src.allOk .long && dst.dataAlterable
  | .moveaLong src _ => src.allOk .long
  | .negx _ ea | .clr _ ea | .neg _ ea | .notEa _ ea | .tst _ ea => ea.dataAlterable
  | .moveFromSr ea | .nbcd ea | .tas ea => ea.dataAlterable
  | .chk ea _ => ea.dataOk .word
  | .lea ea _ => ea.isControl
  | .moveToCcr ea | .moveToSr ea => ea.dataOk .word
  | .swap _ => true
  | .pea ea | .jsr ea | .jmp ea => ea.isControl
  | .extReg _ _ => true
  | .movemStore _ _ ea => (ea.isControl && ea.isAlterable) || ea.isPreDec
  | .movemLoad _ _ ea => ea.isControl || ea.isPostInc
  | .trap _ | .link _ _ | .unlk _ | .moveToUsp _ | .moveFromUsp _ => true
  | .resetDevices | .nop | .stop _ | .rte | .rts | .trapv | .rtr => true
  | .addq _ sz ea | .subq _ sz ea => ea.alterableOk sz
  | .scc _ ea => ea.dataAlterable
  | .dbcc _ _ _ => true
  | .bra d | .bsr d => d.ok
  | .bcc c d => c.bccOk && d.ok
  | .moveq _ _ => true
  | .orToReg sz ea _ | .andToReg sz ea _ => ea.dataOk sz
  | .orToMem _ _ ea | .subToMem _ _ ea | .andToMem _ _ ea | .addToMem _ _ ea => ea.memAlterable
  | .divu ea _ | .divs ea _ | .mulu ea _ | .muls ea _ => ea.dataOk .word
  | .sbcd _ _ _ | .abcd _ _ _ | .subx _ _ _ _ | .addx _ _ _ _ | .cmpm _ _ _ => true
  | .subToReg sz ea _ | .addToReg sz ea _ | .cmp sz ea _ => ea.allOk sz
  | .suba sz ea _ | .adda sz ea _ | .cmpa sz ea _ => ea.allOk sz.toSize
  | .eorToEa _ _ ea => ea.dataAlterable
  | .exgData _ _ | .exgAddr _ _ | .exgDataAddr _ _ => true
  | .asrReg _ _ _ | .aslReg _ _ _ | .lsrReg _ _ _ | .lslReg _ _ _
  | .roxrReg _ _ _ | .roxlReg _ _ _ | .rorReg _ _ _ | .rolReg _ _ _ => true
  | .asrMem ea | .aslMem ea | .lsrMem ea | .lslMem ea
  | .roxrMem ea | .roxlMem ea | .rorMem ea | .rolMem ea => ea.memAlterable

end Sys2Proof
end

