-- ==== Sys2Proof/Decode.lean ====
section
/-! DEFINITION. The decoder, total on any words and any bytes, and after it the encoder, both written from the
encoding tables of the spec (30_encoding, opcode_table.json, the Encoding lines of the instruction rules). -/

namespace Sys2Proof

/-- Why words are not an instruction. -/
inductive DecodeError where
  /-- the operation word is not the first word of a legal instruction (R118): vector 4 -/
  | illegal
  /-- bits 15-12 are 1010 (R117): vector 10 -/
  | line1010
  /-- bits 15-12 are 1111 (R117): vector 11 -/
  | line1111
  /-- the words end before the instruction does -/
  | truncated
deriving DecidableEq, Repr

/-- The fields of an operation word: bits 15-12, 11-9, 8-6, 5-3 and 2-0 (R110). -/
structure OpFields where
  line : Nat
  r : Nat
  o : Nat
  m : Nat
  x : Nat
deriving DecidableEq, Repr

/-- An operation word as its fields. -/
def unpack (w : Word) : OpFields :=
  { line := w.toNat / 4096
    r := w.toNat / 512 % 8
    o := w.toNat / 64 % 8
    m := w.toNat / 8 % 8
    x := w.toNat % 8 }

/-- The operation word with the given fields. -/
def pack (f : OpFields) : Word :=
  BitVec.ofNat 16 (f.line * 4096 + f.r * 512 + f.o * 64 + f.m * 8 + f.x)

/-- A register field. -/
def toReg (n : Nat) : Reg := Fin.ofNat 8 n

/-- The general size field (R111). -/
def sizeOfField : Nat → Except DecodeError Size
  | 0 => .ok .byte
  | 1 => .ok .word
  | 2 => .ok .long
  | _ => .error .illegal

/-- The code of a size in the general size field (R111). -/
def sizeField : Size → Nat
  | .byte => 0
  | .word => 1
  | .long => 2

/-- The code of an address size in a one-bit size field (R111). -/
def addrSizeBit : AddrSize → Nat
  | .word => 0
  | .long => 1

/-- A condition from its code (R320). -/
def condOfCode : Nat → Cond
  | 0 => .t
  | 1 => .f
  | 2 => .hi
  | 3 => .ls
  | 4 => .cc
  | 5 => .cs
  | 6 => .ne
  | 7 => .eq
  | 8 => .vc
  | 9 => .vs
  | 10 => .pl
  | 11 => .mi
  | 12 => .ge
  | 13 => .lt
  | 14 => .gt
  | _ => .le

/-- The code of a condition (R320). -/
def condCode : Cond → Nat
  | .t => 0
  | .f => 1
  | .hi => 2
  | .ls => 3
  | .cc => 4
  | .cs => 5
  | .ne => 6
  | .eq => 7
  | .vc => 8
  | .vs => 9
  | .pl => 10
  | .mi => 11
  | .ge => 12
  | .lt => 13
  | .gt => 14
  | .le => 15

/-- The next word of the instruction stream. -/
def takeWord : List Word → Except DecodeError (Word × List Word)
  | [] => .error .truncated
  | w :: ws => .ok (w, ws)

/-- Two words as a long word, the high-order word first (R105, R106). -/
def joinWords (hi lo : Word) : Long := hi ++ lo

/-- The high-order word of a long word. -/
def highWord (v : Long) : Word := v.extractLsb' 16 16

/-- The low-order word of a long word. -/
def lowWord (v : Long) : Word := v.setWidth 16

/-- The low-order byte of a word. -/
def lowByte (w : Word) : Byte := w.setWidth 8

/-- The next two words, as a long word. -/
def takeLong (ws : List Word) : Except DecodeError (Long × List Word) := do
  let (hi, ws) ← takeWord ws
  let (lo, ws) ← takeWord ws
  .ok (joinWords hi lo, ws)

/-- An immediate operand (R106): for a byte, the low-order byte of one word. -/
def takeImm (sz : Size) (ws : List Word) : Except DecodeError (Long × List Word) :=
  match sz with
  | .byte => do
    let (w, ws) ← takeWord ws
    .ok ((lowByte w).setWidth 32, ws)
  | .word => do
    let (w, ws) ← takeWord ws
    .ok (w.setWidth 32, ws)
  | .long => takeLong ws

/-- The index extension word (R108); bits 10-8 are ignored (R119). -/
def indexExtOfWord (w : Word) : IndexExt :=
  { isAddr := decide (w.toNat / 32768 = 1)
    reg := toReg (w.toNat / 4096 % 8)
    isLong := decide (w.toNat / 2048 % 2 = 1)
    disp := BitVec.ofNat 8 w.toNat }

/-- An effective address from its mode and register fields and its extension words (R102, R103). -/
def takeEa (sz : Size) (m x : Nat) (ws : List Word) : Except DecodeError (Ea × List Word) :=
  match m with
  | 0 => .ok (.dreg (toReg x), ws)
  | 1 => .ok (.areg (toReg x), ws)
  | 2 => .ok (.ind (toReg x), ws)
  | 3 => .ok (.postInc (toReg x), ws)
  | 4 => .ok (.preDec (toReg x), ws)
  | 5 => do
    let (w, ws) ← takeWord ws
    .ok (.disp (toReg x) w, ws)
  | 6 => do
    let (w, ws) ← takeWord ws
    .ok (.index (toReg x) (indexExtOfWord w), ws)
  | 7 =>
    match x with
    | 0 => do
      let (w, ws) ← takeWord ws
      .ok (.absShort w, ws)
    | 1 => do
      let (a, ws) ← takeLong ws
      .ok (.absLong a, ws)
    | 2 => do
      let (w, ws) ← takeWord ws
      .ok (.pcDisp w, ws)
    | 3 => do
      let (w, ws) ← takeWord ws
      .ok (.pcIndex (indexExtOfWord w), ws)
    | 4 => do
      let (v, ws) ← takeImm sz ws
      .ok (.imm v, ws)
    | _ => .error .illegal
  | _ => .error .illegal

/-- An instruction whose only operand words are those of its effective address. -/
def withEa (sz : Size) (f : OpFields) (ws : List Word) (k : Ea → Instr) :
    Except DecodeError (Instr × List Word) := do
  let (ea, ws) ← takeEa sz f.m f.x ws
  .ok (k ea, ws)

/-- An instruction with one word of its own. -/
def withWord (ws : List Word) (k : Word → Instr) : Except DecodeError (Instr × List Word) := do
  let (w, ws) ← takeWord ws
  .ok (k w, ws)

/-- An instruction with one word of its own and then its effective address (R104). -/
def withWordEa (sz : Size) (f : OpFields) (ws : List Word) (k : Word → Ea → Instr) :
    Except DecodeError (Instr × List Word) := do
  let (w, ws) ← takeWord ws
  let (ea, ws) ← takeEa sz f.m f.x ws
  .ok (k w ea, ws)

/-- An immediate operand and then the destination's effective address (R104, R214). -/
def withImmEa (f : OpFields) (ws : List Word) (k : Size → Long → Ea → Instr) :
    Except DecodeError (Instr × List Word) := do
  let sz ← sizeOfField f.o
  let (v, ws) ← takeImm sz ws
  let (ea, ws) ← takeEa sz f.m f.x ws
  .ok (k sz v ea, ws)

/-- A size field in bits 7-6 and an effective address (format SZ_EA). -/
def withSizeEa (f : OpFields) (ws : List Word) (k : Size → Ea → Instr) :
    Except DecodeError (Instr × List Word) := do
  let sz ← sizeOfField (f.o % 4)
  let (ea, ws) ← takeEa sz f.m f.x ws
  .ok (k sz ea, ws)

/-- The source's effective address and then the destination's (format MOVE, R184). -/
def withMove (sz : Size) (f : OpFields) (ws : List Word) (k : Ea → Ea → Instr) :
    Except DecodeError (Instr × List Word) := do
  let (src, ws) ← takeEa sz f.m f.x ws
  let (dst, ws) ← takeEa sz f.o f.r ws
  .ok (k src dst, ws)

/-- The branch displacement (R113): zero in the operation word means that a word follows. -/
def withBranch (f : OpFields) (ws : List Word) (k : BranchDisp → Instr) :
    Except DecodeError (Instr × List Word) :=
  let d := f.o % 4 * 64 + f.m * 8 + f.x
  if d = 0 then withWord ws (fun w => k (.long w)) else .ok (k (.short (BitVec.ofNat 8 d)), ws)

/-- Line 0: immediates, bit instructions, MOVEP. -/
def parseLine0 (f : OpFields) (ws : List Word) : Except DecodeError (Instr × List Word) :=
  match f.r, f.o, f.m, f.x with
  | dn, 4, 1, an => withWord ws (.movepLoadWord (toReg dn) (toReg an))
  | dn, 5, 1, an => withWord ws (.movepLoadLong (toReg dn) (toReg an))
  | dn, 6, 1, an => withWord ws (.movepStoreWord (toReg dn) (toReg an))
  | dn, 7, 1, an => withWord ws (.movepStoreLong (toReg dn) (toReg an))
  | dn, 4, _, _ => withEa .byte f ws (.btstDynamic (toReg dn))
  | dn, 5, _, _ => withEa .byte f ws (.bchgDynamic (toReg dn))
  | dn, 6, _, _ => withEa .byte f ws (.bclrDynamic (toReg dn))
  | dn, 7, _, _ => withEa .byte f ws (.bsetDynamic (toReg dn))
  | 0, 0, 7, 4 => withWord ws (fun w => .oriToCcr (lowByte w))
  | 0, 1, 7, 4 => withWord ws .oriToSr
  | 0, _, _, _ => withImmEa f ws .ori
  | 1, 0, 7, 4 => withWord ws (fun w => .andiToCcr (lowByte w))
  | 1, 1, 7, 4 => withWord ws .andiToSr
  | 1, _, _, _ => withImmEa f ws .andi
  | 2, _, _, _ => withImmEa f ws .subi
  | 3, _, _, _ => withImmEa f ws .addi
  | 4, 0, _, _ => withWordEa .byte f ws (fun w => .btstStatic (lowByte w))
  | 4, 1, _, _ => withWordEa .byte f ws (fun w => .bchgStatic (lowByte w))
  | 4, 2, _, _ => withWordEa .byte f ws (fun w => .bclrStatic (lowByte w))
  | 4, 3, _, _ => withWordEa .byte f ws (fun w => .bsetStatic (lowByte w))
  | 5, 0, 7, 4 => withWord ws (fun w => .eoriToCcr (lowByte w))
  | 5, 1, 7, 4 => withWord ws .eoriToSr
  | 5, _, _, _ => withImmEa f ws .eori
  | 6, _, _, _ => withImmEa f ws .cmpi
  | _, _, _, _ => .error .illegal

/-- Lines 1 to 3: MOVE and, with destination mode 001, MOVEA (R184, R185). -/
def parseMove (f : OpFields) (ws : List Word) : Except DecodeError (Instr × List Word) :=
  match f.line, f.o with
  | 1, _ => withMove .byte f ws .moveByte
  | 2, 1 => withEa .long f ws (fun ea => .moveaLong ea (toReg f.r))
  | 2, _ => withMove .long f ws .moveLong
  | 3, 1 => withEa .word f ws (fun ea => .moveaWord ea (toReg f.r))
  | 3, _ => withMove .word f ws .moveWord
  | _, _ => .error .illegal

/-- Line 4, bits 11-6 all ones but two (0100 1110 01): traps, LINK, UNLK, MOVE USP and the fixed words. -/
def parseLine4Misc (f : OpFields) (ws : List Word) : Except DecodeError (Instr × List Word) :=
  match f.m, f.x with
  | 0, v => .ok (.trap (Fin.ofNat 16 v), ws)
  | 1, v => .ok (.trap (Fin.ofNat 16 (8 + v)), ws)
  | 2, an => withWord ws (.link (toReg an))
  | 3, an => .ok (.unlk (toReg an), ws)
  | 4, an => .ok (.moveToUsp (toReg an), ws)
  | 5, an => .ok (.moveFromUsp (toReg an), ws)
  | 6, 0 => .ok (.resetDevices, ws)
  | 6, 1 => .ok (.nop, ws)
  | 6, 2 => withWord ws .stop
  | 6, 3 => .ok (.rte, ws)
  | 6, 5 => .ok (.rts, ws)
  | 6, 6 => .ok (.trapv, ws)
  | 6, 7 => .ok (.rtr, ws)
  | _, _ => .error .illegal

/-- Line 4. -/
def parseLine4 (f : OpFields) (ws : List Word) : Except DecodeError (Instr × List Word) :=
  match f.r, f.o, f.m with
  | dn, 6, _ => withEa .word f ws (fun ea => .chk ea (toReg dn))
  | an, 7, _ => withEa .long f ws (fun ea => .lea ea (toReg an))
  | 0, 3, _ => withEa .word f ws .moveFromSr
  | 0, _, _ => withSizeEaLow f ws .negx
  | 1, _, _ => withSizeEaLow f ws .clr
  | 2, 3, _ => withEa .word f ws .moveToCcr
  | 2, _, _ => withSizeEaLow f ws .neg
  | 3, 3, _ => withEa .word f ws .moveToSr
  | 3, _, _ => withSizeEaLow f ws .notEa
  | 4, 0, _ => withEa .byte f ws .nbcd
  | 4, 1, 0 => .ok (.swap (toReg f.x), ws)
  | 4, 1, _ => withEa .long f ws .pea
  | 4, 2, 0 => .ok (.extReg .word (toReg f.x), ws)
  | 4, 2, _ => withWordEa .word f ws (.movemStore .word)
  | 4, 3, 0 => .ok (.extReg .long (toReg f.x), ws)
  | 4, 3, _ => withWordEa .long f ws (.movemStore .long)
  | 5, 3, _ => withEa .byte f ws .tas
  | 5, _, _ => withSizeEaLow f ws .tst
  | 6, 2, _ => withWordEa .word f ws (.movemLoad .word)
  | 6, 3, _ => withWordEa .long f ws (.movemLoad .long)
  | 7, 1, _ => parseLine4Misc f ws
  | 7, 2, _ => withEa .long f ws .jsr
  | 7, 3, _ => withEa .long f ws .jmp
  | _, _, _ => .error .illegal
where
  /-- The size field with bit 8 clear. -/
  withSizeEaLow (f : OpFields) (ws : List Word) (k : Size → Ea → Instr) :
      Except DecodeError (Instr × List Word) :=
    if f.o < 4 then withSizeEa f ws k else .error .illegal

/-- Line 5: ADDQ, SUBQ, Scc, DBcc. -/
def parseLine5 (f : OpFields) (ws : List Word) : Except DecodeError (Instr × List Word) :=
  match f.o, f.m with
  | 3, 1 => withWord ws (.dbcc (condOfCode (f.r * 2)) (toReg f.x))
  | 7, 1 => withWord ws (.dbcc (condOfCode (f.r * 2 + 1)) (toReg f.x))
  | 3, _ => withEa .byte f ws (.scc (condOfCode (f.r * 2)))
  | 7, _ => withEa .byte f ws (.scc (condOfCode (f.r * 2 + 1)))
  | o, _ =>
    if o < 4 then withSizeEa f ws (.addq (Fin.ofNat 8 f.r)) else withSizeEa f ws (.subq (Fin.ofNat 8 f.r))

/-- Line 6: branches. -/
def parseLine6 (f : OpFields) (ws : List Word) : Except DecodeError (Instr × List Word) :=
  match f.r * 2 + f.o / 4 with
  | 0 => withBranch f ws .bra
  | 1 => withBranch f ws .bsr
  | c => withBranch f ws (.bcc (condOfCode c))

/-- Line 7: MOVEQ, bit 8 clear. -/
def parseLine7 (f : OpFields) (ws : List Word) : Except DecodeError (Instr × List Word) :=
  if f.o < 4 then .ok (.moveq (toReg f.r) (BitVec.ofNat 8 (f.o * 64 + f.m * 8 + f.x)), ws)
  else .error .illegal

/-- Line 8: OR, DIVU, DIVS, SBCD. -/
def parseLine8 (f : OpFields) (ws : List Word) : Except DecodeError (Instr × List Word) :=
  match f.o, f.m with
  | 3, _ => withEa .word f ws (fun ea => .divu ea (toReg f.r))
  | 7, _ => withEa .word f ws (fun ea => .divs ea (toReg f.r))
  | 4, 0 => .ok (.sbcd false (toReg f.x) (toReg f.r), ws)
  | 4, 1 => .ok (.sbcd true (toReg f.x) (toReg f.r), ws)
  | o, _ =>
    if o < 4 then withSizeEa f ws (fun sz ea => .orToReg sz ea (toReg f.r))
    else withSizeEa f ws (fun sz ea => .orToMem sz (toReg f.r) ea)

/-- The extended forms of ADDX and SUBX: size in bits 7-6, bit 3 the memory form (format RXRY). -/
def withExtended (f : OpFields) (ws : List Word) (k : Size → Bool → Reg → Reg → Instr) (mem : Bool) :
    Except DecodeError (Instr × List Word) := do
  let sz ← sizeOfField (f.o % 4)
  .ok (k sz mem (toReg f.x) (toReg f.r), ws)

/-- Line 9: SUB, SUBA, SUBX. -/
def parseLine9 (f : OpFields) (ws : List Word) : Except DecodeError (Instr × List Word) :=
  match f.o, f.m with
  | 3, _ => withEa .word f ws (fun ea => .suba .word ea (toReg f.r))
  | 7, _ => withEa .long f ws (fun ea => .suba .long ea (toReg f.r))
  | o, m =>
    if o < 4 then withSizeEa f ws (fun sz ea => .subToReg sz ea (toReg f.r))
    else if m < 2 then withExtended f ws .subx (decide (m = 1))
    else withSizeEa f ws (fun sz ea => .subToMem sz (toReg f.r) ea)

/-- Line 11: CMP, CMPA, CMPM, EOR. -/
def parseLine11 (f : OpFields) (ws : List Word) : Except DecodeError (Instr × List Word) :=
  match f.o, f.m with
  | 3, _ => withEa .word f ws (fun ea => .cmpa .word ea (toReg f.r))
  | 7, _ => withEa .long f ws (fun ea => .cmpa .long ea (toReg f.r))
  | o, m =>
    if o < 4 then withSizeEa f ws (fun sz ea => .cmp sz ea (toReg f.r))
    else if m = 1 then withExtended f ws (fun sz _ ay ax => .cmpm sz ay ax) true
    else withSizeEa f ws (fun sz ea => .eorToEa sz (toReg f.r) ea)

/-- Line 12: AND, MULU, MULS, ABCD, EXG. -/
def parseLine12 (f : OpFields) (ws : List Word) : Except DecodeError (Instr × List Word) :=
  match f.o, f.m with
  | 3, _ => withEa .word f ws (fun ea => .mulu ea (toReg f.r))
  | 7, _ => withEa .word f ws (fun ea => .muls ea (toReg f.r))
  | 4, 0 => .ok (.abcd false (toReg f.x) (toReg f.r), ws)
  | 4, 1 => .ok (.abcd true (toReg f.x) (toReg f.r), ws)
  | 5, 0 => .ok (.exgData (toReg f.r) (toReg f.x), ws)
  | 5, 1 => .ok (.exgAddr (toReg f.r) (toReg f.x), ws)
  | 6, 1 => .ok (.exgDataAddr (toReg f.r) (toReg f.x), ws)
  | o, _ =>
    if o < 4 then withSizeEa f ws (fun sz ea => .andToReg sz ea (toReg f.r))
    else withSizeEa f ws (fun sz ea => .andToMem sz (toReg f.r) ea)

/-- Line 13: ADD, ADDA, ADDX. -/
def parseLine13 (f : OpFields) (ws : List Word) : Except DecodeError (Instr × List Word) :=
  match f.o, f.m with
  | 3, _ => withEa .word f ws (fun ea => .adda .word ea (toReg f.r))
  | 7, _ => withEa .long f ws (fun ea => .adda .long ea (toReg f.r))
  | o, m =>
    if o < 4 then withSizeEa f ws (fun sz ea => .addToReg sz ea (toReg f.r))
    else if m < 2 then withExtended f ws .addx (decide (m = 1))
    else withSizeEa f ws (fun sz ea => .addToMem sz (toReg f.r) ea)

/-- The count of a register shift (R281): bit 5 says whether bits 11-9 are a count or a register. -/
def shiftCountOf (f : OpFields) : ShiftCount :=
  if f.m < 4 then .imm (Fin.ofNat 8 f.r) else .reg (toReg f.r)

/-- The register form of a shift: size in bits 7-6, count, register. -/
def withShift (f : OpFields) (ws : List Word) (k : Size → ShiftCount → Reg → Instr) :
    Except DecodeError (Instr × List Word) := do
  let sz ← sizeOfField (f.o % 4)
  .ok (k sz (shiftCountOf f) (toReg f.x), ws)

/-- Line 14: shifts and rotates (R281). Bits 8-6 = 011 and 111 are the memory forms. -/
def parseLine14 (f : OpFields) (ws : List Word) : Except DecodeError (Instr × List Word) :=
  match f.o, f.r with
  | 3, 0 => withEa .word f ws .asrMem
  | 7, 0 => withEa .word f ws .aslMem
  | 3, 1 => withEa .word f ws .lsrMem
  | 7, 1 => withEa .word f ws .lslMem
  | 3, 2 => withEa .word f ws .roxrMem
  | 7, 2 => withEa .word f ws .roxlMem
  | 3, 3 => withEa .word f ws .rorMem
  | 7, 3 => withEa .word f ws .rolMem
  | 3, _ => .error .illegal
  | 7, _ => .error .illegal
  | o, _ =>
    match o / 4, f.m % 4 with
    | 0, 0 => withShift f ws .asrReg
    | 1, 0 => withShift f ws .aslReg
    | 0, 1 => withShift f ws .lsrReg
    | 1, 1 => withShift f ws .lslReg
    | 0, 2 => withShift f ws .roxrReg
    | 1, 2 => withShift f ws .roxlReg
    | 0, 3 => withShift f ws .rorReg
    | 1, 3 => withShift f ws .rolReg
    | _, _ => .error .illegal

/-- The first-level opcode map (R115). -/
def parse (f : OpFields) (ws : List Word) : Except DecodeError (Instr × List Word) :=
  match f.line with
  | 0 => parseLine0 f ws
  | 1 | 2 | 3 => parseMove f ws
  | 4 => parseLine4 f ws
  | 5 => parseLine5 f ws
  | 6 => parseLine6 f ws
  | 7 => parseLine7 f ws
  | 8 => parseLine8 f ws
  | 9 => parseLine9 f ws
  | 10 => .error .line1010
  | 11 => parseLine11 f ws
  | 12 => parseLine12 f ws
  | 13 => parseLine13 f ws
  | 14 => parseLine14 f ws
  | 15 => .error .line1111
  | _ => .error .illegal

/-- The instruction at the head of a list of words, and the words after it. A word whose fields match a row
but whose operands the row does not accept is illegal (R118, D14). -/
def decode : List Word → Except DecodeError (Instr × List Word)
  | [] => .error .truncated
  | w :: ws =>
    match parse (unpack w) ws with
    | .ok (i, rest) => if i.wellFormed then .ok (i, rest) else .error .illegal
    | .error e => .error e

/-- What an operation word alone says (R100, R117): the instruction with every later word zero. Whether the
word is legal, whether it is privileged and how many words follow do not depend on the later words. -/
def decodeOp (op : Word) : Except DecodeError (Instr × List Word) := decode [op, 0, 0, 0, 0]

/-- Bytes in memory order as words, the high-order byte first (R61, R63); an odd last byte is dropped. -/
def wordsOfBytes : List Byte → List Word
  | hi :: lo :: bs => (hi ++ lo : Word) :: wordsOfBytes bs
  | _ => []

/-- A word as its bytes in memory order (R61). -/
def bytesOfWord (w : Word) : List Byte := [w.extractLsb' 8 8, w.setWidth 8]

/-- The decoder on bytes. -/
def decodeBytes (bs : List Byte) : Except DecodeError (Instr × List Word) := decode (wordsOfBytes bs)

/-- The five words of an instruction given as a number: bit 0 is the least significant bit of the first word,
a later word's bits count on from it, and bits from `nbits` on are 0. -/
def tableWords (nbits w : Nat) : List Word :=
  [0, 1, 2, 3, 4].map (fun k => BitVec.ofNat 16 (w % 2 ^ nbits / 2 ^ (16 * k)))

/-- The instruction the decoder reads from an instruction whose bits are `w`. -/
def decodeTableWord (nbits w : Nat) : Option Instr :=
  match decodeBytes ((tableWords nbits w).flatMap bytesOfWord) with
  | .ok (i, _) => some i
  | .error _ => none

/-! The encoder, from the same tables. -/

/-- The mode and register fields of an effective address (R102). -/
def eaFields : Ea → Nat × Nat
  | .dreg n => (0, n.val)
  | .areg n => (1, n.val)
  | .ind n => (2, n.val)
  | .postInc n => (3, n.val)
  | .preDec n => (4, n.val)
  | .disp n _ => (5, n.val)
  | .index n _ => (6, n.val)
  | .absShort _ => (7, 0)
  | .absLong _ => (7, 1)
  | .pcDisp _ => (7, 2)
  | .pcIndex _ => (7, 3)
  | .imm _ => (7, 4)

/-- The words of an immediate operand (R106); the unused byte of a byte operand is zero. -/
def immWords (sz : Size) (v : Long) : List Word :=
  match sz with
  | .byte => [(v.setWidth 8).setWidth 16]
  | .word => [lowWord v]
  | .long => [highWord v, lowWord v]

/-- The index extension word (R108), bits 10-8 zero. -/
def wordOfIndexExt (x : IndexExt) : Word :=
  BitVec.ofNat 16 (x.isAddr.toNat * 32768 + x.reg.val * 4096 + x.isLong.toNat * 2048 + x.disp.toNat)

/-- The extension words of an effective address (R103, R105). -/
def eaWords (sz : Size) : Ea → List Word
  | .disp _ d => [d]
  | .index _ x => [wordOfIndexExt x]
  | .absShort a => [a]
  | .absLong a => [highWord a, lowWord a]
  | .pcDisp d => [d]
  | .pcIndex x => [wordOfIndexExt x]
  | .imm v => immWords sz v
  | _ => []

/-- A byte operand word, its unused byte zero. -/
def byteWord (b : Byte) : Word := b.setWidth 16

/-- An operation word with an effective address in bits 5-0. -/
def opEa (line r o : Nat) (ea : Ea) : Word :=
  pack { line := line, r := r, o := o, m := (eaFields ea).1, x := (eaFields ea).2 }

/-- An operation word without an effective address. -/
def opWord (line r o m x : Nat) : Word := pack { line := line, r := r, o := o, m := m, x := x }

/-- The words of MOVE: the destination's register in bits 11-9 and its mode in bits 8-6 (R184). -/
def encodeMove (line : Nat) (sz : Size) (src dst : Ea) : List Word :=
  opEa line (eaFields dst).2 (eaFields dst).1 src :: (eaWords sz src ++ eaWords sz dst)

/-- The words of Bcc, BRA, BSR (R113, R323). -/
def encodeBranch (code : Nat) : BranchDisp → List Word
  | .short d =>
    [opWord 6 (code / 2) (code % 2 * 4 + d.toNat / 64) (d.toNat / 8 % 8) (d.toNat % 8)]
  | .long d => [opWord 6 (code / 2) (code % 2 * 4) 0 0, d]

/-- The register form of a shift (R281): `dr` the direction bit, `tt` the type. -/
def encodeShift (dr tt : Nat) (sz : Size) (count : ShiftCount) (dn : Reg) : List Word :=
  match count with
  | .imm k => [opWord 14 k.val (dr * 4 + sizeField sz) tt dn.val]
  | .reg n => [opWord 14 n.val (dr * 4 + sizeField sz) (4 + tt) dn.val]

/-- The extended register and memory forms (format RXRY). -/
def encodeExtended (line : Nat) (sz : Size) (mem : Bool) (ry rx : Reg) : List Word :=
  [opWord line rx.val (4 + sizeField sz) mem.toNat ry.val]

/-- The words of an instruction. -/
def encode : Instr → List Word
  | .ori sz v ea => opEa 0 0 (sizeField sz) ea :: (immWords sz v ++ eaWords sz ea)
  | .andi sz v ea => opEa 0 1 (sizeField sz) ea :: (immWords sz v ++ eaWords sz ea)
  | .subi sz v ea => opEa 0 2 (sizeField sz) ea :: (immWords sz v ++ eaWords sz ea)
  | .addi sz v ea => opEa 0 3 (sizeField sz) ea :: (immWords sz v ++ eaWords sz ea)
  | .eori sz v ea => opEa 0 5 (sizeField sz) ea :: (immWords sz v ++ eaWords sz ea)
  | .cmpi sz v ea => opEa 0 6 (sizeField sz) ea :: (immWords sz v ++ eaWords sz ea)
  | .oriToCcr b => [opWord 0 0 0 7 4, byteWord b]
  | .oriToSr w => [opWord 0 0 1 7 4, w]
  | .andiToCcr b => [opWord 0 1 0 7 4, byteWord b]
  | .andiToSr w => [opWord 0 1 1 7 4, w]
  | .eoriToCcr b => [opWord 0 5 0 7 4, byteWord b]
  | .eoriToSr w => [opWord 0 5 1 7 4, w]
  | .btstStatic b ea => opEa 0 4 0 ea :: byteWord b :: eaWords .byte ea
  | .btstDynamic dn ea => opEa 0 dn.val 4 ea :: eaWords .byte ea
  | .bchgStatic b ea => opEa 0 4 1 ea :: byteWord b :: eaWords .byte ea
  | .bchgDynamic dn ea => opEa 0 dn.val 5 ea :: eaWords .byte ea
  | .bclrStatic b ea => opEa 0 4 2 ea :: byteWord b :: eaWords .byte ea
  | .bclrDynamic dn ea => opEa 0 dn.val 6 ea :: eaWords .byte ea
  | .bsetStatic b ea => opEa 0 4 3 ea :: byteWord b :: eaWords .byte ea
  | .bsetDynamic dn ea => opEa 0 dn.val 7 ea :: eaWords .byte ea
  | .movepLoadWord dn an d => [opWord 0 dn.val 4 1 an.val, d]
  | .movepLoadLong dn an d => [opWord 0 dn.val 5 1 an.val, d]
  | .movepStoreWord dn an d => [opWord 0 dn.val 6 1 an.val, d]
  | .movepStoreLong dn an d => [opWord 0 dn.val 7 1 an.val, d]
  | .moveByte src dst => encodeMove 1 .byte src dst
  | .moveWord src dst => encodeMove 3 .word src dst
  | .moveaWord src an => opEa 3 an.val 1 src :: eaWords .word src
  | .moveLong src dst => encodeMove 2 .long src dst
  | .moveaLong src an => opEa 2 an.val 1 src :: eaWords .long src
  | .negx sz ea => opEa 4 0 (sizeField sz) ea :: eaWords sz ea
  | .moveFromSr ea => opEa 4 0 3 ea :: eaWords .word ea
  | .chk ea dn => opEa 4 dn.val 6 ea :: eaWords .word ea
  | .lea ea an => opEa 4 an.val 7 ea :: eaWords .long ea
  | .clr sz ea => opEa 4 1 (sizeField sz) ea :: eaWords sz ea
  | .neg sz ea => opEa 4 2 (sizeField sz) ea :: eaWords sz ea
  | .moveToCcr ea => opEa 4 2 3 ea :: eaWords .word ea
  | .notEa sz ea => opEa 4 3 (sizeField sz) ea :: eaWords sz ea
  | .moveToSr ea => opEa 4 3 3 ea :: eaWords .word ea
  | .nbcd ea => opEa 4 4 0 ea :: eaWords .byte ea
  | .swap dn => [opWord 4 4 1 0 dn.val]
  | .pea ea => opEa 4 4 1 ea :: eaWords .long ea
  | .extReg sz dn => [opWord 4 4 (2 + addrSizeBit sz) 0 dn.val]
  | .movemStore sz mask ea => opEa 4 4 (2 + addrSizeBit sz) ea :: mask :: eaWords sz.toSize ea
  | .tst sz ea => opEa 4 5 (sizeField sz) ea :: eaWords sz ea
  | .tas ea => opEa 4 5 3 ea :: eaWords .byte ea
  | .movemLoad sz mask ea => opEa 4 6 (2 + addrSizeBit sz) ea :: mask :: eaWords sz.toSize ea
  | .trap v => [opWord 4 7 1 (v.val / 8) (v.val % 8)]
  | .link an d => [opWord 4 7 1 2 an.val, d]
  | .unlk an => [opWord 4 7 1 3 an.val]
  | .moveToUsp an => [opWord 4 7 1 4 an.val]
  | .moveFromUsp an => [opWord 4 7 1 5 an.val]
  | .resetDevices => [opWord 4 7 1 6 0]
  | .nop => [opWord 4 7 1 6 1]
  | .stop w => [opWord 4 7 1 6 2, w]
  | .rte => [opWord 4 7 1 6 3]
  | .rts => [opWord 4 7 1 6 5]
  | .trapv => [opWord 4 7 1 6 6]
  | .rtr => [opWord 4 7 1 6 7]
  | .jsr ea => opEa 4 7 2 ea :: eaWords .long ea
  | .jmp ea => opEa 4 7 3 ea :: eaWords .long ea
  | .addq q sz ea => opEa 5 q.val (sizeField sz) ea :: eaWords sz ea
  | .subq q sz ea => opEa 5 q.val (4 + sizeField sz) ea :: eaWords sz ea
  | .scc c ea => opEa 5 (condCode c / 2) (condCode c % 2 * 4 + 3) ea :: eaWords .byte ea
  | .dbcc c dn d => [opWord 5 (condCode c / 2) (condCode c % 2 * 4 + 3) 1 dn.val, d]
  | .bra d => encodeBranch 0 d
  | .bsr d => encodeBranch 1 d
  | .bcc c d => encodeBranch (condCode c) d
  | .moveq dn d => [opWord 7 dn.val (d.toNat / 64) (d.toNat / 8 % 8) (d.toNat % 8)]
  | .orToReg sz ea dn => opEa 8 dn.val (sizeField sz) ea :: eaWords sz ea
  | .orToMem sz dn ea => opEa 8 dn.val (4 + sizeField sz) ea :: eaWords sz ea
  | .divu ea dn => opEa 8 dn.val 3 ea :: eaWords .word ea
  | .divs ea dn => opEa 8 dn.val 7 ea :: eaWords .word ea
  | .sbcd mem ry rx => encodeExtended 8 .byte mem ry rx
  | .subToReg sz ea dn => opEa 9 dn.val (sizeField sz) ea :: eaWords sz ea
  | .subToMem sz dn ea => opEa 9 dn.val (4 + sizeField sz) ea :: eaWords sz ea
  | .suba sz ea an => opEa 9 an.val (addrSizeBit sz * 4 + 3) ea :: eaWords sz.toSize ea
  | .subx sz mem ry rx => encodeExtended 9 sz mem ry rx
  | .cmp sz ea dn => opEa 11 dn.val (sizeField sz) ea :: eaWords sz ea
  | .cmpa sz ea an => opEa 11 an.val (addrSizeBit sz * 4 + 3) ea :: eaWords sz.toSize ea
  | .eorToEa sz dn ea => opEa 11 dn.val (4 + sizeField sz) ea :: eaWords sz ea
  | .cmpm sz ay ax => encodeExtended 11 sz true ay ax
  | .andToReg sz ea dn => opEa 12 dn.val (sizeField sz) ea :: eaWords sz ea
  | .andToMem sz dn ea => opEa 12 dn.val (4 + sizeField sz) ea :: eaWords sz ea
  | .mulu ea dn => opEa 12 dn.val 3 ea :: eaWords .word ea
  | .muls ea dn => opEa 12 dn.val 7 ea :: eaWords .word ea
  | .abcd mem ry rx => encodeExtended 12 .byte mem ry rx
  | .exgData rx ry => [opWord 12 rx.val 5 0 ry.val]
  | .exgAddr rx ry => [opWord 12 rx.val 5 1 ry.val]
  | .exgDataAddr rx ry => [opWord 12 rx.val 6 1 ry.val]
  | .addToReg sz ea dn => opEa 13 dn.val (sizeField sz) ea :: eaWords sz ea
  | .addToMem sz dn ea => opEa 13 dn.val (4 + sizeField sz) ea :: eaWords sz ea
  | .adda sz ea an => opEa 13 an.val (addrSizeBit sz * 4 + 3) ea :: eaWords sz.toSize ea
  | .addx sz mem ry rx => encodeExtended 13 sz mem ry rx
  | .asrReg sz k dn => encodeShift 0 0 sz k dn
  | .asrMem ea => opEa 14 0 3 ea :: eaWords .word ea
  | .aslReg sz k dn => encodeShift 1 0 sz k dn
  | .aslMem ea => opEa 14 0 7 ea :: eaWords .word ea
  | .lsrReg sz k dn => encodeShift 0 1 sz k dn
  | .lsrMem ea => opEa 14 1 3 ea :: eaWords .word ea
  | .lslReg sz k dn => encodeShift 1 1 sz k dn
  | .lslMem ea => opEa 14 1 7 ea :: eaWords .word ea
  | .roxrReg sz k dn => encodeShift 0 2 sz k dn
  | .roxrMem ea => opEa 14 2 3 ea :: eaWords .word ea
  | .roxlReg sz k dn => encodeShift 1 2 sz k dn
  | .roxlMem ea => opEa 14 2 7 ea :: eaWords .word ea
  | .rorReg sz k dn => encodeShift 0 3 sz k dn
  | .rorMem ea => opEa 14 3 3 ea :: eaWords .word ea
  | .rolReg sz k dn => encodeShift 1 3 sz k dn
  | .rolMem ea => opEa 14 3 7 ea :: eaWords .word ea

/-- How many words an instruction has (R100). -/
def Instr.words (i : Instr) : Nat := (encode i).length

end Sys2Proof
end

