-- ==== Sys2Proof/Machine/State.lean ====
section
/-! DEFINITION. The state of the machine as plain data (INVENTORY.md, State), the reasons a step can stop, and
the state right after reset. -/

namespace Sys2Proof.Machine

open Sys2Proof

/-- The condition codes (R30, R33). -/
structure Ccr where
  x : Bool
  n : Bool
  z : Bool
  v : Bool
  c : Bool
deriving DecidableEq, Repr

/-- The status register (R29, R30): the fields that exist. The other six bits read as zero and ignore writes
(R31), so they are no state; the 16-bit view is `StatusRegister.toWord`, written by `StatusRegister.ofWord`. -/
structure StatusRegister where
  /-- bit 15, trace mode -/
  t : Bool
  /-- bit 13, supervisor state -/
  s : Bool
  /-- bits 10-8, interrupt mask -/
  mask : Fin 8
  /-- bits 4-0, the user byte -/
  ccr : Ccr
deriving DecidableEq, Repr

/-- The group of an exception (R431, Table 19). -/
inductive Group where
  | group0
  | group1
  | group2
deriving DecidableEq, Repr

/-- The processing states (R422, R43); an exception state says which group is processed, as the I/N bit of a
group 0 frame needs (R452). -/
inductive ProcState where
  | normal
  | stopped
  | exception (g : Group)
  | halted
deriving DecidableEq, Repr

/-- Who is bus master (R43, R390). -/
inductive BusOwner where
  | processor
  | other
deriving DecidableEq, Repr

/-- The classes of a bus cycle, as the function code lines show them (R65). -/
inductive FunctionCode where
  | userData
  | userProgram
  | supervisorData
  | supervisorProgram
  | interruptAcknowledge
deriving DecidableEq, Repr

/-- Read or write. -/
inductive Direction where
  | read
  | write
deriving DecidableEq, Repr

/-- How the platform ends a bus cycle (R395). -/
inductive BusAnswer where
  /-- normal completion -/
  | dtack
  /-- an R6500 peripheral: completes as an R6500 cycle, functionally the same (R400, D20) -/
  | vpa
  /-- BERR with HALT negated: bus error (R396) -/
  | berr
  /-- BERR and HALT together, then DTACK on the re-run (R397); a read-modify-write cycle is never re-run (R378) -/
  | rerun
  /-- no answer, or re-run for ever: the processor is stuck (R374, R397, U8) -/
  | none
deriving DecidableEq, Repr

/-- How many bytes a bus cycle transfers (R72). -/
inductive Width where
  | byte
  | word
deriving DecidableEq, Repr

/-- What a bus cycle shows the platform (R65, R376, R377): function code, direction, width, address. -/
structure BusCycle where
  code : FunctionCode
  dir : Direction
  width : Width
  addr : Long
deriving DecidableEq, Repr

/-- One entry of the platform's map of answers (R11, R67, R83, D12): how cycles of the listed function codes and widths
to the addresses `lo` to `hi` end. The first entry that covers a cycle answers it. -/
structure BusRegion where
  lo : Nat
  hi : Nat
  codes : List FunctionCode
  widths : List Width
  onRead : BusAnswer
  onWrite : BusAnswer
  /-- does a write cycle that completes store the data (false: read-only memory, U24)? -/
  writable : Bool
  /-- does a write cycle ended by BERR store the data (R396: the platform's business)? -/
  storesOnBerr : Bool
  /-- do reads have side effects or answer with a device's own data (R11, R504)? Then what is read is the platform's:
  the data of the cycle's `CycleInput`, else a free value (log 35). -/
  device : Bool
deriving DecidableEq, Repr

/-- One entry of the platform's map of memories (R67, R81, R83): where cycles of the listed function codes to the words
at `lo` to `hi` find their bytes. The first entry that covers a word places it; a word of no entry is at its own address
in the first memory. -/
structure MemWindow where
  lo : Nat
  hi : Nat
  codes : List FunctionCode
  /-- which of A23 to A5 are decoded: addresses that differ in others are aliases of each other (R83); the lower bits,
  32 bytes, always are -/
  decoded : BitVec 19
  /-- what external translation adds to the decoded bits (R67) -/
  base : BitVec 19
  /-- which of the four memories (R67) -/
  bank : Fin 4
deriving DecidableEq, Repr

/-- The platform's answer to an interrupt acknowledge cycle that no entry of the map of answers covers (R402). -/
inductive IackAnswer where
  /-- DTACK with a vector number on D7-D0 -/
  | vector (n : Byte)
  /-- VPA -/
  | autovector
  /-- BERR: spurious interrupt -/
  | busError
  /-- no answer: stuck (U8) -/
  | none
deriving DecidableEq, Repr

/-- A write cycle of another bus master or of a device (R392, R504): a byte, or a word at the even address. -/
structure MasterWrite where
  code : FunctionCode
  width : Width
  addr : BitVec 24
  data : Word
deriving DecidableEq, Repr

/-- What the platform does at one bus cycle of the processor (R11 MemMap, IackResponse, ResetHaltInput, BusMasters; R18,
R375, R395). What an entry leaves out is as the maps say. -/
structure CycleInput where
  /-- write cycles of other masters and changes of devices before this cycle (R392); none are made between the halves
  of a read-modify-write cycle -/
  before : List MasterWrite
  /-- RESET and HALT driven together in place of this cycle, the interrupt lines showing the level (R404, R505) -/
  reset : Option (Fin 8)
  /-- how this cycle ends (R395); after `rerun` the next entry answers the re-run (R397) -/
  answer : Option BusAnswer
  /-- how this cycle ends if it is an interrupt acknowledge (R402); given, it overrides `answer` and `data` -/
  iack : Option IackAnswer
  /-- what D15 to D0 carry on a read (R376): a device's data, which need not be what was stored -/
  data : Option Word
  /-- does a write change memory (U24, R396)? -/
  stores : Option Bool
deriving DecidableEq, Repr

/-- What the platform does in one step (R11, R18): the inputs of the model. -/
inductive PlatformInput where
  /-- RESET and HALT negated; the interrupt lines show the level (R403) -/
  | run (level : Fin 8)
  /-- RESET and HALT driven together and released (R404, R490); the interrupt lines show the level -/
  | externalReset (level : Fin 8)
  /-- HALT driven alone: the processor pauses (R398) -/
  | haltLine
  /-- RESET driven without HALT: not described (U9) -/
  | resetLine
  /-- another bus master takes the bus (R390) -/
  | busAcquire
  /-- the other bus master makes a write cycle (R390, R392) -/
  | busWrite (w : MasterWrite)
  /-- the other bus master gives the bus back (R390) -/
  | busRelease
deriving DecidableEq, Repr

/-- The reasons a step stops with a fault. -/
inductive Fault where
  /-- Raised by any bus cycle the platform never answers (U8: stuck). Safe: the hardware waits without limit. -/
  | unansweredBusCycle
deriving DecidableEq, Repr

/-- The reasons a step is refused. -/
inductive Refusal where
  /-- Raised by an arm of `exec` for an instruction that has no meaning yet. Safe. -/
  | notModelled (mnemonic : String)
  /-- Raised by a step whose input drives RESET without HALT (U9: refuse). Safe: no source describes it. -/
  | resetWithoutHalt
deriving DecidableEq, Repr

/-- Memory (R60, R67): the bytes that differ from what an unlisted place reads as, by place, rising; place
`bank * 2^24 + address`. -/
abbrev Memory := List Host.Cell

/-- The two faults of an access (R450, R451). -/
inductive AccessKind where
  | busError
  | addressError
deriving DecidableEq, Repr

/-- What the group 0 frame says of the access (R452). -/
structure AccessFault where
  kind : AccessKind
  addr : Long
  dir : Direction
  code : FunctionCode
deriving DecidableEq, Repr

/-- The registers an instruction can write, and the RESET line. -/
structure Registers where
  d : Vector Long 8
  a : Vector Long 7
  usp : Long
  ssp : Long
  sr : StatusRegister
  resetPulses : Nat
deriving DecidableEq, Repr

/-- An instruction word read ahead of execution (R95). -/
structure AheadWord where
  addr : Long
  word : Word
  /-- a bus cycle has read it (R503 b); where it is clear nothing has shown whether one has, and both are allowed (D6) -/
  read : Bool
deriving DecidableEq, Repr

/-- The model's: a bus error on the fetch of an instruction word while an instruction executes (R96, R451). -/
structure FetchError where
  /-- how many more bus cycles the instruction makes before it is cut short -/
  after : Nat
  fault : AccessFault
  /-- what the instruction register then holds (U4) -/
  instr : Word
  /-- the registers when the instruction's last bus cycle so far began -/
  regs : Registers
deriving DecidableEq, Repr

/-- Everything the spec gives the machine (R20, R43), and the platform's parameters (R11) as data. -/
structure State where
  /-- D0 to D7 (R21) -/
  d : Vector Long 8
  /-- A0 to A6 (R22) -/
  a : Vector Long 7
  /-- the user stack pointer (R24) -/
  usp : Long
  /-- the supervisor stack pointer (R24) -/
  ssp : Long
  /-- the program counter (R27) -/
  pc : Long
  /-- the status register (R29) -/
  sr : StatusRegister
  /-- the processing state (R422) -/
  procState : ProcState
  /-- the interrupt level as last sampled (R43) -/
  pendingIrq : Fin 8
  /-- the level sampled before (R43, R462) -/
  prevIrqLevel : Fin 8
  /-- a transition to level 7 seen and not yet acknowledged (R43, R462) -/
  nmi : Bool
  /-- T at the beginning of the instruction, while a trace exception may still follow it (R43, R470) -/
  traceAtStart : Bool
  /-- the internal copy of SR made in step 1 of exception processing (R43, R430) -/
  srCopy : StatusRegister
  /-- the internal copy of the operation word (R43, R452) -/
  instrReg : Word
  /-- inside the window of a double bus fault (R43, R455) -/
  inGroup0 : Bool
  /-- instruction words read ahead of execution, by address (R43, R95) -/
  prefetch : List AheadWord
  /-- who is bus master (R43, R390) -/
  busOwner : BusOwner
  /-- memory (R60): up to four memories of 2^24 bytes (R67) -/
  mem : Memory
  /-- the platform's map of memories (R67, R83) -/
  memMap : List MemWindow
  /-- the platform's map of answers (R67, R83, R395) -/
  busMap : List BusRegion
  /-- the platform's answer to the acknowledge of each level (R402) -/
  iack : Vector IackAnswer 8
  /-- the platform's inputs still to come, one a step; when none is left the lines stay as they are -/
  inputs : List PlatformInput
  /-- what the platform does at the bus cycles still to come, one entry a cycle of the processor; when none is left the
  maps answer alone -/
  cycles : List CycleInput
  /-- the parameter PREFETCH_WINDOW in bytes (R11, R95, R503) -/
  prefetchWindow : Nat
  /-- how often the RESET instruction pulsed the RESET line (R342, R493) -/
  resetPulses : Nat
  /-- the model's: the address of the instruction in execution when a cycle is issued (the I of R433) -/
  instrAddr : Long
  /-- the model's: inside a step, a bus error on an instruction word that has yet to cut the instruction short -/
  fetchError : Option FetchError
  /-- the model's: is this a run only supposed, in which no access is cut short, to see what an instruction that was cut
  short would have written (U3)? -/
  supposed : Bool
  /-- the model's: how many free values have been drawn -/
  drawCount : Nat
deriving DecidableEq, Repr

/-- The status register after reset (R45): S = 1, T = 0, mask 7; the flags are unspecified there and 0 here
(log 5). -/
def StatusRegister.reset : StatusRegister :=
  { t := false, s := true, mask := 7, ccr := { x := false, n := false, z := false, v := false, c := false } }

/-- The machine right after reset (R45): the reset sequence of R491 has run on a memory with nothing listed, so
SSP and PC are what the long words at 0 and 4 of that memory read as (log 4, log 6); the first instruction has
not begun, so the double-fault window is still open (R455). The registers the spec leaves unspecified are 0
(log 5) and the platform is the default one (logs 7, 8, 25, 26, 27); PREFETCH_WINDOW is 4 (R95). -/
def State.reset : State :=
  { d := Vector.replicate 8 0
    a := Vector.replicate 7 0
    usp := 0
    ssp := 0
    pc := 0
    sr := StatusRegister.reset
    procState := .normal
    pendingIrq := 0
    prevIrqLevel := 0
    nmi := false
    traceAtStart := false
    srCopy := StatusRegister.reset
    instrReg := 0
    inGroup0 := true
    prefetch := []
    busOwner := .processor
    mem := []
    memMap := []
    busMap := []
    iack := Vector.replicate 8 .busError
    inputs := []
    cycles := []
    prefetchWindow := 4
    resetPulses := 0
    instrAddr := 0
    fetchError := none
    supposed := false
    drawCount := 0 }

end Sys2Proof.Machine
end

