-- ==== Sys2Proof/Machine/Flags.lean ====
section
/-! DEFINITION. Sizes, sign extension, the 16-bit view of the status register, and every flag computation of the
spec: R210 (addition, subtraction), R261 (logical), R282 and R283 (shifts), R311 to R315 (BCD), R320 (conditions). -/

namespace Sys2Proof.Machine

open Sys2Proof

/-! Sizes (R13, R14). Operand values are 32-bit words whose bits above the operand's size are zero. -/

/-- The number of bits of a size. -/
def sizeBits : Size → Nat
  | .byte => 8
  | .word => 16
  | .long => 32

/-- The number of bytes of a size. -/
def sizeBytes : Size → Nat
  | .byte => 1
  | .word => 2
  | .long => 4

/-- The low `bits(sz)` bits, the others zero (R14 `trunc`). -/
def trunc (sz : Size) (v : Long) : Long :=
  match sz with
  | .byte => (v.setWidth 8).setWidth 32
  | .word => (v.setWidth 16).setWidth 32
  | .long => v

/-- The most significant bit of an operand (R14 `msb`). -/
def msbOf (sz : Size) (v : Long) : Bool := v.getLsbD (sizeBits sz - 1)

/-- The low bits of an operand sign-extended to 32 bits (R14 `sext`). -/
def signExtend (sz : Size) (v : Long) : Long :=
  match sz with
  | .byte => (v.setWidth 8).signExtend 32
  | .word => (v.setWidth 16).signExtend 32
  | .long => v

/-- A word sign-extended to 32 bits. -/
def sextWord (w : Word) : Long := w.signExtend 32

/-- A byte sign-extended to 32 bits. -/
def sextByte (b : Byte) : Long := b.signExtend 32

/-- `v` with its low `bits(sz)` bits replaced (R21 `<-sz`). -/
def mergeLow (sz : Size) (old v : Long) : Long :=
  match sz with
  | .byte => old.extractLsb' 8 24 ++ v.setWidth 8
  | .word => old.extractLsb' 16 16 ++ v.setWidth 16
  | .long => v

/-! The status register as a word (R30, R31). -/

/-- The user byte as a word: X N Z V C in bits 4 to 0. -/
def Ccr.toNat (c : Ccr) : Nat :=
  c.x.toNat * 16 + c.n.toNat * 8 + c.z.toNat * 4 + c.v.toNat * 2 + c.c.toNat

/-- The flags in bits 4 to 0 of a word. -/
def Ccr.ofWord (w : Word) : Ccr :=
  { x := w.getLsbD 4, n := w.getLsbD 3, z := w.getLsbD 2, v := w.getLsbD 1, c := w.getLsbD 0 }

/-- The 16 bits of SR: T 15, S 13, mask 10-8, X N Z V C 4-0, the others zero (R30, R31). -/
def StatusRegister.toWord (sr : StatusRegister) : Word :=
  BitVec.ofNat 16 (sr.t.toNat * 32768 + sr.s.toNat * 8192 + sr.mask.val * 256 + sr.ccr.toNat)

/-- SR written with a word: the bits without a field are ignored (R31, R348: `w & $A71F`). -/
def StatusRegister.ofWord (w : Word) : StatusRegister :=
  { t := w.getLsbD 15
    s := w.getLsbD 13
    mask := Fin.ofNat 8 (w.toNat / 256)
    ccr := Ccr.ofWord w }

/-! Addition and subtraction (R210): `s` the source, `d` the destination, `r` the result. -/

/-- Carry out of the most significant bit of an addition. -/
def addCarry (sz : Size) (s d r : Long) : Bool :=
  (msbOf sz s && msbOf sz d) || (!msbOf sz r && msbOf sz d) || (msbOf sz s && !msbOf sz r)

/-- Signed overflow of an addition. -/
def addOverflow (sz : Size) (s d r : Long) : Bool :=
  (msbOf sz s && msbOf sz d && !msbOf sz r) || (!msbOf sz s && !msbOf sz d && msbOf sz r)

/-- Borrow of a subtraction. -/
def subBorrow (sz : Size) (s d r : Long) : Bool :=
  (msbOf sz s && !msbOf sz d) || (msbOf sz r && !msbOf sz d) || (msbOf sz s && msbOf sz r)

/-- Signed overflow of a subtraction. -/
def subOverflow (sz : Size) (s d r : Long) : Bool :=
  (!msbOf sz s && msbOf sz d && !msbOf sz r) || (msbOf sz s && !msbOf sz d && msbOf sz r)

/-- A bit as a long word. -/
def bitLong (b : Bool) : Long := if b then 1 else 0

/-- ADD: result and flags. -/
def addAlu (sz : Size) (_old : Ccr) (s d : Long) : Long × Ccr :=
  let r := trunc sz (d + s)
  (r, { x := addCarry sz s d r, n := msbOf sz r, z := decide (r = 0), v := addOverflow sz s d r,
        c := addCarry sz s d r })

/-- ADDX: X takes part, Z is only ever cleared. -/
def addxAlu (sz : Size) (old : Ccr) (s d : Long) : Long × Ccr :=
  let r := trunc sz (d + s + bitLong old.x)
  (r, { x := addCarry sz s d r, n := msbOf sz r, z := old.z && decide (r = 0), v := addOverflow sz s d r,
        c := addCarry sz s d r })

/-- SUB: destination minus source. -/
def subAlu (sz : Size) (_old : Ccr) (s d : Long) : Long × Ccr :=
  let r := trunc sz (d - s)
  (r, { x := subBorrow sz s d r, n := msbOf sz r, z := decide (r = 0), v := subOverflow sz s d r,
        c := subBorrow sz s d r })

/-- SUBX. -/
def subxAlu (sz : Size) (old : Ccr) (s d : Long) : Long × Ccr :=
  let r := trunc sz (d - s - bitLong old.x)
  (r, { x := subBorrow sz s d r, n := msbOf sz r, z := old.z && decide (r = 0), v := subOverflow sz s d r,
        c := subBorrow sz s d r })

/-- The compare instructions: SUB without the result, X unchanged. -/
def cmpFlags (sz : Size) (old : Ccr) (s d : Long) : Ccr := { (subAlu sz old s d).2 with x := old.x }

/-- NEG: SUB with D = 0 (R210, R227). -/
def negAlu (sz : Size) (old : Ccr) (s : Long) : Long × Ccr := subAlu sz old s 0

/-- NEGX: SUBX with D = 0 (R210, R228). -/
def negxAlu (sz : Size) (old : Ccr) (s : Long) : Long × Ccr := subxAlu sz old s 0

/-! Moves, tests and logical operations (R184, R253, R261): N and Z from the value, V and C cleared. -/

/-- N and Z from the value, V and C zero, X unchanged. -/
def moveFlags (sz : Size) (old : Ccr) (v : Long) : Ccr :=
  { x := old.x, n := msbOf sz v, z := decide (v = 0), v := false, c := false }

/-- A result with the flags of R261. -/
def logicAlu (sz : Size) (old : Ccr) (r : Long) : Long × Ccr := (r, moveFlags sz old r)

/-! Conditions (R320). -/

/-- The truth of a condition test. -/
def condHolds (cc : Ccr) : Cond → Bool
  | .t => true
  | .f => false
  | .hi => !cc.c && !cc.z
  | .ls => cc.c || cc.z
  | .cc => !cc.c
  | .cs => cc.c
  | .ne => !cc.z
  | .eq => cc.z
  | .vc => !cc.v
  | .vs => cc.v
  | .pl => !cc.n
  | .mi => cc.n
  | .ge => (cc.n && cc.v) || (!cc.n && !cc.v)
  | .lt => (cc.n && !cc.v) || (!cc.n && cc.v)
  | .gt => !cc.z && ((cc.n && cc.v) || (!cc.n && !cc.v))
  | .le => cc.z || ((cc.n && !cc.v) || (!cc.n && cc.v))

/-! Shifts and rotates (R282, R283). -/

/-- The eight single-bit steps. -/
inductive ShiftKind where
  | asl | asr | lsl | lsr | rol | ror | roxl | roxr
deriving DecidableEq, Repr

/-- A shift under way: the value, X, the last bit out, and whether the sign has changed (R282 Vacc). -/
structure ShiftRun where
  v : Long
  x : Bool
  c : Bool
  changed : Bool
deriving DecidableEq, Repr

/-- A bit moved to the most significant place of a size. -/
def atMsb (sz : Size) (b : Bool) : Long := bitLong b <<< (sizeBits sz - 1)

/-- One single-bit step (R283). -/
def shiftStep (k : ShiftKind) (sz : Size) (st : ShiftRun) : ShiftRun :=
  let top := msbOf sz st.v
  let low := st.v.getLsbD 0
  match k with
  | .asl =>
    let v' := trunc sz (st.v <<< 1)
    { v := v', x := top, c := top, changed := st.changed || decide (msbOf sz v' ≠ top) }
  | .asr => { st with v := (st.v >>> 1) ||| atMsb sz top, x := low, c := low }
  | .lsl => { st with v := trunc sz (st.v <<< 1), x := top, c := top }
  | .lsr => { st with v := st.v >>> 1, x := low, c := low }
  | .rol => { st with v := trunc sz (st.v <<< 1) ||| bitLong top, c := top }
  | .ror => { st with v := (st.v >>> 1) ||| atMsb sz low, c := low }
  | .roxl => { st with v := trunc sz (st.v <<< 1) ||| bitLong st.x, x := top, c := top }
  | .roxr => { st with v := (st.v >>> 1) ||| atMsb sz st.x, x := low, c := low }

/-- The step repeated. -/
def shiftSteps (k : ShiftKind) (sz : Size) : Nat → ShiftRun → ShiftRun
  | 0, st => st
  | n + 1, st => shiftSteps k sz n (shiftStep k sz st)

/-- C when the count is zero: X for the rotates with extend, else 0 (R282). -/
def zeroCountCarry (k : ShiftKind) (old : Ccr) : Bool :=
  match k with
  | .roxl | .roxr => old.x
  | _ => false

/-- A shift or rotate by a count: result and flags (R282). -/
def shiftAlu (k : ShiftKind) (sz : Size) (count : Nat) (old : Ccr) (v : Long) : Long × Ccr :=
  let st := shiftSteps k sz count { v := v, x := old.x, c := zeroCountCarry k old, changed := false }
  (st.v, { x := st.x, n := msbOf sz st.v, z := decide (st.v = 0), v := st.changed, c := st.c })

/-! Binary coded decimal (R311 to R315). -/

/-- The number two decimal digits stand for (R311 `dec`); none if a digit is above 9. -/
def decOf (b : Byte) : Option Nat :=
  if b.toNat / 16 ≤ 9 ∧ b.toNat % 16 ≤ 9 then some (10 * (b.toNat / 16) + b.toNat % 16) else none

/-- The byte of a number from 0 to 99 (R311 `bcd`). -/
def bcdOf (k : Nat) : Byte := BitVec.ofNat 8 (k / 10 * 16 + k % 10)

/-- Decimal addition: the result and the carry (R313). -/
def bcdAdd (s d : Nat) (x : Bool) : Byte × Bool :=
  let t := d + s + x.toNat
  (bcdOf (t % 100), decide (t > 99))

/-- Decimal subtraction: the result and the borrow (R314, R315). -/
def bcdSub (s d : Nat) (x : Bool) : Byte × Bool :=
  (bcdOf ((d + 200 - s - x.toNat) % 100), decide (d < s + x.toNat))

end Sys2Proof.Machine
end

