-- ==== Sys2Proof/Machine/Memory.lean ====
section
/-! DEFINITION. Memory: 2^24 bytes by address (R60), for up to four memories (R67), held as the bytes that differ from
what an unlisted place reads as, in one canonical form. -/

namespace Sys2Proof.Machine

open Sys2Proof

/-- What an address that is not listed reads as (log 4: DESIGN CHOICE). -/
def Memory.unlisted : Byte := 0

/-- The byte at an address. -/
def Memory.read : Memory → Nat → Byte
  | [], _ => Memory.unlisted
  | (q, b) :: m, p => if q = p then b else Memory.read m p

/-- Memory with one byte written; writing what an unlisted address reads as removes the entry. -/
def Memory.write : Memory → Nat → Byte → Memory
  | [], p, b => if b = Memory.unlisted then [] else [(p, b)]
  | (q, c) :: m, p, b =>
    if p < q then (if b = Memory.unlisted then (q, c) :: m else (p, b) :: (q, c) :: m)
    else if p = q then (if b = Memory.unlisted then m else (p, b) :: m)
    else (q, c) :: Memory.write m p b

/-- The canonical form from a place on: places rise strictly, each is in one of the four memories of 2^24 bytes (R7,
R67), and no entry equals what an unlisted place reads as. -/
def Memory.wfFrom : Nat → Memory → Bool
  | _, [] => true
  | lo, (q, b) :: m =>
    decide (lo ≤ q) && decide (q < 2 ^ 26) && decide (b ≠ Memory.unlisted) && Memory.wfFrom (q + 1) m

/-- The canonical form: equal memories are equal data. -/
def Memory.wf (m : Memory) : Bool := Memory.wfFrom 0 m

/-- The part of an address that reaches the bus: its low 24 bits (R7, D4). -/
def phys (a : Long) : Nat := a.toNat % 2 ^ 24

/-- Does a window of the map of memories place the word an address is in? -/
def MemWindow.covers (w : MemWindow) (code : FunctionCode) (a : Long) : Bool :=
  decide (w.lo ≤ 2 * (phys a / 2)) && decide (2 * (phys a / 2) ≤ w.hi) && w.codes.contains code

/-- Where a window places an address: A23 to A5 decoded and translated, the lower bits kept (R67, R83). -/
def MemWindow.place (w : MemWindow) (a : Long) : Nat :=
  w.bank.val * 2 ^ 24 + 32 * ((a.extractLsb' 5 19 &&& w.decoded) + w.base).toNat + phys a % 32

/-- The place of memory that a function code and an address reach (R67). -/
def State.locate (s : State) (code : FunctionCode) (a : Long) : Nat :=
  match s.memMap.find? fun w => w.covers code a with
  | none => phys a
  | some w => w.place a

/-- The byte of memory that a function code and an address reach. -/
def State.byteAt (s : State) (code : FunctionCode) (a : Long) : Byte := s.mem.read (s.locate code a)

/-- The word at an address, the high-order byte first (R61). -/
def State.wordAt (s : State) (code : FunctionCode) (a : Long) : Word := s.byteAt code a ++ s.byteAt code (a + 1)

/-- The long word at an address, the high-order word first (R62). -/
def State.longAt (s : State) (code : FunctionCode) (a : Long) : Long := s.wordAt code a ++ s.wordAt code (a + 2)

/-- The operand in memory at an address, extended with zeros to 32 bits. -/
def State.loadMem (s : State) (code : FunctionCode) (a : Long) : Size → Long
  | .byte => (s.byteAt code a).setWidth 32
  | .word => (s.wordAt code a).setWidth 32
  | .long => s.longAt code a

end Sys2Proof.Machine
end

