-- ==== Sys2Proof/Machine/Ops.lean ====
section
/-! DEFINITION. The named operations over registers, free values, bus cycles and memory, exception processing
(60_exceptions), return from exception and the reset sequence. -/

namespace Sys2Proof.Machine

open Sys2Proof

/-! Registers (R21, R22, R24). -/

/-- The active stack pointer, A7 (R24). -/
def State.sp (s : State) : Long := if s.sr.s then s.ssp else s.usp

/-- The active stack pointer written. -/
def State.setSp (v : Long) (s : State) : State :=
  { s with ssp := if s.sr.s then v else s.ssp, usp := if s.sr.s then s.usp else v }

/-- An address register; number 7 is the active stack pointer (R22, R24). -/
def State.areg (s : State) (n : Reg) : Long := if h : n.val < 7 then s.a[n.val] else s.sp

/-- An address register written: always all 32 bits (R22). -/
def State.setA (n : Reg) (v : Long) (s : State) : State :=
  { s with
    a := if h : n.val < 7 then s.a.set n.val v else s.a
    ssp := if n.val < 7 then s.ssp else (s.setSp v).ssp
    usp := if n.val < 7 then s.usp else (s.setSp v).usp }

/-- A data register (R21). -/
def State.dreg (s : State) (n : Reg) : Long := s.d[n.val]

/-- A data register written at a size: the bits above it stay (R21). -/
def State.setD (sz : Size) (n : Reg) (v : Long) (s : State) : State :=
  { s with d := s.d.set n.val (mergeLow sz s.d[n.val] v) }

/-- The condition codes written. -/
def State.setCcr (cc : Ccr) (s : State) : State := { s with sr := { s.sr with ccr := cc } }

/-- The status register written (R348). -/
def State.setSr (sr : StatusRegister) (s : State) : State := { s with sr := sr }

/-- The program counter loaded by anything but falling through: what was read ahead is discarded (R95). The words at the
target may be read before the next boundary (`State.settle`). -/
def State.jump (target : Long) (s : State) : State := { s with pc := target, prefetch := [] }

/-- The program counter moved past words of the instruction stream. -/
def State.advance (bytes : Long) (s : State) : State := { s with pc := s.pc + bytes }

/-! Why a computation on the state is cut short. -/

/-- A computation on the state ends early: by a fault of an access, at a cycle nobody answers (U8), or by an external
reset, the interrupt lines showing a level (R505). -/
inductive Abort where
  | access (f : AccessFault)
  | unanswered
  | reset (level : Fin 8)
deriving DecidableEq, Repr

/-- A computation on the state. An abort keeps the state reached: what was done stays done (R451). -/
abbrev Exec := EStateM Abort State

/-- The state at an abort adjusted: for what the spec leaves between old and new (U3). A reset inside an instruction is
treated alike (DESIGN CHOICE, log 46: the spec says nothing of what stands in the flags and registers then). -/
def onAbort {α : Type} (m : Exec α) (g : State → State) : Exec α := fun s =>
  match m s with
  | .ok a s' => .ok a s'
  | .error e s' => .error e (g s')

/-! Free values (R14 `draw`). -/

/-- A free bit. -/
def drawBit : Exec Bool := fun s => .ok (Config.freeBit s.drawCount) { s with drawCount := s.drawCount + 1 }

/-- A free byte. -/
def drawByte : Exec Byte := fun s => .ok (Config.freeByte s.drawCount) { s with drawCount := s.drawCount + 1 }

/-- A free word. -/
def drawWord : Exec Word := fun s => .ok (Config.freeWord s.drawCount) { s with drawCount := s.drawCount + 1 }

/-- A free number below `n`. -/
def drawBelow (n : Nat) : Exec Nat := fun s =>
  .ok (Config.freeChoice s.drawCount % n) { s with drawCount := s.drawCount + 1 }

/-- A change that may or may not have been made (U3). -/
def State.maybe (g : State → State) (s : State) : State :=
  let s' := { s with drawCount := s.drawCount + 1 }
  if Config.freeBit s.drawCount then g s' else s'

/-- The flags of an instruction cut short: each is old or new (U3). -/
def State.mixFlags (new : Ccr) (s : State) : State :=
  let old := s.sr.ccr
  let k := s.drawCount
  let pick (j : Nat) (o n : Bool) : Bool := if Config.freeBit j then n else o
  { s.setCcr { x := pick k old.x new.x, n := pick (k + 1) old.n new.n, z := pick (k + 2) old.z new.z,
               v := pick (k + 3) old.v new.v, c := pick (k + 4) old.c new.c } with drawCount := k + 5 }

/-- The flags of an instruction cut short, `done` being the state after a run in which it is not: each is old or new
(U3). The draws of that run are not used again. -/
def State.openFlags (s done : State) : State :=
  { s with drawCount := max s.drawCount done.drawCount }.mixFlags done.sr.ccr

/-- The state in which an instruction is supposed to run without being cut short. -/
def State.suppose (s : State) : State := { s with supposed := true, fetchError := none }

/-- The state a supposed run of a computation ends in. -/
def State.afterSupposed (s : State) (m : Exec Unit) : State :=
  match m s.suppose with
  | .ok _ t => t
  | .error _ t => t

/-- A computation that leaves each flag old or new where it is cut short (U3, R451): new is what the flag would have become,
had the accesses that were cut short been completed with free data. -/
def flagsOldOrNew (m : Exec Unit) : Exec Unit := fun s =>
  onAbort m (fun t => t.openFlags (s.afterSupposed m)) s

/-! Bus cycles (R65, R66, R395 to R397). -/

/-- The two classes of memory references (R66). -/
inductive Space where
  | program
  | data
deriving DecidableEq, Repr

/-- How a bus cycle ended, as the processor sees it. -/
inductive CycleEnd where
  | done
  | berr
  | never
deriving DecidableEq, Repr

/-- The function code of a reference: the S bit chooses supervisor or user (R65, R66). -/
def State.code (s : State) : Space → FunctionCode
  | .program => if s.sr.s then .supervisorProgram else .userProgram
  | .data => if s.sr.s then .supervisorData else .userData

/-- The three function code lines (R65). -/
def FunctionCode.toNat : FunctionCode → Nat
  | .userData => 1
  | .userProgram => 2
  | .supervisorData => 5
  | .supervisorProgram => 6
  | .interruptAcknowledge => 7

/-- Does a region answer a cycle? -/
def BusRegion.covers (r : BusRegion) (c : BusCycle) : Bool :=
  decide (r.lo ≤ phys c.addr) && decide (phys c.addr ≤ r.hi) && r.codes.contains c.code && r.widths.contains c.width

/-- The region that answers a cycle; none means memory that answers with DTACK (log 7). -/
def State.region (s : State) (c : BusCycle) : Option BusRegion := s.busMap.find? fun r => r.covers c

/-- The map's answer to a cycle (R395). -/
def State.answer (s : State) (c : BusCycle) : BusAnswer :=
  match s.region c with
  | none => .dtack
  | some r =>
    match c.dir with
    | .read => r.onRead
    | .write => r.onWrite

/-- Does a cycle that reads get its data from a device (R504)? -/
def State.readsDevice (s : State) (c : BusCycle) : Bool :=
  match s.region c with
  | none => false
  | some r => r.device && decide (c.dir = .read)

/-- What an answer means: a VPA cycle completes as any other (D20); a re-run completes in the end (R397) except
in a read-modify-write cycle, where it is a bus error (R378). -/
def BusAnswer.toEnd (rmw : Bool) : BusAnswer → CycleEnd
  | .dtack => .done
  | .vpa => .done
  | .berr => .berr
  | .rerun => if rmw then .berr else .done
  | .none => .never

/-- How a cycle ends by the map. -/
def State.cycle (s : State) (rmw : Bool) (c : BusCycle) : CycleEnd := (s.answer c).toEnd rmw

/-- Do the maps alone say what happens at the next bus cycle: the platform has nothing else in store and no bus error of
an instruction word is pending? -/
def State.quiet (s : State) : Bool := s.cycles.isEmpty && s.fetchError.isNone

/-- Does a cycle complete, by the maps alone and, if it reads, with what memory holds? -/
def State.completes (s : State) (c : BusCycle) : Bool :=
  s.quiet && decide (s.cycle false c = .done) && !s.readsDevice c

/-- Does a write cycle with the given end change memory, by the map: a completed one unless the region is read-only
(U24), one ended by BERR if the region says so (R396)? -/
def State.stores (s : State) (c : BusCycle) (e : CycleEnd) : Bool :=
  match s.region c, e with
  | none, e => decide (e = .done)
  | some r, .done => r.writable
  | some r, .berr => r.storesOnBerr
  | some _, .never => false

/-- Memory with the data of a cycle stored: only the strobed byte (R74), the high-order byte of a word first (R61). -/
def State.written (s : State) (c : BusCycle) (w : Word) (m : Memory) : Memory :=
  match c.width with
  | .byte => m.write (s.locate c.code c.addr) (w.setWidth 8)
  | .word => (m.write (s.locate c.code c.addr) (w.extractLsb' 8 8)).write (s.locate c.code (c.addr + 1)) (w.setWidth 8)

/-- Memory after a write cycle with the given end. -/
def State.cycleMem (s : State) (c : BusCycle) (e : CycleEnd) (w : Word) (m : Memory) : Memory :=
  if s.stores c e then s.written c w m else m

/-- The state after a write cycle with the given end. -/
def State.storeCycle (c : BusCycle) (e : CycleEnd) (w : Word) (s : State) : State :=
  { s with mem := s.cycleMem c e w s.mem }

/-- What memory gives a cycle that reads, a byte in bits 7 to 0. -/
def State.memData (s : State) (c : BusCycle) : Word :=
  match c.width with
  | .byte => (s.byteAt c.code c.addr).setWidth 16
  | .word => s.wordAt c.code c.addr

/-- What a cycle takes from the data bus: of a byte cycle the half of the address (R72, R376), moved to bits 7 to 0. -/
def BusCycle.lane (c : BusCycle) (w : Word) : Word :=
  match c.width with
  | .byte => if c.addr.getLsbD 0 then (w.setWidth 8).setWidth 16 else (w.extractLsb' 8 8).setWidth 16
  | .word => w

/-- The bus cycle of a write by another master; a word is at an even address. -/
def MasterWrite.cycle (w : MasterWrite) : BusCycle :=
  { code := w.code, dir := .write, width := w.width
    addr := match w.width with
      | .byte => w.addr.setWidth 32
      | .word => (w.addr &&& ~~~1).setWidth 32 }

/-- A write cycle of another master, by the same rules as the processor's (R390). -/
def State.masterWrite (s : State) (w : MasterWrite) : State :=
  s.storeCycle w.cycle (s.cycle false w.cycle) w.data

/-- Several write cycles of other masters. -/
def State.masterWrites (s : State) : List MasterWrite → State
  | [] => s
  | w :: ws => State.masterWrites (s.masterWrite w) ws

/-- The abort of a cycle that does not complete. -/
def cycleAbort (e : CycleEnd) (c : BusCycle) : Abort :=
  match e with
  | .never => .unanswered
  | _ => .access { kind := .busError, addr := c.addr, dir := c.dir, code := c.code }

/-- The data of a cycle that reads: the data given, else a device's, which are free, else what memory holds. -/
def readData (c : BusCycle) (data : Option Word) : Exec Word := fun s =>
  match data with
  | some w => .ok (c.lane w) s
  | none => if s.readsDevice c then (do let w ← drawWord; pure (c.lane w)) s else .ok (s.memData c) s

/-- A bus cycle with a given end (R376, R377, R395, R396); `stores` overrides the map. In a supposed run a cycle that does
not complete does, with free data. -/
def endCycle (c : BusCycle) (w : Word) (e : CycleEnd) (data : Option Word) (stores : Option Bool) : Exec Word := fun s =>
  let s' : State :=
    if c.dir = .write ∧ stores.getD (s.stores c e) = true then { s with mem := s.written c w s.mem } else s
  if e = .done then readData c data s'
  else if s.supposed then (do let d ← drawWord; pure (c.lane d)) s'
  else .error (cycleAbort e c) s'

/-- Is this the second half of a read-modify-write cycle (R378)? No other master gets the bus before it (R391). -/
def secondHalf (rmw : Bool) (c : BusCycle) : Bool := rmw && decide (c.dir = .write)

/-- A bus cycle under the entries the platform has in store (R18, R375): other masters write, then the cycle is made, or
made again (R397), or the processor is reset in its place (R505). A read-modify-write cycle is never made again (R378). -/
def platformCycle (rmw : Bool) (c : BusCycle) (w : Word) : List CycleInput → Exec Word
  | [] => fun s => endCycle c w (s.cycle rmw c) none none s
  | e :: es => fun s =>
    let s' := { s.masterWrites (if secondHalf rmw c then [] else e.before) with cycles := es }
    match (if s.supposed then none else e.reset) with
    | some level => .error (.reset level) s'
    | none =>
      if e.answer = some .rerun ∧ rmw = false then
        platformCycle rmw c w es
          (if c.dir = .write ∧ e.stores = some true then { s' with mem := s'.written c w s'.mem } else s')
      else endCycle c w ((e.answer.getD (s'.answer c)).toEnd rmw) e.data e.stores s'

/-- The registers an instruction can write. -/
def State.registers (s : State) : Registers :=
  { d := s.d, a := s.a, usp := s.usp, ssp := s.ssp, sr := s.sr, resetPulses := s.resetPulses }

/-- The bus error of an instruction word, if it is now to cut the instruction short (R96, R451). -/
def raiseFetchError : Exec Unit := fun s =>
  match s.fetchError with
  | some e =>
    if e.after = 0 then .error (.access e.fault) { s with fetchError := none, instrReg := e.instr } else .ok () s
  | none => .ok () s

/-- A bus cycle begins, a bus error of an instruction word pending or not; `locked`: the bus is held since the cycle
before, so that no instruction word can be fetched between (R378). -/
def beginCycle (locked : Bool) : Exec Unit := fun s =>
  match s.fetchError with
  | none => .ok () s
  | some e =>
    if e.after = 0 ∧ locked = false then raiseFetchError s
    else .ok () { s with fetchError := some { e with after := e.after - 1, regs := s.registers } }

/-- A bus cycle of the processor (R375): the data read, a byte in bits 7 to 0. -/
def busCycle (rmw : Bool) (c : BusCycle) (w : Word) : Exec Word := do
  beginCycle (secondHalf rmw c)
  let s ← get
  platformCycle rmw c w s.cycles

/-! Memory accesses (R69, R70, R73). -/

/-- Is the address allowed for the size (R69)? -/
def aligned (a : Long) : Size → Bool
  | .byte => true
  | _ => !a.getLsbD 0

/-- The width of the cycles of an access. -/
def widthOf : Size → Width
  | .byte => .byte
  | _ => .word

/-- Does an access complete by the maps alone: aligned, and each of its cycles completing? -/
def State.canAccess (s : State) (sp : Space) (dir : Direction) (a : Long) (sz : Size) : Bool :=
  aligned a sz && s.completes { code := s.code sp, dir := dir, width := widthOf sz, addr := a } &&
    (decide (sz ≠ .long) || s.completes { code := s.code sp, dir := dir, width := .word, addr := a + 2 })

/-- Memory after a write to the data space (R66) whose cycles all complete by the map. -/
def State.memStored (s : State) (a : Long) (sz : Size) (v : Long) : Memory :=
  let c : BusCycle := { code := s.code .data, dir := .write, width := widthOf sz, addr := a }
  match sz with
  | .long => s.cycleMem { c with addr := a + 2 } .done (lowWord v) (s.cycleMem c .done (highWord v) s.mem)
  | _ => s.cycleMem c .done (lowWord v) s.mem

/-- The state after a write whose cycles all complete: all operand writes are to the data space (R66). -/
def State.storeMem (a : Long) (sz : Size) (v : Long) (s : State) : State := { s with mem := s.memStored a sz v }

/-- The two word cycles of a long access, the low-order word first or last (R73). -/
def longCycles (lowFirst : Bool) (code : FunctionCode) (dir : Direction) (a v : Long) : Exec Long := do
  let high := busCycle false { code := code, dir := dir, width := .word, addr := a } (highWord v)
  let low := busCycle false { code := code, dir := dir, width := .word, addr := a + 2 } (lowWord v)
  if lowFirst then
    let lo ← low
    let hi ← high
    pure (hi ++ lo)
  else
    let hi ← high
    let lo ← low
    pure (hi ++ lo)

/-- A free operand of a size. -/
def drawOperand (sz : Size) : Exec Long := do
  let hi ← drawWord
  let lo ← drawWord
  pure (trunc sz (hi ++ lo))

/-- An access cycle by cycle: the data read, extended with zeros to 32 bits. A misaligned one is an address error and
makes no cycle (R70, D17); in a supposed run its data are free. The order of the two cycles of a long one is free (R73
LONG_ORDER). -/
def accessCycles (sp : Space) (dir : Direction) (a : Long) (sz : Size) (v : Long) : Exec Long := do
  let s ← get
  let code := s.code sp
  raiseFetchError
  if aligned a sz then
    match sz with
    | .long =>
      let lowFirst ← drawBit
      longCycles lowFirst code dir a v
    | _ =>
      let w ← busCycle false { code := code, dir := dir, width := widthOf sz, addr := a } (lowWord v)
      pure (w.setWidth 32)
  else if s.supposed then drawOperand sz
  else throw (.access { kind := .addressError, addr := a, dir := dir, code := code })

/-- MemRead (R70): the operand, extended with zeros to 32 bits. An access that completes by the maps alone is made in one
go, since nothing shows its cycles. -/
def readMem (sp : Space) (a : Long) (sz : Size) : Exec Long := fun s =>
  if s.canAccess sp .read a sz then .ok (s.loadMem (s.code sp) a sz) s else accessCycles sp .read a sz 0 s

/-- MemWrite (R70): all operand writes are to the data space (R66). -/
def writeMem (a : Long) (sz : Size) (v : Long) : Exec Unit := fun s =>
  if s.canAccess .data .write a sz then .ok () (s.storeMem a sz v)
  else (do let _ ← accessCycles .data .write a sz v; pure ()) s

/-- One half of the read-modify-write cycle of TAS (R378): a byte cycle that is never re-run. -/
def rmwCycle (dir : Direction) (a : Long) (b : Byte) : Exec Byte := do
  let s ← get
  let w ← busCycle true { code := s.code .data, dir := dir, width := .byte, addr := a } (b.setWidth 16)
  pure (w.setWidth 8)

/-! The stack of instructions (R26, R66). A7 of an aborted push or pop is old or new (U3). -/

/-- Push a long word: A7 is lowered by 4, then the value is stored. -/
def push32 (v : Long) : Exec Unit := do
  let s ← get
  let a := s.sp - 4
  onAbort (writeMem a .long v) (State.maybe (State.setSp a))
  modify (State.setSp a)

/-- Pop a word. -/
def pop16 : Exec Word := do
  let s ← get
  let a := s.sp
  let w ← onAbort (readMem .data a .word) (State.maybe (State.setSp (a + 2)))
  modify (State.setSp (a + 2))
  pure (lowWord w)

/-- Pop a long word. -/
def pop32 : Exec Long := do
  let s ← get
  let a := s.sp
  let v ← onAbort (readMem .data a .long) (State.maybe (State.setSp (a + 4)))
  modify (State.setSp (a + 4))
  pure v

/-! Exception processing (60_exceptions). -/

/-- The exceptions other than reset, bus error and address error (R428). -/
inductive ExcKind where
  | illegal
  | zeroDivide
  | chk
  | trapv
  | privilege
  | trace
  | line1010
  | line1111
  | trap (v : Fin 16)
  | interrupt (level : Fin 8)
deriving DecidableEq, Repr

/-- The group of an exception (R431). -/
def ExcKind.group : ExcKind → Group
  | .zeroDivide | .chk | .trapv | .trap _ => .group2
  | .illegal | .privilege | .trace | .line1010 | .line1111 | .interrupt _ => .group1

/-- The interrupt acknowledge cycle of a level (R372, R379, R402): function code 111, a byte read over the lower half of the
data bus, the level on A3 to A1, A23 to A4 high. -/
def iackCycle (level : Fin 8) : BusCycle :=
  { code := .interruptAcknowledge, dir := .read, width := .byte, addr := BitVec.ofNat 32 (0xFFFFF1 + 2 * level.val) }

/-- How an answer of the table ends the acknowledge cycle (R402). -/
def IackAnswer.toAnswer : IackAnswer → BusAnswer
  | .vector _ => .dtack
  | .autovector => .vpa
  | .busError => .berr
  | .none => .none

/-- What D15 to D0 carry with an answer of the table. -/
def IackAnswer.data : IackAnswer → Option Word
  | .vector n => some (n.setWidth 16)
  | _ => Option.none

/-- How the maps end the acknowledge of a level: a region that covers the cycle as any other, else the table. -/
def State.iackAnswer (s : State) (level : Fin 8) : BusAnswer :=
  match s.region (iackCycle level) with
  | none => s.iack[level.val].toAnswer
  | some r => r.onRead

/-- The vector number of the interrupt acknowledged at a level (R402, R463, R464) where the maps alone give it: not where
nobody answers, nor where a device gives a free number. -/
def State.iackVector (s : State) (level : Fin 8) : Option Nat :=
  match s.iackAnswer level with
  | .dtack | .rerun =>
    match s.region (iackCycle level) with
    | none => s.iack[level.val].data.map fun w => ((iackCycle level).lane w).toNat
    | some r => if r.device then none else some (s.memData (iackCycle level)).toNat
  | .vpa => some (24 + level.val)
  | .berr => some 24
  | .none => none

/-- The vector number on D7 to D0 when the acknowledge cycle completes: the data given, else that of the region that covers
the cycle, else the table's, else free. -/
def vectorNumber (level : Fin 8) (data : Option Word) : Exec Nat := fun s =>
  let c := iackCycle level
  match s.region c with
  | some _ => (do let w ← readData c data; pure w.toNat) s
  | none =>
    match data <|> s.iack[level.val].data with
    | some w => .ok (c.lane w).toNat s
    | none => (do let n ← drawByte; pure n.toNat) s

/-- The end of an acknowledge cycle (R402): the vector number, of the level, or of a spurious interrupt. -/
def endAcknowledge (level : Fin 8) (answer : Option BusAnswer) (data : Option Word) : Exec Nat := do
  let s ← get
  match answer.getD (s.iackAnswer level) with
  | .dtack | .rerun => vectorNumber level data
  | .vpa => pure (24 + level.val)
  | .berr => pure 24
  | .none => throw .unanswered

/-- The interrupt acknowledge cycle under the entries the platform has in store. -/
def acknowledge (level : Fin 8) : List CycleInput → Exec Nat
  | [] => endAcknowledge level none none
  | e :: es => fun s =>
    let s' := { s.masterWrites e.before with cycles := es }
    match e.reset with
    | some l => .error (.reset l) s'
    | none =>
      let answer := (e.iack.map IackAnswer.toAnswer) <|> e.answer
      if answer = some .rerun then acknowledge level es s'
      else endAcknowledge level answer ((e.iack.bind IackAnswer.data) <|> e.data) s'

/-- The vector number of an exception, where the maps alone give it (R425, R428). -/
def State.vectorOf (s : State) : ExcKind → Option Nat
  | .illegal => some 4
  | .zeroDivide => some 5
  | .chk => some 6
  | .trapv => some 7
  | .privilege => some 8
  | .trace => some 9
  | .line1010 => some 10
  | .line1111 => some 11
  | .trap v => some (32 + v.val)
  | .interrupt level => s.iackVector level

/-- Step 2 of exception processing (R430): the vector number is determined. -/
def fetchVector (k : ExcKind) : Exec Nat := fun s =>
  match k with
  | .interrupt level => acknowledge level s.cycles s
  | _ =>
    match s.vectorOf k with
    | some n => .ok n s
    | none => .error .unanswered s

/-- The address of a vector (R426). -/
def vectorAddress (n : Nat) : Long := BitVec.ofNat 32 (4 * n)

/-- Step 1 of exception processing (R430): SR is copied, S set, T cleared. -/
def State.enterException (g : Group) (s : State) : State :=
  { s with procState := .exception g, srCopy := s.sr, sr := { s.sr with s := true, t := false } }

/-- The interrupt mask of an interrupt exception (R430, R463). -/
def ExcKind.mask (k : ExcKind) (old : Fin 8) : Fin 8 :=
  match k with
  | .interrupt level => level
  | _ => old

/-- Step 1 for one exception. A group 1 exception is not followed by a trace exception (R470). -/
def State.beginException (k : ExcKind) (s : State) : State :=
  let s' := s.enterException k.group
  { s' with
    sr := { s'.sr with mask := k.mask s.sr.mask }
    traceAtStart := s.traceAtStart && decide (k.group = .group2) }

/-- The write cycle of a word of a frame (R66). -/
def frameCycle (a : Long) : BusCycle := { code := .supervisorData, dir := .write, width := .word, addr := a }

/-- Memory after the words of a frame are stored from an address up, each cycle completing. -/
def State.frameCycles (s : State) : Long → List Word → Memory → Memory
  | _, [], m => m
  | a, w :: ws, m => s.frameCycles (a + 2) ws (s.cycleMem (frameCycle a) .done w m)

/-- The state after the words of a frame are stored. -/
def State.storeFrame (a : Long) (ws : List Word) (s : State) : State := { s with mem := s.frameCycles a ws s.mem }

/-- Do all the cycles of a frame complete? -/
def State.canStack (s : State) (a : Long) : List Word → Bool
  | [] => true
  | _ :: ws => s.completes (frameCycle a) && s.canStack (a + 2) ws

/-- The words of a frame with their addresses, from an address up. -/
def frameWords (a : Long) : List Word → List (Long × Word)
  | [] => []
  | w :: ws => (a, w) :: frameWords (a + 2) ws

/-- Words stored in a free order (D22), `k` of them. -/
def stackInAnyOrder : Nat → List (Long × Word) → Exec Unit
  | 0, _ => pure ()
  | k + 1, cells => do
    let i ← drawBelow cells.length
    match cells[i]? with
    | none => pure ()
    | some (a, w) =>
      let _ ← busCycle false (frameCycle a) w
      stackInAnyOrder k (cells.eraseIdx i)

/-- SSP in the middle of the stacking of `n` words from an address up: anywhere between its old and its new value (U3). -/
def State.openSsp (base : Long) (n : Nat) (s : State) : State :=
  { s with
    ssp := base + BitVec.ofNat 32 (2 * (Config.freeChoice s.drawCount % (n + 1)))
    drawCount := s.drawCount + 1 }

/-- Step 3 of exception processing (R430): a frame, its lowest word first, is stacked below SSP. The order of
the cycles is free (D22), so that if one of them fails any of the others may have been made (U21). -/
def stackFrame (ws : List Word) : Exec Unit := fun s =>
  let base := s.ssp - BitVec.ofNat 32 (2 * ws.length)
  if aligned s.ssp .word then
    if s.canStack base ws then .ok () { s.storeFrame base ws with ssp := base }
    else
      (do
        onAbort (stackInAnyOrder ws.length (frameWords base ws)) (State.openSsp base ws.length)
        modify fun (s : State) => { s with ssp := base }) s
  else
    .error (.access { kind := .addressError, addr := s.ssp - 4, dir := .write, code := .supervisorData })
      { s with ssp := s.ssp - 4 }

/-- Step 4 (R430): the new program counter is read from the vector, in supervisor data space (R424). -/
def loadVector (n : Nat) : Exec Unit := do
  let target ← readMem .data (vectorAddress n) .long
  modify fun s => { s.jump target with procState := .normal }

/-- Exception processing (R430) for every kind but reset, bus error and address error. -/
def takeException (k : ExcKind) (stackedPc : Long) : Exec Unit := do
  modify (State.beginException k)
  let n ← fetchVector k
  let s ← get
  stackFrame [s.srCopy.toWord, highWord stackedPc, lowWord stackedPc]
  loadVector n

/-- Is the processor "not processing an instruction" (R452): in a group 0 or group 1 exception? -/
def ProcState.notInstruction : ProcState → Bool
  | .exception .group0 | .exception .group1 => true
  | _ => false

/-- The first word of the group 0 frame (R452): bits 15-5 free (D13), R/W, I/N, function code. -/
def group0Word (top : Word) (f : AccessFault) (notInstr : Bool) : Word :=
  (top.extractLsb' 0 11 : BitVec 11) ++
    BitVec.ofNat 5 ((if f.dir = .read then 16 else 0) + notInstr.toNat * 8 + f.code.toNat)

/-- The vector of a group 0 exception (R428). -/
def AccessKind.vector : AccessKind → Nat
  | .busError => 2
  | .addressError => 3

/-- Group 0 exception processing (R450, R451, R452). The program counter stacked is free among I + 2 to I + 10
(D8). -/
def takeGroup0 (f : AccessFault) : Exec Unit := do
  let notInstr := (← get).procState.notInstruction
  modify fun s => { s.enterException .group0 with traceAtStart := false }
  let top ← drawWord
  let k ← drawBelow 5
  let s ← get
  let stackedPc := s.instrAddr + BitVec.ofNat 32 (2 + 2 * k)
  stackFrame [group0Word top f notInstr, highWord f.addr, lowWord f.addr, s.instrReg, s.srCopy.toWord,
    highWord stackedPc, lowWord stackedPc]
  loadVector f.kind.vector

/-- The halted state (R455, R485). -/
def State.halt (s : State) : State :=
  { s with procState := .halted, traceAtStart := false, prefetch := [], fetchError := none }

/-- The HALT line as an output (R399): the processor drives it while it is halted, the only outward sign of that state. -/
def State.drivesHalt (s : State) : Bool := decide (s.procState = .halted)

/-- One of the two long words of the reset vector, read in supervisor program space (R66): the high-order word first, an
order that is fixed here (R73, R491). -/
def readResetVector (a : Long) : Exec Long := fun s =>
  if s.canAccess .program .read a .long then .ok (s.longAt (s.code .program) a) s
  else longCycles false (s.code .program) .read a 0 s

/-- The reset sequence (R491), the interrupt lines showing a level. Whatever was in progress is abandoned. -/
def resetException (level : Fin 8) : Exec Unit := do
  modify fun s =>
    { s with
      procState := .exception .group0, inGroup0 := true, nmi := false, prefetch := [], traceAtStart := false
      pendingIrq := level, prevIrqLevel := level, busOwner := .processor, fetchError := none
      sr := { s.sr with s := true, t := false, mask := 7 } }
  let ssp ← readResetVector 0
  modify fun s => { s with ssp := ssp }
  let pc ← readResetVector 4
  modify fun s => { s with pc := pc, procState := .normal }

/-- The outcome of an external reset: a fault in it halts the processor (R492), another reset begins it anew. Each of
those takes an entry of `cycles`, of which there are at most `fuel`. -/
def runReset : Nat → Fin 8 → State → Host.Outcome State Fault Refusal
  | fuel, level, s =>
    match resetException level s with
    | .ok _ s' => .next s'
    | .error .unanswered _ => .fault .unansweredBusCycle
    | .error (.access _) s' => .next s'.halt
    | .error (.reset l) s' =>
      match fuel with
      | 0 => .next s'.halt
      | fuel + 1 => runReset fuel l s'

/-- What becomes of a computation cut short: the first bus or address error is processed, a second one before the next
instruction begins halts the processor (R455); an external reset abandons all (R440). -/
def abortOutcome (e : Abort) (s : State) : Host.Outcome State Fault Refusal :=
  match e with
  | .unanswered => .fault .unansweredBusCycle
  | .reset level => runReset s.cycles.length level s
  | .access f =>
    if s.inGroup0 then .next s.halt
    else
      match takeGroup0 f { s with inGroup0 := true, fetchError := none } with
      | .ok _ s' => .next s'
      | .error .unanswered _ => .fault .unansweredBusCycle
      | .error (.access _) s' => .next s'.halt
      | .error (.reset level) s' => runReset s'.cycles.length level s'

/-- The outcome of a whole computation. -/
def finish (r : EStateM.Result Abort State Unit) : Host.Outcome State Fault Refusal :=
  match r with
  | .ok _ s => .next s
  | .error e s => abortOutcome e s

/-- An instruction begins: PC is at its operation word (R429 I), which is passed; the window of a double fault
closes (R455). -/
def State.beginInstr (s : State) : State := { s with instrAddr := s.pc, pc := s.pc + 2, inGroup0 := false }

/-- The meaning of an instruction from its body. -/
def runInstr (body : Exec Unit) (s : State) : Host.Outcome State Fault Refusal :=
  finish (flagsOldOrNew body s.beginInstr)

/-- A privileged instruction (R341): in user state nothing of it is executed and the privilege violation
exception is taken, with the address of the instruction as the program counter stacked. What a fault inside the body leaves
of the flags the body says. -/
def runPrivileged (body : Exec Unit) (s : State) : Host.Outcome State Fault Refusal :=
  if s.sr.s then finish (body s.beginInstr)
  else finish (takeException .privilege s.pc { s with instrAddr := s.pc })

/-- Return from exception (R343): both pops through SSP, and only then SR (R502) and PC, so that a fault inside it leaves SR
as it was, flags among it (R451). -/
def returnFromException : Exec Unit := do
  let a := (← get).ssp
  let w ← onAbort (readMem .data a .word) (State.maybe fun s => { s with ssp := a + 6 })
  let target ← onAbort (readMem .data (a + 2) .long) (State.maybe fun s => { s with ssp := a + 6 })
  modify fun s => { (s.jump target) with ssp := a + 6, sr := StatusRegister.ofWord (lowWord w) }

/-- Each thing that an instruction writes after its last bus cycle is old or new, by free choice (U3): each register,
each flag, the rest of SR whole. The cycles made stay made, so memory is as it is. -/
def State.mix (old : Registers) (new : State) : State :=
  let k := new.drawCount
  let pick {α : Type} (j : Nat) (o n : α) : α := if Config.freeBit (k + j) then n else o
  let oc := old.sr.ccr
  let nc := new.sr.ccr
  let sr : StatusRegister := pick 17 old.sr new.sr
  { new with
    d := Vector.ofFn fun i => pick i.val old.d[i] new.d[i]
    a := Vector.ofFn fun i => pick (8 + i.val) old.a[i] new.a[i]
    usp := pick 15 old.usp new.usp
    ssp := pick 16 old.ssp new.ssp
    sr := { sr with
            ccr := { x := pick 18 oc.x nc.x, n := pick 19 oc.n nc.n, z := pick 20 oc.z nc.z,
                     v := pick 21 oc.v nc.v, c := pick 22 oc.c nc.c } }
    resetPulses := pick 23 old.resetPulses new.resetPulses
    drawCount := k + 24 }

end Sys2Proof.Machine
end

