-- ==== Sys2Proof/Machine/Operands.lean ====
section
/-! DEFINITION. Operand locations: the addressing modes (R140 to R155), reading and writing an operand (R160,
R161), and the shapes that instructions share. -/

namespace Sys2Proof.Machine

open Sys2Proof

/-- Where an operand is (R141). -/
inductive Loc where
  | dreg (n : Reg)
  | areg (n : Reg)
  | mem (sp : Space) (a : Long)
  | imm (v : Long)
deriving DecidableEq, Repr

/-- The step of postincrement and predecrement: 2 for a byte with the stack pointer (R145, R146). -/
def eaStep (sz : Size) (n : Reg) : Long :=
  match sz with
  | .byte => if n = 7 then 2 else 1
  | .word => 2
  | .long => 4

/-- The index of R148: a register, or its low word sign-extended. -/
def State.indexValue (s : State) (x : IndexExt) : Long :=
  let v := if x.isAddr then s.areg x.reg else s.dreg x.reg
  if x.isLong then v else sextWord (lowWord v)

/-- How many bytes an immediate takes in the instruction stream (R106). -/
def immBytes : Size → Long
  | .long => 4
  | _ => 2

/-- Resolve (R141): the location of an operand, with the side effect of the postincrement and predecrement modes,
the program counter moved past the extension words of the mode. -/
def State.resolve (s : State) (ea : Ea) (sz : Size) : Loc × State :=
  match ea with
  | .dreg n => (.dreg n, s)
  | .areg n => (.areg n, s)
  | .ind n => (.mem .data (s.areg n), s)
  | .postInc n => (.mem .data (s.areg n), s.setA n (s.areg n + eaStep sz n))
  | .preDec n => (.mem .data (s.areg n - eaStep sz n), s.setA n (s.areg n - eaStep sz n))
  | .disp n d => (.mem .data (s.areg n + sextWord d), s.advance 2)
  | .index n x => (.mem .data (s.areg n + sextByte x.disp + s.indexValue x), s.advance 2)
  | .absShort a => (.mem .data (sextWord a), s.advance 2)
  | .absLong a => (.mem .data a, s.advance 4)
  | .pcDisp d => (.mem .program (s.pc + sextWord d), s.advance 2)
  | .pcIndex x => (.mem .program (s.pc + sextByte x.disp + s.indexValue x), s.advance 2)
  | .imm v => (.imm v, s.advance (immBytes sz))

/-- Resolve as a computation. -/
def resolveEa (ea : Ea) (sz : Size) : Exec Loc := fun s => .ok (s.resolve ea sz).1 (s.resolve ea sz).2

/-- The address of a memory location; 0 for the others, which no instruction that asks accepts. -/
def Loc.address : Loc → Long
  | .mem _ a => a
  | _ => 0

/-- The space of a memory location. -/
def Loc.space : Loc → Space
  | .mem sp _ => sp
  | _ => .data

/-- Is the location in memory? -/
def Loc.isMem : Loc → Bool
  | .mem _ _ => true
  | _ => false

/-- Rd (R160), the value extended with zeros to 32 bits. -/
def rd (loc : Loc) (sz : Size) : Exec Long := fun s =>
  match loc with
  | .dreg n => .ok (trunc sz (s.dreg n)) s
  | .areg n => .ok (trunc sz (s.areg n)) s
  | .mem sp a => readMem sp a sz s
  | .imm v => .ok (trunc sz v) s

/-- Wr (R161): an address register is written whole, a word sign-extended; an immediate is never written. -/
def wr (loc : Loc) (sz : Size) (v : Long) : Exec Unit := fun s =>
  match loc with
  | .dreg n => .ok () (s.setD sz n v)
  | .areg n => .ok () (s.setA n (signExtend sz v))
  | .mem _ a => writeMem a sz v s
  | .imm _ => .ok () s

/-- A source operand resolved and read completely (R162). -/
def readEa (ea : Ea) (sz : Size) : Exec Long := do
  let loc ← resolveEa ea sz
  rd loc sz

/-- The address a control mode names (R182, R328): memory there is not accessed. -/
def eaAddress (ea : Ea) : Exec Long := do
  let loc ← resolveEa ea .long
  pure loc.address

/-! Shapes of instructions. -/

/-- A result and its flags written. -/
def wrFlagged (loc : Loc) (sz : Size) (r : Long) (cc : Ccr) : Exec Unit := do
  wr loc sz r
  modify (State.setCcr cc)

/-- A function of two operands: size, old flags, source, destination; result and flags. -/
abbrev Alu := Size → Ccr → Long → Long → Long × Ccr

/-- `<ea>, Dn`: the data register is the destination. -/
def aluToReg (alu : Alu) (sz : Size) (ea : Ea) (dn : Reg) : Exec Unit := do
  let src ← readEa ea sz
  modify fun s =>
    let (r, cc) := alu sz s.sr.ccr src (trunc sz (s.dreg dn))
    (s.setD sz dn r).setCcr cc

/-- An operand changed by a function of a given source: read, then written at the same place (R141). -/
def aluOnEa (alu : Alu) (sz : Size) (src : Long) (ea : Ea) : Exec Unit := do
  let loc ← resolveEa ea sz
  let dst ← rd loc sz
  let s ← get
  let (r, cc) := alu sz s.sr.ccr src dst
  wrFlagged loc sz r cc

/-- `Dn, <ea>`: the data register is the source. -/
def aluToMem (alu : Alu) (sz : Size) (dn : Reg) (ea : Ea) : Exec Unit := do
  let loc ← resolveEa ea sz
  let dst ← rd loc sz
  let s ← get
  let (r, cc) := alu sz s.sr.ccr (trunc sz (s.dreg dn)) dst
  wrFlagged loc sz r cc

/-- `#imm, <ea>`: the immediate words come before those of the destination (R104, R214). -/
def aluImm (alu : Alu) (sz : Size) (imm : Long) (ea : Ea) : Exec Unit := do
  modify (State.advance (immBytes sz))
  aluOnEa alu sz (trunc sz imm) ea

/-- An operand changed by a function of itself. -/
def unaryOnEa (alu : Size → Ccr → Long → Long × Ccr) (sz : Size) (ea : Ea) : Exec Unit := do
  let loc ← resolveEa ea sz
  let dst ← rd loc sz
  let s ← get
  let (r, cc) := alu sz s.sr.ccr dst
  wrFlagged loc sz r cc

/-- `<ea>, An`: the address register changed as a whole by the sign-extended source, no flags (R213). -/
def addrArith (f : Long → Long → Long) (sz : AddrSize) (ea : Ea) (an : Reg) : Exec Unit := do
  let src ← readEa ea sz.toSize
  modify fun s => s.setA an (f (s.areg an) (signExtend sz.toSize src))

/-- `Ay@-, Ax@-` (R216): source decremented and read first, then the destination, which is written. -/
def aluPreDec (alu : Alu) (sz : Size) (ay ax : Reg) : Exec Unit := do
  let src ← readEa (.preDec ay) sz
  aluOnEa alu sz src (.preDec ax)

/-- `Dy, Dx` or `Ay@-, Ax@-` (R216). -/
def aluExtended (alu : Alu) (sz : Size) (mem : Bool) (ry rx : Reg) : Exec Unit :=
  if mem then aluPreDec alu sz ry rx else aluToReg alu sz (.dreg ry) rx

end Sys2Proof.Machine
end

