-- ==== Sys2Proof/Machine/Arith.lean ====
section
/-! DEFINITION. Integer arithmetic (42_integer_arithmetic). -/

namespace Sys2Proof.Machine

open Sys2Proof

/-- ADD `<ea>, Dn` (R212). -/
def execAddToReg (sz : Size) (ea : Ea) (dn : Reg) (s : State) : Host.Outcome State Fault Refusal :=
  runInstr (aluToReg addAlu sz ea dn) s

/-- ADD `Dn, <ea>` (R212). -/
def execAddToMem (sz : Size) (dn : Reg) (ea : Ea) (s : State) : Host.Outcome State Fault Refusal :=
  runInstr (aluToMem addAlu sz dn ea) s

/-- ADDA (R213). -/
def execAdda (sz : AddrSize) (ea : Ea) (an : Reg) (s : State) : Host.Outcome State Fault Refusal :=
  runInstr (addrArith (fun a b => a + b) sz ea an) s

/-- ADDI (R214). -/
def execAddi (sz : Size) (imm : Long) (ea : Ea) (s : State) : Host.Outcome State Fault Refusal :=
  runInstr (aluImm addAlu sz imm ea) s

/-- The data of ADDQ and SUBQ: 0 in the field means 8 (R112). -/
def quickValue (q : Fin 8) : Long := if q.val = 0 then 8 else BitVec.ofNat 32 q.val

/-- ADDQ and SUBQ (R215, R232): an address register is changed as a whole and no flag is written. -/
def quickBody (alu : Alu) (f : Long → Long → Long) (q : Fin 8) (sz : Size) (ea : Ea) : Exec Unit :=
  match ea with
  | .areg n => modify fun s => s.setA n (f (s.areg n) (quickValue q))
  | _ => aluOnEa alu sz (quickValue q) ea

/-- ADDQ (R215). -/
def execAddq (q : Fin 8) (sz : Size) (ea : Ea) (s : State) : Host.Outcome State Fault Refusal :=
  runInstr (quickBody addAlu (fun a b => a + b) q sz ea) s

/-- ADDX (R216). -/
def execAddx (sz : Size) (mem : Bool) (ry rx : Reg) (s : State) : Host.Outcome State Fault Refusal :=
  runInstr (aluExtended addxAlu sz mem ry rx) s

/-- SUB `<ea>, Dn` (R229). -/
def execSubToReg (sz : Size) (ea : Ea) (dn : Reg) (s : State) : Host.Outcome State Fault Refusal :=
  runInstr (aluToReg subAlu sz ea dn) s

/-- SUB `Dn, <ea>` (R229). -/
def execSubToMem (sz : Size) (dn : Reg) (ea : Ea) (s : State) : Host.Outcome State Fault Refusal :=
  runInstr (aluToMem subAlu sz dn ea) s

/-- SUBA (R230). -/
def execSuba (sz : AddrSize) (ea : Ea) (an : Reg) (s : State) : Host.Outcome State Fault Refusal :=
  runInstr (addrArith (fun a b => a - b) sz ea an) s

/-- SUBI (R231). -/
def execSubi (sz : Size) (imm : Long) (ea : Ea) (s : State) : Host.Outcome State Fault Refusal :=
  runInstr (aluImm subAlu sz imm ea) s

/-- SUBQ (R232). -/
def execSubq (q : Fin 8) (sz : Size) (ea : Ea) (s : State) : Host.Outcome State Fault Refusal :=
  runInstr (quickBody subAlu (fun a b => a - b) q sz ea) s

/-- SUBX (R233). -/
def execSubx (sz : Size) (mem : Bool) (ry rx : Reg) (s : State) : Host.Outcome State Fault Refusal :=
  runInstr (aluExtended subxAlu sz mem ry rx) s

/-- CLR (R217): a memory destination is read before it is written. -/
def execClr (sz : Size) (ea : Ea) (s : State) : Host.Outcome State Fault Refusal :=
  runInstr (unaryOnEa (fun sz old _ => (0, moveFlags sz old 0)) sz ea) s

/-- NEG (R227). -/
def execNeg (sz : Size) (ea : Ea) (s : State) : Host.Outcome State Fault Refusal :=
  runInstr (unaryOnEa negAlu sz ea) s

/-- NEGX (R228). -/
def execNegx (sz : Size) (ea : Ea) (s : State) : Host.Outcome State Fault Refusal :=
  runInstr (unaryOnEa negxAlu sz ea) s

/-- CMP (R218). -/
def execCmp (sz : Size) (ea : Ea) (dn : Reg) (s : State) : Host.Outcome State Fault Refusal :=
  runInstr (do
    let src ← readEa ea sz
    modify fun s => s.setCcr (cmpFlags sz s.sr.ccr src (trunc sz (s.dreg dn)))) s

/-- CMPA (R219): always 32 bits wide, a word source sign-extended. -/
def execCmpa (sz : AddrSize) (ea : Ea) (an : Reg) (s : State) : Host.Outcome State Fault Refusal :=
  runInstr (do
    let src ← readEa ea sz.toSize
    modify fun s => s.setCcr (cmpFlags .long s.sr.ccr (signExtend sz.toSize src) (s.areg an))) s

/-- CMPI (R220): the immediate words come first; no write. -/
def execCmpi (sz : Size) (imm : Long) (ea : Ea) (s : State) : Host.Outcome State Fault Refusal :=
  runInstr (do
    modify (State.advance (immBytes sz))
    let dst ← readEa ea sz
    modify fun s => s.setCcr (cmpFlags sz s.sr.ccr (trunc sz imm) dst)) s

/-- A postincrement operand of CMPM (R221): read, then the register is incremented; if the read is aborted the
register is old or new (U3). -/
def readThenIncrement (sz : Size) (n : Reg) : Exec Long := do
  let s ← get
  let a := s.areg n
  let final := State.setA n (a + eaStep sz n)
  let v ← onAbort (readMem .data a sz) (State.maybe final)
  modify final
  pure v

/-- CMPM (R221). -/
def execCmpm (sz : Size) (ay ax : Reg) (s : State) : Host.Outcome State Fault Refusal :=
  runInstr (do
    let src ← readThenIncrement sz ay
    let dst ← readThenIncrement sz ax
    modify fun s => s.setCcr (cmpFlags sz s.sr.ccr src dst)) s

/-- TST (R253). -/
def execTst (sz : Size) (ea : Ea) (s : State) : Host.Outcome State Fault Refusal :=
  runInstr (do
    let v ← readEa ea sz
    modify fun s => s.setCcr (moveFlags sz s.sr.ccr v)) s

/-- TAS (R252): on memory one read-modify-write cycle (R378). -/
def execTas (ea : Ea) (s : State) : Host.Outcome State Fault Refusal :=
  runInstr (do
    let loc ← resolveEa ea .byte
    match loc with
    | .mem _ a =>
      let b ← rmwCycle .read a 0
      let _ ← rmwCycle .write a (b ||| 0x80)
      modify fun s => s.setCcr (moveFlags .byte s.sr.ccr (b.setWidth 32))
    | _ =>
      let v ← rd loc .byte
      let s ← get
      wrFlagged loc .byte (v ||| 0x80) (moveFlags .byte s.sr.ccr v)) s

/-! Multiply, divide, extend. -/

/-- EXT (R224): byte to word, or word to long. -/
def execExtReg (sz : AddrSize) (dn : Reg) (s : State) : Host.Outcome State Fault Refusal :=
  runInstr (modify fun s =>
    let v := match sz with
      | .word => trunc .word (signExtend .byte (s.dreg dn))
      | .long => signExtend .word (s.dreg dn)
    (s.setD sz.toSize dn v).setCcr (moveFlags sz.toSize s.sr.ccr v)) s

/-- A multiply: the word operands give a long word product (R225, R226). -/
def mulBody (f : Word → Word → Long) (ea : Ea) (dn : Reg) : Exec Unit := do
  let src ← readEa ea .word
  modify fun s =>
    let r := f (lowWord (s.dreg dn)) (lowWord src)
    (s.setD .long dn r).setCcr (moveFlags .long s.sr.ccr r)

/-- The signed product (R225). -/
def mulSigned (a b : Word) : Long := BitVec.ofInt 32 (a.toInt * b.toInt)

/-- The unsigned product (R226). -/
def mulUnsigned (a b : Word) : Long := BitVec.ofNat 32 (a.toNat * b.toNat)

/-- MULS (R225). -/
def execMuls (ea : Ea) (dn : Reg) (s : State) : Host.Outcome State Fault Refusal :=
  runInstr (mulBody mulSigned ea dn) s

/-- MULU (R226). -/
def execMulu (ea : Ea) (dn : Reg) (s : State) : Host.Outcome State Fault Refusal :=
  runInstr (mulBody mulUnsigned ea dn) s

/-- Quotient and remainder of a division; none on overflow. -/
abbrev Divider := Long → Word → Option (Word × Word)

/-- Signed division (R222): truncated toward zero, the remainder with the sign of the dividend. -/
def divSigned : Divider := fun d s =>
  let q := d.toInt.tdiv s.toInt
  let r := d.toInt.tmod s.toInt
  if q < -32768 ∨ 32767 < q then none else some (BitVec.ofInt 16 q, BitVec.ofInt 16 r)

/-- Unsigned division (R223). -/
def divUnsigned : Divider := fun d s =>
  let q := d.toNat / s.toNat
  let r := d.toNat % s.toNat
  if 65535 < q then none else some (BitVec.ofNat 16 q, BitVec.ofNat 16 r)

/-- DIVS and DIVU (R222, R223): a zero divisor raises the zero divide exception, with N, Z and V free and C
cleared; on overflow the register is unchanged, N and Z are free (D18). -/
def divBody (div : Divider) (ea : Ea) (dn : Reg) : Exec Unit := do
  let src ← readEa ea .word
  if lowWord src = 0 then
    let n ← drawBit
    let z ← drawBit
    let v ← drawBit
    modify fun s => s.setCcr { x := s.sr.ccr.x, n := n, z := z, v := v, c := false }
    takeException .zeroDivide (← get).pc
  else
    match div ((← get).dreg dn) (lowWord src) with
    | none =>
      let n ← drawBit
      let z ← drawBit
      modify fun s => s.setCcr { x := s.sr.ccr.x, n := n, z := z, v := true, c := false }
    | some (q, r) =>
      modify fun s =>
        (s.setD .long dn (joinWords r q)).setCcr (moveFlags .word s.sr.ccr (q.setWidth 32))

/-- DIVS (R222). -/
def execDivs (ea : Ea) (dn : Reg) (s : State) : Host.Outcome State Fault Refusal :=
  runInstr (divBody divSigned ea dn) s

/-- DIVU (R223). -/
def execDivu (ea : Ea) (dn : Reg) (s : State) : Host.Outcome State Fault Refusal :=
  runInstr (divBody divUnsigned ea dn) s

end Sys2Proof.Machine
end

