-- ==== Sys2Proof/Machine/Bcd.lean ====
section
/-! DEFINITION. Binary coded decimal (46_bcd). -/

namespace Sys2Proof.Machine

open Sys2Proof

/-- The result of a BCD operation and its flags (R312): X and C the carry, Z only ever cleared, N and V free. If an
operand is not two decimal digits, the byte and X, Z and C are free too (D19). -/
def bcdResult (f : Nat → Nat → Bool → Byte × Bool) (src dst : Long) : Exec (Byte × Ccr) := do
  let old := (← get).sr.ccr
  let n ← drawBit
  let v ← drawBit
  match decOf (src.setWidth 8), decOf (dst.setWidth 8) with
  | some sd, some dd =>
    let (r, c) := f sd dd old.x
    pure (r, { x := c, n := n, z := old.z && decide (r = 0), v := v, c := c })
  | _, _ =>
    let r ← drawByte
    let x ← drawBit
    let z ← drawBit
    let c ← drawBit
    pure (r, { x := x, n := n, z := z, v := v, c := c })

/-- A BCD operation on a destination operand. -/
def bcdOnEa (f : Nat → Nat → Bool → Byte × Bool) (src : Long) (ea : Ea) : Exec Unit := do
  let loc ← resolveEa ea .byte
  let dst ← rd loc .byte
  let (r, cc) ← bcdResult f src dst
  wrFlagged loc .byte (r.setWidth 32) cc

/-- ABCD and SBCD: `Dy, Dx` or `Ay@-, Ax@-`, source first (R313). -/
def bcdBody (f : Nat → Nat → Bool → Byte × Bool) (mem : Bool) (ry rx : Reg) : Exec Unit := do
  let (srcEa, dstEa) := if mem then (Ea.preDec ry, Ea.preDec rx) else (Ea.dreg ry, Ea.dreg rx)
  let src ← readEa srcEa .byte
  bcdOnEa f src dstEa

/-- ABCD (R313). -/
def execAbcd (mem : Bool) (ry rx : Reg) (s : State) : Host.Outcome State Fault Refusal :=
  runInstr (bcdBody bcdAdd mem ry rx) s

/-- SBCD (R314). -/
def execSbcd (mem : Bool) (ry rx : Reg) (s : State) : Host.Outcome State Fault Refusal :=
  runInstr (bcdBody bcdSub mem ry rx) s

/-- NBCD (R315): zero minus the operand minus X. -/
def execNbcd (ea : Ea) (s : State) : Host.Outcome State Fault Refusal :=
  runInstr (bcdOnEa (fun _ d x => bcdSub d 0 x) 0 ea) s

end Sys2Proof.Machine
end

