-- ==== Sys2Proof/Machine/Bits.lean ====
section
/-! DEFINITION. Bit manipulation (45_bit_manipulation). -/

namespace Sys2Proof.Machine

open Sys2Proof

/-- What becomes of the tested bit (R303); none: nothing is written. -/
inductive BitOp where
  | test | change | clear | set
deriving DecidableEq, Repr

/-- The new value of the bit. -/
def BitOp.apply : BitOp → Bool → Bool
  | .test, b => b
  | .change, b => !b
  | .clear, _ => false
  | .set, _ => true

/-- A value with one bit written. -/
def withBit (v : Long) (k : Nat) (b : Bool) : Long :=
  if b then v ||| ((1 : Long) <<< k) else v &&& ~~~((1 : Long) <<< k)

/-- Z receives the complement of the bit (R301); the other flags stay. -/
def bitFlags (old : Ccr) (b : Bool) : Ccr := { old with z := !b }

/-- A data register destination: 32 bits, the bit number modulo 32; any other: a byte, modulo 8 (R300). -/
def bitModulus : Ea → Nat × Size
  | .dreg _ => (32, .long)
  | _ => (8, .byte)

/-- Common execution (R303). -/
def bitBody (op : BitOp) (b : Byte) (ea : Ea) : Exec Unit := do
  let (modulus, sz) := bitModulus ea
  let k := b.toNat % modulus
  let loc ← resolveEa ea sz
  let v ← rd loc sz
  let s ← get
  let bit := v.getLsbD k
  let cc := bitFlags s.sr.ccr bit
  match op with
  | .test => modify (State.setCcr cc)
  | _ => wrFlagged loc sz (withBit v k (op.apply bit)) cc

/-- The bit number in the word that follows the operation word (R302). -/
def bitStatic (op : BitOp) (b : Byte) (ea : Ea) : Exec Unit := do
  modify (State.advance 2)
  bitBody op b ea

/-- The bit number in a data register (R302). -/
def bitDynamic (op : BitOp) (dn : Reg) (ea : Ea) : Exec Unit := do
  let s ← get
  bitBody op ((s.dreg dn).setWidth 8) ea

/-- BTST, the bit number in the instruction (R304). -/
def execBtstStatic (b : Byte) (ea : Ea) (s : State) : Host.Outcome State Fault Refusal :=
  runInstr (bitStatic .test b ea) s

/-- BTST, the bit number in a register (R304). -/
def execBtstDynamic (dn : Reg) (ea : Ea) (s : State) : Host.Outcome State Fault Refusal :=
  runInstr (bitDynamic .test dn ea) s

/-- BCHG, the bit number in the instruction (R307). -/
def execBchgStatic (b : Byte) (ea : Ea) (s : State) : Host.Outcome State Fault Refusal :=
  runInstr (bitStatic .change b ea) s

/-- BCHG, the bit number in a register (R307). -/
def execBchgDynamic (dn : Reg) (ea : Ea) (s : State) : Host.Outcome State Fault Refusal :=
  runInstr (bitDynamic .change dn ea) s

/-- BCLR, the bit number in the instruction (R306). -/
def execBclrStatic (b : Byte) (ea : Ea) (s : State) : Host.Outcome State Fault Refusal :=
  runInstr (bitStatic .clear b ea) s

/-- BCLR, the bit number in a register (R306). -/
def execBclrDynamic (dn : Reg) (ea : Ea) (s : State) : Host.Outcome State Fault Refusal :=
  runInstr (bitDynamic .clear dn ea) s

/-- BSET, the bit number in the instruction (R305). -/
def execBsetStatic (b : Byte) (ea : Ea) (s : State) : Host.Outcome State Fault Refusal :=
  runInstr (bitStatic .set b ea) s

/-- BSET, the bit number in a register (R305). -/
def execBsetDynamic (dn : Reg) (ea : Ea) (s : State) : Host.Outcome State Fault Refusal :=
  runInstr (bitDynamic .set dn ea) s

end Sys2Proof.Machine
end

