-- ==== Sys2Proof/Machine/Control.lean ====
section
/-! DEFINITION. Program control (47_program_control). -/

namespace Sys2Proof.Machine

open Sys2Proof

/-- A branch displacement, sign-extended (R323). -/
def branchOffset : BranchDisp → Long
  | .short d => sextByte d
  | .long d => sextWord d

/-- The bytes a branch displacement takes after the operation word. -/
def branchBytes : BranchDisp → Long
  | .short _ => 0
  | .long _ => 2

/-- Bcc (R323): the base is the address of the operation word plus two. -/
def execBcc (cond : Cond) (d : BranchDisp) (s : State) : Host.Outcome State Fault Refusal :=
  runInstr (modify fun s =>
    if condHolds s.sr.ccr cond then s.jump (s.pc + branchOffset d) else s.advance (branchBytes d)) s

/-- BRA (R324). -/
def execBra (d : BranchDisp) (s : State) : Host.Outcome State Fault Refusal :=
  runInstr (modify fun s => s.jump (s.pc + branchOffset d)) s

/-- A jump to a subroutine (R325, R329). If the target is odd, whether the return address is pushed before the
address error is free (U15, R322). -/
def callBody (ret target : Long) : Exec Unit := do
  if target.getLsbD 0 then
    let pushed ← drawBit
    if pushed then push32 ret
    modify (State.jump target)
  else
    push32 ret
    modify (State.jump target)

/-- BSR (R325). -/
def execBsr (d : BranchDisp) (s : State) : Host.Outcome State Fault Refusal :=
  runInstr (do
    let s ← get
    callBody (s.pc + branchBytes d) (s.pc + branchOffset d)) s

/-- DBcc (R326): the counter is the low word. -/
def execDbcc (cond : Cond) (dn : Reg) (d : Word) (s : State) : Host.Outcome State Fault Refusal :=
  runInstr (modify fun s =>
    if condHolds s.sr.ccr cond then s.advance 2
    else
      let count := lowWord (s.dreg dn) - 1
      let s' := s.setD .word dn (count.setWidth 32)
      if count = 0xFFFF then s'.advance 2 else s'.jump (s.pc + sextWord d)) s

/-- Scc (R327): a memory destination is read before it is written; no flags. -/
def execScc (cond : Cond) (ea : Ea) (s : State) : Host.Outcome State Fault Refusal :=
  runInstr (unaryOnEa (fun _ old _ => (if condHolds old cond then 0xFF else 0, old)) .byte ea) s

/-- JMP (R328). -/
def execJmp (ea : Ea) (s : State) : Host.Outcome State Fault Refusal :=
  runInstr (do
    let target ← eaAddress ea
    modify (State.jump target)) s

/-- JSR (R329): the target is computed before the push; the return address is that of the next instruction. -/
def execJsr (ea : Ea) (s : State) : Host.Outcome State Fault Refusal :=
  runInstr (do
    let target ← eaAddress ea
    let s ← get
    callBody s.pc target) s

/-- RTR (R330): the user byte, then the program counter. -/
def execRtr (s : State) : Host.Outcome State Fault Refusal :=
  runInstr (do
    let w ← pop16
    let target ← pop32
    modify fun s => (s.setCcr (Ccr.ofWord w)).jump target) s

/-- RTS (R331). -/
def execRts (s : State) : Host.Outcome State Fault Refusal :=
  runInstr (do
    let target ← pop32
    modify (State.jump target)) s

/-- NOP (R332). -/
def execNop (s : State) : Host.Outcome State Fault Refusal := runInstr (pure ()) s

end Sys2Proof.Machine
end

