-- ==== Sys2Proof/Machine/DataMove.lean ====
section
/-! DEFINITION. Data movement (41_data_movement): MOVE, MOVEA, MOVEM, MOVEP, MOVEQ, EXG, LEA, PEA, LINK, UNLK, SWAP. -/

namespace Sys2Proof.Machine

open Sys2Proof

/-- The second half of MOVE (R184): the destination resolved and written, and the flags. -/
def moveStore (sz : Size) (v : Long) (dst : Ea) : Exec Unit := do
  let loc ← resolveEa dst sz
  let s ← get
  wrFlagged loc sz v (moveFlags sz s.sr.ccr v)

/-- MOVE (R184): the source is read completely before the destination is resolved (R162). -/
def moveBody (sz : Size) (src dst : Ea) : Exec Unit := do
  let v ← readEa src sz
  moveStore sz v dst

/-- MOVEA (R185): no flags, the register written whole. -/
def moveaBody (sz : Size) (src : Ea) (an : Reg) : Exec Unit := do
  let v ← readEa src sz
  modify (State.setA an (signExtend sz v))

/-- MOVE.B (R184). -/
def execMoveByte (src dst : Ea) (s : State) : Host.Outcome State Fault Refusal := runInstr (moveBody .byte src dst) s

/-- MOVE.W (R184). -/
def execMoveWord (src dst : Ea) (s : State) : Host.Outcome State Fault Refusal := runInstr (moveBody .word src dst) s

/-- MOVE.L (R184). -/
def execMoveLong (src dst : Ea) (s : State) : Host.Outcome State Fault Refusal := runInstr (moveBody .long src dst) s

/-- MOVEA.W (R185). -/
def execMoveaWord (src : Ea) (an : Reg) (s : State) : Host.Outcome State Fault Refusal :=
  runInstr (moveaBody .word src an) s

/-- MOVEA.L (R185). -/
def execMoveaLong (src : Ea) (an : Reg) (s : State) : Host.Outcome State Fault Refusal :=
  runInstr (moveaBody .long src an) s

/-- MOVEQ (R189). -/
def execMoveq (dn : Reg) (d : Byte) (s : State) : Host.Outcome State Fault Refusal :=
  runInstr (modify fun s =>
    let v := sextByte d
    (s.setD .long dn v).setCcr (moveFlags .long s.sr.ccr v)) s

/-- LEA (R182): no memory access. -/
def execLea (ea : Ea) (an : Reg) (s : State) : Host.Outcome State Fault Refusal :=
  runInstr (do
    let a ← eaAddress ea
    modify (State.setA an a)) s

/-- PEA (R190): the address is computed before A7 changes. -/
def execPea (ea : Ea) (s : State) : Host.Outcome State Fault Refusal :=
  runInstr (do
    let a ← eaAddress ea
    push32 a) s

/-- EXG of two data registers (R181). -/
def execExgData (rx ry : Reg) (s : State) : Host.Outcome State Fault Refusal :=
  runInstr (modify fun s => (s.setD .long rx (s.dreg ry)).setD .long ry (s.dreg rx)) s

/-- EXG of two address registers (R181). -/
def execExgAddr (rx ry : Reg) (s : State) : Host.Outcome State Fault Refusal :=
  runInstr (modify fun s => (s.setA rx (s.areg ry)).setA ry (s.areg rx)) s

/-- EXG of a data register and an address register (R181). -/
def execExgDataAddr (rx ry : Reg) (s : State) : Host.Outcome State Fault Refusal :=
  runInstr (modify fun s => (s.setD .long rx (s.areg ry)).setA ry (s.dreg rx)) s

/-- SWAP (R191). -/
def execSwap (dn : Reg) (s : State) : Host.Outcome State Fault Refusal :=
  runInstr (modify fun s =>
    let v := joinWords (lowWord (s.dreg dn)) (highWord (s.dreg dn))
    (s.setD .long dn v).setCcr (moveFlags .long s.sr.ccr v)) s

/-- What LINK pushes (R183): the register; for LINK A7 the parameter of U14 says which value of A7. -/
def linkValue (an : Reg) (s : State) : Long :=
  if an = 7 then (if Config.linkA7PushesOld then s.sp else s.sp - 4) else s.areg an

/-- LINK (R183). If the push is aborted, A7 and An are old or new (U3). -/
def execLink (an : Reg) (d : Word) (s : State) : Host.Outcome State Fault Refusal :=
  runInstr (do
    modify (State.advance 2)
    let s ← get
    let a := s.sp - 4
    let move := State.setA an a
    let drop := fun (s : State) => s.setSp (a + sextWord d)
    onAbort (writeMem a .long (linkValue an s))
      (fun s => State.maybe drop (State.maybe move (State.maybe (State.setSp a) s)))
    modify fun s => drop (move (s.setSp a))) s

/-- The last step of UNLK (R192): A7 is incremented by 4; for UNLK A7 the parameter of U14 says whether the value
loaded is. -/
def unlkFinish (an : Reg) (a v : Long) (s : State) : State :=
  if an = 7 then s.setSp (if Config.unlkA7Increments then v + 4 else v) else (s.setA an v).setSp (a + 4)

/-- UNLK (R192). If the read is aborted, A7 is old, An, or An + 4 (U3). -/
def execUnlk (an : Reg) (s : State) : Host.Outcome State Fault Refusal :=
  runInstr (do
    let s ← get
    let a := s.areg an
    let v ← onAbort (readMem .data a .long)
      (fun s => State.maybe (State.setSp (a + 4)) (State.maybe (State.setSp a) s))
    modify (unlkFinish an a v)) s

/-! MOVEM (R186). Registers are numbered 0 to 15: D0 to D7, A0 to A7. -/

/-- One of the sixteen registers. -/
def State.gpr (s : State) (r : Fin 16) : Long :=
  if h : r.val < 8 then s.dreg ⟨r.val, h⟩ else s.areg (Fin.ofNat 8 (r.val - 8))

/-- One of the sixteen registers written whole. -/
def State.setGpr (r : Fin 16) (v : Long) (s : State) : State :=
  if h : r.val < 8 then s.setD .long ⟨r.val, h⟩ v else s.setA (Fin.ofNat 8 (r.val - 8)) v

/-- The numbers of the bits set in a mask, ascending. -/
def maskBits (mask : Word) : List (Fin 16) := (List.finRange 16).filter fun i => mask.getLsbD i.val

/-- The register that bit `i` names in the predecrement form. -/
def downRegister (i : Fin 16) : Fin 16 := Fin.ofNat 16 (15 - i.val)

/-- Registers stored at ascending addresses. -/
def storeUp (sz : Size) : List (Fin 16) → Long → Exec Unit
  | [], _ => pure ()
  | r :: rs, a => do
    let s ← get
    writeMem a sz (trunc sz (s.gpr r))
    storeUp sz rs (a + BitVec.ofNat 32 (sizeBytes sz))

/-- Registers stored at descending addresses, each below the one before. -/
def storeDown (sz : Size) : List (Fin 16) → Long → Exec Unit
  | [], _ => pure ()
  | r :: rs, a => do
    let s ← get
    let a' := a - BitVec.ofNat 32 (sizeBytes sz)
    writeMem a' sz (trunc sz (s.gpr r))
    storeDown sz rs a'

/-- Registers loaded from ascending addresses, a word sign-extended. -/
def loadUp (sz : Size) (sp : Space) : List (Fin 16) → Long → Exec Unit
  | [], _ => pure ()
  | r :: rs, a => do
    let v ← readMem sp a sz
    modify (State.setGpr r (signExtend sz v))
    loadUp sz sp rs (a + BitVec.ofNat 32 (sizeBytes sz))

/-- The bytes a list of registers takes. -/
def listBytes (sz : Size) (rs : List (Fin 16)) : Long := BitVec.ofNat 32 (rs.length * sizeBytes sz)

/-- MOVEM, registers to memory (R186). In the predecrement form An changes at the end; if a transfer is aborted
it is old or new (U3). -/
def execMovemStore (sz : AddrSize) (mask : Word) (ea : Ea) (s : State) : Host.Outcome State Fault Refusal :=
  runInstr (do
    modify (State.advance 2)
    match ea with
    | .preDec n =>
      let s ← get
      let a := s.areg n
      let rs := (maskBits mask).map downRegister
      let final := State.setA n (a - listBytes sz.toSize rs)
      onAbort (storeDown sz.toSize rs a) (State.maybe final)
      modify final
    | _ =>
      let a ← eaAddress ea
      storeUp sz.toSize (maskBits mask) a) s

/-- MOVEM, memory to registers (R186): after the last transfer one more word is read and discarded; in the
postincrement form An is then the address after the last operand. -/
def execMovemLoad (sz : AddrSize) (mask : Word) (ea : Ea) (s : State) : Host.Outcome State Fault Refusal :=
  runInstr (do
    modify (State.advance 2)
    let rs := maskBits mask
    match ea with
    | .postInc n =>
      let s ← get
      let a := s.areg n
      let final := State.setA n (a + listBytes sz.toSize rs)
      onAbort (do
        loadUp sz.toSize .data rs a
        let _ ← readMem .data (a + listBytes sz.toSize rs) .word
        pure ()) (State.maybe final)
      modify final
    | _ =>
      let loc ← resolveEa ea sz.toSize
      loadUp sz.toSize loc.space rs loc.address
      let _ ← readMem loc.space (loc.address + listBytes sz.toSize rs) .word
      pure ()) s

/-! MOVEP (R188): the bytes of a register, the most significant first, at every other address. -/

/-- The bytes of the register part that takes part, the most significant first. -/
def movepBytes (sz : AddrSize) (v : Long) : List Byte :=
  match sz with
  | .word => [v.extractLsb' 8 8, v.extractLsb' 0 8]
  | .long => [v.extractLsb' 24 8, v.extractLsb' 16 8, v.extractLsb' 8 8, v.extractLsb' 0 8]

/-- Bytes stored at every other address. -/
def storeAlternate : List Byte → Long → Exec Unit
  | [], _ => pure ()
  | b :: bs, a => do
    writeMem a .byte (b.setWidth 32)
    storeAlternate bs (a + 2)

/-- Bytes read at every other address after those of `acc`, shifted in from the right. -/
def loadAlternate : Nat → Long → Long → Exec Long
  | 0, _, acc => pure acc
  | k + 1, a, acc => do
    let b ← readMem .data a .byte
    loadAlternate k (a + 2) ((acc <<< 8) ||| b)

/-- MOVEP, register to memory. -/
def movepStore (sz : AddrSize) (dn an : Reg) (d : Word) : Exec Unit := do
  modify (State.advance 2)
  let s ← get
  storeAlternate (movepBytes sz (s.dreg dn)) (s.areg an + sextWord d)

/-- MOVEP, memory to register: the register is written when all bytes have been read. -/
def movepLoad (sz : AddrSize) (dn an : Reg) (d : Word) : Exec Unit := do
  modify (State.advance 2)
  let s ← get
  let v ← loadAlternate (sizeBytes sz.toSize) (s.areg an + sextWord d) 0
  modify (State.setD sz.toSize dn v)

/-- MOVEP.W, memory to register (R188). -/
def execMovepLoadWord (dn an : Reg) (d : Word) (s : State) : Host.Outcome State Fault Refusal :=
  runInstr (movepLoad .word dn an d) s

/-- MOVEP.L, memory to register (R188). -/
def execMovepLoadLong (dn an : Reg) (d : Word) (s : State) : Host.Outcome State Fault Refusal :=
  runInstr (movepLoad .long dn an d) s

/-- MOVEP.W, register to memory (R188). -/
def execMovepStoreWord (dn an : Reg) (d : Word) (s : State) : Host.Outcome State Fault Refusal :=
  runInstr (movepStore .word dn an d) s

/-- MOVEP.L, register to memory (R188). -/
def execMovepStoreLong (dn an : Reg) (d : Word) (s : State) : Host.Outcome State Fault Refusal :=
  runInstr (movepStore .long dn an d) s

end Sys2Proof.Machine
end

