-- ==== Sys2Proof/Machine/Logic.lean ====
section
/-! DEFINITION. Logical instructions (43_logical). The forms on CCR and SR are in System.lean. -/

namespace Sys2Proof.Machine

open Sys2Proof

/-- AND of two operands (R262, R261). -/
def andAlu : Alu := fun sz old src dst => logicAlu sz old (dst &&& src)

/-- OR of two operands (R264, R261). -/
def orAlu : Alu := fun sz old src dst => logicAlu sz old (dst ||| src)

/-- EOR of two operands (R266, R261). -/
def eorAlu : Alu := fun sz old src dst => logicAlu sz old (dst ^^^ src)

/-- AND `<ea>, Dn` (R262). -/
def execAndToReg (sz : Size) (ea : Ea) (dn : Reg) (s : State) : Host.Outcome State Fault Refusal :=
  runInstr (aluToReg andAlu sz ea dn) s

/-- AND `Dn, <ea>` (R262). -/
def execAndToMem (sz : Size) (dn : Reg) (ea : Ea) (s : State) : Host.Outcome State Fault Refusal :=
  runInstr (aluToMem andAlu sz dn ea) s

/-- ANDI (R263). -/
def execAndi (sz : Size) (imm : Long) (ea : Ea) (s : State) : Host.Outcome State Fault Refusal :=
  runInstr (aluImm andAlu sz imm ea) s

/-- OR `<ea>, Dn` (R264). -/
def execOrToReg (sz : Size) (ea : Ea) (dn : Reg) (s : State) : Host.Outcome State Fault Refusal :=
  runInstr (aluToReg orAlu sz ea dn) s

/-- OR `Dn, <ea>` (R264). -/
def execOrToMem (sz : Size) (dn : Reg) (ea : Ea) (s : State) : Host.Outcome State Fault Refusal :=
  runInstr (aluToMem orAlu sz dn ea) s

/-- ORI (R265). -/
def execOri (sz : Size) (imm : Long) (ea : Ea) (s : State) : Host.Outcome State Fault Refusal :=
  runInstr (aluImm orAlu sz imm ea) s

/-- EOR `Dn, <ea>` (R266). -/
def execEorToEa (sz : Size) (dn : Reg) (ea : Ea) (s : State) : Host.Outcome State Fault Refusal :=
  runInstr (aluToMem eorAlu sz dn ea) s

/-- EORI (R267). -/
def execEori (sz : Size) (imm : Long) (ea : Ea) (s : State) : Host.Outcome State Fault Refusal :=
  runInstr (aluImm eorAlu sz imm ea) s

/-- NOT (R268). -/
def execNotEa (sz : Size) (ea : Ea) (s : State) : Host.Outcome State Fault Refusal :=
  runInstr (unaryOnEa (fun sz old v => logicAlu sz old (trunc sz (~~~v))) sz ea) s

end Sys2Proof.Machine
end

