-- ==== Sys2Proof/Machine/Shift.lean ====
section
/-! DEFINITION. Shifts and rotates (44_shift_rotate). -/

namespace Sys2Proof.Machine

open Sys2Proof

/-- The count of a register shift (R281): 0 in the operation word means 8; a register gives its low six bits. -/
def State.shiftCount (s : State) : ShiftCount → Nat
  | .imm k => if k.val = 0 then 8 else k.val
  | .reg n => (s.dreg n).toNat % 64

/-- The register form (R282). -/
def shiftReg (k : ShiftKind) (sz : Size) (count : ShiftCount) (dn : Reg) : Exec Unit :=
  modify fun s =>
    let (r, cc) := shiftAlu k sz (s.shiftCount count) s.sr.ccr (trunc sz (s.dreg dn))
    (s.setD sz dn r).setCcr cc

/-- The memory form (R292): a word, one step, read then written at the same address. -/
def shiftMem (k : ShiftKind) (ea : Ea) : Exec Unit :=
  unaryOnEa (fun sz old v => shiftAlu k sz 1 old v) .word ea

/-- ASR, register form (R285). -/
def execAsrReg (sz : Size) (count : ShiftCount) (dn : Reg) (s : State) : Host.Outcome State Fault Refusal :=
  runInstr (shiftReg .asr sz count dn) s

/-- ASR, memory form (R285, R292). -/
def execAsrMem (ea : Ea) (s : State) : Host.Outcome State Fault Refusal := runInstr (shiftMem .asr ea) s

/-- ASL, register form (R284). -/
def execAslReg (sz : Size) (count : ShiftCount) (dn : Reg) (s : State) : Host.Outcome State Fault Refusal :=
  runInstr (shiftReg .asl sz count dn) s

/-- ASL, memory form (R284, R292). -/
def execAslMem (ea : Ea) (s : State) : Host.Outcome State Fault Refusal := runInstr (shiftMem .asl ea) s

/-- LSR, register form (R287). -/
def execLsrReg (sz : Size) (count : ShiftCount) (dn : Reg) (s : State) : Host.Outcome State Fault Refusal :=
  runInstr (shiftReg .lsr sz count dn) s

/-- LSR, memory form (R287, R292). -/
def execLsrMem (ea : Ea) (s : State) : Host.Outcome State Fault Refusal := runInstr (shiftMem .lsr ea) s

/-- LSL, register form (R286). -/
def execLslReg (sz : Size) (count : ShiftCount) (dn : Reg) (s : State) : Host.Outcome State Fault Refusal :=
  runInstr (shiftReg .lsl sz count dn) s

/-- LSL, memory form (R286, R292). -/
def execLslMem (ea : Ea) (s : State) : Host.Outcome State Fault Refusal := runInstr (shiftMem .lsl ea) s

/-- ROXR, register form (R291). -/
def execRoxrReg (sz : Size) (count : ShiftCount) (dn : Reg) (s : State) : Host.Outcome State Fault Refusal :=
  runInstr (shiftReg .roxr sz count dn) s

/-- ROXR, memory form (R291, R292). -/
def execRoxrMem (ea : Ea) (s : State) : Host.Outcome State Fault Refusal := runInstr (shiftMem .roxr ea) s

/-- ROXL, register form (R290). -/
def execRoxlReg (sz : Size) (count : ShiftCount) (dn : Reg) (s : State) : Host.Outcome State Fault Refusal :=
  runInstr (shiftReg .roxl sz count dn) s

/-- ROXL, memory form (R290, R292). -/
def execRoxlMem (ea : Ea) (s : State) : Host.Outcome State Fault Refusal := runInstr (shiftMem .roxl ea) s

/-- ROR, register form (R289). -/
def execRorReg (sz : Size) (count : ShiftCount) (dn : Reg) (s : State) : Host.Outcome State Fault Refusal :=
  runInstr (shiftReg .ror sz count dn) s

/-- ROR, memory form (R289, R292). -/
def execRorMem (ea : Ea) (s : State) : Host.Outcome State Fault Refusal := runInstr (shiftMem .ror ea) s

/-- ROL, register form (R288). -/
def execRolReg (sz : Size) (count : ShiftCount) (dn : Reg) (s : State) : Host.Outcome State Fault Refusal :=
  runInstr (shiftReg .rol sz count dn) s

/-- ROL, memory form (R288, R292). -/
def execRolMem (ea : Ea) (s : State) : Host.Outcome State Fault Refusal := runInstr (shiftMem .rol ea) s

end Sys2Proof.Machine
end

