-- ==== Sys2Proof/Machine/System.lean ====
section
/-! DEFINITION. System control (48_system_control). -/

namespace Sys2Proof.Machine

open Sys2Proof

/-- The status register changed by a logical operation on its 16 bits (R348, R351, R353, R355). -/
def srLogic (f : Word → Word → Word) (imm : Word) : Exec Unit := modify fun s =>
  (s.advance 2).setSr (StatusRegister.ofWord (f s.sr.toWord imm))

/-- The condition codes changed by a logical operation on the user byte (R350, R352, R354). -/
def ccrLogic (f : Word → Word → Word) (imm : Byte) : Exec Unit := modify fun s =>
  (s.advance 2).setCcr (Ccr.ofWord (f (BitVec.ofNat 16 s.sr.ccr.toNat) (imm.setWidth 16)))

/-- ANDI to CCR (R350). -/
def execAndiToCcr (imm : Byte) (s : State) : Host.Outcome State Fault Refusal :=
  runInstr (ccrLogic (fun a b => a &&& b) imm) s

/-- EORI to CCR (R352). -/
def execEoriToCcr (imm : Byte) (s : State) : Host.Outcome State Fault Refusal :=
  runInstr (ccrLogic (fun a b => a ^^^ b) imm) s

/-- ORI to CCR (R354). -/
def execOriToCcr (imm : Byte) (s : State) : Host.Outcome State Fault Refusal :=
  runInstr (ccrLogic (fun a b => a ||| b) imm) s

/-- ANDI to SR (R351). -/
def execAndiToSr (imm : Word) (s : State) : Host.Outcome State Fault Refusal :=
  runPrivileged (srLogic (fun a b => a &&& b) imm) s

/-- EORI to SR (R353). -/
def execEoriToSr (imm : Word) (s : State) : Host.Outcome State Fault Refusal :=
  runPrivileged (srLogic (fun a b => a ^^^ b) imm) s

/-- ORI to SR (R355). -/
def execOriToSr (imm : Word) (s : State) : Host.Outcome State Fault Refusal :=
  runPrivileged (srLogic (fun a b => a ||| b) imm) s

/-- MOVE from SR (R345): not privileged; a memory destination is read before it is written. -/
def execMoveFromSr (ea : Ea) (s : State) : Host.Outcome State Fault Refusal :=
  runInstr (do
    let loc ← resolveEa ea .word
    let _ ← rd loc .word
    let s ← get
    wr loc .word (s.sr.toWord.setWidth 32)) s

/-- MOVE to CCR (R347): a word of which the low five bits are used. -/
def execMoveToCcr (ea : Ea) (s : State) : Host.Outcome State Fault Refusal :=
  runInstr (do
    let w ← readEa ea .word
    modify (State.setCcr (Ccr.ofWord (lowWord w)))) s

/-- MOVE to SR (R346). -/
def execMoveToSr (ea : Ea) (s : State) : Host.Outcome State Fault Refusal :=
  runPrivileged (flagsOldOrNew (do
    let w ← readEa ea .word
    modify (State.setSr (StatusRegister.ofWord (lowWord w))))) s

/-- MOVE An, USP (R349). -/
def execMoveToUsp (an : Reg) (s : State) : Host.Outcome State Fault Refusal :=
  runPrivileged (modify fun s => { s with usp := s.areg an }) s

/-- MOVE USP, An (R349). -/
def execMoveFromUsp (an : Reg) (s : State) : Host.Outcome State Fault Refusal :=
  runPrivileged (modify fun s => s.setA an s.usp) s

/-- RESET (R342, R493): the RESET line is pulsed, nothing in the processor changes. -/
def execResetDevices (s : State) : Host.Outcome State Fault Refusal :=
  runPrivileged (modify fun s => { s with resetPulses := s.resetPulses + 1 }) s

/-- STOP (R344): SR from the immediate, then the stopped state (R480). -/
def execStop (imm : Word) (s : State) : Host.Outcome State Fault Refusal :=
  runPrivileged (modify fun s =>
    { (s.advance 2).setSr (StatusRegister.ofWord imm) with procState := .stopped, prefetch := [] }) s

/-- RTE (R343). -/
def execRte (s : State) : Host.Outcome State Fault Refusal := runPrivileged returnFromException s

/-- TRAP (R356). -/
def execTrap (v : Fin 16) (s : State) : Host.Outcome State Fault Refusal :=
  runInstr (do
    let s ← get
    takeException (.trap v) s.pc) s

/-- TRAPV (R357). -/
def execTrapv (s : State) : Host.Outcome State Fault Refusal :=
  runInstr (do
    let s ← get
    if s.sr.ccr.v then takeException .trapv s.pc) s

/-- CHK (R358): Z, V and C are free in every case, N is defined only when the trap is taken. -/
def execChk (ea : Ea) (dn : Reg) (s : State) : Host.Outcome State Fault Refusal :=
  runInstr (do
    let bound ← readEa ea .word
    let s ← get
    let v := lowWord (s.dreg dn)
    let z ← drawBit
    let o ← drawBit
    let c ← drawBit
    if v.toInt < 0 then
      modify fun s => s.setCcr { x := s.sr.ccr.x, n := true, z := z, v := o, c := c }
      takeException .chk s.pc
    else if (lowWord bound).toInt < v.toInt then
      modify fun s => s.setCcr { x := s.sr.ccr.x, n := false, z := z, v := o, c := c }
      takeException .chk s.pc
    else
      let n ← drawBit
      modify fun s => s.setCcr { x := s.sr.ccr.x, n := n, z := z, v := o, c := c }) s

end Sys2Proof.Machine
end

