-- ==== Sys2Proof/Machine/Dispatch.lean ====
section
/-! DEFINITION. The meaning of every instruction, one arm per constructor. -/

namespace Sys2Proof.Machine

open Sys2Proof

def exec (i : Instr) (s : State) : Host.Outcome State Fault Refusal :=
  match i with
  | .ori sz imm ea => Sys2Proof.Machine.execOri sz imm ea s
  | .andi sz imm ea => Sys2Proof.Machine.execAndi sz imm ea s
  | .subi sz imm ea => Sys2Proof.Machine.execSubi sz imm ea s
  | .addi sz imm ea => Sys2Proof.Machine.execAddi sz imm ea s
  | .eori sz imm ea => Sys2Proof.Machine.execEori sz imm ea s
  | .cmpi sz imm ea => Sys2Proof.Machine.execCmpi sz imm ea s
  | .oriToCcr imm => Sys2Proof.Machine.execOriToCcr imm s
  | .oriToSr imm => Sys2Proof.Machine.execOriToSr imm s
  | .andiToCcr imm => Sys2Proof.Machine.execAndiToCcr imm s
  | .andiToSr imm => Sys2Proof.Machine.execAndiToSr imm s
  | .eoriToCcr imm => Sys2Proof.Machine.execEoriToCcr imm s
  | .eoriToSr imm => Sys2Proof.Machine.execEoriToSr imm s
  | .btstStatic b ea => Sys2Proof.Machine.execBtstStatic b ea s
  | .btstDynamic dn ea => Sys2Proof.Machine.execBtstDynamic dn ea s
  | .bchgStatic b ea => Sys2Proof.Machine.execBchgStatic b ea s
  | .bchgDynamic dn ea => Sys2Proof.Machine.execBchgDynamic dn ea s
  | .bclrStatic b ea => Sys2Proof.Machine.execBclrStatic b ea s
  | .bclrDynamic dn ea => Sys2Proof.Machine.execBclrDynamic dn ea s
  | .bsetStatic b ea => Sys2Proof.Machine.execBsetStatic b ea s
  | .bsetDynamic dn ea => Sys2Proof.Machine.execBsetDynamic dn ea s
  | .movepLoadWord dn an d => Sys2Proof.Machine.execMovepLoadWord dn an d s
  | .movepLoadLong dn an d => Sys2Proof.Machine.execMovepLoadLong dn an d s
  | .movepStoreWord dn an d => Sys2Proof.Machine.execMovepStoreWord dn an d s
  | .movepStoreLong dn an d => Sys2Proof.Machine.execMovepStoreLong dn an d s
  | .moveByte src dst => Sys2Proof.Machine.execMoveByte src dst s
  | .moveWord src dst => Sys2Proof.Machine.execMoveWord src dst s
  | .moveaWord src an => Sys2Proof.Machine.execMoveaWord src an s
  | .moveLong src dst => Sys2Proof.Machine.execMoveLong src dst s
  | .moveaLong src an => Sys2Proof.Machine.execMoveaLong src an s
  | .negx sz ea => Sys2Proof.Machine.execNegx sz ea s
  | .moveFromSr ea => Sys2Proof.Machine.execMoveFromSr ea s
  | .chk ea dn => Sys2Proof.Machine.execChk ea dn s
  | .lea ea an => Sys2Proof.Machine.execLea ea an s
  | .clr sz ea => Sys2Proof.Machine.execClr sz ea s
  | .neg sz ea => Sys2Proof.Machine.execNeg sz ea s
  | .moveToCcr ea => Sys2Proof.Machine.execMoveToCcr ea s
  | .notEa sz ea => Sys2Proof.Machine.execNotEa sz ea s
  | .moveToSr ea => Sys2Proof.Machine.execMoveToSr ea s
  | .nbcd ea => Sys2Proof.Machine.execNbcd ea s
  | .swap dn => Sys2Proof.Machine.execSwap dn s
  | .pea ea => Sys2Proof.Machine.execPea ea s
  | .extReg sz dn => Sys2Proof.Machine.execExtReg sz dn s
  | .movemStore sz mask ea => Sys2Proof.Machine.execMovemStore sz mask ea s
  | .tst sz ea => Sys2Proof.Machine.execTst sz ea s
  | .tas ea => Sys2Proof.Machine.execTas ea s
  | .movemLoad sz mask ea => Sys2Proof.Machine.execMovemLoad sz mask ea s
  | .trap v => Sys2Proof.Machine.execTrap v s
  | .link an d => Sys2Proof.Machine.execLink an d s
  | .unlk an => Sys2Proof.Machine.execUnlk an s
  | .moveToUsp an => Sys2Proof.Machine.execMoveToUsp an s
  | .moveFromUsp an => Sys2Proof.Machine.execMoveFromUsp an s
  | .resetDevices => Sys2Proof.Machine.execResetDevices s
  | .nop => Sys2Proof.Machine.execNop s
  | .stop imm => Sys2Proof.Machine.execStop imm s
  | .rte => Sys2Proof.Machine.execRte s
  | .rts => Sys2Proof.Machine.execRts s
  | .trapv => Sys2Proof.Machine.execTrapv s
  | .rtr => Sys2Proof.Machine.execRtr s
  | .jsr ea => Sys2Proof.Machine.execJsr ea s
  | .jmp ea => Sys2Proof.Machine.execJmp ea s
  | .addq q sz ea => Sys2Proof.Machine.execAddq q sz ea s
  | .subq q sz ea => Sys2Proof.Machine.execSubq q sz ea s
  | .scc cond ea => Sys2Proof.Machine.execScc cond ea s
  | .dbcc cond dn d => Sys2Proof.Machine.execDbcc cond dn d s
  | .bra d => Sys2Proof.Machine.execBra d s
  | .bsr d => Sys2Proof.Machine.execBsr d s
  | .bcc cond d => Sys2Proof.Machine.execBcc cond d s
  | .moveq dn d => Sys2Proof.Machine.execMoveq dn d s
  | .orToReg sz ea dn => Sys2Proof.Machine.execOrToReg sz ea dn s
  | .orToMem sz dn ea => Sys2Proof.Machine.execOrToMem sz dn ea s
  | .divu ea dn => Sys2Proof.Machine.execDivu ea dn s
  | .divs ea dn => Sys2Proof.Machine.execDivs ea dn s
  | .sbcd mem ry rx => Sys2Proof.Machine.execSbcd mem ry rx s
  | .subToReg sz ea dn => Sys2Proof.Machine.execSubToReg sz ea dn s
  | .subToMem sz dn ea => Sys2Proof.Machine.execSubToMem sz dn ea s
  | .suba sz ea an => Sys2Proof.Machine.execSuba sz ea an s
  | .subx sz mem ry rx => Sys2Proof.Machine.execSubx sz mem ry rx s
  | .cmp sz ea dn => Sys2Proof.Machine.execCmp sz ea dn s
  | .cmpa sz ea an => Sys2Proof.Machine.execCmpa sz ea an s
  | .eorToEa sz dn ea => Sys2Proof.Machine.execEorToEa sz dn ea s
  | .cmpm sz ay ax => Sys2Proof.Machine.execCmpm sz ay ax s
  | .andToReg sz ea dn => Sys2Proof.Machine.execAndToReg sz ea dn s
  | .andToMem sz dn ea => Sys2Proof.Machine.execAndToMem sz dn ea s
  | .mulu ea dn => Sys2Proof.Machine.execMulu ea dn s
  | .muls ea dn => Sys2Proof.Machine.execMuls ea dn s
  | .abcd mem ry rx => Sys2Proof.Machine.execAbcd mem ry rx s
  | .exgData rx ry => Sys2Proof.Machine.execExgData rx ry s
  | .exgAddr rx ry => Sys2Proof.Machine.execExgAddr rx ry s
  | .exgDataAddr rx ry => Sys2Proof.Machine.execExgDataAddr rx ry s
  | .addToReg sz ea dn => Sys2Proof.Machine.execAddToReg sz ea dn s
  | .addToMem sz dn ea => Sys2Proof.Machine.execAddToMem sz dn ea s
  | .adda sz ea an => Sys2Proof.Machine.execAdda sz ea an s
  | .addx sz mem ry rx => Sys2Proof.Machine.execAddx sz mem ry rx s
  | .asrReg sz count dn => Sys2Proof.Machine.execAsrReg sz count dn s
  | .asrMem ea => Sys2Proof.Machine.execAsrMem ea s
  | .aslReg sz count dn => Sys2Proof.Machine.execAslReg sz count dn s
  | .aslMem ea => Sys2Proof.Machine.execAslMem ea s
  | .lsrReg sz count dn => Sys2Proof.Machine.execLsrReg sz count dn s
  | .lsrMem ea => Sys2Proof.Machine.execLsrMem ea s
  | .lslReg sz count dn => Sys2Proof.Machine.execLslReg sz count dn s
  | .lslMem ea => Sys2Proof.Machine.execLslMem ea s
  | .roxrReg sz count dn => Sys2Proof.Machine.execRoxrReg sz count dn s
  | .roxrMem ea => Sys2Proof.Machine.execRoxrMem ea s
  | .roxlReg sz count dn => Sys2Proof.Machine.execRoxlReg sz count dn s
  | .roxlMem ea => Sys2Proof.Machine.execRoxlMem ea s
  | .rorReg sz count dn => Sys2Proof.Machine.execRorReg sz count dn s
  | .rorMem ea => Sys2Proof.Machine.execRorMem ea s
  | .rolReg sz count dn => Sys2Proof.Machine.execRolReg sz count dn s
  | .rolMem ea => Sys2Proof.Machine.execRolMem ea s

end Sys2Proof.Machine
end

