-- ==== Sys2Proof/Machine/Fetch.lean ====
section
/-! DEFINITION. Between instructions (R429): the platform's input, interrupts, the fetch of an instruction, what is
read ahead of it, and the trace exception after it. -/

namespace Sys2Proof.Machine

open Sys2Proof

/-- The privileged instructions (R341). -/
def isPrivileged : Instr → Bool
  | .stop _ | .resetDevices | .rte | .moveToSr _ | .andiToSr _ | .eoriToSr _ | .oriToSr _
  | .moveToUsp _ | .moveFromUsp _ => true
  | _ => false

/-- What is read ahead from an address, if anything is (R95). -/
def State.aheadAt (s : State) (a : Long) : Option AheadWord :=
  s.prefetch.find? fun e => decide (e.addr = a) && aligned a .word

/-- The word read ahead from an address, if there is one. -/
def State.readAheadAt (s : State) (a : Long) : Option Word := (s.aheadAt a).map fun e => e.word

/-- Has a bus cycle read ahead the word at an address (R503 b, c)? -/
def State.surelyRead (s : State) (a : Long) : Bool := (s.aheadAt a).any fun e => e.read

/-- What memory has for an instruction word, if its fetch completes by the maps alone. -/
def State.fetchable (s : State) (a : Long) : Option Word :=
  if s.canAccess .program .read a .word then some (s.wordAt (s.code .program) a) else none

/-- The fetch of one instruction word. A word that a bus cycle has read ahead is used as it is, whatever S is now (R503 c).
Where nothing has shown whether one has, and the word differs from what memory has now, or its fetch would show on the bus,
either it has been read ahead and is used, or it is fetched only now (R95, D6). -/
def fetchWord (a : Long) : Exec Word := fun s =>
  match s.aheadAt a with
  | none => (do let v ← readMem .program a .word; pure (lowWord v)) s
  | some e =>
    if e.read = true ∨ s.fetchable a = some e.word then .ok e.word s
    else
      (do
        let ahead ← drawBit
        if ahead then pure e.word
        else do
          let v ← readMem .program a .word
          pure (lowWord v)) s

/-- Instruction words fetched, and what cut the fetches short, if anything did. -/
structure Fetched where
  words : List Word
  state : State
  error : Option Abort

/-- Several words from an address up, to the first that cannot be fetched. -/
def fetchWords : Nat → Long → State → Fetched
  | 0, _, s => { words := [], state := s, error := none }
  | k + 1, a, s =>
    match fetchWord a s with
    | .error e s' => { words := [], state := s', error := some e }
    | .ok w s' =>
      let f := fetchWords k (a + 2) s'
      { f with words := w :: f.words }

/-- The words read ahead from an address up, and which of them a bus cycle has read. -/
def aheadWords (read : Long → Bool) (a : Long) : List Word → List AheadWord
  | [] => []
  | w :: ws => { addr := a, word := w, read := read a } :: aheadWords read (a + 2) ws

/-- How many words PREFETCH_WINDOW is (R95). -/
def State.windowWords (s : State) : Nat := s.prefetchWindow / 2

/-- How many of some words from an address up reach to the last that a bus cycle has read ahead. -/
def State.surelyAhead (s : State) : Nat → Long → Nat
  | 0, _ => 0
  | k + 1, a =>
    match s.surelyAhead k (a + 2) with
    | 0 => if s.surelyRead a then 1 else 0
    | n + 1 => n + 2

/-- The words read ahead from an address, of the number that the window allows (R95, R96): all if they can be read by the
maps alone, since nothing shows then whether they were, and those that a bus cycle has read before stay so; else a free
number, each by a real bus cycle (R503 b), but not fewer than a bus cycle has read before (R503 c). -/
def State.readAhead (s : State) (window : Nat) (next : Long) : Fetched :=
  let all := fetchWords window next s
  if s.quiet && all.error.isNone then
    { all with state := { all.state with prefetch := aheadWords s.surelyRead next all.words } }
  else
    let least := s.surelyAhead window next
    let f := fetchWords (least + Config.freeChoice s.drawCount % (window - least + 1)) next
      { s with drawCount := s.drawCount + 1 }
    { f with state := { f.state with prefetch := aheadWords (fun _ => true) next f.words } }

/-- The exception of a word that is no instruction (R442, R443). -/
def decodeException : DecodeError → ExcKind
  | .line1010 => .line1010
  | .line1111 => .line1111
  | .illegal => .illegal
  | .truncated => .illegal

/-- The instruction register at a fault on the fetch of an instruction word (U4): as it is, or another word. -/
def State.openInstrReg (other : Word) (s : State) : State := State.maybe (fun t => { t with instrReg := other }) s

/-- A word of which nothing is known. -/
def State.unknownWord (s : State) : Word := Config.freeWord s.drawCount

/-- The words of memory from an address up, where the program is fetched. -/
def State.wordsAt (s : State) : Nat → Long → List Word
  | 0, _ => []
  | k + 1, a => s.wordAt (s.code .program) a :: s.wordsAt k (a + 2)

/-- The words of the window at the program counter read ahead from memory, unless it is odd. -/
def State.withTarget (s : State) : State :=
  { s with prefetch := if aligned s.pc .word then aheadWords (fun _ => false) s.pc (s.wordsAt s.windowWords s.pc) else [] }

/-- The words at a program counter that was not reached by falling through, read ahead or not before the next boundary
(R503 b, R530): all of the window on a platform that answers everything by DTACK, else as `State.readAhead` says; a bus
error on one of them is taken at once. An odd program counter waits for the fetch (R322). `fuel` bounds how often the
processor goes elsewhere instead: once for the bus error, once for each reset. -/
def readTarget : Nat → State → Host.Outcome State Fault Refusal
  | 0, s => .next s
  | fuel + 1, s =>
    if s.procState = .normal ∧ s.prefetch = [] then
      if s.quiet && s.busMap.isEmpty then .next s.withTarget
      else if aligned s.pc .word then
        let ahead := s.readAhead s.windowWords s.pc
        match ahead.error with
        | none => .next ahead.state
        | some e =>
          match abortOutcome e (ahead.state.openInstrReg ahead.state.unknownWord) with
          | .next t => readTarget fuel t
          | other => other
      else .next s
    else .next s

/-- What the processor does after an instruction or an exception, before anything else can happen. -/
def State.settle (s : State) : Host.Outcome State Fault Refusal := readTarget (s.cycles.length + 2) s

/-- An outcome, the words at the program counter read ahead or not. -/
def settled (outcome : Host.Outcome State Fault Refusal) : Host.Outcome State Fault Refusal :=
  match outcome with
  | .next t => t.settle
  | other => other

/-- The trace exception, if it is still to come (R470). -/
def traceAfter (outcome : Host.Outcome State Fault Refusal) : Host.Outcome State Fault Refusal :=
  match outcome with
  | .next t => if t.traceAtStart then finish (takeException .trace t.pc t) else .next t
  | other => other

/-- After an instruction that was executed with T set at its start, the trace exception (R470). A bus error on a word at
the target of a jump may come before it (R503 b). -/
def afterInstr (outcome : Host.Outcome State Fault Refusal) : Host.Outcome State Fault Refusal :=
  match outcome with
  | .next t => if t.traceAtStart then traceAfter t.settle else .next t
  | other => other

/-- The address of the operation word after an instruction, if it falls through. -/
def State.nextPc (s : State) (i : Instr) : Long := s.pc + BitVec.ofNat 32 (2 * i.words)

/-- What a bus error on an instruction word leaves of an instruction that did all it had to do before it: what was written
after the last bus cycle is old or new (U3). If it came earlier, or a fault of the instruction's own did, nothing is left
to do. -/
def fetchErrorOutcome (outcome : Host.Outcome State Fault Refusal) : Host.Outcome State Fault Refusal :=
  match outcome with
  | .next t =>
    match t.fetchError with
    | none => .next t
    | some e => abortOutcome (.access e.fault) { State.mix e.regs t with instrReg := e.instr }
  | other => other

/-- An instruction goes on after a bus error on one of its words or of those after it: for a free number of bus cycles.
The instruction register will hold the word it holds or `other` (U4). -/
def State.pendingError (f : AccessFault) (other : Word) (s : State) : State :=
  let k := s.drawCount
  { s with
    fetchError := some
      { after := Config.freeChoice k, fault := f, instr := if Config.freeBit k then other else s.instrReg
        regs := s.registers }
    drawCount := k + 1 }

/-- A fetch of an instruction word that fails while an instruction executes (R96, R451). After a bus error either nothing
of the instruction is done, or it goes on for a free number of bus cycles before it is cut short there, with all it has
done by then, addressing steps and transfers among it, done (R163, U3). Where the window of a double fault was open
before the instruction, it is open still by free choice if nothing is done (R455, log 31). -/
def fetchFault (e : Abort) (other : Word) (run : State → Host.Outcome State Fault Refusal) (s : State) :
    Host.Outcome State Fault Refusal :=
  match e with
  | .access f =>
    let k := s.drawCount
    let s' := { s with drawCount := k + 2 }
    if Config.freeBit k then
      abortOutcome e { s'.openInstrReg other with inGroup0 := s.inGroup0 && Config.freeBit (k + 1) }
    else fetchErrorOutcome (run (s'.pendingError f other))
  | _ => abortOutcome e s

/-- How many words may be read ahead while an instruction executes: the window, but none for STOP, which makes no bus
cycle (R532). -/
def State.windowAfter (s : State) : Instr → Nat
  | .stop _ => 0
  | _ => s.windowWords

/-- Does a push of a long word overlap some bytes of the program in memory? -/
def State.pushHits (s : State) (a : Long) (bytes : Nat) : Bool :=
  (List.range 4).any fun j => (List.range bytes).any fun k => decide
    (s.locate (s.code .data) (s.sp - 4 + BitVec.ofNat 32 j) = s.locate (s.code .program) (a + BitVec.ofNat 32 k))

/-- The target of BSR or JSR (R325, R329), if it is even: an odd one waits for its fetch (R322). -/
def State.callTarget (s : State) (i : Instr) : Option Long :=
  let target : Option Long :=
    match i with
    | .bsr d => some (s.beginInstr.pc + branchOffset d)
    | .jsr ea => some (s.beginInstr.resolve ea .long).1.address
    | _ => none
  target.filter fun a => aligned a .word

/-- Does the push of BSR or JSR overlap the words of the window at its target? -/
def State.targetHit (s : State) (i : Instr) : Bool :=
  (s.callTarget i).any fun a => s.pushHits a (2 * s.windowWords)

/-- The words at the target of BSR or JSR read before its push: a free number of the window, since their fetch may or may not
see what is pushed (R95), where the maps do not alone speak or the push overlaps them; else none, since nothing shows. -/
def State.targetAhead (s : State) (i : Instr) : Fetched :=
  match s.callTarget i with
  | none => { words := [], state := s, error := none }
  | some a =>
    if s.quiet && !s.targetHit i then { words := [], state := s, error := none }
    else
      let f := fetchWords (Config.freeChoice s.drawCount % (s.windowWords + 1)) a
        { s with prefetch := [], drawCount := s.drawCount + 1 }
      { f with state := { f.state with prefetch := s.prefetch } }

/-- The outcome of BSR or JSR, of whose target some words were read before the push; a group 0 exception or a reset in it
discards them. -/
def keepTarget (words : List Word) (outcome : Host.Outcome State Fault Refusal) : Host.Outcome State Fault Refusal :=
  match words, outcome with
  | w :: ws, .next t =>
    if t.inGroup0 then .next t else .next { t with prefetch := aheadWords (fun _ => true) t.pc (w :: ws) }
  | _, outcome => outcome

/-- An instruction executed, the words after it read ahead meanwhile (R95, R96), and those at the target of BSR or JSR
perhaps before the push. -/
def runFetched (i : Instr) (s : State) : Host.Outcome State Fault Refusal :=
  let ahead := s.readAhead (s.windowAfter i) (s.nextPc i)
  match ahead.error with
  | some e => fetchFault e ahead.state.unknownWord (exec i) ahead.state
  | none =>
    let first := ahead.state.targetAhead i
    match first.error with
    | some e => fetchFault e first.state.unknownWord (exec i) first.state
    | none => afterInstr (keepTarget first.words (exec i first.state))

/-- A word for which no instruction is executed: illegal or unimplemented, or privileged in user state. The words after
it may have been read ahead as well (R96, R503 b): a bus error on them comes before the exception of the word, and the
window of a double fault stays as it is (log 31). -/
def runUnexecuted (run : State → Host.Outcome State Fault Refusal) (s : State) : Host.Outcome State Fault Refusal :=
  let ahead := s.readAhead s.windowWords (s.pc + 2)
  match ahead.error with
  | none => run ahead.state
  | some e => abortOutcome e (ahead.state.openInstrReg ahead.state.unknownWord)

/-! An instruction whose extension words cannot all be fetched (R451): what it does before it needs them. -/

/-- Free words, in place of words that are not known. -/
def freeWords : Nat → Nat → List Word
  | _, 0 => []
  | k, n + 1 => Config.freeWord k :: freeWords (k + 1) n

/-- The state after a supposed run of the instruction in execution, of which the first words are known, the others free. -/
def State.afterUnknown (s : State) (words : List Word) : State :=
  let t := { s with pc := s.instrAddr, drawCount := s.drawCount + 4 }
  match decode (words ++ freeWords s.drawCount 4) with
  | .ok (i, _) =>
    match exec i t.suppose with
    | .next u => u
    | _ => t
  | .error _ => t

/-- MOVE with only the words of the destination missing: the source is read and the flags are known (R162, R184). -/
def moveBefore (sz : Size) (src : Ea) : Exec Unit := do
  let v ← readEa src sz
  modify fun s => s.setCcr (moveFlags sz s.sr.ccr v)

/-- LINK without its displacement: An is pushed and becomes the stack pointer (R183). -/
def linkBefore (an : Reg) : Exec Unit := do
  let s ← get
  let a := s.sp - 4
  let move := State.setA an a
  onAbort (writeMem a .long (linkValue an s)) (fun s => State.maybe move (State.maybe (State.setSp a) s))
  modify fun s => move (s.setSp a)

/-- What an instruction does before it needs more than its first words. A result that needs a word that was not fetched is
not made; each of its flags is old or what a run with some such word would make it (U3). -/
def bodyBefore (i : Instr) (words : List Word) : Exec Unit :=
  let flags : Exec Unit := modify fun s => s.openFlags (s.afterUnknown words)
  match i with
  | .moveByte src _ => if (eaWords .byte src).length < words.length then moveBefore .byte src else flags
  | .moveWord src _ => if (eaWords .word src).length < words.length then moveBefore .word src else flags
  | .moveLong src _ => if (eaWords .long src).length < words.length then moveBefore .long src else flags
  | .dbcc c dn _ => modify fun s =>
    if condHolds s.sr.ccr c then s else s.setD .word dn ((lowWord (s.dreg dn) - 1).setWidth 32)
  | .link an _ => linkBefore an
  | .bsr _ => do
    let s ← get
    push32 (s.pc + 2)
  | _ => flags

/-- An instruction of which only the first words could be fetched. -/
def runBefore (words : List Word) (s : State) : Host.Outcome State Fault Refusal :=
  match decode (words ++ [0, 0, 0, 0]) with
  | .ok (i, _) => runInstr (bodyBefore i words) s
  | .error _ => .next s

/-! An instruction whose last words are fetched in the middle of it (R91, R503 d). -/

/-- How many words after the operation word an instruction needs before its first access: all but those of the destination
of MOVE (R162, R184) and the displacements of LINK (R183) and BSR (R325). -/
def neededFirst : Instr → Nat
  | .moveByte src _ => (eaWords .byte src).length
  | .moveWord src _ => (eaWords .word src).length
  | .moveLong src _ => (eaWords .long src).length
  | .link .. | .bsr .. => 0
  | i => i.words - 1

/-- At most how many of its other words may be fetched before its first access: PREFETCH_WINDOW (R503 d); for BSR all,
since whether the target is known before the push is open (U15). -/
def State.earlyBound (s : State) (i : Instr) : Nat :=
  let others := i.words - 1 - neededFirst i
  match i with
  | .bsr _ => others
  | _ => min others s.windowWords

/-- The instructions that can push before they need their displacement word: LINK (R183) and BSR (R325, U15). -/
def pushesFirst : Instr → Bool
  | .link .. | .bsr (.long _) => true
  | _ => false

/-- Does what LINK or BSR pushes overlap its own displacement word in memory? -/
def State.pushOverlaps (s : State) (i : Instr) : Bool :=
  pushesFirst i && s.pushHits (s.pc + 2) 2

/-- The words of an instruction fetched before its first access: all if they can be read by the maps alone and its push
does not overlap them, since nothing shows then when they were (log 19); else those needed and a free number of the
others. -/
def State.fetchEarly (s : State) (i : Instr) : Fetched :=
  let all := fetchWords (i.words - 1) (s.pc + 2) s
  if s.quiet && all.error.isNone && !s.pushOverlaps i then all
  else
    fetchWords (neededFirst i + Config.freeChoice s.drawCount % (s.earlyBound i + 1)) (s.pc + 2)
      { s with drawCount := s.drawCount + 1 }

/-- The last words of an instruction fetched after its first access, and the words after it read ahead: the instruction
with all its words. `first` are the words after the operation word that were fetched before; those needed for the first
access lie before the program counter, the others from it on. -/
def fetchRest (before op : Word) (first : List Word) (i : Instr) : Exec Instr := fun s =>
  let next := s.pc + BitVec.ofNat 32 (2 * (first.length - neededFirst i))
  let f := fetchWords (i.words - 1 - first.length) next s
  match f.error with
  | some e => .error e (f.state.openInstrReg before)
  | none =>
    let whole := match decode (op :: (first ++ f.words)) with
      | .ok (j, _) => j
      | .error _ => i
    let ahead := f.state.readAhead s.windowWords (next + BitVec.ofNat 32 (2 * f.words.length))
    match ahead.error with
    | none => .ok whole ahead.state
    | some (.access fault) => .ok whole (ahead.state.pendingError fault ahead.state.unknownWord)
    | some e => .error e ahead.state

/-- The destination of a MOVE. -/
def moveDestination : Instr → Ea
  | .moveByte _ dst => dst
  | .moveWord _ dst => dst
  | .moveLong _ dst => dst
  | _ => .dreg 0

/-- The displacement of LINK, or of BSR with a 16-bit one, sign-extended. -/
def lastDisplacement : Instr → Long
  | .link _ d => sextWord d
  | .bsr d => branchOffset d
  | _ => 0

/-- MOVE whose destination words are fetched after the source is read (R184). -/
def moveLate (sz : Size) (src : Ea) (rest : Exec Instr) : Exec Unit := do
  let v ← readEa src sz
  let i ← rest
  moveStore sz v (moveDestination i)

/-- An instruction that needs its last words only after its first access. -/
def bodyLate (i : Instr) (rest : Exec Instr) : Exec Unit :=
  match i with
  | .moveByte src _ => moveLate .byte src rest
  | .moveWord src _ => moveLate .word src rest
  | .moveLong src _ => moveLate .long src rest
  | .link an _ => do
    let old := (← get).areg an
    linkBefore an
    let whole ← onAbort rest fun s => if an = 7 then s else State.maybe (State.setA an old) s
    modify fun s => (s.setSp (s.sp + lastDisplacement whole)).advance 2
  | .bsr _ => do
    let s ← get
    push32 (s.pc + 2)
    let whole ← rest
    modify fun s => s.jump (s.pc + lastDisplacement whole)
  | _ => pure ()

/-- An instruction whose last words are fetched in the middle of it. -/
def runLate (before op : Word) (first : List Word) (i : Instr) (s : State) : Host.Outcome State Fault Refusal :=
  afterInstr (fetchErrorOutcome (runInstr (bodyLate i (fetchRest before op first i)) s))

/-- An instruction whose operation word has been read, the instruction register having held `before` till then (R429).
The extension words of a privileged instruction in user state are not fetched (R341). -/
def runOperation (before op : Word) (s : State) : Host.Outcome State Fault Refusal :=
  match decodeOp op with
  | .error e => runUnexecuted (fun t => finish (takeException (decodeException e) t.pc t)) s
  | .ok (i, _) =>
    if isPrivileged i && !s.sr.s then runUnexecuted (exec i) s
    else
      let f := s.fetchEarly i
      match f.error with
      | some e => fetchFault e before (runBefore (op :: f.words)) f.state
      | none =>
        match decode (op :: (f.words ++ List.replicate (i.words - 1 - f.words.length) 0)) with
        | .error e => finish (takeException (decodeException e) f.state.pc f.state)
        | .ok (i, _) => if f.words.length < i.words - 1 then runLate before op f.words i f.state else runFetched i f.state

/-- The operation word at the program counter read: it is in the instruction register (R429, R433). -/
def State.withOperation (op : Word) (s : State) : State := { s with instrReg := op, instrAddr := s.pc }

/-- One instruction fetched and executed (R429), the program counter at its operation word; T is remembered (R470). -/
def runNext (s : State) : Host.Outcome State Fault Refusal :=
  match onAbort (fetchWord s.pc) (fun t => t.openInstrReg t.unknownWord) { s with traceAtStart := s.sr.t } with
  | .error e s' => abortOutcome e s'
  | .ok op s' => runOperation s.instrReg op (s'.withOperation op)

/-- The interrupt level sampled (R429, R462): a transition to level 7 is latched. -/
def State.sample (level : Fin 8) (s : State) : State :=
  { s with
    nmi := s.nmi || decide (level = 7 ∧ s.prevIrqLevel ≠ 7)
    prevIrqLevel := level
    pendingIrq := level }

/-- The level of the interrupt taken at a boundary, if one is (R429): the level presented, if it exceeds the mask (R460)
or a transition to 7 is latched (R462). -/
def State.interruptLevel (s : State) : Option (Fin 8) :=
  if s.sr.mask < s.pendingIrq ∨ s.nmi = true then some s.pendingIrq else none

/-- A step in which the processor runs (R429): a halted processor does nothing (R485), one whose bus is lent out
waits (R390), a stopped one waits for an interrupt (R480). -/
def runProcessor (level : Fin 8) (s : State) : Host.Outcome State Fault Refusal :=
  if s.procState = .halted then .next s
  else
    let s := s.sample level
    if s.busOwner = .other then .next s
    else
      match s.interruptLevel with
      | some l => settled (finish (takeException (.interrupt l) s.pc { s with nmi := false }))
      | none => if s.procState = .stopped then .next s else settled (runNext s)

/-- One step under one input of the platform. -/
def stepInput (input : PlatformInput) (s : State) : Host.Outcome State Fault Refusal :=
  match input with
  | .run level => runProcessor level s
  | .externalReset level => settled (runReset s.cycles.length level s)
  | .haltLine => .next s
  | .resetLine => .refused .resetWithoutHalt
  | .busAcquire => .next { s with busOwner := .other }
  | .busWrite w => if s.busOwner = .other then .next (s.masterWrite w) else .next s
  | .busRelease => .next { s with busOwner := .processor }

/-- The input of this step and the state that has taken it; when none is left the interrupt lines stay as they
were last sampled. -/
def State.takeInput (s : State) : PlatformInput × State :=
  match s.inputs with
  | [] => (.run s.pendingIrq, s)
  | x :: xs => (x, { s with inputs := xs })

/-- Words stored as an instruction: from an address up, where the program fetches, whatever the map of answers says. -/
def State.placeWords (s : State) (a : Long) : List Word → State
  | [] => s
  | w :: ws =>
    let c : BusCycle := { code := s.code .program, dir := .write, width := .word, addr := a }
    State.placeWords { s with mem := s.written c w s.mem } (a + 2) ws

end Sys2Proof.Machine
end

