-- ==== Sys2Proof/Machine/Step.lean ====
section
/-! DEFINITION. One step of the machine, and an instruction placed where the next step fetches it. -/

namespace Sys2Proof.Machine

open Sys2Proof

/-- One step (R429, R18): the next input of the platform is taken and the processor does what it does under it. -/
def step (s : State) : Host.Outcome State Fault Refusal := stepInput s.takeInput.1 s.takeInput.2

/-- The state with an instruction stored at the program counter, nothing read ahead and nothing in store for the bus
cycles to come (log 37). -/
def State.withFetchWord (s : State) (nbits w : Nat) : State :=
  { s.placeWords s.pc (tableWords nbits w) with prefetch := [], cycles := [] }

end Sys2Proof.Machine
end

