-- ==== Sys2Proof/Safety.lean ====
section
/-! DEFINITION. The terms in which statements about the machine are written: what an operand location holds, when an
access or an exception goes through, the state after it, and the invariant of the machine between steps. -/

namespace Sys2Proof.Machine

open Sys2Proof

/-! Operands (R160, R161). -/

/-- The value an operand location holds. -/
def Loc.load (loc : Loc) (sz : Size) (s : State) : Long :=
  match loc with
  | .dreg n => trunc sz (s.dreg n)
  | .areg n => trunc sz (s.areg n)
  | .mem sp a => s.loadMem (s.code sp) a sz
  | .imm v => trunc sz v

/-- Reading it goes through: a register, an immediate, or memory that is aligned and answers. -/
def Loc.readable (loc : Loc) (sz : Size) (s : State) : Bool :=
  match loc with
  | .mem sp a => s.canAccess sp .read a sz
  | _ => true

/-- Writing it goes through. -/
def Loc.writable (loc : Loc) (sz : Size) (s : State) : Bool :=
  match loc with
  | .mem _ a => s.canAccess .data .write a sz
  | .imm _ => false
  | _ => true

/-- The state with the location written. -/
def Loc.store (loc : Loc) (sz : Size) (v : Long) (s : State) : State :=
  match loc with
  | .dreg n => s.setD sz n v
  | .areg n => s.setA n (signExtend sz v)
  | .mem _ a => s.storeMem a sz v
  | .imm _ => s

/-- TAS on memory goes through: both halves of the read-modify-write cycle complete (R378), by the maps alone. -/
def State.canRmw (s : State) (a : Long) : Bool :=
  let half (dir : Direction) : BusCycle := { code := s.code .data, dir := dir, width := .byte, addr := a }
  s.quiet && decide (s.cycle true (half .read) = .done) && !s.readsDevice (half .read) &&
    decide (s.cycle true (half .write) = .done)

/-- Nothing but the map of answers says what the platform does: nothing else is in store, no region is a device, and the
run is not one only supposed. -/
def State.plain (s : State) : Bool := s.quiet && !s.supposed && s.busMap.all fun r => !r.device

/-- The location of an operand of an instruction whose operation word has been passed, and the state after it is
resolved. -/
abbrev operand (s : State) (ea : Ea) (sz : Size) : Loc × State := s.resolve ea sz

/-- The same after the instruction's own immediate words. -/
abbrev operandAfter (s : State) (bytes : Long) (ea : Ea) (sz : Size) : Loc × State :=
  (s.beginInstr.advance bytes).resolve ea sz

/-! Lists of transfers (R186, R188). -/

/-- All accesses of a list of transfers at ascending addresses go through. -/
def State.canAccessList (s : State) (sp : Space) (dir : Direction) (sz : Size) (stride : Long) : Nat → Long → Bool
  | 0, _ => true
  | k + 1, a => s.canAccess sp dir a sz && s.canAccessList sp dir sz stride k (a + stride)

/-- Memory after operands are stored one after the other, `stride` apart. -/
def State.storeList (sz : Size) (stride : Long) : List Long → Long → State → State
  | [], _, s => s
  | v :: vs, a, s => State.storeList sz stride vs (a + stride) (s.storeMem a sz v)

/-- Registers after a list of them is loaded from ascending addresses, a word sign-extended. -/
def State.loadList (code : FunctionCode) (sz : Size) : List (Fin 16) → Long → State → State
  | [], _, s => s
  | r :: rs, a, s =>
    State.loadList code sz rs (a + BitVec.ofNat 32 (sizeBytes sz)) (s.setGpr r (signExtend sz (s.loadMem code a sz)))

/-- The bytes at every other address, the first the most significant. -/
def State.bytesAt (s : State) (code : FunctionCode) : Nat → Long → Long → Long
  | 0, _, acc => acc
  | k + 1, a, acc => s.bytesAt code k (a + 2) ((acc <<< 8) ||| (s.byteAt code a).setWidth 32)

/-! Exceptions (R430). -/

/-- The read cycle of a word. -/
def wordRead (code : FunctionCode) (a : Long) : BusCycle := { code := code, dir := .read, width := .word, addr := a }

/-- The two reads of a vector complete. -/
def State.vectorReady (s : State) (n : Nat) : Bool :=
  s.completes (wordRead .supervisorData (vectorAddress n)) &&
    s.completes (wordRead .supervisorData (vectorAddress n + 2))

/-- An exception with a three-word frame goes through: SSP is even, the frame's cycles complete, and so do the two
reads of the vector. -/
def State.exceptionReady (s : State) (n : Nat) : Bool :=
  aligned s.ssp .word && s.canStack (s.ssp - 6) [0, 0, 0] && s.vectorReady n

/-- The state after exception processing (R430): the frame below SSP with the status register at the lowest address,
S set, T cleared, the mask given, PC loaded from the vector. -/
def State.afterException (s : State) (n : Nat) (mask : Fin 8) (stackedPc : Long) (traced : Bool) : State :=
  let base := s.ssp - 6
  let m := s.storeFrame base [s.sr.toWord, highWord stackedPc, lowWord stackedPc]
  { m with
    ssp := base
    pc := m.longAt .supervisorData (vectorAddress n)
    sr := { s.sr with s := true, t := false, mask := mask }
    srCopy := s.sr
    procState := .normal
    prefetch := []
    traceAtStart := traced }

/-- A group 0 exception comes, the run not being one only supposed, and goes through (R452). -/
def State.group0Ready (s : State) (n : Nat) : Bool :=
  !s.supposed && aligned s.ssp .word && s.canStack (s.ssp - 14) [0, 0, 0, 0, 0, 0, 0] && s.vectorReady n

/-- The state after group 0 exception processing (R450 to R452): seven words below SSP, from the lowest address the
word with R/W, I/N and function code, the access address, the instruction register, the status register, PC. -/
def State.afterGroup0 (s : State) (f : AccessFault) (first : Word) (stackedPc : Long) : State :=
  let base := s.ssp - 14
  let m := s.storeFrame base [first, highWord f.addr, lowWord f.addr, s.instrReg, s.sr.toWord, highWord stackedPc,
    lowWord stackedPc]
  { m with
    ssp := base
    pc := m.longAt .supervisorData (vectorAddress f.kind.vector)
    sr := { s.sr with s := true, t := false }
    srCopy := s.sr
    procState := .normal
    prefetch := []
    traceAtStart := false
    inGroup0 := true
    drawCount := s.drawCount + 2 }

/-- An outcome is the group 0 exception of an access fault of an instruction, taken from a state, its free parts any: bits
15-5 of the first word (D13), and a stacked PC of 2 to 10 bytes beyond the address of the instruction (D8). -/
def State.TakesGroup0 (s : State) (f : AccessFault) (instr : Long) (outcome : Host.Outcome State Fault Refusal) : Prop :=
  ∃ (top : Word) (k count : Nat), k < 5 ∧
    outcome =
      .next ({ s with drawCount := count }.afterGroup0 f
        ((top.extractLsb' 0 11 : BitVec 11) ++ BitVec.ofBool (f.dir = Direction.read) ++ (0 : BitVec 1) ++
          BitVec.ofNat 3 f.code.toNat)
        (instr + BitVec.ofNat 32 (2 + 2 * k)))

/-- Each of the condition codes is as in one of two others (U3). -/
def Ccr.between (cc old new : Ccr) : Prop :=
  (cc.x = old.x ∨ cc.x = new.x) ∧ (cc.n = old.n ∨ cc.n = new.n) ∧ (cc.z = old.z ∨ cc.z = new.z) ∧
  (cc.v = old.v ∨ cc.v = new.v) ∧ (cc.c = old.c ∨ cc.c = new.c)

/-- A number below `2^n` turned left by `j` places out of `n` (R288 to R291). -/
def turnLeft (n j v : Nat) : Nat := v * 2 ^ j % 2 ^ n + v / 2 ^ (n - j)

/-- Everything of the processor and the platform but what is listed is the same: the condition codes, PC, the data
registers `ds`, the address registers `as` (number 7 is the active stack pointer), memory, and the model's
record of where it is (`instrAddr`, `inGroup0`, `prefetch`). -/
def State.sameButRegs (ds as : List Reg) (s t : State) : Prop :=
  (∀ n : Reg, n ∉ ds → t.dreg n = s.dreg n) ∧
  (∀ n : Reg, n ∉ as → t.areg n = s.areg n) ∧
  (s.sr.s = true → t.usp = s.usp) ∧ (s.sr.s = false → t.ssp = s.ssp) ∧
  t.sr.t = s.sr.t ∧ t.sr.s = s.sr.s ∧ t.sr.mask = s.sr.mask ∧
  t.procState = s.procState ∧ t.pendingIrq = s.pendingIrq ∧ t.prevIrqLevel = s.prevIrqLevel ∧
  t.nmi = s.nmi ∧ t.traceAtStart = s.traceAtStart ∧ t.srCopy = s.srCopy ∧ t.instrReg = s.instrReg ∧
  t.busOwner = s.busOwner ∧ t.memMap = s.memMap ∧ t.busMap = s.busMap ∧ t.iack = s.iack ∧ t.inputs = s.inputs ∧
  t.cycles = s.cycles ∧ t.prefetchWindow = s.prefetchWindow ∧ t.fetchError = s.fetchError ∧
  t.supposed = s.supposed ∧ t.resetPulses = s.resetPulses

/-- Every byte of memory, through every function code, is the same except the `k` bytes that a function code reaches from
an address up. -/
def State.sameMemoryBut (code : FunctionCode) (a : Long) (k : Nat) (s t : State) : Prop :=
  ∀ (c : FunctionCode) (x : Long),
    (∀ j : Nat, j < k → s.locate c x ≠ s.locate code (a + BitVec.ofNat 32 j)) → t.byteAt c x = s.byteAt c x

/-- Every byte of memory is the same, through every function code. -/
def State.sameMemory (s t : State) : Prop := ∀ (c : FunctionCode) (x : Long), t.byteAt c x = s.byteAt c x

/-- The address register a mode changes (R145, R146). -/
def eaChanges : Ea → List Reg
  | .postInc n => [n]
  | .preDec n => [n]
  | _ => []

/-! A step that executes an instruction (R429). -/

/-- Nothing keeps the processor from its next instruction: the level sampled is not above the mask and no
transition to level 7 is latched (R460), and it is neither stopped nor halted nor waiting for the bus. -/
def State.runs (s : State) (level : Fin 8) : Bool :=
  decide (s.procState = .normal) && decide (s.busOwner = .processor) &&
    ((s.sample level).interruptLevel).isNone

/-- The words read ahead are what memory has at their addresses. -/
def State.prefetchFresh (s : State) : Bool := s.prefetch.all fun e => decide (e.word = s.wordAt (s.code .program) e.addr)

/-- The words read ahead are those of memory, and the first `k` words at the program counter and the window after them are
read without a fault, by the maps alone. -/
def State.fetches (s : State) (k window : Nat) : Bool :=
  s.prefetchFresh && s.canAccessList .program .read .word 2 (k + window) s.pc

/-- The words of the window at the program counter can be read by the maps alone. -/
def State.targetReady (s : State) : Bool := s.quiet && s.canAccessList .program .read .word 2 s.windowWords s.pc

/-! The invariant of the machine between steps. -/

/-- Memory is canonical; no exception is half processed; no trace exception and no bus error of an instruction word is
still to come; the run is not one only supposed; what is read ahead is at most the window, at even addresses (R95); the window
of a double fault is open only in supervisor state and not while stopped (R455); a halted processor is in that window (R485). -/
def Inv (s : State) : Prop :=
  s.mem.wf = true ∧
  (∀ g, s.procState ≠ .exception g) ∧
  s.traceAtStart = false ∧ s.fetchError = none ∧ s.supposed = false ∧
  s.prefetch.length ≤ s.windowWords ∧ (∀ e ∈ s.prefetch, aligned e.addr .word = true) ∧
  (s.inGroup0 = true → s.sr.s = true ∧ s.procState ≠ .stopped) ∧
  (s.procState = .halted → s.inGroup0 = true)

end Sys2Proof.Machine
end

