-- ==== Sys2Proof/Certificates/Slice0/Obligations.lean ====
section
/-! DEFINITION. The statements for the provers. Where a statement speaks of an operand, it is at the location that the
model's own `State.resolve` gives for it; `(s.beginInstr.resolve ea sz)` is that location and the state in which the
operation word and the extension words have been passed and the side effect of the mode has happened. -/

open Sys2Proof Sys2Proof.Machine

/-! Encoding. -/

/-- Words written out from the encodings of the instruction rules decode to what they stand for (sanity). -/
def Obligations.WrittenWordsDecode : Prop :=
  decode [0x2318] = .ok (.moveLong (.postInc 0) (.preDec 1), []) ∧
  decode [0x31C0, 0x2010] = .ok (.moveWord (.dreg 0) (.absShort 0x2010), []) ∧
  decode [0x43F0, 0x1008] =
    .ok (.lea (.index 0 { isAddr := false, reg := 1, isLong := false, disp := 8 }) 1, []) ∧
  decode [0x48E7, 0xC080] = .ok (.movemStore .long 0xC080 (.preDec 7), []) ∧
  decode [0xD041] = .ok (.addToReg .word (.dreg 1) 0, []) ∧
  decode [0x0A80, 0xFFFF, 0xFFFF] = .ok (.eori .long 0xFFFFFFFF (.dreg 0), []) ∧
  decode [0xE340] = .ok (.aslReg .word (.imm 1) 0, []) ∧
  decode [0x08F8, 0x0007, 0x2000] = .ok (.bsetStatic 7 (.absShort 0x2000), []) ∧
  decode [0xC101] = .ok (.abcd false 1 0, []) ∧
  decode [0x51C9, 0xFFFC] = .ok (.dbcc .f 1 0xFFFC, []) ∧
  decode [0x4E72, 0x2700] = .ok (.stop 0x2700, []) ∧
  decode [0x4AFC] = .error .illegal ∧ decode [0xA123] = .error .line1010 ∧ decode [0xFFFF] = .error .line1111

/-- Decoding the words of a well-formed instruction gives it back, and leaves the words after it. -/
def Obligations.DecodeOfEncode : Prop :=
  ∀ (i : Instr) (ws : List Word), i.wellFormed = true → decode (encode i ++ ws) = .ok (i, ws)

/-! Reset, the invariant, the step. -/

/-- What reset leaves where the spec gives a value (R45), over the memory of `State.reset`; what that memory reads as,
and that the sequence has already run, is the model's choice (log 4, log 6). -/
def Obligations.ResetState : Prop :=
  State.reset.sr.s = true ∧ State.reset.sr.t = false ∧ State.reset.sr.mask = 7 ∧
  State.reset.ssp = State.reset.longAt .supervisorProgram 0 ∧ State.reset.pc = State.reset.longAt .supervisorProgram 4 ∧
  State.reset.procState = .normal ∧ State.reset.nmi = false ∧ State.reset.prefetch = [] ∧
  State.reset.traceAtStart = false

/-- The invariant holds right after reset. -/
def Obligations.InvAtReset : Prop := Inv State.reset

/-- Every step from a state with the invariant that answers a next state keeps it. -/
def Obligations.InvKeptByStep : Prop := ∀ s t : State, Inv s → step s = .next t → Inv t

/-- When the words at the program counter decode to an instruction (decoding accepts only well-formed ones), nothing
keeps the processor from it, the words read ahead so far are those of memory, and the platform has nothing in store but its
maps, a step is `exec` of it, in the state that has sampled the interrupt level, remembers T and the operation word, and has
read the words of the window ahead (PREFETCH_WINDOW, log 17); then the trace exception where T was set, and the words at the
program counter, if it was not reached by falling through, may be read (`settled`). While STOP executes nothing is read ahead
(R532). A LINK or BSR whose push overlaps its own displacement word is so executed too, or that word is read after the push
(`runLate`, log 19). A BSR or JSR whose push overlaps the window at its target goes on with words read there before the push,
or with none (`keepTarget`, R95). -/
def Obligations.StepRunsDecoded : Prop :=
  ∀ (s r : State) (level : Fin 8) (i : Instr) (op : Word)
    (executed : Nat → List Word → Host.Outcome State Fault Refusal),
    s.takeInput.1 = .run level →
    s.takeInput.2.runs level = true →
    (s.takeInput.2.sample level).fetches i.words (s.windowAfter i) = true →
    (isPrivileged i = true → s.sr.s = true) →
    decode (s.wordsAt i.words s.pc) = .ok (i, []) →
    op = s.wordAt (s.code .program) s.pc →
    r = { s.takeInput.2.sample level with traceAtStart := s.sr.t, instrReg := op, instrAddr := s.pc } →
    executed = (fun k words => settled (afterInstr (keepTarget words (exec i
      { r with
        prefetch := aheadWords s.surelyRead (s.nextPc i) (s.wordsAt (s.windowAfter i) (s.nextPc i))
        drawCount := k })))) →
    (s.pushOverlaps i = false → s.targetHit i = false → step s = executed s.drawCount []) ∧
    (s.pushOverlaps i = true ∨ s.targetHit i = true →
      (s.targetHit i = true → ∀ a, s.callTarget i = some a →
        s.canAccessList .program .read .word 2 s.windowWords a = true) →
      ∃ k words,
        (words = [] ∨ ∃ a n, s.targetHit i = true ∧ s.callTarget i = some a ∧ n ≤ s.windowWords ∧ words = s.wordsAt n a) ∧
        (step s = executed k words ∨
          ∃ j rest, s.pushOverlaps i = true ∧ decode [op, 0] = .ok (j, rest) ∧
            step s = settled (runLate s.instrReg op [] j { r with drawCount := k })))

/-- The reset sequence (R491): whatever the processor was doing, SSP and PC come from the long words at 0 and 4, read
in supervisor program space; S set, T cleared, mask 7; the registers, the flags and memory stay; the window of a
double fault is open until the first instruction begins (R455). A bus error on one of the four reads, the reads before it
completing, halts the processor (R492), whatever the later ones would have met. After the sequence the first words of the
program may be read at once (`State.settle`). -/
def Obligations.ResetSequence : Prop :=
  ∀ (s : State) (level : Fin 8) (read : Long → BusCycle),
    s.takeInput.1 = .externalReset level → read = wordRead .supervisorProgram →
    (s.completes (read 0) = true → s.completes (read 2) = true →
      s.completes (read 4) = true → s.completes (read 6) = true →
      step s = State.settle
        { s.takeInput.2 with
          ssp := s.longAt .supervisorProgram 0
          pc := s.longAt .supervisorProgram 4
          sr := { s.sr with s := true, t := false, mask := 7 }
          procState := .normal
          pendingIrq := level
          prevIrqLevel := level
          nmi := false
          traceAtStart := false
          inGroup0 := true
          prefetch := []
          busOwner := .processor }) ∧
    (∀ (before : List Long) (a : Long), (before, a) ∈ [([], 0), ([0], 2), ([0, 2], 4), ([0, 2, 4], 6)] →
      s.cycles = [] → s.supposed = false → (∀ b ∈ before, s.cycle false (read b) = .done) → s.cycle false (read a) = .berr →
      ∃ t, step s = .next t ∧ t.procState = .halted ∧ t.mem = s.mem)

/-- A halted processor stays as it is under every input but an external reset (R485): if a step answers a next state,
that state is halted and no register and no byte that the processor could write has changed; and a processor drives the
HALT line exactly while it is halted (R399). -/
def Obligations.HaltedStays : Prop :=
  (∀ s : State, s.drivesHalt = true ↔ s.procState = .halted) ∧
  ∀ (s t : State), s.procState = .halted → (∀ level, s.takeInput.1 ≠ .externalReset level) → step s = .next t →
    t.procState = .halted ∧ t.drivesHalt = true ∧
    t.d = s.d ∧ t.a = s.a ∧ t.usp = s.usp ∧ t.ssp = s.ssp ∧ t.pc = s.pc ∧ t.sr = s.sr ∧
    ((∀ w, s.takeInput.1 ≠ .busWrite w) → t.mem = s.mem)

/-! Interrupts, stopped, trace (60_exceptions). -/

/-- An interrupt whose level exceeds the mask, or a transition to level 7 whatever the mask is, is taken between
instructions, also from the stopped state (R460, R462, R463): the mask becomes the level, the latch of the transition is
cleared, PC stacked is that of the next instruction, the vector is the one the platform's maps give the acknowledge cycle;
then the first words of the handler may be read at once (`State.settle`). -/
def Obligations.InterruptTaken : Prop :=
  ∀ (s : State) (level : Fin 8) (n : Nat),
    s.takeInput.1 = .run level → s.procState ≠ .halted → s.busOwner = .processor →
    (s.sr.mask < level ∨ s.nmi = true ∨ (level = 7 ∧ s.prevIrqLevel ≠ 7)) →
    s.iackVector level = some n → s.exceptionReady n = true →
    step s = ({ s.takeInput.2.sample level with nmi := false }.afterException n level s.pc false).settle

/-- A transition to level 7 is taken whatever the mask is (R462); level 7 held under mask 7 is not taken again. -/
def Obligations.LevelSevenEdge : Prop :=
  (∀ s : State, s.prevIrqLevel ≠ 7 → (s.sample 7).interruptLevel = some 7) ∧
  (∀ s : State, s.prevIrqLevel = 7 → s.nmi = false → s.sr.mask = 7 → (s.sample 7).interruptLevel = none)

/-- A level not above the mask, with no transition to 7 latched, does not disturb a stopped processor (R460, R480). -/
def Obligations.StoppedWaits : Prop :=
  ∀ (s : State) (level : Fin 8),
    s.takeInput.1 = .run level → s.procState = .stopped → s.busOwner = .processor → s.nmi = false →
    level ≤ s.sr.mask → ¬ (level = 7 ∧ s.prevIrqLevel ≠ 7) →
    step s = .next (s.takeInput.2.sample level)

/-- After an instruction that began with T set and was not cut short, nor by a bus error on the words at the target of a
jump, the trace exception (R470): vector 9, stacked PC the next instruction, stacked SR the one after the instruction. -/
def Obligations.TraceTaken : Prop :=
  ∀ t u : State, t.traceAtStart = true → t.settle = .next u → u.traceAtStart = true → u.exceptionReady 9 = true →
    afterInstr (.next t) = .next (u.afterException 9 u.sr.mask u.pc false)

/-! Exceptions of instructions. -/

/-- A word that is not the first word of a legal instruction takes vector 4, one with bits 15-12 = 1010 vector 10, one
with 1111 vector 11 (R442, R443), with the address of the word as PC stacked and no trace exception, then the first words
of the handler may be read at once; the words of the window after it can be read (R96), and the words read ahead so far are
those of memory. Only the first word decides: whatever four words or more follow the first word of a
legal instruction, it is decoded. -/
def Obligations.IllegalWordTaken : Prop :=
  (∀ (s : State) (level : Fin 8) (e : DecodeError) (op : Word) (n : Nat),
    s.takeInput.1 = .run level → s.takeInput.2.runs level = true →
    (s.takeInput.2.sample level).fetches 1 s.windowWords = true →
    op = s.wordAt (s.code .program) s.pc → decodeOp op = .error e →
    n = (match e with | .line1010 => 10 | .line1111 => 11 | _ => 4) →
    s.exceptionReady n = true →
    step s =
      ({ s.takeInput.2.sample level with instrReg := op, instrAddr := s.pc }.afterException n s.sr.mask
        s.pc false).settle) ∧
  (∀ (op : Word) (ws : List Word) (i : Instr) (rest : List Word),
    decodeOp op = .ok (i, rest) → 4 ≤ ws.length → ∃ j rest', decode (op :: ws) = .ok (j, rest'))

/-- Bits 15-12 equal to 1010 or 1111 make an unimplemented instruction, whatever follows (R117, R443). -/
def Obligations.UnimplementedLines : Prop :=
  ∀ (w : Word) (ws : List Word),
    (w.toNat / 4096 = 10 → decode (w :: ws) = .error .line1010) ∧
    (w.toNat / 4096 = 15 → decode (w :: ws) = .error .line1111)

/-- A privileged instruction in user state: nothing of it is executed, vector 8, stacked PC its own address, stacked SR
with S = 0, no trace exception (R341, R444). -/
def Obligations.PrivilegeViolation : Prop :=
  ∀ (i : Instr) (s : State), isPrivileged i = true → s.sr.s = false → s.exceptionReady 8 = true →
    exec i s = .next ({ s with instrAddr := s.pc }.afterException 8 s.sr.mask s.pc false)

/-- TRAP #v takes vector 32 + v with the address of the next instruction stacked (R356); TRAPV takes vector 7 if V is
set, else it only passes to the next instruction (R357). A trace exception still follows where T was set (R441). -/
def Obligations.TrapResults : Prop :=
  ∀ (v : Fin 16) (s : State),
    (s.exceptionReady (32 + v.val) = true →
      exec (.trap v) s = .next (s.beginInstr.afterException (32 + v.val) s.sr.mask (s.pc + 2) s.traceAtStart)) ∧
    (s.sr.ccr.v = true → s.exceptionReady 7 = true →
      exec .trapv s = .next (s.beginInstr.afterException 7 s.sr.mask (s.pc + 2) s.traceAtStart)) ∧
    (s.sr.ccr.v = false → exec .trapv s = .next s.beginInstr)

/-- CHK within bounds passes on, with N, Z, V and C free and X unchanged; out of bounds it takes vector 6 with N set
below zero and cleared above the bound, Z, V and C free (R358). -/
def Obligations.ChkResults : Prop :=
  ∀ (ea : Ea) (dn : Reg) (s : State) (loc : Loc) (p : State) (bound v : Word),
    s.beginInstr.resolve ea .word = (loc, p) → loc.readable .word p = true →
    bound = lowWord (loc.load .word p) → v = lowWord (p.dreg dn) →
    (0 ≤ v.toInt → v.toInt ≤ bound.toInt →
      ∃ n z o c : Bool,
        exec (.chk ea dn) s =
          .next (State.setCcr { x := s.sr.ccr.x, n := n, z := z, v := o, c := c }
            { p with drawCount := p.drawCount + 4 })) ∧
    (v.toInt < 0 ∨ bound.toInt < v.toInt → p.exceptionReady 6 = true →
      ∃ z o c : Bool,
        exec (.chk ea dn) s =
          .next ((State.setCcr { x := s.sr.ccr.x, n := decide (v.toInt < 0), z := z, v := o, c := c }
            { p with drawCount := p.drawCount + 3 }).afterException 6 s.sr.mask p.pc s.traceAtStart))

/-- A zero divisor takes vector 5 with the address of the next instruction stacked, C cleared, N, Z and V free, the
register unchanged (R222, R223). -/
def Obligations.ZeroDivideTaken : Prop :=
  ∀ (i : Instr) (ea : Ea) (dn : Reg) (s : State) (loc : Loc) (p : State),
    i ∈ [Instr.divs ea dn, .divu ea dn] →
    s.beginInstr.resolve ea .word = (loc, p) → loc.readable .word p = true →
    lowWord (loc.load .word p) = 0 → p.exceptionReady 5 = true →
    ∃ n z v : Bool,
      exec i s =
        .next ((State.setCcr { x := s.sr.ccr.x, n := n, z := z, v := v, c := false }
          { p with drawCount := p.drawCount + 3 }).afterException 5 s.sr.mask p.pc s.traceAtStart)

/-- Five accesses at odd addresses that take the address error exception (R451, R452): reads of MOVEA, writes of MOVE, the
push of PEA and the pop of RTS where SSP is even (so with the user stack), and the fetch of an instruction at an odd program
counter (R322). No cycle is made; only the registers of addressing modes have changed, A7 of a push or pop perhaps (U3), flags
of a MOVE each perhaps (U3); the frame has the address, R/W, the function code and the words the rule names; the first word's
high bits and the PC stacked are free (D13, D8; log 12, log 11). -/
def Obligations.AddressErrorTaken : Prop :=
  (∀ (i : Instr) (ea : Ea) (an : Reg) (s p : State) (sp : Space) (a : Long),
    (i = .moveaWord ea an ∧ s.beginInstr.resolve ea .word = (.mem sp a, p)) ∨
      (i = .moveaLong ea an ∧ s.beginInstr.resolve ea .long = (.mem sp a, p)) →
    a.getLsbD 0 = true → (∀ g, s.procState ≠ .exception g) → p.group0Ready 3 = true →
    p.TakesGroup0 { kind := .addressError, addr := a, dir := .read, code := s.code sp } s.pc (exec i s)) ∧
  (∀ (i : Instr) (sz : Size) (src dst : Ea) (s p q : State) (from_ : Loc) (sp : Space) (a v : Long),
    (i = .moveWord src dst ∧ sz = .word) ∨ (i = .moveLong src dst ∧ sz = .long) →
    s.beginInstr.resolve src sz = (from_, p) → from_.readable sz p = true → v = from_.load sz p →
    p.resolve dst sz = (.mem sp a, q) →
    a.getLsbD 0 = true → (∀ g, s.procState ≠ .exception g) → q.group0Ready 3 = true →
    ∃ cc : Ccr, cc.between s.sr.ccr (moveFlags sz s.sr.ccr v) ∧
      (q.setCcr cc).TakesGroup0 { kind := .addressError, addr := a, dir := .write, code := s.code .data } s.pc
        (exec i s)) ∧
  (∀ (ea : Ea) (s p : State) (loc : Loc),
    s.beginInstr.resolve ea .long = (loc, p) → p.sp.getLsbD 0 = true → (∀ g, s.procState ≠ .exception g) →
    p.group0Ready 3 = true →
    ∃ q ∈ [p, p.setSp (p.sp - 4)],
      q.TakesGroup0 { kind := .addressError, addr := p.sp - 4, dir := .write, code := s.code .data } s.pc
        (exec (.pea ea) s)) ∧
  (∀ s : State,
    s.sp.getLsbD 0 = true → (∀ g, s.procState ≠ .exception g) → s.group0Ready 3 = true →
    ∃ q ∈ [s.beginInstr, s.beginInstr.setSp (s.sp + 4)],
      q.TakesGroup0 { kind := .addressError, addr := s.sp, dir := .read, code := s.code .data } s.pc
        (exec .rts s)) ∧
  (∀ (s : State) (level : Fin 8),
    s.takeInput.1 = .run level → s.takeInput.2.runs level = true → s.pc.getLsbD 0 = true → s.inGroup0 = false →
    s.group0Ready 3 = true →
    ∃ (w : Word) (taken : Host.Outcome State Fault Refusal),
      { s.takeInput.2.sample level with instrReg := w }.TakesGroup0
        { kind := .addressError, addr := s.pc, dir := .read, code := s.code .program } s.instrAddr taken ∧
      step s = settled taken)

/-- A bus error on the source or the destination of MOVE takes the bus error exception (R450, R452): byte, word and long
reads, where of the two cycles of a long one the first to fail in a free order counts (R73), and byte and word writes,
whose data the platform may have stored (R396). At a read each flag is the old one or the one of some value, at a write the
old one or the one of the value moved (U3, log 14). One on the first word at a program counter that was not reached by
falling through is taken before the next boundary, or nothing is read there (R503 b). -/
def Obligations.BusErrorTaken : Prop :=
  (∀ (i : Instr) (sz : Size) (src dst : Ea) (s p : State) (sp : Space) (a : Long) (read : Long → BusCycle)
      (cycles : List Long),
    (i = .moveByte src dst ∧ sz = .byte) ∨ (i = .moveWord src dst ∧ sz = .word) ∨ (i = .moveLong src dst ∧ sz = .long) →
    s.beginInstr.resolve src sz = (.mem sp a, p) → aligned a sz = true →
    read = (fun x => { code := s.code sp, dir := .read, width := widthOf sz, addr := x }) →
    cycles = (if sz = .long then [a, a + 2] else [a]) →
    (∀ x ∈ cycles, s.cycle false (read x) = .done ∨ s.cycle false (read x) = .berr) →
    (∃ x ∈ cycles, s.cycle false (read x) = .berr) →
    (∀ g, s.procState ≠ .exception g) → p.group0Ready 2 = true →
    ∃ x ∈ cycles, s.cycle false (read x) = .berr ∧
      ∃ (cc : Ccr) (v : Long), cc.between s.sr.ccr (moveFlags sz s.sr.ccr v) ∧
        (p.setCcr cc).TakesGroup0 { kind := .busError, addr := x, dir := .read, code := s.code sp } s.pc (exec i s)) ∧
  (∀ (i : Instr) (sz : Size) (src dst : Ea) (s p q : State) (from_ : Loc) (sp : Space) (a v : Long) (c : BusCycle),
    (i = .moveByte src dst ∧ sz = .byte) ∨ (i = .moveWord src dst ∧ sz = .word) →
    s.beginInstr.resolve src sz = (from_, p) → from_.readable sz p = true → v = from_.load sz p →
    p.resolve dst sz = (.mem sp a, q) → aligned a sz = true →
    c = { code := s.code .data, dir := .write, width := widthOf sz, addr := a } →
    s.cycle false c = .berr → (∀ g, s.procState ≠ .exception g) → q.group0Ready 2 = true →
    ∃ cc : Ccr, cc.between s.sr.ccr (moveFlags sz s.sr.ccr v) ∧
      ((q.storeCycle c .berr (lowWord v)).setCcr cc).TakesGroup0
        { kind := .busError, addr := a, dir := .write, code := s.code .data } s.pc (exec i s)) ∧
  (∀ s : State,
    s.procState = .normal → s.prefetch = [] → s.pc.getLsbD 0 = false → s.inGroup0 = false →
    s.cycle false (wordRead (s.code .program) s.pc) = .berr → s.group0Ready 2 = true →
    (∃ k, s.settle = .next { s with drawCount := k }) ∨
    (∃ (w : Word) (taken : Host.Outcome State Fault Refusal),
      { s with instrReg := w }.TakesGroup0
        { kind := .busError, addr := s.pc, dir := .read, code := s.code .program } s.instrAddr taken ∧
      s.settle = settled taken))

/-- A second bus or address error before the next instruction begins halts the processor (R455), also one on the first
words of a handler read at once. -/
def Obligations.DoubleFaultHalts : Prop :=
  (∀ (f : AccessFault) (s : State), s.inGroup0 = true → abortOutcome (.access f) s = .next s.halt) ∧
  (∀ (f : AccessFault) (s : State), s.inGroup0 = false → s.ssp.getLsbD 0 = true →
    ∃ t, abortOutcome (.access f) s = .next t ∧ t.procState = .halted ∧ t.mem = s.mem) ∧
  (∀ s t : State, s.inGroup0 = true → s.plain = true → s.settle = .next t →
    (∃ k p, t = { s with drawCount := k, prefetch := p }) ∨ (t.procState = .halted ∧ t.mem = s.mem))

/-- Once in user state, only exception processing and reset lead to supervisor state (R423): an instruction executed in
user state that ends in user state has left the system byte, the supervisor stack pointer and the RESET line alone; one
that ends in supervisor state, no reset having come, has gone through an exception, whose vector gave the new PC, or has
halted. -/
def Obligations.UserStateConfined : Prop :=
  ∀ (i : Instr) (s t : State), s.sr.s = false → exec i s = .next t →
    (t.sr.s = false →
      t.ssp = s.ssp ∧ t.sr.t = s.sr.t ∧ t.sr.mask = s.sr.mask ∧ t.resetPulses = s.resetPulses ∧
      t.procState = s.procState) ∧
    (t.sr.s = true → s.plain = true →
      t.procState = .halted ∨ ∃ n < 256, t.pc = t.longAt .supervisorData (vectorAddress n))

/-! Arithmetic (R210 and the rules it serves). -/

/-- The flags of addition and subtraction are the integer ones (R210): C the carry or borrow of the unsigned
operation, V when the signed result does not fit, N and Z of the result, Z of the extended forms only ever cleared,
X equal to C. -/
def Obligations.AddSubFlags : Prop :=
  ∀ (sz : Size) (old : Ccr) (s d : Long), trunc sz s = s → trunc sz d = d →
    let m : Int := 2 ^ (sizeBits sz - 1)
    let x : Nat := old.x.toNat
    let ss := (signExtend sz s).toInt
    let sd := (signExtend sz d).toInt
    let fits := fun (k : Int) => -m ≤ k ∧ k < m
    (addAlu sz old s d).1 = trunc sz (d + s) ∧
    (addxAlu sz old s d).1 = trunc sz (d + s + BitVec.ofNat 32 x) ∧
    (subAlu sz old s d).1 = trunc sz (d - s) ∧
    (subxAlu sz old s d).1 = trunc sz (d - s - BitVec.ofNat 32 x) ∧
    ((addAlu sz old s d).2.c = decide (2 ^ sizeBits sz ≤ d.toNat + s.toNat)) ∧
    ((addxAlu sz old s d).2.c = decide (2 ^ sizeBits sz ≤ d.toNat + s.toNat + x)) ∧
    ((subAlu sz old s d).2.c = decide (d.toNat < s.toNat)) ∧
    ((subxAlu sz old s d).2.c = decide (d.toNat < s.toNat + x)) ∧
    ((addAlu sz old s d).2.v = true ↔ ¬ fits (sd + ss)) ∧
    ((addxAlu sz old s d).2.v = true ↔ ¬ fits (sd + ss + x)) ∧
    ((subAlu sz old s d).2.v = true ↔ ¬ fits (sd - ss)) ∧
    ((subxAlu sz old s d).2.v = true ↔ ¬ fits (sd - ss - x)) ∧
    (∀ r ∈ [addAlu sz old s d, addxAlu sz old s d, subAlu sz old s d, subxAlu sz old s d],
      r.2.x = r.2.c ∧ r.2.n = msbOf sz r.1) ∧
    (∀ r ∈ [addAlu sz old s d, subAlu sz old s d], r.2.z = decide (r.1 = 0)) ∧
    (∀ r ∈ [addxAlu sz old s d, subxAlu sz old s d], r.2.z = (old.z && decide (r.1 = 0)))

/-- The flags of NEG and NEGX (R227, R228). -/
def Obligations.NegateFlags : Prop :=
  ∀ (sz : Size) (old : Ccr) (s : Long), trunc sz s = s →
    let r := trunc sz (0 - s)
    let rx := trunc sz (0 - s - BitVec.ofNat 32 old.x.toNat)
    negAlu sz old s =
      (r, { x := decide (r ≠ 0), n := msbOf sz r, z := decide (r = 0), v := msbOf sz s && msbOf sz r,
            c := decide (r ≠ 0) }) ∧
    negxAlu sz old s =
      (rx, { x := msbOf sz s || msbOf sz rx, n := msbOf sz rx, z := old.z && decide (rx = 0),
             v := msbOf sz s && msbOf sz rx, c := msbOf sz s || msbOf sz rx })

/-- After a compare of S with D, HI, LS, CC and CS are the unsigned comparisons of D with S, GT, LE, GE and LT the
signed ones, EQ and NE equality; X is not changed (R218, R320). -/
def Obligations.ConditionsAfterCompare : Prop :=
  ∀ (sz : Size) (old : Ccr) (s d : Long), trunc sz s = s → trunc sz d = d →
    let cc := cmpFlags sz old s d
    let ss := (signExtend sz s).toInt
    let sd := (signExtend sz d).toInt
    (condHolds cc .hi = true ↔ s.toNat < d.toNat) ∧ (condHolds cc .ls = true ↔ d.toNat ≤ s.toNat) ∧
    (condHolds cc .cc = true ↔ s.toNat ≤ d.toNat) ∧ (condHolds cc .cs = true ↔ d.toNat < s.toNat) ∧
    (condHolds cc .gt = true ↔ ss < sd) ∧ (condHolds cc .le = true ↔ sd ≤ ss) ∧
    (condHolds cc .ge = true ↔ ss ≤ sd) ∧ (condHolds cc .lt = true ↔ sd < ss) ∧
    (condHolds cc .eq = true ↔ d = s) ∧ (condHolds cc .ne = true ↔ d ≠ s) ∧ cc.x = old.x

/-- A division that does not overflow gives the dividend as quotient times divisor plus remainder, the remainder
smaller than the divisor and, signed, with the sign of the dividend; it overflows exactly when the quotient does not
fit 16 bits (R222, R223). -/
def Obligations.DivisionLaw : Prop :=
  ∀ (d : Long) (s : Word), s ≠ 0 →
    (∀ q r, divUnsigned d s = some (q, r) → d.toNat = q.toNat * s.toNat + r.toNat ∧ r.toNat < s.toNat) ∧
    (divUnsigned d s = none ↔ s.toNat ≤ d.toNat / 65536) ∧
    (∀ q r, divSigned d s = some (q, r) →
      d.toInt = q.toInt * s.toInt + r.toInt ∧ r.toInt.natAbs < s.toInt.natAbs ∧
      (r.toInt = 0 ∨ (r.toInt < 0 ↔ d.toInt < 0))) ∧
    (divSigned d s = none ↔ (d.toInt.tdiv s.toInt < -32768 ∨ 32767 < d.toInt.tdiv s.toInt))

/-- Decimal addition and subtraction (R311, R313, R314): on numbers below 100 the result byte stands for the sum or
difference modulo 100, and the carry or borrow is the decimal one. -/
def Obligations.DecimalArithmetic : Prop :=
  ∀ (s d : Nat) (x : Bool), s < 100 → d < 100 →
    decOf (bcdOf s) = some s ∧
    decOf (bcdAdd s d x).1 = some ((d + s + x.toNat) % 100) ∧
    ((bcdAdd s d x).2 = true ↔ 99 < d + s + x.toNat) ∧
    decOf (bcdSub s d x).1 = some (((d : Int) - s - x.toNat) % 100).toNat ∧
    ((bcdSub s d x).2 = true ↔ (d : Int) - s - x.toNat < 0)

/-- Closed forms of the eight shifts and rotates for every count (R284 to R291). Left and right shifts multiply and divide,
C is the last bit out and 0 for the count 0, for ASR the sign once the count reaches the width; V of ASL says that the
signed result does not fit. A rotate goes by the count modulo the width, a rotate with extend turns X and the operand
together by the count modulo the width plus one; C is the last bit out, 0 for the count 0, with extend always the new X.
X of a shift is C unless the count is 0, the rotates without extend never change it. N and Z are those of the result. -/
def Obligations.ShiftClosedForms : Prop :=
  ∀ (sz : Size) (old : Ccr) (v : Long) (k n : Nat), trunc sz v = v → n = sizeBits sz →
    let sv := (signExtend sz v).toInt
    let wide := old.x.toNat * 2 ^ n + v.toNat
    ((shiftAlu .asl sz k old v).1 = trunc sz (v <<< k) ∧ (shiftAlu .lsl sz k old v).1 = trunc sz (v <<< k) ∧
      (shiftAlu .lsr sz k old v).1 = v >>> k ∧
      (shiftAlu .asr sz k old v).1 = trunc sz ((signExtend sz v).sshiftRight k)) ∧
    (∀ kind ∈ [ShiftKind.asl, .lsl],
      (shiftAlu kind sz k old v).2.c = (decide (0 < k) && decide (k ≤ n) && v.getLsbD (n - k))) ∧
    (shiftAlu .lsr sz k old v).2.c = (decide (0 < k) && v.getLsbD (k - 1)) ∧
    (shiftAlu .asr sz k old v).2.c = (decide (0 < k) && (if k < n then v.getLsbD (k - 1) else msbOf sz v)) ∧
    ((shiftAlu .asl sz k old v).2.v = true ↔ ¬ (-2 ^ (n - 1) ≤ sv * 2 ^ k ∧ sv * 2 ^ k < 2 ^ (n - 1))) ∧
    (∀ kind ∈ [ShiftKind.asl, .asr, .lsl, .lsr],
      (shiftAlu kind sz k old v).2.x = (if k = 0 then old.x else (shiftAlu kind sz k old v).2.c)) ∧
    ((shiftAlu .rol sz k old v).1.toNat = turnLeft n (k % n) v.toNat ∧
      (shiftAlu .rol sz k old v).2.c = (decide (0 < k) && (shiftAlu .rol sz k old v).1.getLsbD 0)) ∧
    ((shiftAlu .ror sz k old v).1.toNat = turnLeft n (n - k % n) v.toNat ∧
      (shiftAlu .ror sz k old v).2.c = (decide (0 < k) && msbOf sz (shiftAlu .ror sz k old v).1)) ∧
    ((shiftAlu .roxl sz k old v).1.toNat = turnLeft (n + 1) (k % (n + 1)) wide % 2 ^ n ∧
      (shiftAlu .roxl sz k old v).2.x = decide (2 ^ n ≤ turnLeft (n + 1) (k % (n + 1)) wide)) ∧
    ((shiftAlu .roxr sz k old v).1.toNat = turnLeft (n + 1) (n + 1 - k % (n + 1)) wide % 2 ^ n ∧
      (shiftAlu .roxr sz k old v).2.x = decide (2 ^ n ≤ turnLeft (n + 1) (n + 1 - k % (n + 1)) wide)) ∧
    (∀ kind ∈ [ShiftKind.roxl, .roxr], (shiftAlu kind sz k old v).2.c = (shiftAlu kind sz k old v).2.x) ∧
    (∀ kind ∈ [ShiftKind.rol, .ror], (shiftAlu kind sz k old v).2.x = old.x) ∧
    (∀ kind : ShiftKind,
      (kind ≠ .asl → (shiftAlu kind sz k old v).2.v = false) ∧
      (shiftAlu kind sz k old v).2.n = msbOf sz (shiftAlu kind sz k old v).1 ∧
      (shiftAlu kind sz k old v).2.z = decide ((shiftAlu kind sz k old v).1 = 0))

/-! Memory. -/

/-- A long word is stored with its high-order byte at the lowest address, a word likewise (R61, R62), and every other
byte is unchanged. -/
def Obligations.BigEndianStore : Prop :=
  ∀ (s : State) (a v : Long) (code : FunctionCode) (write : Long → BusCycle),
    s.mem.wf = true → a.getLsbD 0 = false → code = s.code .data →
    write = (fun x => { code := code, dir := .write, width := .word, addr := x }) →
    s.stores (write a) .done = true →
    ((s.storeMem a .word v).byteAt code a = v.extractLsb' 8 8 ∧
      (s.storeMem a .word v).byteAt code (a + 1) = v.extractLsb' 0 8 ∧
      State.sameMemoryBut code a 2 s (s.storeMem a .word v)) ∧
    (s.stores (write (a + 2)) .done = true →
      (s.storeMem a .long v).byteAt code a = v.extractLsb' 24 8 ∧
      (s.storeMem a .long v).byteAt code (a + 1) = v.extractLsb' 16 8 ∧
      (s.storeMem a .long v).byteAt code (a + 2) = v.extractLsb' 8 8 ∧
      (s.storeMem a .long v).byteAt code (a + 3) = v.extractLsb' 0 8 ∧
      State.sameMemoryBut code a 4 s (s.storeMem a .long v))

/-- A word read ahead may be used although memory has changed since, and no third word is ever fetched (R95). A word that a
bus cycle has read ahead is used as it is, with no further cycle, whatever S and memory are now, and stays read ahead as long
as it is in the window (R503 c); while the platform has more in store than its maps, every word read ahead is such a word
(R503 b). At a program counter that was not reached by
falling through, the words of the window are read at once if they can all be read. -/
def Obligations.FetchIsOldOrNew : Prop :=
  (∀ (s t : State) (a : Long) (w : Word), s.plain = true → fetchWord a s = .ok w t →
    (s.readAheadAt a = some w ∨
      (w = s.wordAt (s.code .program) a ∧ s.canAccess .program .read a .word = true)) ∧
    t = { s with drawCount := t.drawCount }) ∧
  (∀ (s : State) (a : Long) (e : AheadWord), s.aheadAt a = some e → e.read = true → fetchWord a s = .ok e.word s) ∧
  (∀ (s : State) (window j : Nat) (a : Long) (e : AheadWord),
    j < window → s.aheadAt (a + BitVec.ofNat 32 (2 * j)) = some e → e.read = true → (s.readAhead window a).error = none →
    (s.readAhead window a).state.aheadAt (a + BitVec.ofNat 32 (2 * j)) = some e) ∧
  (∀ (s : State) (window : Nat) (a : Long), s.quiet = false →
    ∀ e ∈ (s.readAhead window a).state.prefetch, e.read = true) ∧
  (∀ s : State, s.procState = .normal → s.prefetch = [] → s.targetReady = true → s.settle = .next s.withTarget)

/-! What each instruction does: `exec` answers exactly the next state written. -/

/-- ADD, SUB, AND, OR with a data register destination (R212, R229, R262, R264): only the bits of the size change. -/
def Obligations.RegisterArithmetic : Prop :=
  ∀ (sz : Size) (ea : Ea) (dn : Reg) (s p : State) (loc : Loc) (src dst : Long),
    s.beginInstr.resolve ea sz = (loc, p) → loc.readable sz p = true →
    src = loc.load sz p → dst = trunc sz (p.dreg dn) →
    exec (.addToReg sz ea dn) s =
      .next ((p.setD sz dn (trunc sz (dst + src))).setCcr (addAlu sz s.sr.ccr src dst).2) ∧
    exec (.subToReg sz ea dn) s =
      .next ((p.setD sz dn (trunc sz (dst - src))).setCcr (subAlu sz s.sr.ccr src dst).2) ∧
    exec (.andToReg sz ea dn) s =
      .next ((p.setD sz dn (dst &&& src)).setCcr (moveFlags sz s.sr.ccr (dst &&& src))) ∧
    exec (.orToReg sz ea dn) s =
      .next ((p.setD sz dn (dst ||| src)).setCcr (moveFlags sz s.sr.ccr (dst ||| src)))

/-- ADD, SUB, AND, OR, EOR with a data register source (R212, R229, R262, R264, R266): the operand is read and the
result stored at the same place. -/
def Obligations.MemoryArithmetic : Prop :=
  ∀ (sz : Size) (ea : Ea) (dn : Reg) (s p : State) (loc : Loc) (src dst : Long),
    s.beginInstr.resolve ea sz = (loc, p) → loc.readable sz p = true → loc.writable sz p = true →
    src = trunc sz (p.dreg dn) → dst = loc.load sz p →
    exec (.addToMem sz dn ea) s =
      .next ((loc.store sz (trunc sz (dst + src)) p).setCcr (addAlu sz s.sr.ccr src dst).2) ∧
    exec (.subToMem sz dn ea) s =
      .next ((loc.store sz (trunc sz (dst - src)) p).setCcr (subAlu sz s.sr.ccr src dst).2) ∧
    exec (.andToMem sz dn ea) s =
      .next ((loc.store sz (dst &&& src) p).setCcr (moveFlags sz s.sr.ccr (dst &&& src))) ∧
    exec (.orToMem sz dn ea) s =
      .next ((loc.store sz (dst ||| src) p).setCcr (moveFlags sz s.sr.ccr (dst ||| src))) ∧
    exec (.eorToEa sz dn ea) s =
      .next ((loc.store sz (dst ^^^ src) p).setCcr (moveFlags sz s.sr.ccr (dst ^^^ src)))

/-- ADDI, SUBI, ANDI, ORI, EORI (R214, R231, R263, R265, R267): the immediate words come before those of the
destination. -/
def Obligations.ImmediateArithmetic : Prop :=
  ∀ (sz : Size) (imm : Long) (ea : Ea) (s p : State) (loc : Loc) (src dst : Long),
    (s.beginInstr.advance (immBytes sz)).resolve ea sz = (loc, p) →
    loc.readable sz p = true → loc.writable sz p = true → src = trunc sz imm → dst = loc.load sz p →
    exec (.addi sz imm ea) s =
      .next ((loc.store sz (trunc sz (dst + src)) p).setCcr (addAlu sz s.sr.ccr src dst).2) ∧
    exec (.subi sz imm ea) s =
      .next ((loc.store sz (trunc sz (dst - src)) p).setCcr (subAlu sz s.sr.ccr src dst).2) ∧
    exec (.andi sz imm ea) s =
      .next ((loc.store sz (dst &&& src) p).setCcr (moveFlags sz s.sr.ccr (dst &&& src))) ∧
    exec (.ori sz imm ea) s =
      .next ((loc.store sz (dst ||| src) p).setCcr (moveFlags sz s.sr.ccr (dst ||| src))) ∧
    exec (.eori sz imm ea) s =
      .next ((loc.store sz (dst ^^^ src) p).setCcr (moveFlags sz s.sr.ccr (dst ^^^ src)))

/-- NEG, NEGX, NOT, CLR and Scc (R227, R228, R268, R217, R327); the last writes no flag. -/
def Obligations.UnaryResults : Prop :=
  ∀ (sz : Size) (c : Cond) (ea : Ea) (s p : State) (loc : Loc) (v : Long),
    s.beginInstr.resolve ea sz = (loc, p) → loc.readable sz p = true → loc.writable sz p = true →
    v = loc.load sz p →
    exec (.neg sz ea) s =
      .next ((loc.store sz (trunc sz (0 - v)) p).setCcr (negAlu sz s.sr.ccr v).2) ∧
    exec (.negx sz ea) s =
      .next ((loc.store sz (trunc sz (0 - v - BitVec.ofNat 32 s.sr.ccr.x.toNat)) p).setCcr
        (negxAlu sz s.sr.ccr v).2) ∧
    exec (.notEa sz ea) s =
      .next ((loc.store sz (trunc sz (~~~v)) p).setCcr (moveFlags sz s.sr.ccr (trunc sz (~~~v)))) ∧
    exec (.clr sz ea) s =
      .next ((loc.store sz 0 p).setCcr { x := s.sr.ccr.x, n := false, z := true, v := false, c := false }) ∧
    (sz = .byte →
      exec (.scc c ea) s = .next (loc.store .byte (if condHolds s.sr.ccr c then 0xFF else 0) p))

/-- CMP, CMPI, CMPA, CMPM and TST store nothing (R218 to R221, R253). -/
def Obligations.CompareResults : Prop :=
  (∀ (sz : Size) (ea : Ea) (dn : Reg) (s p : State) (loc : Loc),
    s.beginInstr.resolve ea sz = (loc, p) → loc.readable sz p = true →
    exec (.cmp sz ea dn) s =
      .next (p.setCcr (cmpFlags sz s.sr.ccr (loc.load sz p) (trunc sz (p.dreg dn)))) ∧
    exec (.tst sz ea) s = .next (p.setCcr (moveFlags sz s.sr.ccr (loc.load sz p)))) ∧
  (∀ (sz : Size) (imm : Long) (ea : Ea) (s p : State) (loc : Loc),
    (s.beginInstr.advance (immBytes sz)).resolve ea sz = (loc, p) → loc.readable sz p = true →
    exec (.cmpi sz imm ea) s = .next (p.setCcr (cmpFlags sz s.sr.ccr (trunc sz imm) (loc.load sz p)))) ∧
  (∀ (sz : AddrSize) (ea : Ea) (an : Reg) (s p : State) (loc : Loc),
    s.beginInstr.resolve ea sz.toSize = (loc, p) → loc.readable sz.toSize p = true →
    exec (.cmpa sz ea an) s =
      .next (p.setCcr (cmpFlags .long s.sr.ccr (signExtend sz.toSize (loc.load sz.toSize p)) (p.areg an)))) ∧
  (∀ (sz : Size) (ay ax : Reg) (s q t : State),
    q = s.beginInstr.setA ay (s.areg ay + eaStep sz ay) → t = q.setA ax (q.areg ax + eaStep sz ax) →
    s.canAccess .data .read (s.areg ay) sz = true → s.canAccess .data .read (q.areg ax) sz = true →
    exec (.cmpm sz ay ax) s =
      .next (t.setCcr (cmpFlags sz s.sr.ccr (s.loadMem (s.code .data) (s.areg ay) sz)
        (s.loadMem (s.code .data) (q.areg ax) sz))))

/-- ADDA and SUBA (R213, R230): the whole address register, a word source sign-extended, no flags. -/
def Obligations.AddressArithmetic : Prop :=
  ∀ (sz : AddrSize) (ea : Ea) (an : Reg) (s p : State) (loc : Loc) (src : Long),
    s.beginInstr.resolve ea sz.toSize = (loc, p) → loc.readable sz.toSize p = true →
    src = signExtend sz.toSize (loc.load sz.toSize p) →
    exec (.adda sz ea an) s = .next (p.setA an (p.areg an + src)) ∧
    exec (.suba sz ea an) s = .next (p.setA an (p.areg an - src))

/-- ADDQ and SUBQ (R215, R232): 1 to 8, the field 0 meaning 8; an address register is changed as a whole, whatever
the size, and no flag is written. -/
def Obligations.QuickArithmetic : Prop :=
  ∀ (q : Fin 8) (sz : Size) (ea : Ea) (s p : State) (loc : Loc) (k dst : Long),
    k = BitVec.ofNat 32 (if q.val = 0 then 8 else q.val) →
    (∀ n, exec (.addq q sz (.areg n)) s = .next (s.beginInstr.setA n (s.areg n + k)) ∧
      exec (.subq q sz (.areg n)) s = .next (s.beginInstr.setA n (s.areg n - k))) ∧
    (ea.isAddrReg = false → s.beginInstr.resolve ea sz = (loc, p) → loc.readable sz p = true →
      loc.writable sz p = true → dst = loc.load sz p →
      exec (.addq q sz ea) s =
        .next ((loc.store sz (trunc sz (dst + k)) p).setCcr (addAlu sz s.sr.ccr k dst).2) ∧
      exec (.subq q sz ea) s =
        .next ((loc.store sz (trunc sz (dst - k)) p).setCcr (subAlu sz s.sr.ccr k dst).2))

/-- ADDX and SUBX, register and memory form (R216, R233): in the memory form the source is decremented and read
first. -/
def Obligations.ExtendedArithmetic : Prop :=
  (∀ (sz : Size) (ry rx : Reg) (s : State) (src dst : Long),
    src = trunc sz (s.dreg ry) → dst = trunc sz (s.dreg rx) →
    exec (.addx sz false ry rx) s =
      .next ((s.beginInstr.setD sz rx (addxAlu sz s.sr.ccr src dst).1).setCcr (addxAlu sz s.sr.ccr src dst).2) ∧
    exec (.subx sz false ry rx) s =
      .next ((s.beginInstr.setD sz rx (subxAlu sz s.sr.ccr src dst).1).setCcr (subxAlu sz s.sr.ccr src dst).2)) ∧
  (∀ (sz : Size) (ry rx : Reg) (s q p : State) (ay ax src dst : Long),
    ay = s.areg ry - eaStep sz ry → q = s.beginInstr.setA ry ay →
    ax = q.areg rx - eaStep sz rx → p = q.setA rx ax →
    s.canAccess .data .read ay sz = true → s.canAccess .data .read ax sz = true →
    s.canAccess .data .write ax sz = true → src = s.loadMem (s.code .data) ay sz →
    dst = s.loadMem (s.code .data) ax sz →
    exec (.addx sz true ry rx) s =
      .next ((p.storeMem ax sz (addxAlu sz s.sr.ccr src dst).1).setCcr (addxAlu sz s.sr.ccr src dst).2) ∧
    exec (.subx sz true ry rx) s =
      .next ((p.storeMem ax sz (subxAlu sz s.sr.ccr src dst).1).setCcr (subxAlu sz s.sr.ccr src dst).2))

/-- MULS and MULU (R225, R226): word by word, a long word product; V and C cleared, X unchanged. -/
def Obligations.MultiplyResults : Prop :=
  ∀ (ea : Ea) (dn : Reg) (s p : State) (loc : Loc) (src dst : Word) (rs ru : Long),
    s.beginInstr.resolve ea .word = (loc, p) → loc.readable .word p = true →
    src = lowWord (loc.load .word p) → dst = lowWord (p.dreg dn) →
    rs.toInt = dst.toInt * src.toInt → ru.toNat = dst.toNat * src.toNat →
    exec (.muls ea dn) s = .next ((p.setD .long dn rs).setCcr (moveFlags .long s.sr.ccr rs)) ∧
    exec (.mulu ea dn) s = .next ((p.setD .long dn ru).setCcr (moveFlags .long s.sr.ccr ru))

/-- DIVS and DIVU by a divisor that is not zero (R222, R223): remainder in the high word, quotient in the low word; on
overflow V set, C cleared, N and Z free, the register unchanged (D18, log 23). -/
def Obligations.DivideResults : Prop :=
  ∀ (i : Instr) (div : Divider) (ea : Ea) (dn : Reg) (s p : State) (loc : Loc) (src : Word),
    (i = .divs ea dn ∧ div = divSigned) ∨ (i = .divu ea dn ∧ div = divUnsigned) →
    s.beginInstr.resolve ea .word = (loc, p) → loc.readable .word p = true →
    src = lowWord (loc.load .word p) → src ≠ 0 →
    (∀ q r, div (p.dreg dn) src = some (q, r) →
      exec i s =
        .next ((p.setD .long dn (joinWords r q)).setCcr
          { x := s.sr.ccr.x, n := q.getLsbD 15, z := decide (q = 0), v := false, c := false })) ∧
    (div (p.dreg dn) src = none → ∃ n z : Bool,
      exec i s =
        .next (State.setCcr { x := s.sr.ccr.x, n := n, z := z, v := true, c := false }
          { p with drawCount := p.drawCount + 2 }))

/-- ABCD, SBCD and NBCD on decimal operands (R312 to R315): N and V are free. -/
def Obligations.DecimalResults : Prop :=
  (∀ (ry rx : Reg) (s p : State) (sd dd : Nat),
    decOf ((s.dreg ry).setWidth 8) = some sd → decOf ((s.dreg rx).setWidth 8) = some dd →
    p = { s.beginInstr with drawCount := s.drawCount + 2 } →
    ∃ n v : Bool, ∀ (r : Byte) (c : Bool),
      ((r, c) = bcdAdd sd dd s.sr.ccr.x →
        exec (.abcd false ry rx) s =
          .next ((p.setD .byte rx (r.setWidth 32)).setCcr
            { x := c, n := n, z := s.sr.ccr.z && decide (r = 0), v := v, c := c })) ∧
      ((r, c) = bcdSub sd dd s.sr.ccr.x →
        exec (.sbcd false ry rx) s =
          .next ((p.setD .byte rx (r.setWidth 32)).setCcr
            { x := c, n := n, z := s.sr.ccr.z && decide (r = 0), v := v, c := c }))) ∧
  (∀ (ry rx : Reg) (s q p : State) (ay ax : Long) (sd dd : Nat),
    ay = s.areg ry - eaStep .byte ry → q = s.beginInstr.setA ry ay →
    ax = q.areg rx - eaStep .byte rx → p = { q.setA rx ax with drawCount := s.drawCount + 2 } →
    s.canAccess .data .read ay .byte = true → s.canAccess .data .read ax .byte = true →
    s.canAccess .data .write ax .byte = true →
    decOf (s.byteAt (s.code .data) ay) = some sd → decOf (s.byteAt (s.code .data) ax) = some dd →
    ∃ n v : Bool, ∀ (r : Byte) (c : Bool),
      ((r, c) = bcdAdd sd dd s.sr.ccr.x →
        exec (.abcd true ry rx) s =
          .next ((p.storeMem ax .byte (r.setWidth 32)).setCcr
            { x := c, n := n, z := s.sr.ccr.z && decide (r = 0), v := v, c := c })) ∧
      ((r, c) = bcdSub sd dd s.sr.ccr.x →
        exec (.sbcd true ry rx) s =
          .next ((p.storeMem ax .byte (r.setWidth 32)).setCcr
            { x := c, n := n, z := s.sr.ccr.z && decide (r = 0), v := v, c := c }))) ∧
  (∀ (ea : Ea) (s p : State) (loc : Loc) (dd : Nat),
    s.beginInstr.resolve ea .byte = (loc, p) → loc.readable .byte p = true → loc.writable .byte p = true →
    decOf ((loc.load .byte p).setWidth 8) = some dd →
    ∃ n v : Bool, ∀ (r : Byte) (c : Bool), (r, c) = bcdSub dd 0 s.sr.ccr.x →
      exec (.nbcd ea) s =
        .next ((loc.store .byte (r.setWidth 32) { p with drawCount := p.drawCount + 2 }).setCcr
          { x := c, n := n, z := s.sr.ccr.z && decide (r = 0), v := v, c := c }))

/-- MOVE and MOVEA (R184, R185): the source is read before the destination is resolved (R162). -/
def Obligations.MoveResults : Prop :=
  (∀ (i : Instr) (sz : Size) (src dst : Ea) (s p q : State) (from_ to_ : Loc) (v : Long),
    (i = .moveByte src dst ∧ sz = .byte) ∨ (i = .moveWord src dst ∧ sz = .word) ∨
      (i = .moveLong src dst ∧ sz = .long) →
    s.beginInstr.resolve src sz = (from_, p) → from_.readable sz p = true → v = from_.load sz p →
    p.resolve dst sz = (to_, q) → to_.writable sz q = true →
    exec i s =
      .next ((to_.store sz v q).setCcr
        { x := s.sr.ccr.x, n := msbOf sz v, z := decide (v = 0), v := false, c := false })) ∧
  (∀ (i : Instr) (sz : Size) (src : Ea) (an : Reg) (s p : State) (from_ : Loc),
    (i = .moveaWord src an ∧ sz = .word) ∨ (i = .moveaLong src an ∧ sz = .long) →
    s.beginInstr.resolve src sz = (from_, p) → from_.readable sz p = true →
    exec i s = .next (p.setA an (signExtend sz (from_.load sz p))))

/-- MOVEQ, SWAP, EXT, EXG and LEA (R189, R191, R224, R181, R182), in every state; EXG exchanges all 32 bits,
also when both registers are the same. -/
def Obligations.RegisterMoves : Prop :=
  ∀ (s : State) (x y : Reg) (d : Byte) (ea : Ea),
    exec (.moveq x d) s =
      .next ((s.beginInstr.setD .long x (d.signExtend 32)).setCcr
        { x := s.sr.ccr.x, n := d.getLsbD 7, z := decide (d = 0), v := false, c := false }) ∧
    exec (.swap x) s =
      .next ((s.beginInstr.setD .long x ((s.dreg x).rotateLeft 16)).setCcr
        (moveFlags .long s.sr.ccr ((s.dreg x).rotateLeft 16))) ∧
    exec (.extReg .word x) s =
      .next ((s.beginInstr.setD .word x (((s.dreg x).setWidth 8).signExtend 32)).setCcr
        (moveFlags .word s.sr.ccr ((((s.dreg x).setWidth 8).signExtend 16).setWidth 32))) ∧
    exec (.extReg .long x) s =
      .next ((s.beginInstr.setD .long x (((s.dreg x).setWidth 16).signExtend 32)).setCcr
        (moveFlags .long s.sr.ccr (((s.dreg x).setWidth 16).signExtend 32))) ∧
    exec (.exgData x y) s =
      .next ((s.beginInstr.setD .long x (s.dreg y)).setD .long y (s.dreg x)) ∧
    exec (.exgAddr x y) s = .next ((s.beginInstr.setA x (s.areg y)).setA y (s.areg x)) ∧
    exec (.exgDataAddr x y) s = .next ((s.beginInstr.setD .long x (s.areg y)).setA y (s.dreg x)) ∧
    exec (.lea ea x) s =
      .next ((s.beginInstr.resolve ea .long).2.setA x (s.beginInstr.resolve ea .long).1.address) ∧
    ((s.setD .long x (s.dreg y)).setD .long y (s.dreg x)).dreg x = s.dreg y ∧
    ((s.setD .long x (s.dreg y)).setD .long y (s.dreg x)).dreg y = s.dreg x ∧
    ((s.setA x (s.areg y)).setA y (s.areg x)).areg x = s.areg y ∧
    ((s.setA x (s.areg y)).setA y (s.areg x)).areg y = s.areg x

/-- PEA, LINK and UNLK (R190, R183, R192). For LINK A7 and UNLK A7 the value pushed and the increment are the
parameters of U14, which the constants of Config stand for (log 20). -/
def Obligations.StackFrameResults : Prop :=
  (∀ (ea : Ea) (s p : State) (loc : Loc),
    s.beginInstr.resolve ea .long = (loc, p) → p.canAccess .data .write (p.sp - 4) .long = true →
    exec (.pea ea) s = .next ((p.storeMem (p.sp - 4) .long loc.address).setSp (p.sp - 4))) ∧
  (∀ (an : Reg) (d : Word) (s : State) (a v : Long),
    a = s.sp - 4 → s.canAccess .data .write a .long = true →
    v = (if an = 7 then (if Config.linkA7PushesOld then s.sp else a) else s.areg an) →
    exec (.link an d) s =
      .next (((((s.beginInstr.advance 2).storeMem a .long v).setSp a).setA an a).setSp (a + d.signExtend 32))) ∧
  (∀ (an : Reg) (s : State) (v : Long),
    s.canAccess .data .read (s.areg an) .long = true → v = s.longAt (s.code .data) (s.areg an) →
    exec (.unlk an) s =
      .next (if an = 7 then s.beginInstr.setSp (if Config.unlkA7Increments then v + 4 else v)
        else (s.beginInstr.setA an v).setSp (s.areg an + 4)))

/-- MOVEM (R186). Registers to memory: ascending from the address; in the predecrement form descending, the mask
reversed, An changed at the end. Memory to registers: a word is sign-extended into the whole register; one more word is
read after the last operand; in the postincrement form An ends up after the last operand. -/
def Obligations.MovemResults : Prop :=
  (∀ (sz : AddrSize) (mask : Word) (ea : Ea) (s p : State) (loc : Loc) (vs : List Long),
    ea.isPreDec = false → (s.beginInstr.advance 2).resolve ea .long = (loc, p) →
    vs = (maskBits mask).map (fun r => trunc sz.toSize (p.gpr r)) →
    p.canAccessList .data .write sz.toSize (BitVec.ofNat 32 (sizeBytes sz.toSize)) vs.length loc.address = true →
    exec (.movemStore sz mask ea) s =
      .next (p.storeList sz.toSize (BitVec.ofNat 32 (sizeBytes sz.toSize)) vs loc.address)) ∧
  (∀ (sz : AddrSize) (mask : Word) (n : Reg) (s p : State) (vs : List Long) (k : Long),
    p = s.beginInstr.advance 2 → k = BitVec.ofNat 32 (sizeBytes sz.toSize) →
    vs = (maskBits mask).map (fun i => trunc sz.toSize (s.gpr (Fin.ofNat 16 (15 - i.val)))) →
    p.canAccessList .data .write sz.toSize (-k) vs.length (s.areg n - k) = true →
    exec (.movemStore sz mask (.preDec n)) s =
      .next ((p.storeList sz.toSize (-k) vs (s.areg n - k)).setA n
        (s.areg n - BitVec.ofNat 32 (vs.length * sizeBytes sz.toSize)))) ∧
  (∀ (sz : AddrSize) (mask : Word) (ea : Ea) (s p : State) (loc : Loc) (rs : List (Fin 16)),
    ea.isPostInc = false → (s.beginInstr.advance 2).resolve ea sz.toSize = (loc, p) → rs = maskBits mask →
    p.canAccessList loc.space .read sz.toSize (BitVec.ofNat 32 (sizeBytes sz.toSize)) rs.length loc.address =
      true →
    p.canAccess loc.space .read (loc.address + BitVec.ofNat 32 (rs.length * sizeBytes sz.toSize)) .word = true →
    exec (.movemLoad sz mask ea) s = .next (p.loadList (p.code loc.space) sz.toSize rs loc.address)) ∧
  (∀ (sz : AddrSize) (mask : Word) (n : Reg) (s p : State) (a b : Long) (rs : List (Fin 16)),
    p = s.beginInstr.advance 2 → a = s.areg n → rs = maskBits mask →
    b = a + BitVec.ofNat 32 (rs.length * sizeBytes sz.toSize) →
    p.canAccessList .data .read sz.toSize (BitVec.ofNat 32 (sizeBytes sz.toSize)) rs.length a = true →
    p.canAccess .data .read b .word = true →
    exec (.movemLoad sz mask (.postInc n)) s = .next ((p.loadList (p.code .data) sz.toSize rs a).setA n b))

/-- MOVEP (R188): every other byte from the address, the most significant first; no address error is possible. -/
def Obligations.MovepResults : Prop :=
  ∀ (dn an : Reg) (d : Word) (s p : State) (a v : Long),
    p = s.beginInstr.advance 2 → a = s.areg an + d.signExtend 32 → v = s.dreg dn →
    (s.canAccessList .data .write .byte 2 2 a = true →
      exec (.movepStoreWord dn an d) s =
        .next (p.storeList .byte 2 [v >>> 8, v] a)) ∧
    (s.canAccessList .data .write .byte 2 4 a = true →
      exec (.movepStoreLong dn an d) s =
        .next (p.storeList .byte 2 [v >>> 24, v >>> 16, v >>> 8, v] a)) ∧
    (s.canAccessList .data .read .byte 2 2 a = true →
      exec (.movepLoadWord dn an d) s = .next (p.setD .word dn (s.bytesAt (s.code .data) 2 a 0))) ∧
    (s.canAccessList .data .read .byte 2 4 a = true →
      exec (.movepLoadLong dn an d) s = .next (p.setD .long dn (s.bytesAt (s.code .data) 4 a 0)))

/-- BTST, BCHG, BCLR, BSET (R300 to R307): Z is the complement of the bit before; a data register is 32 bits and the
number modulo 32, memory a byte and modulo 8. -/
def Obligations.BitResults : Prop :=
  ∀ (ea : Ea) (s u p : State) (loc : Loc) (b : Byte) (dn : Reg) (sz : Size) (k : Nat) (v : Long)
    (test change clear set : Instr),
    (test = .btstStatic b ea ∧ change = .bchgStatic b ea ∧ clear = .bclrStatic b ea ∧ set = .bsetStatic b ea ∧
        u = s.beginInstr.advance 2) ∨
      (test = .btstDynamic dn ea ∧ change = .bchgDynamic dn ea ∧ clear = .bclrDynamic dn ea ∧
        set = .bsetDynamic dn ea ∧ u = s.beginInstr ∧ b = (s.dreg dn).setWidth 8) →
    ((∃ n, ea = .dreg n) ∧ sz = .long ∧ k = b.toNat % 32) ∨
      ((∀ n, ea ≠ .dreg n) ∧ sz = .byte ∧ k = b.toNat % 8) →
    u.resolve ea sz = (loc, p) → loc.readable sz p = true → v = loc.load sz p →
    exec test s = .next (p.setCcr { s.sr.ccr with z := !v.getLsbD k }) ∧
    (loc.writable sz p = true →
      exec change s =
        .next ((loc.store sz (v ^^^ ((1 : Long) <<< k)) p).setCcr { s.sr.ccr with z := !v.getLsbD k }) ∧
      exec clear s =
        .next ((loc.store sz (v &&& ~~~((1 : Long) <<< k)) p).setCcr { s.sr.ccr with z := !v.getLsbD k }) ∧
      exec set s =
        .next ((loc.store sz (v ||| ((1 : Long) <<< k)) p).setCcr { s.sr.ccr with z := !v.getLsbD k }))

/-- The eight shifts and rotates. Register form (R281, R282): the count is 1 to 8, or a register modulo 64. Memory form
(R292): a word, one step, read and written at the same address. -/
def Obligations.ShiftResults : Prop :=
  (∀ (sz : Size) (count : ShiftCount) (dn : Reg) (s : State) (k : Nat) (v : Long),
    k = (match count with
      | .imm c => if c.val = 0 then 8 else c.val
      | .reg n => (s.dreg n).toNat % 64) →
    v = trunc sz (s.dreg dn) →
    ∀ p ∈ [(Instr.aslReg sz count dn, ShiftKind.asl), (.asrReg sz count dn, .asr), (.lslReg sz count dn, .lsl),
        (.lsrReg sz count dn, .lsr), (.rolReg sz count dn, .rol), (.rorReg sz count dn, .ror),
        (.roxlReg sz count dn, .roxl), (.roxrReg sz count dn, .roxr)],
      exec p.1 s =
        .next ((s.beginInstr.setD sz dn (shiftAlu p.2 sz k s.sr.ccr v).1).setCcr (shiftAlu p.2 sz k s.sr.ccr v).2)) ∧
  (∀ (ea : Ea) (s q : State) (loc : Loc) (v : Long),
    s.beginInstr.resolve ea .word = (loc, q) → loc.readable .word q = true → loc.writable .word q = true →
    v = loc.load .word q →
    ∀ p ∈ [(Instr.aslMem ea, ShiftKind.asl), (.asrMem ea, .asr), (.lslMem ea, .lsl), (.lsrMem ea, .lsr),
        (.rolMem ea, .rol), (.rorMem ea, .ror), (.roxlMem ea, .roxl), (.roxrMem ea, .roxr)],
      exec p.1 s =
        .next ((loc.store .word (shiftAlu p.2 .word 1 s.sr.ccr v).1 q).setCcr (shiftAlu p.2 .word 1 s.sr.ccr v).2))

/-- TAS (R252): N and Z from the operand before, bit 7 set; on memory by the read-modify-write cycle. -/
def Obligations.TasResults : Prop :=
  ∀ (ea : Ea) (s p : State) (loc : Loc) (b : Byte) (cc : Ccr),
    s.beginInstr.resolve ea .byte = (loc, p) →
    cc = { x := s.sr.ccr.x, n := b.getLsbD 7, z := decide (b = 0), v := false, c := false } →
    (∀ n, loc = .dreg n → b = (p.dreg n).setWidth 8 →
      exec (.tas ea) s = .next ((p.setD .byte n ((b ||| 0x80).setWidth 32)).setCcr cc)) ∧
    (∀ sp a, loc = .mem sp a → p.canRmw a = true → b = p.byteAt (p.code .data) a →
      exec (.tas ea) s =
        .next ((p.storeMem a .byte ((b ||| 0x80).setWidth 32)).setCcr cc))

/-- BRA, Bcc, DBcc, JMP and NOP (R323, R324, R326, R328, R332), in every state: the base of a displacement is the
address of the operation word plus two. -/
def Obligations.BranchResults : Prop :=
  ∀ (s : State) (c : Cond) (dn : Reg) (d : Word) (d8 : Byte) (ea : Ea) (count : Word),
    exec (.bra (.short d8)) s = .next (s.beginInstr.jump (s.pc + 2 + d8.signExtend 32)) ∧
    exec (.bra (.long d)) s = .next (s.beginInstr.jump (s.pc + 2 + d.signExtend 32)) ∧
    (condHolds s.sr.ccr c = true →
      exec (.bcc c (.short d8)) s = .next (s.beginInstr.jump (s.pc + 2 + d8.signExtend 32)) ∧
      exec (.bcc c (.long d)) s = .next (s.beginInstr.jump (s.pc + 2 + d.signExtend 32)) ∧
      exec (.dbcc c dn d) s = .next (s.beginInstr.advance 2)) ∧
    (condHolds s.sr.ccr c = false →
      exec (.bcc c (.short d8)) s = .next s.beginInstr ∧
      exec (.bcc c (.long d)) s = .next (s.beginInstr.advance 2) ∧
      (count = (s.dreg dn).setWidth 16 →
        (count = 0 →
          exec (.dbcc c dn d) s = .next ((s.beginInstr.setD .word dn 0xFFFF).advance 2)) ∧
        (count ≠ 0 →
          exec (.dbcc c dn d) s =
            .next ((s.beginInstr.setD .word dn ((count - 1).setWidth 32)).jump
              (s.pc + 2 + d.signExtend 32))))) ∧
    exec (.jmp ea) s =
      .next ((s.beginInstr.resolve ea .long).2.jump (s.beginInstr.resolve ea .long).1.address) ∧
    exec .nop s = .next s.beginInstr

/-- BSR and JSR to an even target (R325, R329): the address of the next instruction is pushed. To an odd target, whether it
has been pushed when the address error at the target is taken is free (R322, U15, log 21). -/
def Obligations.CallResults : Prop :=
  (∀ (d : BranchDisp) (s : State) (ret target : Long),
    ret = (match d with | .short _ => s.pc + 2 | .long _ => s.pc + 4) →
    target = (match d with | .short b => s.pc + 2 + b.signExtend 32 | .long w => s.pc + 2 + w.signExtend 32) →
    target.getLsbD 0 = false → s.canAccess .data .write (s.sp - 4) .long = true →
    exec (.bsr d) s =
      .next (((s.beginInstr.storeMem (s.sp - 4) .long ret).setSp (s.sp - 4)).jump target)) ∧
  (∀ (ea : Ea) (s p : State) (loc : Loc),
    s.beginInstr.resolve ea .long = (loc, p) → loc.address.getLsbD 0 = false →
    p.canAccess .data .write (p.sp - 4) .long = true →
    exec (.jsr ea) s =
      .next (((p.storeMem (p.sp - 4) .long p.pc).setSp (p.sp - 4)).jump loc.address)) ∧
  (∀ (d : BranchDisp) (s p : State) (ret target : Long),
    ret = (match d with | .short _ => s.pc + 2 | .long _ => s.pc + 4) →
    target = (match d with | .short b => s.pc + 2 + b.signExtend 32 | .long w => s.pc + 2 + w.signExtend 32) →
    target.getLsbD 0 = true → s.canAccess .data .write (s.sp - 4) .long = true →
    p = { s.beginInstr with drawCount := s.drawCount + 1 } →
    exec (.bsr d) s = .next (p.jump target) ∨
    exec (.bsr d) s = .next (((p.storeMem (s.sp - 4) .long ret).setSp (s.sp - 4)).jump target)) ∧
  (∀ (ea : Ea) (s p q : State) (loc : Loc),
    s.beginInstr.resolve ea .long = (loc, p) → loc.address.getLsbD 0 = true →
    p.canAccess .data .write (p.sp - 4) .long = true → q = { p with drawCount := p.drawCount + 1 } →
    exec (.jsr ea) s = .next (q.jump loc.address) ∨
    exec (.jsr ea) s = .next (((q.storeMem (p.sp - 4) .long p.pc).setSp (p.sp - 4)).jump loc.address))

/-- RTS and RTR (R331, R330): RTR takes the five flags from the low byte of a word and leaves the system byte. RTE installs
SR only after all three words of its frame are read (R343, R502), so that a fault inside it finds all of SR as it was. -/
def Obligations.ReturnResults : Prop :=
  (∀ s : State, s.canAccess .data .read s.sp .long = true →
    exec .rts s = .next ((s.beginInstr.setSp (s.sp + 4)).jump (s.longAt (s.code .data) s.sp))) ∧
  (∀ (s : State) (w : Word),
    s.canAccess .data .read s.sp .word = true → s.canAccess .data .read (s.sp + 2) .long = true →
    w = s.wordAt (s.code .data) s.sp →
    exec .rtr s =
      .next (((s.beginInstr.setSp (s.sp + 6)).setCcr
        { x := w.getLsbD 4, n := w.getLsbD 3, z := w.getLsbD 2, v := w.getLsbD 1, c := w.getLsbD 0 }).jump
        (s.longAt (s.code .data) (s.sp + 2)))) ∧
  (∀ (s t : State) (e : Abort),
    s.sr.s = true → returnFromException s.beginInstr = .error e t → exec .rte s = abortOutcome e t ∧ t.sr = s.sr)

/-- MOVE from SR, MOVE to CCR, and the immediate forms on CCR (R345, R347, R350, R352, R354), legal in user state. That the
unused bits MOVE from SR stores are zeros is decision D3 (log 2). -/
def Obligations.ConditionCodeMoves : Prop :=
  (∀ (ea : Ea) (s p : State) (loc : Loc),
    s.beginInstr.resolve ea .word = (loc, p) → loc.readable .word p = true → loc.writable .word p = true →
    exec (.moveFromSr ea) s = .next (loc.store .word (s.sr.toWord.setWidth 32) p)) ∧
  (∀ (ea : Ea) (s p : State) (loc : Loc),
    s.beginInstr.resolve ea .word = (loc, p) → loc.readable .word p = true →
    exec (.moveToCcr ea) s = .next (p.setCcr (Ccr.ofWord (lowWord (loc.load .word p))))) ∧
  (∀ (b : Byte) (s p : State) (f : Bool → Bool → Bool) (i : Instr),
    (i = .andiToCcr b ∧ f = and) ∨ (i = .oriToCcr b ∧ f = or) ∨ (i = .eoriToCcr b ∧ f = xor) →
    p = s.beginInstr.advance 2 →
    exec i s =
      .next (p.setCcr
        { x := f s.sr.ccr.x (b.getLsbD 4), n := f s.sr.ccr.n (b.getLsbD 3), z := f s.sr.ccr.z (b.getLsbD 2),
          v := f s.sr.ccr.v (b.getLsbD 1), c := f s.sr.ccr.c (b.getLsbD 0) }))

/-- The privileged instructions in supervisor state (R342 to R344, R346, R349, R351, R353, R355). -/
def Obligations.SupervisorResults : Prop :=
  ∀ s : State, s.sr.s = true →
    (∀ (ea : Ea) (p : State) (loc : Loc),
      s.beginInstr.resolve ea .word = (loc, p) → loc.readable .word p = true →
      exec (.moveToSr ea) s = .next (p.setSr (StatusRegister.ofWord (lowWord (loc.load .word p))))) ∧
    (∀ w : Word,
      exec (.andiToSr w) s =
        .next ((s.beginInstr.advance 2).setSr (StatusRegister.ofWord (s.sr.toWord &&& w))) ∧
      exec (.oriToSr w) s =
        .next ((s.beginInstr.advance 2).setSr (StatusRegister.ofWord (s.sr.toWord ||| w))) ∧
      exec (.eoriToSr w) s =
        .next ((s.beginInstr.advance 2).setSr (StatusRegister.ofWord (s.sr.toWord ^^^ w))) ∧
      exec (.stop w) s =
        .next { (s.beginInstr.advance 2).setSr (StatusRegister.ofWord w) with
                procState := .stopped, prefetch := [] }) ∧
    (∀ an : Reg,
      exec (.moveToUsp an) s = .next { s.beginInstr with usp := s.areg an } ∧
      exec (.moveFromUsp an) s = .next (s.beginInstr.setA an s.usp)) ∧
    exec .resetDevices s = .next { s.beginInstr with resetPulses := s.resetPulses + 1 } ∧
    (s.canAccess .data .read s.ssp .word = true → s.canAccess .data .read (s.ssp + 2) .long = true →
      exec .rte s =
        .next { s.beginInstr.jump (s.longAt .supervisorData (s.ssp + 2)) with
                ssp := s.ssp + 6, sr := StatusRegister.ofWord (s.wordAt .supervisorData s.ssp) })

/-- The 16 bits of SR written and read (R30, R31, R348): the write keeps exactly the bits of $A71F. -/
def Obligations.StatusRegisterBits : Prop :=
  ∀ (w : Word) (sr : StatusRegister),
    (StatusRegister.ofWord w).toWord = w &&& 0xA71F ∧ StatusRegister.ofWord sr.toWord = sr

/-! Frames: what an instruction leaves unchanged when its operands are accessible. -/

/-- Instructions that read an operand and write a register, the flags, or nothing. Every other register (an address
register that the mode itself changes apart), the system byte, every special register and every byte of memory stay;
ADD and SUB write five flags, AND, OR, MULS, MULU, DIVS, DIVU, the compares and TST all but X, MOVE to CCR all, ADDA,
SUBA and MOVEA none. -/
def Obligations.RegisterFrame : Prop :=
  ∀ (i : Instr) (sz : Size) (asz : AddrSize) (ea : Ea) (dn an : Reg) (s p t : State) (loc : Loc),
    s.beginInstr.resolve ea sz = (loc, p) → loc.readable sz p = true → exec i s = .next t →
    (i ∈ [Instr.addToReg sz ea dn, .subToReg sz ea dn] →
      State.sameButRegs [dn] (eaChanges ea) s t ∧ State.sameMemory s t) ∧
    (i ∈ [Instr.andToReg sz ea dn, .orToReg sz ea dn] ∨ (sz = .word ∧ i ∈ [Instr.muls ea dn, .mulu ea dn]) ∨
        (sz = .word ∧ lowWord (loc.load sz p) ≠ 0 ∧ i ∈ [Instr.divs ea dn, .divu ea dn]) →
      State.sameButRegs [dn] (eaChanges ea) s t ∧ State.sameMemory s t ∧ t.sr.ccr.x = s.sr.ccr.x) ∧
    (i ∈ [Instr.cmp sz ea dn, .tst sz ea] ∨ (sz = asz.toSize ∧ i = .cmpa asz ea an) →
      State.sameButRegs [] (eaChanges ea) s t ∧ State.sameMemory s t ∧ t.sr.ccr.x = s.sr.ccr.x) ∧
    (sz = .word ∧ i = .moveToCcr ea → State.sameButRegs [] (eaChanges ea) s t ∧ State.sameMemory s t) ∧
    ((sz = asz.toSize ∧ i ∈ [Instr.adda asz ea an, .suba asz ea an]) ∨ (sz = .word ∧ i = .moveaWord ea an) ∨
        (sz = .long ∧ i = .moveaLong ea an) →
      State.sameButRegs [] (an :: eaChanges ea) s t ∧ State.sameMemory s t ∧ t.sr = s.sr)

/-- Instructions on one data register: only that register and the flags change. The first group writes five flags, the
second all but X, the third Z only, the last none; MOVE USP to a register changes that address register. -/
def Obligations.OneRegisterFrame : Prop :=
  ∀ (i : Instr) (sz : Size) (asz : AddrSize) (count : ShiftCount) (imm : Long) (b : Byte) (q : Fin 8)
    (dm dn an : Reg) (c : Cond) (s t : State),
    exec i s = .next t →
    (i ∈ [Instr.aslReg sz count dn, .asrReg sz count dn, .lslReg sz count dn, .lsrReg sz count dn,
        .roxlReg sz count dn, .roxrReg sz count dn, .neg sz (.dreg dn), .negx sz (.dreg dn), .nbcd (.dreg dn),
        .addx sz false dm dn, .subx sz false dm dn, .abcd false dm dn, .sbcd false dm dn, .addi sz imm (.dreg dn),
        .subi sz imm (.dreg dn), .addq q sz (.dreg dn), .subq q sz (.dreg dn)] →
      State.sameButRegs [dn] [] s t ∧ State.sameMemory s t) ∧
    (i ∈ [Instr.rolReg sz count dn, .rorReg sz count dn, .swap dn, .extReg asz dn, .moveq dn b, .notEa sz (.dreg dn),
        .clr sz (.dreg dn), .tas (.dreg dn), .andi sz imm (.dreg dn), .ori sz imm (.dreg dn), .eori sz imm (.dreg dn),
        .eorToEa sz dm (.dreg dn)] →
      State.sameButRegs [dn] [] s t ∧ State.sameMemory s t ∧ t.sr.ccr.x = s.sr.ccr.x) ∧
    (i ∈ [Instr.bchgStatic b (.dreg dn), .bclrStatic b (.dreg dn), .bsetStatic b (.dreg dn), .bchgDynamic dm (.dreg dn),
        .bclrDynamic dm (.dreg dn), .bsetDynamic dm (.dreg dn)] →
      State.sameButRegs [dn] [] s t ∧ State.sameMemory s t ∧ ∃ z, t.sr.ccr = { s.sr.ccr with z := z }) ∧
    (i ∈ [Instr.scc c (.dreg dn), .moveFromSr (.dreg dn)] →
      State.sameButRegs [dn] [] s t ∧ State.sameMemory s t ∧ t.sr = s.sr) ∧
    (i = .moveFromUsp an → s.sr.s = true →
      State.sameButRegs [] [an] s t ∧ State.sameMemory s t ∧ t.sr = s.sr)

/-- Instructions that read an operand in memory and store the result there: every byte but those of the operand stays,
every data register, every address register but the one the mode changes, the system byte and every special register.
The flags are written as in `OneRegisterFrame`. The last clause is the memory form of ADDX, SUBX, ABCD and SBCD, whose
two registers are decremented. -/
def Obligations.StoreFrame : Prop :=
  ∀ (i : Instr) (sz : Size) (imm : Long) (b : Byte) (q : Fin 8) (ea : Ea) (dm dn : Reg) (c : Cond)
    (s u p t : State) (sp : Space) (a : Long),
    s.mem.wf = true → u.resolve ea sz = (.mem sp a, p) → p.canAccess sp .read a sz = true →
    p.canAccess .data .write a sz = true → exec i s = .next t →
    ((u = s.beginInstr ∧ i ∈ [Instr.addToMem sz dn ea, .subToMem sz dn ea, .neg sz ea, .negx sz ea, .addq q sz ea,
          .subq q sz ea]) ∨
        (u = s.beginInstr.advance (immBytes sz) ∧ i ∈ [Instr.addi sz imm ea, .subi sz imm ea]) ∨
        (u = s.beginInstr ∧ sz = .byte ∧ i = .nbcd ea) ∨
        (u = s.beginInstr ∧ sz = .word ∧ i ∈ [Instr.aslMem ea, .asrMem ea, .lslMem ea, .lsrMem ea, .roxlMem ea,
          .roxrMem ea]) →
      State.sameButRegs [] (eaChanges ea) s t ∧ State.sameMemoryBut (s.code .data) a (sizeBytes sz) s t) ∧
    ((u = s.beginInstr ∧ i ∈ [Instr.andToMem sz dn ea, .orToMem sz dn ea, .eorToEa sz dn ea, .notEa sz ea, .clr sz ea]) ∨
        (u = s.beginInstr.advance (immBytes sz) ∧ i ∈ [Instr.andi sz imm ea, .ori sz imm ea, .eori sz imm ea]) ∨
        (u = s.beginInstr ∧ sz = .word ∧ i ∈ [Instr.rolMem ea, .rorMem ea]) →
      State.sameButRegs [] (eaChanges ea) s t ∧ State.sameMemoryBut (s.code .data) a (sizeBytes sz) s t ∧
        t.sr.ccr.x = s.sr.ccr.x) ∧
    (u = s.beginInstr ∧ sz = .byte ∧ p.canRmw a = true ∧ i = .tas ea →
      State.sameButRegs [] (eaChanges ea) s t ∧ State.sameMemoryBut (s.code .data) a 1 s t ∧
        t.sr.ccr.x = s.sr.ccr.x) ∧
    (sz = .byte ∧
        ((u = s.beginInstr ∧ i ∈ [Instr.bsetDynamic dn ea, .bclrDynamic dn ea, .bchgDynamic dn ea]) ∨
          (u = s.beginInstr.advance 2 ∧ i ∈ [Instr.bsetStatic b ea, .bclrStatic b ea, .bchgStatic b ea])) →
      State.sameButRegs [] (eaChanges ea) s t ∧ State.sameMemoryBut (s.code .data) a 1 s t ∧
        ∃ z, t.sr.ccr = { s.sr.ccr with z := z }) ∧
    (u = s.beginInstr ∧ ((sz = .byte ∧ i = .scc c ea) ∨ (sz = .word ∧ i = .moveFromSr ea)) →
      State.sameButRegs [] (eaChanges ea) s t ∧ State.sameMemoryBut (s.code .data) a (sizeBytes sz) s t ∧ t.sr = s.sr) ∧
    (ea = .preDec dn → u = s.beginInstr.setA dm (s.areg dm - eaStep sz dm) →
      s.canAccess .data .read (s.areg dm - eaStep sz dm) sz = true →
      i ∈ [Instr.addx sz true dm dn, .subx sz true dm dn] ∨
        (sz = .byte ∧ i ∈ [Instr.abcd true dm dn, .sbcd true dm dn]) →
      State.sameButRegs [] [dm, dn] s t ∧ State.sameMemoryBut (s.code .data) a (sizeBytes sz) s t)

/-- MOVE, MOVEM and MOVEP to memory: every byte but those of the destination stays, and X; MOVEM and MOVEP write no flag
and change no register but the predecremented one of MOVEM. -/
def Obligations.MoveStoreFrame : Prop :=
  (∀ (i : Instr) (sz : Size) (src dst : Ea) (s p q t : State) (from_ : Loc) (sp : Space) (a : Long),
    (i = .moveByte src dst ∧ sz = .byte) ∨ (i = .moveWord src dst ∧ sz = .word) ∨
      (i = .moveLong src dst ∧ sz = .long) →
    s.mem.wf = true → s.beginInstr.resolve src sz = (from_, p) → from_.readable sz p = true →
    p.resolve dst sz = (.mem sp a, q) → q.canAccess .data .write a sz = true → exec i s = .next t →
    State.sameButRegs [] (eaChanges src ++ eaChanges dst) s t ∧
      State.sameMemoryBut (s.code .data) a (sizeBytes sz) s t ∧ t.sr.ccr.x = s.sr.ccr.x) ∧
  (∀ (sz : AddrSize) (mask : Word) (ea : Ea) (s p t : State) (loc : Loc) (k : Nat) (size : Long),
    s.mem.wf = true → ea.isPreDec = false → (s.beginInstr.advance 2).resolve ea .long = (loc, p) →
    k = (maskBits mask).length → size = BitVec.ofNat 32 (sizeBytes sz.toSize) →
    p.canAccessList .data .write sz.toSize size k loc.address = true →
    exec (.movemStore sz mask ea) s = .next t →
    State.sameButRegs [] (eaChanges ea) s t ∧ t.sr = s.sr ∧
      State.sameMemoryBut (s.code .data) loc.address (k * sizeBytes sz.toSize) s t) ∧
  (∀ (sz : AddrSize) (mask : Word) (n : Reg) (s t : State) (k : Nat) (size : Long),
    s.mem.wf = true → k = (maskBits mask).length → size = BitVec.ofNat 32 (sizeBytes sz.toSize) →
    s.canAccessList .data .write sz.toSize (-size) k (s.areg n - size) = true →
    exec (.movemStore sz mask (.preDec n)) s = .next t →
    State.sameButRegs [] [n] s t ∧ t.sr = s.sr ∧
      State.sameMemoryBut (s.code .data) (s.areg n - BitVec.ofNat 32 (k * sizeBytes sz.toSize))
        (k * sizeBytes sz.toSize) s t) ∧
  (∀ (i : Instr) (dn an : Reg) (d : Word) (s t : State) (k : Nat) (a : Long),
    (i = .movepStoreWord dn an d ∧ k = 2) ∨ (i = .movepStoreLong dn an d ∧ k = 4) →
    s.mem.wf = true → a = s.areg an + d.signExtend 32 → s.canAccessList .data .write .byte 2 k a = true →
    exec i s = .next t →
    State.sameButRegs [] [] s t ∧ t.sr = s.sr ∧
      ∀ (c : FunctionCode) (x : Long),
        (∀ j : Nat, j < k → s.locate c x ≠ s.locate (s.code .data) (a + BitVec.ofNat 32 (2 * j))) →
        t.byteAt c x = s.byteAt c x)

/-- Branches, jumps, calls, returns and the stack instructions (R182, R183, R190, R192, R322 to R332). No flag changes
(RTR writes them), no register but those named, and no byte of memory but the four that a call, PEA or LINK pushes. -/
def Obligations.ControlFrame : Prop :=
  ∀ (i : Instr) (d : BranchDisp) (w : Word) (c : Cond) (n : Reg) (ea : Ea) (s t : State),
    s.mem.wf = true → exec i s = .next t →
    (i ∈ [Instr.bra d, .bcc c d, .nop] ∨ (i = .jmp ea ∧ ea.isControl = true) →
      State.sameButRegs [] [] s t ∧ t.sr = s.sr ∧ State.sameMemory s t) ∧
    (i = .dbcc c n w → State.sameButRegs [n] [] s t ∧ t.sr = s.sr ∧ State.sameMemory s t) ∧
    (i = .lea ea n ∧ ea.isControl = true → State.sameButRegs [] [n] s t ∧ t.sr = s.sr ∧ State.sameMemory s t) ∧
    (i = .bsr d ∨ ((i = .jsr ea ∨ i = .pea ea) ∧ ea.isControl = true) →
      s.canAccess .data .write (s.sp - 4) .long = true →
      State.sameButRegs [] [7] s t ∧ t.sr = s.sr ∧ State.sameMemoryBut (s.code .data) (s.sp - 4) 4 s t) ∧
    (i = .link n w → s.canAccess .data .write (s.sp - 4) .long = true →
      State.sameButRegs [] [n, 7] s t ∧ t.sr = s.sr ∧ State.sameMemoryBut (s.code .data) (s.sp - 4) 4 s t) ∧
    (i = .unlk n → s.canAccess .data .read (s.areg n) .long = true →
      State.sameButRegs [] [n, 7] s t ∧ t.sr = s.sr ∧ State.sameMemory s t) ∧
    (i = .rts → s.canAccess .data .read s.sp .long = true →
      State.sameButRegs [] [7] s t ∧ t.sr = s.sr ∧ State.sameMemory s t) ∧
    (i = .rtr → s.canAccess .data .read s.sp .word = true → s.canAccess .data .read (s.sp + 2) .long = true →
      State.sameButRegs [] [7] s t ∧ State.sameMemory s t)
end

