-- ==== Sys2Proof/Laws/Memory.lean ====
section
/-! SUPPORT. The laws of memory: read after write, and the canonical form every write keeps. -/

namespace Sys2Proof.Machine

open Sys2Proof

/-- An address below every entry reads as an unlisted one. -/
theorem Memory.read_of_wfFrom_lt {m : Memory} {lo p : Nat} (h : m.wfFrom lo = true) (hp : p < lo) :
    m.read p = Memory.unlisted := by
  induction m generalizing lo with
  | nil => rfl
  | cons e m ih =>
    obtain ⟨q, b⟩ := e
    simp only [Memory.wfFrom, Bool.and_eq_true, decide_eq_true_eq] at h
    have : q ≠ p := by omega
    simp only [Memory.read, if_neg this]
    exact ih h.2 (by omega)

/-- A memory canonical from an address on is canonical from any lower one on. -/
theorem Memory.wfFrom_mono {m : Memory} {lo lo' : Nat} (h : m.wfFrom lo = true) (hl : lo' ≤ lo) :
    m.wfFrom lo' = true := by
  cases m with
  | nil => rfl
  | cons e m =>
    simp only [Memory.wfFrom, Bool.and_eq_true, decide_eq_true_eq] at h ⊢
    exact ⟨⟨⟨by omega, h.1.1.2⟩, h.1.2⟩, h.2⟩

/-- Read after write: the byte written at its address, the old byte elsewhere. -/
theorem Memory.read_write_from {m : Memory} {lo : Nat} (h : m.wfFrom lo = true) (p q : Nat) (b : Byte) :
    (m.write p b).read q = if p = q then b else m.read q := by
  induction m generalizing lo with
  | nil =>
    by_cases hb : b = Memory.unlisted
    · simp [Memory.write, Memory.read, hb]
    · simp [Memory.write, Memory.read, hb]
  | cons e m ih =>
    obtain ⟨r, c⟩ := e
    simp only [Memory.wfFrom, Bool.and_eq_true, decide_eq_true_eq] at h
    have hm := h.2
    unfold Memory.write
    by_cases h1 : p < r
    · simp only [h1, if_true]
      have hp : Memory.read m p = Memory.unlisted := Memory.read_of_wfFrom_lt hm (by omega)
      have hrp : r ≠ p := by omega
      by_cases hb : b = Memory.unlisted
      · simp only [hb, if_true]
        by_cases hq : p = q
        · subst hq; simp [Memory.read, hrp, hp]
        · simp [hq]
      · simp only [hb, if_false]
        by_cases hq : p = q
        · subst hq; simp [Memory.read]
        · simp [Memory.read, hq]
    · by_cases h2 : p = r
      · subst h2
        have hp : Memory.read m p = Memory.unlisted := Memory.read_of_wfFrom_lt hm (by omega)
        simp only [h1, if_false, if_true]
        by_cases hb : b = Memory.unlisted
        · simp only [hb, if_true]
          by_cases hq : p = q
          · subst hq; simp [hp]
          · simp [Memory.read, hq]
        · simp only [hb, if_false]
          by_cases hq : p = q
          · subst hq; simp [Memory.read]
          · simp [Memory.read, hq]
      · simp only [h1, h2, if_false, Memory.read]
        rw [ih hm]
        by_cases hr : r = q
        · have : p ≠ q := by omega
          simp [hr, this]
        · simp [hr]

/-- Read after write in a canonical memory. -/
theorem Memory.read_write {m : Memory} (h : m.wf = true) (p q : Nat) (b : Byte) :
    (m.write p b).read q = if p = q then b else m.read q := Memory.read_write_from h p q b

/-- A write keeps the canonical form from an address on. -/
theorem Memory.wfFrom_write {m : Memory} {lo p : Nat} {b : Byte} (h : m.wfFrom lo = true) (hl : lo ≤ p)
    (hp : p < 2 ^ 26) : (m.write p b).wfFrom lo = true := by
  induction m generalizing lo with
  | nil =>
    by_cases hb : b = Memory.unlisted
    · simp [Memory.write, hb, Memory.wfFrom]
    · simp [Memory.write, hb, Memory.wfFrom]
      omega
  | cons e m ih =>
    obtain ⟨r, c⟩ := e
    have h0 := h
    simp only [Memory.wfFrom, Bool.and_eq_true, decide_eq_true_eq] at h
    obtain ⟨⟨⟨hlr, hr⟩, hc⟩, hm⟩ := h
    unfold Memory.write
    by_cases h1 : p < r
    · simp only [h1, if_true]
      by_cases hb : b = Memory.unlisted
      · simpa only [hb, if_true] using h0
      · simp only [hb, if_false, Memory.wfFrom, Bool.and_eq_true, decide_eq_true_eq]
        refine ⟨⟨⟨hl, hp⟩, by simpa using hb⟩, ⟨⟨by omega, hr⟩, hc⟩, hm⟩
    · by_cases h2 : p = r
      · subst h2
        simp only [h1, if_false, if_true]
        by_cases hb : b = Memory.unlisted
        · simp only [hb, if_true]
          exact Memory.wfFrom_mono hm (by omega)
        · simp only [hb, if_false, Memory.wfFrom, Bool.and_eq_true, decide_eq_true_eq]
          exact ⟨⟨⟨hl, hp⟩, by simpa using hb⟩, hm⟩
      · simp only [h1, h2, if_false, Memory.wfFrom, Bool.and_eq_true, decide_eq_true_eq]
        exact ⟨⟨⟨hlr, hr⟩, hc⟩, ih hm (by omega)⟩

/-- A write to an address on the bus keeps the canonical form. -/
theorem Memory.wf_write {m : Memory} {p : Nat} {b : Byte} (h : m.wf = true) (hp : p < 2 ^ 26) :
    (m.write p b).wf = true := Memory.wfFrom_write h (Nat.zero_le _) hp

/-- An address below the first entry reads as an unlisted one. -/
theorem Memory.read_head_lt {m : Memory} {lo q p : Nat} {b : Byte} (h : Memory.wfFrom lo ((q, b) :: m) = true)
    (hp : p < q) : Memory.read ((q, b) :: m) p = Memory.unlisted := by
  simp only [Memory.wfFrom, Bool.and_eq_true, decide_eq_true_eq] at h
  refine Memory.read_of_wfFrom_lt (lo := q) ?_ hp
  simp only [Memory.wfFrom, Bool.and_eq_true, decide_eq_true_eq]
  exact ⟨⟨⟨Nat.le_refl _, h.1.1.2⟩, h.1.2⟩, h.2⟩

/-- Two canonical memories that read alike are the same, from a place on. -/
theorem Memory.ext_from {m n : Memory} {lo : Nat} (hm : m.wfFrom lo = true) (hn : n.wfFrom lo = true)
    (h : ∀ x, m.read x = n.read x) : m = n := by
  induction m generalizing n lo with
  | nil =>
    cases n with
    | nil => rfl
    | cons e n =>
      obtain ⟨q, b⟩ := e
      simp only [Memory.wfFrom, Bool.and_eq_true, decide_eq_true_eq] at hn
      have := h q
      simp only [Memory.read, if_true] at this
      exact absurd this.symm hn.1.2
  | cons e m ih =>
    obtain ⟨q, b⟩ := e
    have hm' := hm
    simp only [Memory.wfFrom, Bool.and_eq_true, decide_eq_true_eq] at hm
    cases n with
    | nil =>
      have := h q
      simp only [Memory.read, if_true] at this
      exact absurd this hm.1.2
    | cons f n =>
      obtain ⟨r, c⟩ := f
      have hn' := hn
      simp only [Memory.wfFrom, Bool.and_eq_true, decide_eq_true_eq] at hn
      have hqr : q = r := by
        rcases Nat.lt_trichotomy q r with hlt | heq | hgt
        · have h1 := h q
          rw [Memory.read_head_lt hn' hlt] at h1
          simp only [Memory.read, if_true] at h1
          exact absurd h1 hm.1.2
        · exact heq
        · have h1 := h r
          rw [Memory.read_head_lt hm' hgt] at h1
          simp only [Memory.read, if_true] at h1
          exact absurd h1.symm hn.1.2
      subst hqr
      have hbc : b = c := by
        have := h q
        simpa only [Memory.read, if_true] using this
      subst hbc
      refine congrArg _ (ih hm.2 hn.2 fun x => ?_)
      by_cases hx : q = x
      · subst hx
        rw [Memory.read_of_wfFrom_lt hm.2 (Nat.lt_succ_self _), Memory.read_of_wfFrom_lt hn.2 (Nat.lt_succ_self _)]
      · have := h x
        simpa only [Memory.read, if_neg hx] using this

/-- Equal memories are equal data: two canonical memories that read alike are the same. -/
theorem Memory.ext {m n : Memory} (hm : m.wf = true) (hn : n.wf = true) (h : ∀ x, m.read x = n.read x) : m = n :=
  Memory.ext_from hm hn h

/-- What reaches the bus is on the bus (R7). -/
theorem phys_lt (a : Long) : phys a < 2 ^ 24 := Nat.mod_lt _ (by decide)

/-- A window places an address in one of the four memories (R67). -/
theorem MemWindow.place_lt (w : MemWindow) (a : Long) : w.place a < 2 ^ 26 := by
  have h1 := w.bank.isLt
  have h2 := ((a.extractLsb' 5 19 &&& w.decoded) + w.base).isLt
  have h3 : phys a % 32 < 32 := Nat.mod_lt _ (by decide)
  unfold MemWindow.place
  omega

/-- Every place is in one of the four memories (R67). -/
theorem State.locate_lt (s : State) (code : FunctionCode) (a : Long) : s.locate code a < 2 ^ 26 := by
  unfold State.locate
  split
  · have := phys_lt a
    omega
  · exact MemWindow.place_lt _ a

/-- Every place keeps the low five bits of its address. -/
theorem State.locate_mod (s : State) (code : FunctionCode) (a : Long) : s.locate code a % 32 = a.toNat % 32 := by
  have h : phys a % 32 = a.toNat % 32 := by unfold phys; omega
  unfold State.locate
  split
  · exact h
  · rw [← h]
    unfold MemWindow.place
    omega

/-- Addresses that differ in the low five bits have different places, whatever the function codes. -/
theorem State.locate_ne (s : State) (c d : FunctionCode) {a b : Long} (h : a.toNat % 32 ≠ b.toNat % 32) :
    s.locate c a ≠ s.locate d b := fun e => h (by rw [← s.locate_mod c a, ← s.locate_mod d b, e])

/-- Addresses that differ by less than 32 have different places. -/
theorem State.locate_add_ne (s : State) (c d : FunctionCode) (a : Long) {i j : Nat} (h : i ≠ j) (hi : i < 32)
    (hj : j < 32) : s.locate c (a + BitVec.ofNat 32 i) ≠ s.locate d (a + BitVec.ofNat 32 j) := by
  apply State.locate_ne
  rw [BitVec.toNat_add, BitVec.toNat_add, BitVec.toNat_ofNat, BitVec.toNat_ofNat]
  omega

/-- The order of two writes to different places does not matter. -/
theorem Memory.write_comm {m : Memory} (h : m.wf = true) {p q : Nat} (hpq : p ≠ q) (hp : p < 2 ^ 26) (hq : q < 2 ^ 26)
    (b c : Byte) : (m.write p b).write q c = (m.write q c).write p b :=
  Memory.ext (Memory.wf_write (Memory.wf_write h hp) hq) (Memory.wf_write (Memory.wf_write h hq) hp) fun x => by
    rw [Memory.read_write (Memory.wf_write h hp), Memory.read_write h, Memory.read_write (Memory.wf_write h hq),
      Memory.read_write h]
    by_cases h1 : q = x
    · have h2 : ¬ p = x := fun e => hpq (e.trans h1.symm)
      simp [h1, h2]
    · simp [h1]

/-- Where a byte is depends on the map of memories only. -/
theorem State.locate_congr {s t : State} (h : t.memMap = s.memMap) (code : FunctionCode) (a : Long) :
    t.locate code a = s.locate code a := by simp only [State.locate, h]

/-- What a byte is depends on memory and the map of memories only. -/
theorem State.byteAt_congr {s t : State} (h1 : t.memMap = s.memMap) (h2 : t.mem = s.mem) (code : FunctionCode)
    (a : Long) : t.byteAt code a = s.byteAt code a := by simp only [State.byteAt, State.locate_congr h1, h2]

/-- The same for an operand. -/
theorem State.loadMem_congr {s t : State} (h1 : t.memMap = s.memMap) (h2 : t.mem = s.mem) (code : FunctionCode)
    (a : Long) (sz : Size) : t.loadMem code a sz = s.loadMem code a sz := by
  cases sz <;> simp only [State.loadMem, State.longAt, State.wordAt, State.byteAt_congr h1 h2]

end Sys2Proof.Machine
end

