-- ==== Sys2Proof/Laws/State.lean ====
section
/-! SUPPORT. One lemma per field per update of the state, so that no later proof unfolds a record update. -/

namespace Sys2Proof.Machine

open Sys2Proof

@[simp] theorem State.setD_d (s : State) (sz : Size) (n : Reg) (v : Long) : (s.setD sz n v).d = s.d.set n.val (mergeLow sz s.d[n.val] v) := rfl
@[simp] theorem State.setD_a (s : State) (sz : Size) (n : Reg) (v : Long) : (s.setD sz n v).a = s.a := rfl
@[simp] theorem State.setD_usp (s : State) (sz : Size) (n : Reg) (v : Long) : (s.setD sz n v).usp = s.usp := rfl
@[simp] theorem State.setD_ssp (s : State) (sz : Size) (n : Reg) (v : Long) : (s.setD sz n v).ssp = s.ssp := rfl
@[simp] theorem State.setD_pc (s : State) (sz : Size) (n : Reg) (v : Long) : (s.setD sz n v).pc = s.pc := rfl
@[simp] theorem State.setD_sr (s : State) (sz : Size) (n : Reg) (v : Long) : (s.setD sz n v).sr = s.sr := rfl
@[simp] theorem State.setD_procState (s : State) (sz : Size) (n : Reg) (v : Long) : (s.setD sz n v).procState = s.procState := rfl
@[simp] theorem State.setD_pendingIrq (s : State) (sz : Size) (n : Reg) (v : Long) : (s.setD sz n v).pendingIrq = s.pendingIrq := rfl
@[simp] theorem State.setD_prevIrqLevel (s : State) (sz : Size) (n : Reg) (v : Long) : (s.setD sz n v).prevIrqLevel = s.prevIrqLevel := rfl
@[simp] theorem State.setD_nmi (s : State) (sz : Size) (n : Reg) (v : Long) : (s.setD sz n v).nmi = s.nmi := rfl
@[simp] theorem State.setD_traceAtStart (s : State) (sz : Size) (n : Reg) (v : Long) : (s.setD sz n v).traceAtStart = s.traceAtStart := rfl
@[simp] theorem State.setD_srCopy (s : State) (sz : Size) (n : Reg) (v : Long) : (s.setD sz n v).srCopy = s.srCopy := rfl
@[simp] theorem State.setD_instrReg (s : State) (sz : Size) (n : Reg) (v : Long) : (s.setD sz n v).instrReg = s.instrReg := rfl
@[simp] theorem State.setD_inGroup0 (s : State) (sz : Size) (n : Reg) (v : Long) : (s.setD sz n v).inGroup0 = s.inGroup0 := rfl
@[simp] theorem State.setD_prefetch (s : State) (sz : Size) (n : Reg) (v : Long) : (s.setD sz n v).prefetch = s.prefetch := rfl
@[simp] theorem State.setD_busOwner (s : State) (sz : Size) (n : Reg) (v : Long) : (s.setD sz n v).busOwner = s.busOwner := rfl
@[simp] theorem State.setD_mem (s : State) (sz : Size) (n : Reg) (v : Long) : (s.setD sz n v).mem = s.mem := rfl
@[simp] theorem State.setD_memMap (s : State) (sz : Size) (n : Reg) (v : Long) : (s.setD sz n v).memMap = s.memMap := rfl
@[simp] theorem State.setD_busMap (s : State) (sz : Size) (n : Reg) (v : Long) : (s.setD sz n v).busMap = s.busMap := rfl
@[simp] theorem State.setD_iack (s : State) (sz : Size) (n : Reg) (v : Long) : (s.setD sz n v).iack = s.iack := rfl
@[simp] theorem State.setD_inputs (s : State) (sz : Size) (n : Reg) (v : Long) : (s.setD sz n v).inputs = s.inputs := rfl
@[simp] theorem State.setD_cycles (s : State) (sz : Size) (n : Reg) (v : Long) : (s.setD sz n v).cycles = s.cycles := rfl
@[simp] theorem State.setD_prefetchWindow (s : State) (sz : Size) (n : Reg) (v : Long) : (s.setD sz n v).prefetchWindow = s.prefetchWindow := rfl
@[simp] theorem State.setD_resetPulses (s : State) (sz : Size) (n : Reg) (v : Long) : (s.setD sz n v).resetPulses = s.resetPulses := rfl
@[simp] theorem State.setD_instrAddr (s : State) (sz : Size) (n : Reg) (v : Long) : (s.setD sz n v).instrAddr = s.instrAddr := rfl
@[simp] theorem State.setD_fetchError (s : State) (sz : Size) (n : Reg) (v : Long) : (s.setD sz n v).fetchError = s.fetchError := rfl
@[simp] theorem State.setD_supposed (s : State) (sz : Size) (n : Reg) (v : Long) : (s.setD sz n v).supposed = s.supposed := rfl
@[simp] theorem State.setD_drawCount (s : State) (sz : Size) (n : Reg) (v : Long) : (s.setD sz n v).drawCount = s.drawCount := rfl

@[simp] theorem State.setCcr_d (s : State) (cc : Ccr) : (s.setCcr cc).d = s.d := rfl
@[simp] theorem State.setCcr_a (s : State) (cc : Ccr) : (s.setCcr cc).a = s.a := rfl
@[simp] theorem State.setCcr_usp (s : State) (cc : Ccr) : (s.setCcr cc).usp = s.usp := rfl
@[simp] theorem State.setCcr_ssp (s : State) (cc : Ccr) : (s.setCcr cc).ssp = s.ssp := rfl
@[simp] theorem State.setCcr_pc (s : State) (cc : Ccr) : (s.setCcr cc).pc = s.pc := rfl
@[simp] theorem State.setCcr_sr (s : State) (cc : Ccr) : (s.setCcr cc).sr = { s.sr with ccr := cc } := rfl
@[simp] theorem State.setCcr_procState (s : State) (cc : Ccr) : (s.setCcr cc).procState = s.procState := rfl
@[simp] theorem State.setCcr_pendingIrq (s : State) (cc : Ccr) : (s.setCcr cc).pendingIrq = s.pendingIrq := rfl
@[simp] theorem State.setCcr_prevIrqLevel (s : State) (cc : Ccr) : (s.setCcr cc).prevIrqLevel = s.prevIrqLevel := rfl
@[simp] theorem State.setCcr_nmi (s : State) (cc : Ccr) : (s.setCcr cc).nmi = s.nmi := rfl
@[simp] theorem State.setCcr_traceAtStart (s : State) (cc : Ccr) : (s.setCcr cc).traceAtStart = s.traceAtStart := rfl
@[simp] theorem State.setCcr_srCopy (s : State) (cc : Ccr) : (s.setCcr cc).srCopy = s.srCopy := rfl
@[simp] theorem State.setCcr_instrReg (s : State) (cc : Ccr) : (s.setCcr cc).instrReg = s.instrReg := rfl
@[simp] theorem State.setCcr_inGroup0 (s : State) (cc : Ccr) : (s.setCcr cc).inGroup0 = s.inGroup0 := rfl
@[simp] theorem State.setCcr_prefetch (s : State) (cc : Ccr) : (s.setCcr cc).prefetch = s.prefetch := rfl
@[simp] theorem State.setCcr_busOwner (s : State) (cc : Ccr) : (s.setCcr cc).busOwner = s.busOwner := rfl
@[simp] theorem State.setCcr_mem (s : State) (cc : Ccr) : (s.setCcr cc).mem = s.mem := rfl
@[simp] theorem State.setCcr_memMap (s : State) (cc : Ccr) : (s.setCcr cc).memMap = s.memMap := rfl
@[simp] theorem State.setCcr_busMap (s : State) (cc : Ccr) : (s.setCcr cc).busMap = s.busMap := rfl
@[simp] theorem State.setCcr_iack (s : State) (cc : Ccr) : (s.setCcr cc).iack = s.iack := rfl
@[simp] theorem State.setCcr_inputs (s : State) (cc : Ccr) : (s.setCcr cc).inputs = s.inputs := rfl
@[simp] theorem State.setCcr_cycles (s : State) (cc : Ccr) : (s.setCcr cc).cycles = s.cycles := rfl
@[simp] theorem State.setCcr_prefetchWindow (s : State) (cc : Ccr) : (s.setCcr cc).prefetchWindow = s.prefetchWindow := rfl
@[simp] theorem State.setCcr_resetPulses (s : State) (cc : Ccr) : (s.setCcr cc).resetPulses = s.resetPulses := rfl
@[simp] theorem State.setCcr_instrAddr (s : State) (cc : Ccr) : (s.setCcr cc).instrAddr = s.instrAddr := rfl
@[simp] theorem State.setCcr_fetchError (s : State) (cc : Ccr) : (s.setCcr cc).fetchError = s.fetchError := rfl
@[simp] theorem State.setCcr_supposed (s : State) (cc : Ccr) : (s.setCcr cc).supposed = s.supposed := rfl
@[simp] theorem State.setCcr_drawCount (s : State) (cc : Ccr) : (s.setCcr cc).drawCount = s.drawCount := rfl

@[simp] theorem State.setSr_d (s : State) (sr : StatusRegister) : (s.setSr sr).d = s.d := rfl
@[simp] theorem State.setSr_a (s : State) (sr : StatusRegister) : (s.setSr sr).a = s.a := rfl
@[simp] theorem State.setSr_usp (s : State) (sr : StatusRegister) : (s.setSr sr).usp = s.usp := rfl
@[simp] theorem State.setSr_ssp (s : State) (sr : StatusRegister) : (s.setSr sr).ssp = s.ssp := rfl
@[simp] theorem State.setSr_pc (s : State) (sr : StatusRegister) : (s.setSr sr).pc = s.pc := rfl
@[simp] theorem State.setSr_sr (s : State) (sr : StatusRegister) : (s.setSr sr).sr = sr := rfl
@[simp] theorem State.setSr_procState (s : State) (sr : StatusRegister) : (s.setSr sr).procState = s.procState := rfl
@[simp] theorem State.setSr_pendingIrq (s : State) (sr : StatusRegister) : (s.setSr sr).pendingIrq = s.pendingIrq := rfl
@[simp] theorem State.setSr_prevIrqLevel (s : State) (sr : StatusRegister) : (s.setSr sr).prevIrqLevel = s.prevIrqLevel := rfl
@[simp] theorem State.setSr_nmi (s : State) (sr : StatusRegister) : (s.setSr sr).nmi = s.nmi := rfl
@[simp] theorem State.setSr_traceAtStart (s : State) (sr : StatusRegister) : (s.setSr sr).traceAtStart = s.traceAtStart := rfl
@[simp] theorem State.setSr_srCopy (s : State) (sr : StatusRegister) : (s.setSr sr).srCopy = s.srCopy := rfl
@[simp] theorem State.setSr_instrReg (s : State) (sr : StatusRegister) : (s.setSr sr).instrReg = s.instrReg := rfl
@[simp] theorem State.setSr_inGroup0 (s : State) (sr : StatusRegister) : (s.setSr sr).inGroup0 = s.inGroup0 := rfl
@[simp] theorem State.setSr_prefetch (s : State) (sr : StatusRegister) : (s.setSr sr).prefetch = s.prefetch := rfl
@[simp] theorem State.setSr_busOwner (s : State) (sr : StatusRegister) : (s.setSr sr).busOwner = s.busOwner := rfl
@[simp] theorem State.setSr_mem (s : State) (sr : StatusRegister) : (s.setSr sr).mem = s.mem := rfl
@[simp] theorem State.setSr_memMap (s : State) (sr : StatusRegister) : (s.setSr sr).memMap = s.memMap := rfl
@[simp] theorem State.setSr_busMap (s : State) (sr : StatusRegister) : (s.setSr sr).busMap = s.busMap := rfl
@[simp] theorem State.setSr_iack (s : State) (sr : StatusRegister) : (s.setSr sr).iack = s.iack := rfl
@[simp] theorem State.setSr_inputs (s : State) (sr : StatusRegister) : (s.setSr sr).inputs = s.inputs := rfl
@[simp] theorem State.setSr_cycles (s : State) (sr : StatusRegister) : (s.setSr sr).cycles = s.cycles := rfl
@[simp] theorem State.setSr_prefetchWindow (s : State) (sr : StatusRegister) : (s.setSr sr).prefetchWindow = s.prefetchWindow := rfl
@[simp] theorem State.setSr_resetPulses (s : State) (sr : StatusRegister) : (s.setSr sr).resetPulses = s.resetPulses := rfl
@[simp] theorem State.setSr_instrAddr (s : State) (sr : StatusRegister) : (s.setSr sr).instrAddr = s.instrAddr := rfl
@[simp] theorem State.setSr_fetchError (s : State) (sr : StatusRegister) : (s.setSr sr).fetchError = s.fetchError := rfl
@[simp] theorem State.setSr_supposed (s : State) (sr : StatusRegister) : (s.setSr sr).supposed = s.supposed := rfl
@[simp] theorem State.setSr_drawCount (s : State) (sr : StatusRegister) : (s.setSr sr).drawCount = s.drawCount := rfl

@[simp] theorem State.jump_d (s : State) (v : Long) : (s.jump v).d = s.d := rfl
@[simp] theorem State.jump_a (s : State) (v : Long) : (s.jump v).a = s.a := rfl
@[simp] theorem State.jump_usp (s : State) (v : Long) : (s.jump v).usp = s.usp := rfl
@[simp] theorem State.jump_ssp (s : State) (v : Long) : (s.jump v).ssp = s.ssp := rfl
@[simp] theorem State.jump_pc (s : State) (v : Long) : (s.jump v).pc = v := rfl
@[simp] theorem State.jump_sr (s : State) (v : Long) : (s.jump v).sr = s.sr := rfl
@[simp] theorem State.jump_procState (s : State) (v : Long) : (s.jump v).procState = s.procState := rfl
@[simp] theorem State.jump_pendingIrq (s : State) (v : Long) : (s.jump v).pendingIrq = s.pendingIrq := rfl
@[simp] theorem State.jump_prevIrqLevel (s : State) (v : Long) : (s.jump v).prevIrqLevel = s.prevIrqLevel := rfl
@[simp] theorem State.jump_nmi (s : State) (v : Long) : (s.jump v).nmi = s.nmi := rfl
@[simp] theorem State.jump_traceAtStart (s : State) (v : Long) : (s.jump v).traceAtStart = s.traceAtStart := rfl
@[simp] theorem State.jump_srCopy (s : State) (v : Long) : (s.jump v).srCopy = s.srCopy := rfl
@[simp] theorem State.jump_instrReg (s : State) (v : Long) : (s.jump v).instrReg = s.instrReg := rfl
@[simp] theorem State.jump_inGroup0 (s : State) (v : Long) : (s.jump v).inGroup0 = s.inGroup0 := rfl
@[simp] theorem State.jump_prefetch (s : State) (v : Long) : (s.jump v).prefetch = [] := rfl
@[simp] theorem State.jump_busOwner (s : State) (v : Long) : (s.jump v).busOwner = s.busOwner := rfl
@[simp] theorem State.jump_mem (s : State) (v : Long) : (s.jump v).mem = s.mem := rfl
@[simp] theorem State.jump_memMap (s : State) (v : Long) : (s.jump v).memMap = s.memMap := rfl
@[simp] theorem State.jump_busMap (s : State) (v : Long) : (s.jump v).busMap = s.busMap := rfl
@[simp] theorem State.jump_iack (s : State) (v : Long) : (s.jump v).iack = s.iack := rfl
@[simp] theorem State.jump_inputs (s : State) (v : Long) : (s.jump v).inputs = s.inputs := rfl
@[simp] theorem State.jump_cycles (s : State) (v : Long) : (s.jump v).cycles = s.cycles := rfl
@[simp] theorem State.jump_prefetchWindow (s : State) (v : Long) : (s.jump v).prefetchWindow = s.prefetchWindow := rfl
@[simp] theorem State.jump_resetPulses (s : State) (v : Long) : (s.jump v).resetPulses = s.resetPulses := rfl
@[simp] theorem State.jump_instrAddr (s : State) (v : Long) : (s.jump v).instrAddr = s.instrAddr := rfl
@[simp] theorem State.jump_fetchError (s : State) (v : Long) : (s.jump v).fetchError = s.fetchError := rfl
@[simp] theorem State.jump_supposed (s : State) (v : Long) : (s.jump v).supposed = s.supposed := rfl
@[simp] theorem State.jump_drawCount (s : State) (v : Long) : (s.jump v).drawCount = s.drawCount := rfl

@[simp] theorem State.advance_d (s : State) (v : Long) : (s.advance v).d = s.d := rfl
@[simp] theorem State.advance_a (s : State) (v : Long) : (s.advance v).a = s.a := rfl
@[simp] theorem State.advance_usp (s : State) (v : Long) : (s.advance v).usp = s.usp := rfl
@[simp] theorem State.advance_ssp (s : State) (v : Long) : (s.advance v).ssp = s.ssp := rfl
@[simp] theorem State.advance_pc (s : State) (v : Long) : (s.advance v).pc = s.pc + v := rfl
@[simp] theorem State.advance_sr (s : State) (v : Long) : (s.advance v).sr = s.sr := rfl
@[simp] theorem State.advance_procState (s : State) (v : Long) : (s.advance v).procState = s.procState := rfl
@[simp] theorem State.advance_pendingIrq (s : State) (v : Long) : (s.advance v).pendingIrq = s.pendingIrq := rfl
@[simp] theorem State.advance_prevIrqLevel (s : State) (v : Long) : (s.advance v).prevIrqLevel = s.prevIrqLevel := rfl
@[simp] theorem State.advance_nmi (s : State) (v : Long) : (s.advance v).nmi = s.nmi := rfl
@[simp] theorem State.advance_traceAtStart (s : State) (v : Long) : (s.advance v).traceAtStart = s.traceAtStart := rfl
@[simp] theorem State.advance_srCopy (s : State) (v : Long) : (s.advance v).srCopy = s.srCopy := rfl
@[simp] theorem State.advance_instrReg (s : State) (v : Long) : (s.advance v).instrReg = s.instrReg := rfl
@[simp] theorem State.advance_inGroup0 (s : State) (v : Long) : (s.advance v).inGroup0 = s.inGroup0 := rfl
@[simp] theorem State.advance_prefetch (s : State) (v : Long) : (s.advance v).prefetch = s.prefetch := rfl
@[simp] theorem State.advance_busOwner (s : State) (v : Long) : (s.advance v).busOwner = s.busOwner := rfl
@[simp] theorem State.advance_mem (s : State) (v : Long) : (s.advance v).mem = s.mem := rfl
@[simp] theorem State.advance_memMap (s : State) (v : Long) : (s.advance v).memMap = s.memMap := rfl
@[simp] theorem State.advance_busMap (s : State) (v : Long) : (s.advance v).busMap = s.busMap := rfl
@[simp] theorem State.advance_iack (s : State) (v : Long) : (s.advance v).iack = s.iack := rfl
@[simp] theorem State.advance_inputs (s : State) (v : Long) : (s.advance v).inputs = s.inputs := rfl
@[simp] theorem State.advance_cycles (s : State) (v : Long) : (s.advance v).cycles = s.cycles := rfl
@[simp] theorem State.advance_prefetchWindow (s : State) (v : Long) : (s.advance v).prefetchWindow = s.prefetchWindow := rfl
@[simp] theorem State.advance_resetPulses (s : State) (v : Long) : (s.advance v).resetPulses = s.resetPulses := rfl
@[simp] theorem State.advance_instrAddr (s : State) (v : Long) : (s.advance v).instrAddr = s.instrAddr := rfl
@[simp] theorem State.advance_fetchError (s : State) (v : Long) : (s.advance v).fetchError = s.fetchError := rfl
@[simp] theorem State.advance_supposed (s : State) (v : Long) : (s.advance v).supposed = s.supposed := rfl
@[simp] theorem State.advance_drawCount (s : State) (v : Long) : (s.advance v).drawCount = s.drawCount := rfl

@[simp] theorem State.beginInstr_d (s : State) : (s.beginInstr).d = s.d := rfl
@[simp] theorem State.beginInstr_a (s : State) : (s.beginInstr).a = s.a := rfl
@[simp] theorem State.beginInstr_usp (s : State) : (s.beginInstr).usp = s.usp := rfl
@[simp] theorem State.beginInstr_ssp (s : State) : (s.beginInstr).ssp = s.ssp := rfl
@[simp] theorem State.beginInstr_pc (s : State) : (s.beginInstr).pc = s.pc + 2 := rfl
@[simp] theorem State.beginInstr_sr (s : State) : (s.beginInstr).sr = s.sr := rfl
@[simp] theorem State.beginInstr_procState (s : State) : (s.beginInstr).procState = s.procState := rfl
@[simp] theorem State.beginInstr_pendingIrq (s : State) : (s.beginInstr).pendingIrq = s.pendingIrq := rfl
@[simp] theorem State.beginInstr_prevIrqLevel (s : State) : (s.beginInstr).prevIrqLevel = s.prevIrqLevel := rfl
@[simp] theorem State.beginInstr_nmi (s : State) : (s.beginInstr).nmi = s.nmi := rfl
@[simp] theorem State.beginInstr_traceAtStart (s : State) : (s.beginInstr).traceAtStart = s.traceAtStart := rfl
@[simp] theorem State.beginInstr_srCopy (s : State) : (s.beginInstr).srCopy = s.srCopy := rfl
@[simp] theorem State.beginInstr_instrReg (s : State) : (s.beginInstr).instrReg = s.instrReg := rfl
@[simp] theorem State.beginInstr_inGroup0 (s : State) : (s.beginInstr).inGroup0 = false := rfl
@[simp] theorem State.beginInstr_prefetch (s : State) : (s.beginInstr).prefetch = s.prefetch := rfl
@[simp] theorem State.beginInstr_busOwner (s : State) : (s.beginInstr).busOwner = s.busOwner := rfl
@[simp] theorem State.beginInstr_mem (s : State) : (s.beginInstr).mem = s.mem := rfl
@[simp] theorem State.beginInstr_memMap (s : State) : (s.beginInstr).memMap = s.memMap := rfl
@[simp] theorem State.beginInstr_busMap (s : State) : (s.beginInstr).busMap = s.busMap := rfl
@[simp] theorem State.beginInstr_iack (s : State) : (s.beginInstr).iack = s.iack := rfl
@[simp] theorem State.beginInstr_inputs (s : State) : (s.beginInstr).inputs = s.inputs := rfl
@[simp] theorem State.beginInstr_cycles (s : State) : (s.beginInstr).cycles = s.cycles := rfl
@[simp] theorem State.beginInstr_prefetchWindow (s : State) : (s.beginInstr).prefetchWindow = s.prefetchWindow := rfl
@[simp] theorem State.beginInstr_resetPulses (s : State) : (s.beginInstr).resetPulses = s.resetPulses := rfl
@[simp] theorem State.beginInstr_instrAddr (s : State) : (s.beginInstr).instrAddr = s.pc := rfl
@[simp] theorem State.beginInstr_fetchError (s : State) : (s.beginInstr).fetchError = s.fetchError := rfl
@[simp] theorem State.beginInstr_supposed (s : State) : (s.beginInstr).supposed = s.supposed := rfl
@[simp] theorem State.beginInstr_drawCount (s : State) : (s.beginInstr).drawCount = s.drawCount := rfl

@[simp] theorem State.setSp_d (s : State) (v : Long) : (s.setSp v).d = s.d := rfl
@[simp] theorem State.setSp_a (s : State) (v : Long) : (s.setSp v).a = s.a := rfl
@[simp] theorem State.setSp_pc (s : State) (v : Long) : (s.setSp v).pc = s.pc := rfl
@[simp] theorem State.setSp_sr (s : State) (v : Long) : (s.setSp v).sr = s.sr := rfl
@[simp] theorem State.setSp_procState (s : State) (v : Long) : (s.setSp v).procState = s.procState := rfl
@[simp] theorem State.setSp_pendingIrq (s : State) (v : Long) : (s.setSp v).pendingIrq = s.pendingIrq := rfl
@[simp] theorem State.setSp_prevIrqLevel (s : State) (v : Long) : (s.setSp v).prevIrqLevel = s.prevIrqLevel := rfl
@[simp] theorem State.setSp_nmi (s : State) (v : Long) : (s.setSp v).nmi = s.nmi := rfl
@[simp] theorem State.setSp_traceAtStart (s : State) (v : Long) : (s.setSp v).traceAtStart = s.traceAtStart := rfl
@[simp] theorem State.setSp_srCopy (s : State) (v : Long) : (s.setSp v).srCopy = s.srCopy := rfl
@[simp] theorem State.setSp_instrReg (s : State) (v : Long) : (s.setSp v).instrReg = s.instrReg := rfl
@[simp] theorem State.setSp_inGroup0 (s : State) (v : Long) : (s.setSp v).inGroup0 = s.inGroup0 := rfl
@[simp] theorem State.setSp_prefetch (s : State) (v : Long) : (s.setSp v).prefetch = s.prefetch := rfl
@[simp] theorem State.setSp_busOwner (s : State) (v : Long) : (s.setSp v).busOwner = s.busOwner := rfl
@[simp] theorem State.setSp_mem (s : State) (v : Long) : (s.setSp v).mem = s.mem := rfl
@[simp] theorem State.setSp_memMap (s : State) (v : Long) : (s.setSp v).memMap = s.memMap := rfl
@[simp] theorem State.setSp_busMap (s : State) (v : Long) : (s.setSp v).busMap = s.busMap := rfl
@[simp] theorem State.setSp_iack (s : State) (v : Long) : (s.setSp v).iack = s.iack := rfl
@[simp] theorem State.setSp_inputs (s : State) (v : Long) : (s.setSp v).inputs = s.inputs := rfl
@[simp] theorem State.setSp_cycles (s : State) (v : Long) : (s.setSp v).cycles = s.cycles := rfl
@[simp] theorem State.setSp_prefetchWindow (s : State) (v : Long) : (s.setSp v).prefetchWindow = s.prefetchWindow := rfl
@[simp] theorem State.setSp_resetPulses (s : State) (v : Long) : (s.setSp v).resetPulses = s.resetPulses := rfl
@[simp] theorem State.setSp_instrAddr (s : State) (v : Long) : (s.setSp v).instrAddr = s.instrAddr := rfl
@[simp] theorem State.setSp_fetchError (s : State) (v : Long) : (s.setSp v).fetchError = s.fetchError := rfl
@[simp] theorem State.setSp_supposed (s : State) (v : Long) : (s.setSp v).supposed = s.supposed := rfl
@[simp] theorem State.setSp_drawCount (s : State) (v : Long) : (s.setSp v).drawCount = s.drawCount := rfl

@[simp] theorem State.setA_d (s : State) (n : Reg) (v : Long) : (s.setA n v).d = s.d := rfl
@[simp] theorem State.setA_pc (s : State) (n : Reg) (v : Long) : (s.setA n v).pc = s.pc := rfl
@[simp] theorem State.setA_sr (s : State) (n : Reg) (v : Long) : (s.setA n v).sr = s.sr := rfl
@[simp] theorem State.setA_procState (s : State) (n : Reg) (v : Long) : (s.setA n v).procState = s.procState := rfl
@[simp] theorem State.setA_pendingIrq (s : State) (n : Reg) (v : Long) : (s.setA n v).pendingIrq = s.pendingIrq := rfl
@[simp] theorem State.setA_prevIrqLevel (s : State) (n : Reg) (v : Long) : (s.setA n v).prevIrqLevel = s.prevIrqLevel := rfl
@[simp] theorem State.setA_nmi (s : State) (n : Reg) (v : Long) : (s.setA n v).nmi = s.nmi := rfl
@[simp] theorem State.setA_traceAtStart (s : State) (n : Reg) (v : Long) : (s.setA n v).traceAtStart = s.traceAtStart := rfl
@[simp] theorem State.setA_srCopy (s : State) (n : Reg) (v : Long) : (s.setA n v).srCopy = s.srCopy := rfl
@[simp] theorem State.setA_instrReg (s : State) (n : Reg) (v : Long) : (s.setA n v).instrReg = s.instrReg := rfl
@[simp] theorem State.setA_inGroup0 (s : State) (n : Reg) (v : Long) : (s.setA n v).inGroup0 = s.inGroup0 := rfl
@[simp] theorem State.setA_prefetch (s : State) (n : Reg) (v : Long) : (s.setA n v).prefetch = s.prefetch := rfl
@[simp] theorem State.setA_busOwner (s : State) (n : Reg) (v : Long) : (s.setA n v).busOwner = s.busOwner := rfl
@[simp] theorem State.setA_mem (s : State) (n : Reg) (v : Long) : (s.setA n v).mem = s.mem := rfl
@[simp] theorem State.setA_memMap (s : State) (n : Reg) (v : Long) : (s.setA n v).memMap = s.memMap := rfl
@[simp] theorem State.setA_busMap (s : State) (n : Reg) (v : Long) : (s.setA n v).busMap = s.busMap := rfl
@[simp] theorem State.setA_iack (s : State) (n : Reg) (v : Long) : (s.setA n v).iack = s.iack := rfl
@[simp] theorem State.setA_inputs (s : State) (n : Reg) (v : Long) : (s.setA n v).inputs = s.inputs := rfl
@[simp] theorem State.setA_cycles (s : State) (n : Reg) (v : Long) : (s.setA n v).cycles = s.cycles := rfl
@[simp] theorem State.setA_prefetchWindow (s : State) (n : Reg) (v : Long) : (s.setA n v).prefetchWindow = s.prefetchWindow := rfl
@[simp] theorem State.setA_resetPulses (s : State) (n : Reg) (v : Long) : (s.setA n v).resetPulses = s.resetPulses := rfl
@[simp] theorem State.setA_instrAddr (s : State) (n : Reg) (v : Long) : (s.setA n v).instrAddr = s.instrAddr := rfl
@[simp] theorem State.setA_fetchError (s : State) (n : Reg) (v : Long) : (s.setA n v).fetchError = s.fetchError := rfl
@[simp] theorem State.setA_supposed (s : State) (n : Reg) (v : Long) : (s.setA n v).supposed = s.supposed := rfl
@[simp] theorem State.setA_drawCount (s : State) (n : Reg) (v : Long) : (s.setA n v).drawCount = s.drawCount := rfl

@[simp] theorem State.storeCycle_d (s : State) (c : BusCycle) (e : CycleEnd) (w : Word) : (s.storeCycle c e w).d = s.d := rfl
@[simp] theorem State.storeCycle_a (s : State) (c : BusCycle) (e : CycleEnd) (w : Word) : (s.storeCycle c e w).a = s.a := rfl
@[simp] theorem State.storeCycle_usp (s : State) (c : BusCycle) (e : CycleEnd) (w : Word) : (s.storeCycle c e w).usp = s.usp := rfl
@[simp] theorem State.storeCycle_ssp (s : State) (c : BusCycle) (e : CycleEnd) (w : Word) : (s.storeCycle c e w).ssp = s.ssp := rfl
@[simp] theorem State.storeCycle_pc (s : State) (c : BusCycle) (e : CycleEnd) (w : Word) : (s.storeCycle c e w).pc = s.pc := rfl
@[simp] theorem State.storeCycle_sr (s : State) (c : BusCycle) (e : CycleEnd) (w : Word) : (s.storeCycle c e w).sr = s.sr := rfl
@[simp] theorem State.storeCycle_procState (s : State) (c : BusCycle) (e : CycleEnd) (w : Word) : (s.storeCycle c e w).procState = s.procState := rfl
@[simp] theorem State.storeCycle_pendingIrq (s : State) (c : BusCycle) (e : CycleEnd) (w : Word) : (s.storeCycle c e w).pendingIrq = s.pendingIrq := rfl
@[simp] theorem State.storeCycle_prevIrqLevel (s : State) (c : BusCycle) (e : CycleEnd) (w : Word) : (s.storeCycle c e w).prevIrqLevel = s.prevIrqLevel := rfl
@[simp] theorem State.storeCycle_nmi (s : State) (c : BusCycle) (e : CycleEnd) (w : Word) : (s.storeCycle c e w).nmi = s.nmi := rfl
@[simp] theorem State.storeCycle_traceAtStart (s : State) (c : BusCycle) (e : CycleEnd) (w : Word) : (s.storeCycle c e w).traceAtStart = s.traceAtStart := rfl
@[simp] theorem State.storeCycle_srCopy (s : State) (c : BusCycle) (e : CycleEnd) (w : Word) : (s.storeCycle c e w).srCopy = s.srCopy := rfl
@[simp] theorem State.storeCycle_instrReg (s : State) (c : BusCycle) (e : CycleEnd) (w : Word) : (s.storeCycle c e w).instrReg = s.instrReg := rfl
@[simp] theorem State.storeCycle_inGroup0 (s : State) (c : BusCycle) (e : CycleEnd) (w : Word) : (s.storeCycle c e w).inGroup0 = s.inGroup0 := rfl
@[simp] theorem State.storeCycle_prefetch (s : State) (c : BusCycle) (e : CycleEnd) (w : Word) : (s.storeCycle c e w).prefetch = s.prefetch := rfl
@[simp] theorem State.storeCycle_busOwner (s : State) (c : BusCycle) (e : CycleEnd) (w : Word) : (s.storeCycle c e w).busOwner = s.busOwner := rfl
@[simp] theorem State.storeCycle_memMap (s : State) (c : BusCycle) (e : CycleEnd) (w : Word) : (s.storeCycle c e w).memMap = s.memMap := rfl
@[simp] theorem State.storeCycle_busMap (s : State) (c : BusCycle) (e : CycleEnd) (w : Word) : (s.storeCycle c e w).busMap = s.busMap := rfl
@[simp] theorem State.storeCycle_iack (s : State) (c : BusCycle) (e : CycleEnd) (w : Word) : (s.storeCycle c e w).iack = s.iack := rfl
@[simp] theorem State.storeCycle_inputs (s : State) (c : BusCycle) (e : CycleEnd) (w : Word) : (s.storeCycle c e w).inputs = s.inputs := rfl
@[simp] theorem State.storeCycle_cycles (s : State) (c : BusCycle) (e : CycleEnd) (w : Word) : (s.storeCycle c e w).cycles = s.cycles := rfl
@[simp] theorem State.storeCycle_prefetchWindow (s : State) (c : BusCycle) (e : CycleEnd) (w : Word) : (s.storeCycle c e w).prefetchWindow = s.prefetchWindow := rfl
@[simp] theorem State.storeCycle_resetPulses (s : State) (c : BusCycle) (e : CycleEnd) (w : Word) : (s.storeCycle c e w).resetPulses = s.resetPulses := rfl
@[simp] theorem State.storeCycle_instrAddr (s : State) (c : BusCycle) (e : CycleEnd) (w : Word) : (s.storeCycle c e w).instrAddr = s.instrAddr := rfl
@[simp] theorem State.storeCycle_fetchError (s : State) (c : BusCycle) (e : CycleEnd) (w : Word) : (s.storeCycle c e w).fetchError = s.fetchError := rfl
@[simp] theorem State.storeCycle_supposed (s : State) (c : BusCycle) (e : CycleEnd) (w : Word) : (s.storeCycle c e w).supposed = s.supposed := rfl
@[simp] theorem State.storeCycle_drawCount (s : State) (c : BusCycle) (e : CycleEnd) (w : Word) : (s.storeCycle c e w).drawCount = s.drawCount := rfl

@[simp] theorem State.storeMem_d (s : State) (x : Long) (sz : Size) (v : Long) : (s.storeMem x sz v).d = s.d := rfl
@[simp] theorem State.storeMem_a (s : State) (x : Long) (sz : Size) (v : Long) : (s.storeMem x sz v).a = s.a := rfl
@[simp] theorem State.storeMem_usp (s : State) (x : Long) (sz : Size) (v : Long) : (s.storeMem x sz v).usp = s.usp := rfl
@[simp] theorem State.storeMem_ssp (s : State) (x : Long) (sz : Size) (v : Long) : (s.storeMem x sz v).ssp = s.ssp := rfl
@[simp] theorem State.storeMem_pc (s : State) (x : Long) (sz : Size) (v : Long) : (s.storeMem x sz v).pc = s.pc := rfl
@[simp] theorem State.storeMem_sr (s : State) (x : Long) (sz : Size) (v : Long) : (s.storeMem x sz v).sr = s.sr := rfl
@[simp] theorem State.storeMem_procState (s : State) (x : Long) (sz : Size) (v : Long) : (s.storeMem x sz v).procState = s.procState := rfl
@[simp] theorem State.storeMem_pendingIrq (s : State) (x : Long) (sz : Size) (v : Long) : (s.storeMem x sz v).pendingIrq = s.pendingIrq := rfl
@[simp] theorem State.storeMem_prevIrqLevel (s : State) (x : Long) (sz : Size) (v : Long) : (s.storeMem x sz v).prevIrqLevel = s.prevIrqLevel := rfl
@[simp] theorem State.storeMem_nmi (s : State) (x : Long) (sz : Size) (v : Long) : (s.storeMem x sz v).nmi = s.nmi := rfl
@[simp] theorem State.storeMem_traceAtStart (s : State) (x : Long) (sz : Size) (v : Long) : (s.storeMem x sz v).traceAtStart = s.traceAtStart := rfl
@[simp] theorem State.storeMem_srCopy (s : State) (x : Long) (sz : Size) (v : Long) : (s.storeMem x sz v).srCopy = s.srCopy := rfl
@[simp] theorem State.storeMem_instrReg (s : State) (x : Long) (sz : Size) (v : Long) : (s.storeMem x sz v).instrReg = s.instrReg := rfl
@[simp] theorem State.storeMem_inGroup0 (s : State) (x : Long) (sz : Size) (v : Long) : (s.storeMem x sz v).inGroup0 = s.inGroup0 := rfl
@[simp] theorem State.storeMem_prefetch (s : State) (x : Long) (sz : Size) (v : Long) : (s.storeMem x sz v).prefetch = s.prefetch := rfl
@[simp] theorem State.storeMem_busOwner (s : State) (x : Long) (sz : Size) (v : Long) : (s.storeMem x sz v).busOwner = s.busOwner := rfl
@[simp] theorem State.storeMem_memMap (s : State) (x : Long) (sz : Size) (v : Long) : (s.storeMem x sz v).memMap = s.memMap := rfl
@[simp] theorem State.storeMem_busMap (s : State) (x : Long) (sz : Size) (v : Long) : (s.storeMem x sz v).busMap = s.busMap := rfl
@[simp] theorem State.storeMem_iack (s : State) (x : Long) (sz : Size) (v : Long) : (s.storeMem x sz v).iack = s.iack := rfl
@[simp] theorem State.storeMem_inputs (s : State) (x : Long) (sz : Size) (v : Long) : (s.storeMem x sz v).inputs = s.inputs := rfl
@[simp] theorem State.storeMem_cycles (s : State) (x : Long) (sz : Size) (v : Long) : (s.storeMem x sz v).cycles = s.cycles := rfl
@[simp] theorem State.storeMem_prefetchWindow (s : State) (x : Long) (sz : Size) (v : Long) : (s.storeMem x sz v).prefetchWindow = s.prefetchWindow := rfl
@[simp] theorem State.storeMem_resetPulses (s : State) (x : Long) (sz : Size) (v : Long) : (s.storeMem x sz v).resetPulses = s.resetPulses := rfl
@[simp] theorem State.storeMem_instrAddr (s : State) (x : Long) (sz : Size) (v : Long) : (s.storeMem x sz v).instrAddr = s.instrAddr := rfl
@[simp] theorem State.storeMem_fetchError (s : State) (x : Long) (sz : Size) (v : Long) : (s.storeMem x sz v).fetchError = s.fetchError := rfl
@[simp] theorem State.storeMem_supposed (s : State) (x : Long) (sz : Size) (v : Long) : (s.storeMem x sz v).supposed = s.supposed := rfl
@[simp] theorem State.storeMem_drawCount (s : State) (x : Long) (sz : Size) (v : Long) : (s.storeMem x sz v).drawCount = s.drawCount := rfl

@[simp] theorem State.storeFrame_d (s : State) (x : Long) (ws : List Word) : (s.storeFrame x ws).d = s.d := rfl
@[simp] theorem State.storeFrame_a (s : State) (x : Long) (ws : List Word) : (s.storeFrame x ws).a = s.a := rfl
@[simp] theorem State.storeFrame_usp (s : State) (x : Long) (ws : List Word) : (s.storeFrame x ws).usp = s.usp := rfl
@[simp] theorem State.storeFrame_ssp (s : State) (x : Long) (ws : List Word) : (s.storeFrame x ws).ssp = s.ssp := rfl
@[simp] theorem State.storeFrame_pc (s : State) (x : Long) (ws : List Word) : (s.storeFrame x ws).pc = s.pc := rfl
@[simp] theorem State.storeFrame_sr (s : State) (x : Long) (ws : List Word) : (s.storeFrame x ws).sr = s.sr := rfl
@[simp] theorem State.storeFrame_procState (s : State) (x : Long) (ws : List Word) : (s.storeFrame x ws).procState = s.procState := rfl
@[simp] theorem State.storeFrame_pendingIrq (s : State) (x : Long) (ws : List Word) : (s.storeFrame x ws).pendingIrq = s.pendingIrq := rfl
@[simp] theorem State.storeFrame_prevIrqLevel (s : State) (x : Long) (ws : List Word) : (s.storeFrame x ws).prevIrqLevel = s.prevIrqLevel := rfl
@[simp] theorem State.storeFrame_nmi (s : State) (x : Long) (ws : List Word) : (s.storeFrame x ws).nmi = s.nmi := rfl
@[simp] theorem State.storeFrame_traceAtStart (s : State) (x : Long) (ws : List Word) : (s.storeFrame x ws).traceAtStart = s.traceAtStart := rfl
@[simp] theorem State.storeFrame_srCopy (s : State) (x : Long) (ws : List Word) : (s.storeFrame x ws).srCopy = s.srCopy := rfl
@[simp] theorem State.storeFrame_instrReg (s : State) (x : Long) (ws : List Word) : (s.storeFrame x ws).instrReg = s.instrReg := rfl
@[simp] theorem State.storeFrame_inGroup0 (s : State) (x : Long) (ws : List Word) : (s.storeFrame x ws).inGroup0 = s.inGroup0 := rfl
@[simp] theorem State.storeFrame_prefetch (s : State) (x : Long) (ws : List Word) : (s.storeFrame x ws).prefetch = s.prefetch := rfl
@[simp] theorem State.storeFrame_busOwner (s : State) (x : Long) (ws : List Word) : (s.storeFrame x ws).busOwner = s.busOwner := rfl
@[simp] theorem State.storeFrame_memMap (s : State) (x : Long) (ws : List Word) : (s.storeFrame x ws).memMap = s.memMap := rfl
@[simp] theorem State.storeFrame_busMap (s : State) (x : Long) (ws : List Word) : (s.storeFrame x ws).busMap = s.busMap := rfl
@[simp] theorem State.storeFrame_iack (s : State) (x : Long) (ws : List Word) : (s.storeFrame x ws).iack = s.iack := rfl
@[simp] theorem State.storeFrame_inputs (s : State) (x : Long) (ws : List Word) : (s.storeFrame x ws).inputs = s.inputs := rfl
@[simp] theorem State.storeFrame_cycles (s : State) (x : Long) (ws : List Word) : (s.storeFrame x ws).cycles = s.cycles := rfl
@[simp] theorem State.storeFrame_prefetchWindow (s : State) (x : Long) (ws : List Word) : (s.storeFrame x ws).prefetchWindow = s.prefetchWindow := rfl
@[simp] theorem State.storeFrame_resetPulses (s : State) (x : Long) (ws : List Word) : (s.storeFrame x ws).resetPulses = s.resetPulses := rfl
@[simp] theorem State.storeFrame_instrAddr (s : State) (x : Long) (ws : List Word) : (s.storeFrame x ws).instrAddr = s.instrAddr := rfl
@[simp] theorem State.storeFrame_fetchError (s : State) (x : Long) (ws : List Word) : (s.storeFrame x ws).fetchError = s.fetchError := rfl
@[simp] theorem State.storeFrame_supposed (s : State) (x : Long) (ws : List Word) : (s.storeFrame x ws).supposed = s.supposed := rfl
@[simp] theorem State.storeFrame_drawCount (s : State) (x : Long) (ws : List Word) : (s.storeFrame x ws).drawCount = s.drawCount := rfl

/-- A7 written: the active stack pointer changes, the other one and A0 to A6 do not. -/
@[simp] theorem State.setSp_sp (s : State) (v : Long) : (s.setSp v).sp = v := by
  cases h : s.sr.s <;> simp [State.setSp, State.sp, h]

/-- An address register reads back what was written. -/
@[simp] theorem State.areg_setA_self (s : State) (n : Reg) (v : Long) : (s.setA n v).areg n = v := by
  by_cases h : n.val < 7 <;> simp [State.setA, State.areg, h, State.sp, State.setSp]
  cases s.sr.s <;> rfl

/-- Another address register is not changed. -/
theorem State.areg_setA_of_ne (s : State) {n m : Reg} (v : Long) (h : m ≠ n) : (s.setA n v).areg m = s.areg m := by
  have hv : n.val ≠ m.val := fun e => h (Fin.ext e).symm
  by_cases h1 : n.val < 7 <;> by_cases h2 : m.val < 7
  · simp only [State.setA, State.areg, h1, h2, dif_pos]
    exact Vector.getElem_set_ne _ _ hv
  · simp [State.setA, State.areg, h1, h2, State.sp]
  · simp [State.setA, State.areg, h1, h2]
  · omega

/-- A data register reads back what was written, merged with the bits above the size. -/
@[simp] theorem State.dreg_setD_self (s : State) (sz : Size) (n : Reg) (v : Long) :
    (s.setD sz n v).dreg n = mergeLow sz (s.dreg n) v := by
  simp [State.dreg]

/-- Another data register is not changed. -/
theorem State.dreg_setD_of_ne (s : State) {n m : Reg} (sz : Size) (v : Long) (h : m ≠ n) :
    (s.setD sz n v).dreg m = s.dreg m := by
  have hv : n.val ≠ m.val := fun e => h (Fin.ext e).symm
  simp only [State.dreg, State.setD_d]
  exact Vector.getElem_set_ne _ _ hv

@[simp] theorem State.dreg_setA (s : State) (n m : Reg) (v : Long) : (s.setA n v).dreg m = s.dreg m := by
  simp [State.dreg]

@[simp] theorem State.areg_setD (s : State) (sz : Size) (n m : Reg) (v : Long) :
    (s.setD sz n v).areg m = s.areg m := rfl

@[simp] theorem State.areg_setCcr (s : State) (cc : Ccr) (m : Reg) : (s.setCcr cc).areg m = s.areg m := rfl

@[simp] theorem State.dreg_setCcr (s : State) (cc : Ccr) (m : Reg) : (s.setCcr cc).dreg m = s.dreg m := rfl

@[simp] theorem State.sp_setD (s : State) (sz : Size) (n : Reg) (v : Long) : (s.setD sz n v).sp = s.sp := rfl

@[simp] theorem State.sp_setCcr (s : State) (cc : Ccr) : (s.setCcr cc).sp = s.sp := rfl

end Sys2Proof.Machine
end

