-- ==== Sys2Proof/Laws/Ops.lean ====
section
/-! SUPPORT. For each shared operation, what it does: the lemmas that proofs cite instead of unfolding it. -/

namespace Sys2Proof.Machine

open Sys2Proof

/-! Running a computation. -/

@[simp] theorem run_pure {α : Type} (a : α) (s : State) : (pure a : Exec α) s = .ok a s := rfl

@[simp] theorem run_get (s : State) : (get : Exec State) s = .ok s s := rfl

@[simp] theorem run_modify (g : State → State) (s : State) : (modify g : Exec Unit) s = .ok () (g s) := rfl

@[simp] theorem run_throw {α : Type} (e : Abort) (s : State) : (throw e : Exec α) s = .error e s := rfl

/-- A sequence runs its first part, then the rest on the state reached; an abort ends it. -/
theorem run_bind {α β : Type} (m : Exec α) (f : α → Exec β) (s : State) :
    (m >>= f) s = match m s with
      | .ok a t => f a t
      | .error e t => .error e t := by
  show EStateM.bind m f s = _
  unfold EStateM.bind
  cases m s <;> rfl

/-- A sequence whose first part goes through. -/
theorem run_bind_ok {α β : Type} {m : Exec α} {f : α → Exec β} {s t : State} {a : α} (h : m s = .ok a t) :
    (m >>= f) s = f a t := by rw [run_bind, h]

/-- A sequence whose first part aborts. -/
theorem run_bind_error {α β : Type} {m : Exec α} {f : α → Exec β} {s t : State} {e : Abort}
    (h : m s = .error e t) : (m >>= f) s = .error e t := by rw [run_bind, h]

@[simp] theorem run_ite {α : Type} (c : Prop) [Decidable c] (m n : Exec α) (s : State) :
    (if c then m else n) s = if c then m s else n s := by split <;> rfl

/-- What goes through is not adjusted. -/
theorem onAbort_ok {α : Type} {m : Exec α} {g : State → State} {s t : State} {a : α} (h : m s = .ok a t) :
    onAbort m g s = .ok a t := by simp [onAbort, h]

/-- What aborts is adjusted. -/
theorem onAbort_error {α : Type} {m : Exec α} {g : State → State} {s t : State} {e : Abort}
    (h : m s = .error e t) : onAbort m g s = .error e (g t) := by simp [onAbort, h]

/-! What computations keep. -/

/-- A property of the state that a computation keeps, whether it goes through or is cut short. -/
def Keeps {α : Type} (P : State → Prop) (m : Exec α) : Prop :=
  ∀ s, P s → (∀ a t, m s = .ok a t → P t) ∧ (∀ e t, m s = .error e t → P t)

theorem keeps_pure {α : Type} {P : State → Prop} (a : α) : Keeps P (pure a : Exec α) := by
  intro s h
  refine ⟨fun b t e => ?_, fun b t e => ?_⟩
  · rw [run_pure] at e; cases e; exact h
  · rw [run_pure] at e; cases e

theorem keeps_get {P : State → Prop} : Keeps P (get : Exec State) := by
  intro s h
  refine ⟨fun b t e => ?_, fun b t e => ?_⟩
  · rw [run_get] at e; cases e; exact h
  · rw [run_get] at e; cases e

theorem keeps_throw {α : Type} {P : State → Prop} (x : Abort) : Keeps P (throw x : Exec α) := by
  intro s h
  refine ⟨fun b t e => ?_, fun b t e => ?_⟩
  · rw [run_throw] at e; cases e
  · rw [run_throw] at e; cases e; exact h

theorem keeps_modify {P : State → Prop} {g : State → State} (hg : ∀ s, P s → P (g s)) :
    Keeps P (modify g : Exec Unit) := by
  intro s h
  refine ⟨fun b t e => ?_, fun b t e => ?_⟩
  · rw [run_modify] at e; cases e; exact hg s h
  · rw [run_modify] at e; cases e

theorem keeps_bind {α β : Type} {P : State → Prop} {m : Exec α} {f : α → Exec β} (hm : Keeps P m)
    (hf : ∀ a, Keeps P (f a)) : Keeps P (m >>= f) := by
  intro s h
  obtain ⟨h1, h2⟩ := hm s h
  rw [run_bind]
  cases hr : m s with
  | ok a t => exact hf a t (h1 a t hr)
  | error x t =>
    refine ⟨fun b u e => ?_, fun b u e => ?_⟩
    · cases e
    · cases e; exact h2 x t hr

theorem keeps_ite {α : Type} {P : State → Prop} {c : Prop} [Decidable c] {m n : Exec α} (hm : Keeps P m)
    (hn : Keeps P n) : Keeps P (if c then m else n) := by
  split
  · exact hm
  · exact hn

theorem keeps_onAbort {α : Type} {P : State → Prop} {m : Exec α} {g : State → State} (hm : Keeps P m)
    (hg : ∀ s, P s → P (g s)) : Keeps P (onAbort m g) := by
  intro s h
  obtain ⟨h1, h2⟩ := hm s h
  cases hr : m s with
  | ok a t =>
    rw [onAbort_ok hr]
    exact ⟨fun b u e => (by cases e; exact h1 a t hr), fun b u e => (by cases e)⟩
  | error x t =>
    rw [onAbort_error hr]
    exact ⟨fun b u e => (by cases e), fun b u e => (by cases e; exact hg t (h2 x t hr))⟩

/-! Bus cycles. -/

/-- Nothing is in store and no bus error of an instruction word is pending. -/
theorem State.quiet_iff (s : State) : s.quiet = true ↔ s.cycles = [] ∧ s.fetchError = none := by
  simp [State.quiet]

/-- With no bus error of an instruction word pending, none is raised. -/
theorem raiseFetchError_ok {s : State} (h : s.fetchError = none) : raiseFetchError s = .ok () s := by
  simp [raiseFetchError, h]

/-- A bus cycle with nothing in store ends as the map says. -/
theorem busCycle_quiet {s : State} (h : s.quiet = true) (rmw : Bool) (c : BusCycle) (w : Word) :
    busCycle rmw c w s = endCycle c w (s.cycle rmw c) none none s := by
  obtain ⟨h1, h2⟩ := (State.quiet_iff s).mp h
  unfold busCycle
  rw [run_bind_ok (show beginCycle (secondHalf rmw c) s = .ok () s by simp [beginCycle, h2]),
    run_bind_ok (run_get _), h1]
  rfl

/-- A cycle that reads and completes, with data of memory. -/
theorem endCycle_read {s : State} {c : BusCycle} (hd : c.dir = .read) (hr : s.readsDevice c = false) (w : Word) :
    endCycle c w .done none none s = .ok (s.memData c) s := by
  simp [endCycle, readData, hd, hr]

/-- A cycle that writes and completes. -/
theorem endCycle_write {s : State} {c : BusCycle} (hd : c.dir = .write) (w : Word) :
    ∃ v, endCycle c w .done none none s = .ok v (s.storeCycle c .done w) := by
  have hr : ∀ t : State, t.readsDevice c = false := by
    intro t
    unfold State.readsDevice
    split
    · rfl
    · simp [hd]
  refine ⟨(s.storeCycle c .done w).memData c, ?_⟩
  by_cases hs : s.stores c .done = true <;>
    simp [endCycle, readData, hd, hs, hr, State.storeCycle, State.cycleMem]

/-- The read half of a TAS that goes through. -/
theorem rmwCycle_read {s : State} {a : Long} (h : s.canRmw a = true) (b : Byte) :
    rmwCycle .read a b s = .ok (s.byteAt (s.code .data) a) s := by
  simp only [State.canRmw, Bool.and_eq_true, decide_eq_true_eq, Bool.not_eq_true'] at h
  obtain ⟨⟨⟨h1, h2⟩, h3⟩, _⟩ := h
  unfold rmwCycle
  rw [run_bind_ok (run_get _), run_bind_ok ((busCycle_quiet h1 _ _ _).trans (by rw [h2]; exact endCycle_read rfl h3 _)),
    run_pure]
  simp [State.memData]

/-- The write half of a TAS that goes through. -/
theorem rmwCycle_write {s : State} {a : Long} (h : s.canRmw a = true) (b : Byte) :
    ∃ v, rmwCycle .write a b s = .ok v (s.storeMem a .byte (b.setWidth 32)) := by
  simp only [State.canRmw, Bool.and_eq_true, decide_eq_true_eq, Bool.not_eq_true'] at h
  obtain ⟨⟨⟨h1, _⟩, _⟩, h2⟩ := h
  obtain ⟨v, hv⟩ := endCycle_write (s := s)
    (c := { code := s.code .data, dir := .write, width := .byte, addr := a }) rfl (b.setWidth 16)
  refine ⟨v.setWidth 8, ?_⟩
  unfold rmwCycle
  rw [run_bind_ok (run_get _), run_bind_ok ((busCycle_quiet h1 _ _ _).trans (by rw [h2]; exact hv)), run_pure]
  simp [State.storeMem, State.memStored, State.storeCycle, widthOf, lowWord]

/-! Accesses. -/

/-- A read that goes through answers what memory holds and changes nothing. -/
theorem readMem_ok {s : State} {sp : Space} {a : Long} {sz : Size} (h : s.canAccess sp .read a sz = true) :
    readMem sp a sz s = .ok (s.loadMem (s.code sp) a sz) s := by simp [readMem, h]

/-- A write that goes through stores the value. -/
theorem writeMem_ok {s : State} {a : Long} {sz : Size} {v : Long} (h : s.canAccess .data .write a sz = true) :
    writeMem a sz v s = .ok () (s.storeMem a sz v) := by simp [writeMem, h]

/-- A misaligned access is an address error and makes no cycle (R70). -/
theorem accessCycles_misaligned {s : State} {sp : Space} {dir : Direction} {a : Long} {sz : Size} {v : Long}
    (h : aligned a sz = false) (hf : s.fetchError = none) (hs : s.supposed = false) :
    accessCycles sp dir a sz v s =
      .error (.access { kind := .addressError, addr := a, dir := dir, code := s.code sp }) s := by
  unfold accessCycles
  rw [run_bind_ok (run_get _)]
  show (raiseFetchError >>= _ : Exec Long) s = _
  rw [run_bind_ok (raiseFetchError_ok hf)]
  simp [h, hs]

/-- In a supposed run a misaligned access gives a free operand. -/
theorem accessCycles_supposed {s : State} {sp : Space} {dir : Direction} {a : Long} {sz : Size} {v : Long}
    (h : aligned a sz = false) (hf : s.fetchError = none) (hs : s.supposed = true) :
    accessCycles sp dir a sz v s =
      .ok (trunc sz (Config.freeWord s.drawCount ++ Config.freeWord (s.drawCount + 1)))
        { s with drawCount := s.drawCount + 2 } := by
  unfold accessCycles
  rw [run_bind_ok (run_get _)]
  show (raiseFetchError >>= _ : Exec Long) s = _
  rw [run_bind_ok (raiseFetchError_ok hf)]
  rw [if_neg (by simp [h]), if_pos hs]
  rfl

/-- The same for a read. -/
theorem readMem_supposed {s : State} {sp : Space} {a : Long} {sz : Size} (h : aligned a sz = false)
    (hf : s.fetchError = none) (hs : s.supposed = true) :
    readMem sp a sz s =
      .ok (trunc sz (Config.freeWord s.drawCount ++ Config.freeWord (s.drawCount + 1)))
        { s with drawCount := s.drawCount + 2 } := by
  simp only [readMem, State.canAccess, h, Bool.false_and, Bool.false_eq_true, if_false]
  exact accessCycles_supposed h hf hs

/-- The same for a write. -/
theorem writeMem_supposed {s : State} {a : Long} {sz : Size} {v : Long} (h : aligned a sz = false)
    (hf : s.fetchError = none) (hs : s.supposed = true) :
    writeMem a sz v s = .ok () { s with drawCount := s.drawCount + 2 } := by
  simp only [writeMem, State.canAccess, h, Bool.false_and, Bool.false_eq_true, if_false]
  rw [run_bind_ok (accessCycles_supposed h hf hs), run_pure]

/-- A misaligned read is an address error; nothing changes (R70). -/
theorem readMem_misaligned {s : State} {sp : Space} {a : Long} {sz : Size} (h : aligned a sz = false)
    (hf : s.fetchError = none) (hs : s.supposed = false) :
    readMem sp a sz s =
      .error (.access { kind := .addressError, addr := a, dir := .read, code := s.code sp }) s := by
  simp only [readMem, State.canAccess, h, Bool.false_and, Bool.false_eq_true, if_false]
  exact accessCycles_misaligned h hf hs

/-- A misaligned write is an address error; nothing changes (R70). -/
theorem writeMem_misaligned {s : State} {a : Long} {sz : Size} {v : Long} (h : aligned a sz = false)
    (hf : s.fetchError = none) (hs : s.supposed = false) :
    writeMem a sz v s =
      .error (.access { kind := .addressError, addr := a, dir := .write, code := s.code .data }) s := by
  simp only [writeMem, State.canAccess, h, Bool.false_and, Bool.false_eq_true, if_false]
  exact run_bind_error (accessCycles_misaligned h hf hs)

/-- An operand that is readable is read and nothing changes. -/
theorem rd_ok {loc : Loc} {sz : Size} {s : State} (h : loc.readable sz s = true) :
    rd loc sz s = .ok (loc.load sz s) s := by
  cases loc with
  | mem sp a => exact readMem_ok h
  | _ => rfl

/-- An operand that is writable is written. -/
theorem wr_ok {loc : Loc} {sz : Size} {v : Long} {s : State} (h : loc.writable sz s = true) :
    wr loc sz v s = .ok () (loc.store sz v s) := by
  cases loc with
  | mem sp a => exact writeMem_ok h
  | imm _ => simp [Loc.writable] at h
  | _ => rfl

@[simp] theorem resolveEa_run (ea : Ea) (sz : Size) (s : State) :
    resolveEa ea sz s = .ok (s.resolve ea sz).1 (s.resolve ea sz).2 := rfl

/-- A source operand that is readable. -/
theorem readEa_ok {ea : Ea} {sz : Size} {s : State}
    (h : (s.resolve ea sz).1.readable sz (s.resolve ea sz).2 = true) :
    readEa ea sz s = .ok ((s.resolve ea sz).1.load sz (s.resolve ea sz).2) (s.resolve ea sz).2 := by
  unfold readEa
  rw [run_bind_ok (resolveEa_run ea sz s), rd_ok h]

/-- A result and its flags written where the operand is writable. -/
theorem wrFlagged_ok {loc : Loc} {sz : Size} {r : Long} {cc : Ccr} {s : State} (h : loc.writable sz s = true) :
    wrFlagged loc sz r cc s = .ok () ((loc.store sz r s).setCcr cc) := by
  unfold wrFlagged
  rw [run_bind_ok (wr_ok h), run_modify]

/-- A push that goes through. -/
theorem push32_ok {s : State} {v : Long} (h : s.canAccess .data .write (s.sp - 4) .long = true) :
    push32 v s = .ok () ((s.storeMem (s.sp - 4) .long v).setSp (s.sp - 4)) := by
  unfold push32
  rw [run_bind_ok (run_get s)]
  rw [run_bind_ok (onAbort_ok (writeMem_ok h)), run_modify]

/-- A pop of a long word that goes through. -/
theorem pop32_ok {s : State} (h : s.canAccess .data .read s.sp .long = true) :
    pop32 s = .ok (s.longAt (s.code .data) s.sp) (s.setSp (s.sp + 4)) := by
  unfold pop32
  rw [run_bind_ok (run_get s), run_bind_ok (onAbort_ok (readMem_ok h)), run_bind_ok (run_modify _ _), run_pure]
  rfl

/-- A pop of a word that goes through. -/
theorem pop16_ok {s : State} (h : s.canAccess .data .read s.sp .word = true) :
    pop16 s = .ok (s.wordAt (s.code .data) s.sp) (s.setSp (s.sp + 2)) := by
  unfold pop16
  rw [run_bind_ok (run_get s), run_bind_ok (onAbort_ok (readMem_ok h)), run_bind_ok (run_modify _ _), run_pure]
  simp [State.loadMem, lowWord]

/-! When accesses go through: it depends on the platform's map and what it has in store, and on S. -/

/-- Two states for which the platform answers bus cycles in the same way. -/
def State.samePlatform (s t : State) : Prop :=
  t.busMap = s.busMap ∧ t.cycles = s.cycles ∧ t.fetchError = s.fetchError

/-- Two states in which every access goes through alike. -/
def State.sameBus (s t : State) : Prop := s.samePlatform t ∧ t.sr.s = s.sr.s

/-- Whether a cycle completes depends on the platform only. -/
theorem State.completes_congr {s t : State} (h : s.samePlatform t) (c : BusCycle) : t.completes c = s.completes c := by
  obtain ⟨h1, h2, h3⟩ := h
  have hr : t.region c = s.region c := by simp only [State.region, h1]
  have ha : t.answer c = s.answer c := by unfold State.answer; rw [hr]
  have hd : t.readsDevice c = s.readsDevice c := by unfold State.readsDevice; rw [hr]
  unfold State.completes State.quiet State.cycle
  rw [ha, hd, h2, h3]

/-- Accesses go through alike. -/
theorem State.canAccess_congr {s t : State} (h : s.sameBus t) (sp : Space) (dir : Direction) (a : Long)
    (sz : Size) : t.canAccess sp dir a sz = s.canAccess sp dir a sz := by
  have hc : t.code sp = s.code sp := by cases sp <;> simp only [State.code, h.2]
  simp only [State.canAccess, hc, State.completes_congr h.1]

/-- What goes through goes through with nothing in store and no bus error pending. -/
theorem State.quiet_of_completes {s : State} {c : BusCycle} (h : s.completes c = true) : s.quiet = true := by
  simp only [State.completes, Bool.and_eq_true] at h
  exact h.1.1

/-- The same for an access. -/
theorem State.quiet_of_canAccess {s : State} {sp : Space} {dir : Direction} {a : Long} {sz : Size}
    (h : s.canAccess sp dir a sz = true) : s.quiet = true := by
  simp only [State.canAccess, Bool.and_eq_true] at h
  exact State.quiet_of_completes h.1.2

/-! Exceptions. -/

/-- Whether a frame can be stacked depends on the platform only. -/
theorem State.canStack_congr {s t : State} (h : s.samePlatform t) (a : Long) (ws vs : List Word)
    (hl : ws.length = vs.length) : t.canStack a ws = s.canStack a vs := by
  induction ws generalizing a vs with
  | nil => cases vs with
    | nil => rfl
    | cons _ _ => simp at hl
  | cons w ws ih =>
    cases vs with
    | nil => simp at hl
    | cons v vs =>
      simp only [State.canStack]
      rw [ih (a + 2) vs (by simpa using hl), State.completes_congr h]

/-- Whether a vector can be read depends on the platform only. -/
theorem State.vectorReady_congr {s t : State} (h : s.samePlatform t) (n : Nat) : t.vectorReady n = s.vectorReady n := by
  simp only [State.vectorReady, State.completes_congr h]

/-- What can be read is read with nothing in store. -/
theorem State.quiet_of_vectorReady {s : State} {n : Nat} (h : s.vectorReady n = true) : s.quiet = true := by
  simp only [State.vectorReady, Bool.and_eq_true] at h
  exact State.quiet_of_completes h.1

/-- Stacking a frame that goes through. -/
theorem stackFrame_ok {s : State} {ws : List Word} (h1 : aligned s.ssp .word = true)
    (h2 : s.canStack (s.ssp - BitVec.ofNat 32 (2 * ws.length)) ws = true) :
    stackFrame ws s =
      .ok () { s.storeFrame (s.ssp - BitVec.ofNat 32 (2 * ws.length)) ws with
               ssp := s.ssp - BitVec.ofNat 32 (2 * ws.length) } := by
  simp [stackFrame, h1, h2]

/-- The vector of an exception does not depend on step 1. -/
theorem State.vectorOf_beginException (s : State) (k j : ExcKind) :
    (s.beginException k).vectorOf j = s.vectorOf j := by
  cases j <;> rfl

/-- Reading a vector that goes through. -/
theorem loadVector_ok {s : State} {n : Nat} (h : s.canAccess .data .read (vectorAddress n) .long = true) :
    loadVector n s = .ok () { s.jump (s.longAt (s.code .data) (vectorAddress n)) with procState := .normal } := by
  unfold loadVector
  rw [run_bind_ok (readMem_ok h), run_modify]
  rfl

/-- A vector is at an even address (R426). -/
theorem aligned_vectorAddress (n : Nat) : aligned (vectorAddress n) .long = true := by
  simp only [aligned, vectorAddress, BitVec.getLsbD_ofNat, Nat.testBit_zero, Bool.not_eq_true', Bool.and_eq_false_iff,
    decide_eq_false_iff_not]
  right
  omega

/-- The two reads of a vector in supervisor state. -/
theorem State.canAccess_vector {s : State} {n : Nat} (hs : s.sr.s = true) (h : s.vectorReady n = true) :
    s.canAccess .data .read (vectorAddress n) .long = true := by
  simp only [State.vectorReady, Bool.and_eq_true] at h
  unfold State.canAccess
  rw [aligned_vectorAddress]
  simp only [State.code, hs, if_true, Bool.true_and, Bool.and_eq_true, Bool.or_eq_true]
  exact ⟨h.1, Or.inr h.2⟩

/-- The end of an acknowledge cycle for which the maps alone give the vector number. -/
theorem endAcknowledge_ok {s : State} {level : Fin 8} {n : Nat} (h : s.iackVector level = some n) :
    endAcknowledge level none none s = .ok n s := by
  unfold State.iackVector at h
  unfold endAcknowledge
  rw [run_bind_ok (run_get s), Option.getD_none]
  have number : ∀ w : Option Nat, w = some n →
      w = (match s.region (iackCycle level) with
        | none => s.iack[level.val].data.map fun w => ((iackCycle level).lane w).toNat
        | some r => if r.device then none else some (s.memData (iackCycle level)).toNat) →
      vectorNumber level none s = .ok n s := by
    intro w hw e
    subst hw
    unfold vectorNumber
    cases hr : s.region (iackCycle level) with
    | none =>
      rw [hr] at e
      simp only [hr]
      cases hd : s.iack[level.val].data with
      | none => rw [hd] at e; cases e
      | some w => rw [hd] at e; cases e; rfl
    | some r =>
      rw [hr] at e
      simp only [hr] at e ⊢
      split at e
      · cases e
      · next hv =>
        cases e
        have hd : s.readsDevice (iackCycle level) = false := by simp [State.readsDevice, hr, hv]
        rw [run_bind_ok (show readData (iackCycle level) none s = .ok (s.memData (iackCycle level)) s by
          simp [readData, hd]), run_pure]
  cases ha : s.iackAnswer level <;> rw [ha] at h <;> simp only at h ⊢
  · exact number _ h rfl
  · cases h; rfl
  · cases h; rfl
  · exact number _ h rfl
  · cases h

/-- The vector of an exception with nothing in store for the acknowledge. -/
theorem fetchVector_ok {s : State} {k : ExcKind} {n : Nat} (hq : s.cycles = []) (hv : s.vectorOf k = some n) :
    fetchVector k s = .ok n s := by
  cases k with
  | interrupt level =>
    simp only [fetchVector, hq, acknowledge]
    exact endAcknowledge_ok hv
  | _ => simp only [fetchVector, hv]

/-- Exception processing that goes through gives the state of R430. -/
theorem takeException_ok {s : State} {k : ExcKind} {n : Nat} {pc : Long} (hv : s.vectorOf k = some n)
    (hr : s.exceptionReady n = true) :
    takeException k pc s =
      .ok () (s.afterException n (k.mask s.sr.mask) pc (s.traceAtStart && decide (k.group = .group2))) := by
  simp only [State.exceptionReady, Bool.and_eq_true] at hr
  obtain ⟨⟨h1, h2⟩, h3⟩ := hr
  have hq := ((State.quiet_iff s).mp (State.quiet_of_vectorReady h3)).1
  have hst : (s.beginException k).canStack (s.ssp - 6)
      [(s.beginException k).srCopy.toWord, highWord pc, lowWord pc] = true :=
    (State.canStack_congr (s := s) (t := s.beginException k) ⟨rfl, rfl, rfl⟩ _ _ _ rfl).trans h2
  unfold takeException
  rw [run_bind_ok (run_modify _ _)]
  refine (run_bind_ok (fetchVector_ok (s := s.beginException k) (n := n) hq ((State.vectorOf_beginException s k k).trans hv))).trans ?_
  rw [run_bind_ok (run_get _)]
  rw [run_bind_ok (stackFrame_ok (s := s.beginException k)
    (ws := [(s.beginException k).srCopy.toWord, highWord pc, lowWord pc]) h1 hst)]
  rw [loadVector_ok]
  · rfl
  · exact State.canAccess_vector rfl h3

/-- The outcome of a computation that goes through. -/
@[simp] theorem finish_ok (s : State) : finish (.ok () s) = .next s := rfl

/-- The outcome of a computation cut short. -/
@[simp] theorem finish_error (e : Abort) (s : State) : finish (.error e s) = abortOutcome e s := rfl

/-- What goes through needs no supposed run. -/
theorem flagsOldOrNew_ok {m : Exec Unit} {s t : State} (h : m s = .ok () t) : flagsOldOrNew m s = .ok () t := onAbort_ok h

/-- What is cut short leaves each flag as it was or as the supposed run leaves it. -/
theorem flagsOldOrNew_error {m : Exec Unit} {s t : State} {e : Abort} (h : m s = .error e t) :
    flagsOldOrNew m s = .error e (t.openFlags (s.afterSupposed m)) := by
  unfold flagsOldOrNew
  rw [onAbort_error h]

/-- Each flag is old or new, and nothing else changes but the count of draws. -/
theorem State.openFlags_cases (s done : State) :
    ∃ cc k, Ccr.between cc s.sr.ccr done.sr.ccr ∧ s.openFlags done = { s.setCcr cc with drawCount := k } := by
  have pick : ∀ b o n : Bool, (if b then n else o) = o ∨ (if b then n else o) = n := by decide
  exact ⟨(s.openFlags done).sr.ccr, (s.openFlags done).drawCount,
    ⟨pick _ _ _, pick _ _ _, pick _ _ _, pick _ _ _, pick _ _ _⟩, rfl⟩

/-- A supposed run ends with a property that the computation keeps. -/
theorem State.afterSupposed_keeps {P : State → Prop} {m : Exec Unit} {s : State} (hm : Keeps P m) (h : P s.suppose) :
    P (s.afterSupposed m) := by
  unfold State.afterSupposed
  split
  · next e => exact (hm _ h).1 _ _ e
  · next e => exact (hm _ h).2 _ _ e

/-- An instruction whose body goes through. -/
theorem runInstr_ok {body : Exec Unit} {s t : State} (h : body s.beginInstr = .ok () t) :
    runInstr body s = .next t := by simp [runInstr, flagsOldOrNew_ok h]

/-- An instruction whose body is cut short. -/
theorem runInstr_error {body : Exec Unit} {s t : State} {e : Abort} (h : body s.beginInstr = .error e t) :
    runInstr body s = abortOutcome e (t.openFlags (s.beginInstr.afterSupposed body)) := by
  simp [runInstr, flagsOldOrNew_error h]

/-- A privileged instruction in supervisor state. -/
theorem runPrivileged_supervisor {body : Exec Unit} {s : State} (h : s.sr.s = true) :
    runPrivileged body s = finish (body s.beginInstr) := by simp [runPrivileged, h]

/-- A privileged instruction in supervisor state whose body goes through. -/
theorem runPrivileged_ok {body : Exec Unit} {s t : State} (h : s.sr.s = true) (hb : body s.beginInstr = .ok () t) :
    runPrivileged body s = .next t := by rw [runPrivileged_supervisor h, hb, finish_ok]

/-- A second fault inside the window halts the processor (R455). -/
theorem abortOutcome_inGroup0 {f : AccessFault} {s : State} (h : s.inGroup0 = true) :
    abortOutcome (.access f) s = .next s.halt := by simp [abortOutcome, h]

end Sys2Proof.Machine
end

