-- ==== Sys2Proof/Laws/Operands.lean ====
section
/-! SUPPORT. What resolving and storing an operand leave alone, and what the shared shapes of instructions do when
their operands can be accessed. -/

namespace Sys2Proof.Machine

open Sys2Proof

/-! Resolving an operand (R141) changes the program counter and, in two modes, one address register. -/

@[simp] theorem State.resolve_d (s : State) (ea : Ea) (sz : Size) : (s.resolve ea sz).2.d = s.d := by cases ea <;> rfl
@[simp] theorem State.resolve_sr (s : State) (ea : Ea) (sz : Size) : (s.resolve ea sz).2.sr = s.sr := by
  cases ea <;> rfl
@[simp] theorem State.resolve_mem (s : State) (ea : Ea) (sz : Size) : (s.resolve ea sz).2.mem = s.mem := by
  cases ea <;> rfl
@[simp] theorem State.resolve_busMap (s : State) (ea : Ea) (sz : Size) : (s.resolve ea sz).2.busMap = s.busMap := by
  cases ea <;> rfl
@[simp] theorem State.resolve_memMap (s : State) (ea : Ea) (sz : Size) : (s.resolve ea sz).2.memMap = s.memMap := by
  cases ea <;> rfl
@[simp] theorem State.resolve_cycles (s : State) (ea : Ea) (sz : Size) : (s.resolve ea sz).2.cycles = s.cycles := by
  cases ea <;> rfl
@[simp] theorem State.resolve_prefetchWindow (s : State) (ea : Ea) (sz : Size) :
    (s.resolve ea sz).2.prefetchWindow = s.prefetchWindow := by cases ea <;> rfl
@[simp] theorem State.resolve_fetchError (s : State) (ea : Ea) (sz : Size) :
    (s.resolve ea sz).2.fetchError = s.fetchError := by cases ea <;> rfl
@[simp] theorem State.resolve_procState (s : State) (ea : Ea) (sz : Size) :
    (s.resolve ea sz).2.procState = s.procState := by cases ea <;> rfl
@[simp] theorem State.resolve_pendingIrq (s : State) (ea : Ea) (sz : Size) :
    (s.resolve ea sz).2.pendingIrq = s.pendingIrq := by cases ea <;> rfl
@[simp] theorem State.resolve_prevIrqLevel (s : State) (ea : Ea) (sz : Size) :
    (s.resolve ea sz).2.prevIrqLevel = s.prevIrqLevel := by cases ea <;> rfl
@[simp] theorem State.resolve_nmi (s : State) (ea : Ea) (sz : Size) : (s.resolve ea sz).2.nmi = s.nmi := by
  cases ea <;> rfl
@[simp] theorem State.resolve_traceAtStart (s : State) (ea : Ea) (sz : Size) :
    (s.resolve ea sz).2.traceAtStart = s.traceAtStart := by cases ea <;> rfl
@[simp] theorem State.resolve_srCopy (s : State) (ea : Ea) (sz : Size) : (s.resolve ea sz).2.srCopy = s.srCopy := by
  cases ea <;> rfl
@[simp] theorem State.resolve_instrReg (s : State) (ea : Ea) (sz : Size) :
    (s.resolve ea sz).2.instrReg = s.instrReg := by cases ea <;> rfl
@[simp] theorem State.resolve_inGroup0 (s : State) (ea : Ea) (sz : Size) :
    (s.resolve ea sz).2.inGroup0 = s.inGroup0 := by cases ea <;> rfl
@[simp] theorem State.resolve_prefetch (s : State) (ea : Ea) (sz : Size) :
    (s.resolve ea sz).2.prefetch = s.prefetch := by cases ea <;> rfl
@[simp] theorem State.resolve_busOwner (s : State) (ea : Ea) (sz : Size) :
    (s.resolve ea sz).2.busOwner = s.busOwner := by cases ea <;> rfl
@[simp] theorem State.resolve_iack (s : State) (ea : Ea) (sz : Size) : (s.resolve ea sz).2.iack = s.iack := by
  cases ea <;> rfl
@[simp] theorem State.resolve_inputs (s : State) (ea : Ea) (sz : Size) : (s.resolve ea sz).2.inputs = s.inputs := by
  cases ea <;> rfl
@[simp] theorem State.resolve_resetPulses (s : State) (ea : Ea) (sz : Size) :
    (s.resolve ea sz).2.resetPulses = s.resetPulses := by cases ea <;> rfl
@[simp] theorem State.resolve_instrAddr (s : State) (ea : Ea) (sz : Size) :
    (s.resolve ea sz).2.instrAddr = s.instrAddr := by cases ea <;> rfl
@[simp] theorem State.resolve_supposed (s : State) (ea : Ea) (sz : Size) :
    (s.resolve ea sz).2.supposed = s.supposed := by cases ea <;> rfl
@[simp] theorem State.resolve_drawCount (s : State) (ea : Ea) (sz : Size) :
    (s.resolve ea sz).2.drawCount = s.drawCount := by cases ea <;> rfl

/-- Bus cycles are answered after a resolve as before. -/
theorem State.resolve_sameBus (s : State) (ea : Ea) (sz : Size) : s.sameBus (s.resolve ea sz).2 :=
  ⟨⟨State.resolve_busMap s ea sz, State.resolve_cycles s ea sz, State.resolve_fetchError s ea sz⟩,
    by rw [State.resolve_sr]⟩

/-! Storing an operand (R161) changes one register or memory. -/

@[simp] theorem Loc.store_sr (loc : Loc) (sz : Size) (v : Long) (s : State) : (loc.store sz v s).sr = s.sr := by
  cases loc <;> rfl
@[simp] theorem Loc.store_pc (loc : Loc) (sz : Size) (v : Long) (s : State) : (loc.store sz v s).pc = s.pc := by
  cases loc <;> rfl
@[simp] theorem Loc.store_busMap (loc : Loc) (sz : Size) (v : Long) (s : State) :
    (loc.store sz v s).busMap = s.busMap := by cases loc <;> rfl
@[simp] theorem Loc.store_memMap (loc : Loc) (sz : Size) (v : Long) (s : State) :
    (loc.store sz v s).memMap = s.memMap := by cases loc <;> rfl
@[simp] theorem Loc.store_cycles (loc : Loc) (sz : Size) (v : Long) (s : State) :
    (loc.store sz v s).cycles = s.cycles := by cases loc <;> rfl
@[simp] theorem Loc.store_fetchError (loc : Loc) (sz : Size) (v : Long) (s : State) :
    (loc.store sz v s).fetchError = s.fetchError := by cases loc <;> rfl
@[simp] theorem Loc.store_drawCount (loc : Loc) (sz : Size) (v : Long) (s : State) :
    (loc.store sz v s).drawCount = s.drawCount := by cases loc <;> rfl

/-! The shapes of instructions, where their operands can be accessed. -/

/-- `<ea>, Dn`. -/
theorem aluToReg_ok {alu : Alu} {sz : Size} {ea : Ea} {dn : Reg} {s p : State} {loc : Loc}
    (hl : s.resolve ea sz = (loc, p)) (hr : loc.readable sz p = true) :
    aluToReg alu sz ea dn s =
      .ok () ((p.setD sz dn (alu sz s.sr.ccr (loc.load sz p) (trunc sz (p.dreg dn))).1).setCcr
        (alu sz s.sr.ccr (loc.load sz p) (trunc sz (p.dreg dn))).2) := by
  have hsr : p.sr = s.sr := by rw [← State.resolve_sr s ea sz, hl]
  unfold aluToReg
  rw [run_bind_ok (readEa_ok (by rw [hl]; exact hr)), hl, run_modify, ← hsr]

/-- An operand changed by a function of a source. -/
theorem aluOnEa_ok {alu : Alu} {sz : Size} {src : Long} {ea : Ea} {s p : State} {loc : Loc}
    (hl : s.resolve ea sz = (loc, p)) (hr : loc.readable sz p = true) (hw : loc.writable sz p = true) :
    aluOnEa alu sz src ea s =
      .ok () ((loc.store sz (alu sz s.sr.ccr src (loc.load sz p)).1 p).setCcr
        (alu sz s.sr.ccr src (loc.load sz p)).2) := by
  have hsr : p.sr = s.sr := by rw [← State.resolve_sr s ea sz, hl]
  unfold aluOnEa
  rw [run_bind_ok (resolveEa_run ea sz s), hl, run_bind_ok (rd_ok hr), run_bind_ok (run_get _)]
  show wrFlagged loc sz (alu sz p.sr.ccr src (loc.load sz p)).1 (alu sz p.sr.ccr src (loc.load sz p)).2 p = _
  rw [wrFlagged_ok hw, hsr]

/-- `Dn, <ea>`. -/
theorem aluToMem_ok {alu : Alu} {sz : Size} {dn : Reg} {ea : Ea} {s p : State} {loc : Loc}
    (hl : s.resolve ea sz = (loc, p)) (hr : loc.readable sz p = true) (hw : loc.writable sz p = true) :
    aluToMem alu sz dn ea s =
      .ok () ((loc.store sz (alu sz s.sr.ccr (trunc sz (p.dreg dn)) (loc.load sz p)).1 p).setCcr
        (alu sz s.sr.ccr (trunc sz (p.dreg dn)) (loc.load sz p)).2) := by
  have hsr : p.sr = s.sr := by rw [← State.resolve_sr s ea sz, hl]
  unfold aluToMem
  rw [run_bind_ok (resolveEa_run ea sz s), hl, run_bind_ok (rd_ok hr), run_bind_ok (run_get _)]
  show wrFlagged loc sz (alu sz p.sr.ccr (trunc sz (p.dreg dn)) (loc.load sz p)).1
    (alu sz p.sr.ccr (trunc sz (p.dreg dn)) (loc.load sz p)).2 p = _
  rw [wrFlagged_ok hw, hsr]

/-- `#imm, <ea>`. -/
theorem aluImm_ok {alu : Alu} {sz : Size} {imm : Long} {ea : Ea} {s p : State} {loc : Loc}
    (hl : (s.advance (immBytes sz)).resolve ea sz = (loc, p)) (hr : loc.readable sz p = true)
    (hw : loc.writable sz p = true) :
    aluImm alu sz imm ea s =
      .ok () ((loc.store sz (alu sz s.sr.ccr (trunc sz imm) (loc.load sz p)).1 p).setCcr
        (alu sz s.sr.ccr (trunc sz imm) (loc.load sz p)).2) := by
  unfold aluImm
  rw [run_bind_ok (run_modify _ _), aluOnEa_ok hl hr hw]
  rfl

/-- An operand changed by a function of itself. -/
theorem unaryOnEa_ok {alu : Size → Ccr → Long → Long × Ccr} {sz : Size} {ea : Ea} {s p : State}
    {loc : Loc} (hl : s.resolve ea sz = (loc, p)) (hr : loc.readable sz p = true)
    (hw : loc.writable sz p = true) :
    unaryOnEa alu sz ea s =
      .ok () ((loc.store sz (alu sz s.sr.ccr (loc.load sz p)).1 p).setCcr (alu sz s.sr.ccr (loc.load sz p)).2) := by
  have hsr : p.sr = s.sr := by rw [← State.resolve_sr s ea sz, hl]
  unfold unaryOnEa
  rw [run_bind_ok (resolveEa_run ea sz s), hl, run_bind_ok (rd_ok hr), run_bind_ok (run_get _)]
  show wrFlagged loc sz (alu sz p.sr.ccr (loc.load sz p)).1 (alu sz p.sr.ccr (loc.load sz p)).2 p = _
  rw [wrFlagged_ok hw, hsr]

/-- `<ea>, An`. -/
theorem addrArith_ok {f : Long → Long → Long} {sz : AddrSize} {ea : Ea} {an : Reg} {s p : State} {loc : Loc}
    (hl : s.resolve ea sz.toSize = (loc, p)) (hr : loc.readable sz.toSize p = true) :
    addrArith f sz ea an s =
      .ok () (p.setA an (f (p.areg an) (signExtend sz.toSize (loc.load sz.toSize p)))) := by
  unfold addrArith
  rw [run_bind_ok (readEa_ok (by rw [hl]; exact hr)), hl, run_modify]

/-- A source operand that is readable, in the form the other lemmas use. -/
theorem readEa_at {ea : Ea} {sz : Size} {s p : State} {loc : Loc}
    (hl : s.resolve ea sz = (loc, p)) (hr : loc.readable sz p = true) :
    readEa ea sz s = .ok (loc.load sz p) p := by
  rw [readEa_ok (by rw [hl]; exact hr), hl]

end Sys2Proof.Machine
end

