-- ==== Sys2Proof/Laws/Access.lean ====
section
/-! SUPPORT. What an access can change, whether it goes through or is cut short: memory, what the platform has in store, the
count of draws, and what is known of a pending bus error of an instruction word. -/

namespace Sys2Proof.Machine

open Sys2Proof

/-- Two states that differ in what a bus cycle can change only. -/
def State.sameButBus (s t : State) : Prop :=
  t = { s with mem := t.mem, cycles := t.cycles, drawCount := t.drawCount, fetchError := t.fetchError,
               instrReg := t.instrReg }

/-- A computation that changes no more than a bus cycle can. -/
def Accesses {α : Type} (m : Exec α) : Prop := ∀ s : State, Keeps s.sameButBus m

theorem State.sameButBus_refl (s : State) : s.sameButBus s := rfl

theorem State.sameButBus_trans {s t u : State} (h : s.sameButBus t) (h' : t.sameButBus u) : s.sameButBus u := by
  unfold State.sameButBus at h h' ⊢
  rw [h'.trans (by rw [h])]

/-- A change of memory, of the platform's store, and of the count of draws. -/
theorem State.sameButBus_set (s : State) (m : Memory) (c : List CycleInput) (k : Nat) :
    s.sameButBus { s with mem := m, cycles := c, drawCount := k } := rfl

/-- A computation that ends, from each state, in one that differs in what a bus cycle can change only. -/
theorem accesses_of {α : Type} {m : Exec α}
    (h : ∀ s, (∀ a t, m s = .ok a t → s.sameButBus t) ∧ (∀ e t, m s = .error e t → s.sameButBus t)) : Accesses m :=
  fun _ u hu => ⟨fun a t e => State.sameButBus_trans hu ((h u).1 a t e), fun e t h' => State.sameButBus_trans hu ((h u).2 e t h')⟩

/-- What an access keeps: every property of the rest of the state. -/
theorem Accesses.keeps {α : Type} {P : State → Prop} {m : Exec α} (hm : Accesses m)
    (h : ∀ s t, s.sameButBus t → P s → P t) : Keeps P m :=
  fun s hs => ⟨fun a t e => h s t ((hm s s s.sameButBus_refl).1 a t e) hs,
    fun e t h' => h s t ((hm s s s.sameButBus_refl).2 e t h') hs⟩

/-- The status register among it. -/
theorem Accesses.keeps_sr {α : Type} {m : Exec α} (hm : Accesses m) (r : StatusRegister) :
    Keeps (fun t => t.sr = r) m :=
  hm.keeps fun s t h hs => by rw [show t.sr = s.sr by rw [h]]; exact hs

theorem accesses_bind {α β : Type} {m : Exec α} {f : α → Exec β} (hm : Accesses m) (hf : ∀ a, Accesses (f a)) :
    Accesses (m >>= f) := fun s => keeps_bind (hm s) fun a => hf a s

theorem accesses_pure {α : Type} (a : α) : Accesses (pure a : Exec α) := fun _ => keeps_pure a

theorem accesses_get : Accesses (get : Exec State) := fun _ => keeps_get

theorem accesses_throw {α : Type} (e : Abort) : Accesses (throw e : Exec α) := fun _ => keeps_throw e

theorem accesses_ite {α : Type} {c : Prop} [Decidable c] {m n : Exec α} (hm : Accesses m) (hn : Accesses n) :
    Accesses (if c then m else n) := fun s => keeps_ite (hm s) (hn s)

theorem accesses_drawBit : Accesses drawBit :=
  accesses_of fun _ => ⟨fun _ _ e => (by cases e; rfl), fun _ _ e => (by cases e)⟩

theorem accesses_drawWord : Accesses drawWord :=
  accesses_of fun _ => ⟨fun _ _ e => (by cases e; rfl), fun _ _ e => (by cases e)⟩

/-- The write cycles of other masters change memory only. -/
theorem State.masterWrites_eq (s : State) (ws : List MasterWrite) : ∃ m, s.masterWrites ws = { s with mem := m } := by
  induction ws generalizing s with
  | nil => exact ⟨s.mem, rfl⟩
  | cons w ws ih =>
    obtain ⟨m, h⟩ := ih (s.masterWrite w)
    exact ⟨m, by rw [State.masterWrites, h]; rfl⟩

/-- Taking data from the bus. -/
theorem accesses_readData (c : BusCycle) (data : Option Word) : Accesses (readData c data) := by
  refine accesses_of fun s => ?_
  cases data with
  | some w => exact ⟨fun _ _ e => (by cases e; rfl), fun _ _ e => (by cases e)⟩
  | none =>
    unfold readData
    dsimp only
    split
    · exact (accesses_bind accesses_drawWord fun _ => accesses_pure _) s s s.sameButBus_refl
    · exact ⟨fun _ _ e => (by cases e; rfl), fun _ _ e => (by cases e)⟩

/-- The end of a bus cycle. -/
theorem accesses_endCycle (c : BusCycle) (w : Word) (e : CycleEnd) (data : Option Word) (stores : Option Bool) :
    Accesses (endCycle c w e data stores) := by
  refine accesses_of fun s => ?_
  have h : s.sameButBus
      (if c.dir = .write ∧ stores.getD (s.stores c e) = true then { s with mem := s.written c w s.mem } else s) := by
    split <;> rfl
  unfold endCycle
  dsimp only
  split
  · exact accesses_readData c data s _ h
  · split
    · exact (accesses_bind accesses_drawWord fun _ => accesses_pure _) s _ h
    · exact ⟨fun _ _ e => (by cases e), fun _ _ e => (by cases e; exact h)⟩

/-- A bus cycle under what the platform has in store. -/
theorem accesses_platformCycle (rmw : Bool) (c : BusCycle) (w : Word) (es : List CycleInput) :
    Accesses (platformCycle rmw c w es) := by
  induction es with
  | nil => exact fun s0 s h => accesses_endCycle c w _ none none s0 s h
  | cons e es ih =>
    refine accesses_of fun s => ?_
    have h : s.sameButBus { s.masterWrites (if secondHalf rmw c then [] else e.before) with cycles := es } := by
      obtain ⟨m, hm⟩ := s.masterWrites_eq (if secondHalf rmw c then [] else e.before)
      rw [hm]; rfl
    unfold platformCycle
    dsimp only
    split
    · exact ⟨fun _ _ e => (by cases e), fun _ _ e => (by cases e; exact h)⟩
    · split
      · refine ih s _ ?_
        split
        · exact State.sameButBus_trans h rfl
        · exact h
      · exact accesses_endCycle c w _ _ _ s _ h

/-- A pending bus error of an instruction word, raised or not. -/
theorem accesses_raiseFetchError : Accesses raiseFetchError := by
  refine accesses_of fun s => ?_
  unfold raiseFetchError
  split
  · split
    · exact ⟨fun _ _ e => (by cases e), fun _ _ e => (by cases e; rfl)⟩
    · exact ⟨fun _ _ e => (by cases e; rfl), fun _ _ e => (by cases e)⟩
  · exact ⟨fun _ _ e => (by cases e; rfl), fun _ _ e => (by cases e)⟩

/-- A bus cycle. -/
theorem accesses_busCycle (rmw : Bool) (c : BusCycle) (w : Word) : Accesses (busCycle rmw c w) := by
  refine accesses_bind (accesses_of fun s => ?_) fun _ =>
    accesses_bind accesses_get fun s => accesses_platformCycle rmw c w s.cycles
  unfold beginCycle
  split
  · exact ⟨fun _ _ e => (by cases e; rfl), fun _ _ e => (by cases e)⟩
  · split
    · exact accesses_raiseFetchError s s s.sameButBus_refl
    · exact ⟨fun _ _ e => (by cases e; rfl), fun _ _ e => (by cases e)⟩

/-- An access cycle by cycle. -/
theorem accesses_accessCycles (sp : Space) (dir : Direction) (a : Long) (sz : Size) (v : Long) :
    Accesses (accessCycles sp dir a sz v) := by
  refine accesses_bind accesses_get fun s => accesses_bind accesses_raiseFetchError fun _ =>
    accesses_ite ?_ (accesses_ite
      (accesses_bind accesses_drawWord fun _ => accesses_bind accesses_drawWord fun _ => accesses_pure _)
      (accesses_throw _))
  cases sz
  · exact accesses_bind (accesses_busCycle _ _ _) fun _ => accesses_pure _
  · exact accesses_bind (accesses_busCycle _ _ _) fun _ => accesses_pure _
  · exact accesses_bind accesses_drawBit fun _ => accesses_ite
      (accesses_bind (accesses_busCycle _ _ _) fun _ => accesses_bind (accesses_busCycle _ _ _) fun _ => accesses_pure _)
      (accesses_bind (accesses_busCycle _ _ _) fun _ => accesses_bind (accesses_busCycle _ _ _) fun _ => accesses_pure _)

/-- The read of an operand. -/
theorem accesses_readMem (sp : Space) (a : Long) (sz : Size) : Accesses (readMem sp a sz) := by
  refine accesses_of fun s => ?_
  unfold readMem
  split
  · exact ⟨fun _ _ e => (by cases e; rfl), fun _ _ e => (by cases e)⟩
  · exact accesses_accessCycles sp .read a sz 0 s s s.sameButBus_refl

/-- The write of an operand. -/
theorem accesses_writeMem (a : Long) (sz : Size) (v : Long) : Accesses (writeMem a sz v) := by
  refine accesses_of fun s => ?_
  unfold writeMem
  split
  · exact ⟨fun _ _ e => (by cases e; rfl), fun _ _ e => (by cases e)⟩
  · exact accesses_bind (accesses_accessCycles .data .write a sz v) (fun _ => accesses_pure _) s s s.sameButBus_refl

/-- A half of the cycle of TAS. -/
theorem accesses_rmwCycle (dir : Direction) (a : Long) (b : Byte) : Accesses (rmwCycle dir a b) :=
  accesses_bind accesses_get fun _ => accesses_bind (accesses_busCycle _ _ _) fun _ => accesses_pure _

/-! What keeps the status register, and so gives a supposed run the flags there were. -/

/-- A change that may or may not have been made. -/
theorem State.maybe_sr (g : State → State) (hg : ∀ t, (g t).sr = t.sr) (s : State) : (State.maybe g s).sr = s.sr := by
  unfold State.maybe
  dsimp only
  split
  · exact hg _
  · rfl

/-- Resolving an operand. -/
theorem resolveEa_sr (ea : Ea) (sz : Size) (r : StatusRegister) : Keeps (fun t => t.sr = r) (resolveEa ea sz) := fun s hs =>
  ⟨fun a t e => (by rw [resolveEa_run] at e; cases e; rw [State.resolve_sr]; exact hs), fun e t h => (by cases h)⟩

/-- Reading an operand. -/
theorem rd_sr (loc : Loc) (sz : Size) (r : StatusRegister) : Keeps (fun t => t.sr = r) (rd loc sz) := by
  cases loc with
  | mem sp a => exact (accesses_readMem sp a sz).keeps_sr r
  | _ => exact fun s hs => ⟨fun a t e => (by cases e; exact hs), fun e t h => (by cases h)⟩

/-- Writing an operand. -/
theorem wr_sr (loc : Loc) (sz : Size) (v : Long) (r : StatusRegister) : Keeps (fun t => t.sr = r) (wr loc sz v) := by
  cases loc with
  | mem sp a => exact (accesses_writeMem a sz v).keeps_sr r
  | _ => exact fun s hs => ⟨fun a t e => (by cases e; exact hs), fun e t h => (by cases h)⟩

/-- A source operand resolved and read. -/
theorem readEa_sr (ea : Ea) (sz : Size) (r : StatusRegister) : Keeps (fun t => t.sr = r) (readEa ea sz) :=
  keeps_bind (resolveEa_sr ea sz r) fun loc => rd_sr loc sz r

/-- A push. -/
theorem push32_sr (v : Long) (r : StatusRegister) : Keeps (fun t => t.sr = r) (push32 v) :=
  keeps_bind keeps_get fun s => keeps_bind
    (keeps_onAbort ((accesses_writeMem _ _ _).keeps_sr r)
      fun t h => (State.maybe_sr (State.setSp (s.sp - 4)) (fun u => State.setSp_sr u _) t).trans h)
    fun _ => keeps_modify fun u h => (State.setSp_sr u _).trans h

/-- A pop of a long word. -/
theorem pop32_sr (r : StatusRegister) : Keeps (fun t => t.sr = r) pop32 :=
  keeps_bind keeps_get fun s => keeps_bind
    (keeps_onAbort ((accesses_readMem _ _ _).keeps_sr r)
      fun t h => (State.maybe_sr (State.setSp (s.sp + 4)) (fun u => State.setSp_sr u _) t).trans h)
    fun _ => keeps_bind (keeps_modify fun u h => (State.setSp_sr u _).trans h) fun _ => keeps_pure _

/-- An instruction cut short whose body writes no flag has its flags as they were. -/
theorem State.openFlags_same {m : Exec Unit} {s t : State} (hk : ∀ r, Keeps (fun u => u.sr = r) m) (ht : t.sr = s.sr) :
    ∃ k, t.openFlags (s.afterSupposed m) = { t with drawCount := k } := by
  obtain ⟨cc, k, hc, he⟩ := State.openFlags_cases t (s.afterSupposed m)
  have hs : (s.afterSupposed m).sr = s.sr := State.afterSupposed_keeps (P := fun u => u.sr = s.sr) (hk s.sr) rfl
  rw [hs, ht] at hc
  have e : cc = t.sr.ccr := by
    rw [ht]
    obtain ⟨h1, h2, h3, h4, h5⟩ := hc
    cases cc
    cases h : s.sr.ccr
    simp only [h, or_self] at h1 h2 h3 h4 h5
    simp only [h1, h2, h3, h4, h5]
  exact ⟨k, by rw [he, e]; rfl⟩

/-- The second half of MOVE, if it goes through, leaves the flags of the value; if it is cut short, those there were. -/
theorem moveStore_flags (sz : Size) (v : Long) (dst : Ea) (s : State) :
    (∀ a t, moveStore sz v dst s = .ok a t → t.sr.ccr = moveFlags sz s.sr.ccr v) ∧
      (∀ e t, moveStore sz v dst s = .error e t → t.sr.ccr = s.sr.ccr) := by
  have e0 : moveStore sz v dst s =
      (wr (s.resolve dst sz).1 sz v >>= fun _ => modify (State.setCcr (moveFlags sz s.sr.ccr v)) : Exec Unit)
        (s.resolve dst sz).2 := by
    unfold moveStore
    refine (run_bind_ok (resolveEa_run _ _ _)).trans ((run_bind_ok (run_get _)).trans ?_)
    rw [State.resolve_sr]
    rfl
  rw [e0, run_bind]
  have h := wr_sr (s.resolve dst sz).1 sz v s.sr (s.resolve dst sz).2 (State.resolve_sr s dst sz)
  cases hw : wr (s.resolve dst sz).1 sz v (s.resolve dst sz).2 with
  | ok a t => exact ⟨fun b u e => (by cases e; rfl), fun e u h => (by cases h)⟩
  | error e t => exact ⟨fun b u e => (by cases e), fun e' u h' => (by cases h'; exact congrArg StatusRegister.ccr (h.2 _ _ hw))⟩

end Sys2Proof.Machine
end

