-- ==== Sys2Proof/Laws/Canonical.lean ====
section
/-! SUPPORT. Every operation that writes memory keeps its canonical form, and the memory of reset has it. -/

namespace Sys2Proof.Machine

open Sys2Proof

/-- The memory of reset is canonical. -/
theorem State.reset_mem_wf : State.reset.mem.wf = true := rfl

/-- The memory of a state is canonical. -/
def State.canonical (s : State) : Prop := s.mem.wf = true

/-- The data of a cycle stored keep the canonical form. -/
theorem State.written_wf {m : Memory} (h : m.wf = true) (s : State) (c : BusCycle) (w : Word) :
    (s.written c w m).wf = true := by
  unfold State.written
  split
  · exact Memory.wf_write h (State.locate_lt s _ _)
  · exact Memory.wf_write (Memory.wf_write h (State.locate_lt s _ _)) (State.locate_lt s _ _)

/-- A write cycle keeps it. -/
theorem State.cycleMem_wf {m : Memory} (h : m.wf = true) (s : State) (c : BusCycle) (e : CycleEnd) (w : Word) :
    (s.cycleMem c e w m).wf = true := by
  unfold State.cycleMem
  split
  · exact State.written_wf h s c w
  · exact h

/-- A write cycle of a state keeps it. -/
theorem State.storeCycle_wf {s : State} (h : s.mem.wf = true) (c : BusCycle) (e : CycleEnd) (w : Word) :
    (s.storeCycle c e w).mem.wf = true := State.cycleMem_wf h s c e w

/-- The write of an operand keeps it. -/
theorem State.storeMem_wf {s : State} (h : s.mem.wf = true) (a : Long) (sz : Size) (v : Long) :
    (s.storeMem a sz v).mem.wf = true := by
  cases sz
  · exact State.cycleMem_wf h s _ _ _
  · exact State.cycleMem_wf h s _ _ _
  · exact State.cycleMem_wf (State.cycleMem_wf h s _ _ _) s _ _ _

/-- The cycles of a frame keep it. -/
theorem State.frameCycles_wf {m : Memory} (h : m.wf = true) (s : State) (a : Long) (ws : List Word) :
    (s.frameCycles a ws m).wf = true := by
  induction ws generalizing a m with
  | nil => exact h
  | cons w ws ih => exact ih (State.cycleMem_wf h s _ _ w) (a + 2)

/-- A frame stored keeps it. -/
theorem State.storeFrame_wf {s : State} (h : s.mem.wf = true) (a : Long) (ws : List Word) :
    (s.storeFrame a ws).mem.wf = true := State.frameCycles_wf h s a ws

/-- The write cycles of other masters keep it. -/
theorem State.masterWrites_wf {s : State} (h : s.mem.wf = true) (ws : List MasterWrite) :
    (s.masterWrites ws).mem.wf = true := by
  induction ws generalizing s with
  | nil => exact h
  | cons w ws ih => exact ih (State.storeCycle_wf h _ _ _)

/-- Words placed in memory keep it. -/
theorem State.placeWords_wf {s : State} (h : s.mem.wf = true) (a : Long) (ws : List Word) :
    (s.placeWords a ws).mem.wf = true := by
  induction ws generalizing a s with
  | nil => exact h
  | cons w ws ih =>
    apply ih
    exact State.written_wf h s { code := s.code .program, dir := .write, width := .word, addr := a } w

/-- A draw keeps it. -/
theorem drawBit_canonical : Keeps State.canonical drawBit := by
  intro s h
  exact ⟨fun b t e => (by cases e; exact h), fun b t e => (by cases e)⟩

/-- A draw keeps it. -/
theorem drawWord_canonical : Keeps State.canonical drawWord := by
  intro s h
  exact ⟨fun b t e => (by cases e; exact h), fun b t e => (by cases e)⟩

/-- A draw keeps it. -/
theorem drawBelow_canonical (n : Nat) : Keeps State.canonical (drawBelow n) := by
  intro s h
  exact ⟨fun b t e => (by cases e; exact h), fun b t e => (by cases e)⟩

/-- Taking data from the bus keeps it. -/
theorem readData_canonical (c : BusCycle) (data : Option Word) : Keeps State.canonical (readData c data) := by
  intro s h
  cases data with
  | some w => exact ⟨fun b t e => (by cases e; exact h), fun b t e => (by cases e)⟩
  | none =>
    by_cases hd : s.readsDevice c = true
    · refine ⟨fun b t e => ?_, fun b t e => ?_⟩ <;> simp only [readData, hd, if_true] at e <;> cases e
      exact h
    · refine ⟨fun b t e => ?_, fun b t e => ?_⟩ <;> simp only [readData, hd, Bool.false_eq_true, if_false] at e <;> cases e
      exact h

/-- The end of a bus cycle keeps it. -/
theorem endCycle_canonical (c : BusCycle) (w : Word) (e : CycleEnd) (data : Option Word) (stores : Option Bool) :
    Keeps State.canonical (endCycle c w e data stores) := by
  intro s h
  have h' : State.canonical
      (if c.dir = .write ∧ stores.getD (s.stores c e) = true then { s with mem := s.written c w s.mem } else s) := by
    split
    · exact State.written_wf h s c w
    · exact h
  unfold endCycle
  dsimp only
  split
  · exact readData_canonical c data _ h'
  · split
    · exact keeps_bind drawWord_canonical (fun _ => keeps_pure _) _ h'
    · exact ⟨fun b t e => (by cases e), fun b t e => (by cases e; exact h')⟩

/-- A bus cycle under what the platform has in store keeps it. -/
theorem platformCycle_canonical (rmw : Bool) (c : BusCycle) (w : Word) (es : List CycleInput) :
    Keeps State.canonical (platformCycle rmw c w es) := by
  induction es with
  | nil => exact fun s h => endCycle_canonical c w _ none none s h
  | cons e es ih =>
    intro s h
    have h' : ({ s.masterWrites (if secondHalf rmw c then [] else e.before) with cycles := es } : State).canonical :=
      State.masterWrites_wf h _
    unfold platformCycle
    dsimp only
    split
    · exact ⟨fun b t e => (by cases e), fun b t e => (by cases e; exact h')⟩
    · split
      · apply ih
        split
        · exact State.written_wf h' _ c w
        · exact h'
      · exact endCycle_canonical c w _ _ _ _ h'

/-- A pending bus error of an instruction word, raised or not, keeps it. -/
theorem raiseFetchError_canonical : Keeps State.canonical raiseFetchError := by
  intro s h
  unfold raiseFetchError
  split
  · split
    · exact ⟨fun b t e => (by cases e), fun b t e => (by cases e; exact h)⟩
    · exact ⟨fun b t e => (by cases e; exact h), fun b t e => (by cases e)⟩
  · exact ⟨fun b t e => (by cases e; exact h), fun b t e => (by cases e)⟩

/-- A bus cycle keeps it. -/
theorem busCycle_canonical (rmw : Bool) (c : BusCycle) (w : Word) : Keeps State.canonical (busCycle rmw c w) := by
  refine keeps_bind (fun s h => ?_) fun _ => keeps_bind keeps_get fun s => platformCycle_canonical rmw c w s.cycles
  unfold beginCycle
  split
  · exact ⟨fun b t e => (by cases e; exact h), fun b t e => (by cases e)⟩
  · split
    · exact raiseFetchError_canonical s h
    · exact ⟨fun b t e => (by cases e; exact h), fun b t e => (by cases e)⟩

/-- The two cycles of a long access keep it. -/
theorem longCycles_canonical (lowFirst : Bool) (code : FunctionCode) (dir : Direction) (a v : Long) :
    Keeps State.canonical (longCycles lowFirst code dir a v) :=
  keeps_ite
    (keeps_bind (busCycle_canonical _ _ _) fun _ => keeps_bind (busCycle_canonical _ _ _) fun _ => keeps_pure _)
    (keeps_bind (busCycle_canonical _ _ _) fun _ => keeps_bind (busCycle_canonical _ _ _) fun _ => keeps_pure _)

/-- An access cycle by cycle keeps it. -/
theorem accessCycles_canonical (sp : Space) (dir : Direction) (a : Long) (sz : Size) (v : Long) :
    Keeps State.canonical (accessCycles sp dir a sz v) := by
  refine keeps_bind keeps_get fun s => keeps_bind raiseFetchError_canonical fun _ =>
    keeps_ite ?_ (keeps_ite
      (keeps_bind drawWord_canonical fun _ => keeps_bind drawWord_canonical fun _ => keeps_pure _) (keeps_throw _))
  cases sz
  · exact keeps_bind (busCycle_canonical _ _ _) fun _ => keeps_pure _
  · exact keeps_bind (busCycle_canonical _ _ _) fun _ => keeps_pure _
  · exact keeps_bind drawBit_canonical fun _ => longCycles_canonical _ _ _ _ _

/-- A read of an operand keeps it. -/
theorem readMem_canonical (sp : Space) (a : Long) (sz : Size) : Keeps State.canonical (readMem sp a sz) := by
  intro s h
  unfold readMem
  split
  · exact ⟨fun b t e => (by cases e; exact h), fun b t e => (by cases e)⟩
  · exact accessCycles_canonical sp .read a sz 0 s h

/-- A write of an operand keeps it. -/
theorem writeMem_canonical (a : Long) (sz : Size) (v : Long) : Keeps State.canonical (writeMem a sz v) := by
  intro s h
  unfold writeMem
  split
  · exact ⟨fun b t e => (by cases e; exact State.storeMem_wf h a sz v), fun b t e => (by cases e)⟩
  · exact keeps_bind (accessCycles_canonical .data .write a sz v) (fun _ => keeps_pure _) s h

/-- A half of the cycle of TAS keeps it. -/
theorem rmwCycle_canonical (dir : Direction) (a : Long) (b : Byte) : Keeps State.canonical (rmwCycle dir a b) :=
  keeps_bind keeps_get fun _ => keeps_bind (busCycle_canonical _ _ _) fun _ => keeps_pure _

/-- The words of a frame stored in any order keep it. -/
theorem stackInAnyOrder_canonical (k : Nat) (cells : List (Long × Word)) :
    Keeps State.canonical (stackInAnyOrder k cells) := by
  induction k generalizing cells with
  | zero => exact keeps_pure _
  | succ k ih =>
    refine keeps_bind (drawBelow_canonical _) fun i => ?_
    split
    · exact keeps_pure _
    · exact keeps_bind (busCycle_canonical _ _ _) fun _ => ih _

/-- Stacking a frame keeps it. -/
theorem stackFrame_canonical (ws : List Word) : Keeps State.canonical (stackFrame ws) := by
  intro s h
  unfold stackFrame
  dsimp only
  split
  · split
    · exact ⟨fun b t e => (by cases e; exact State.storeFrame_wf h _ ws), fun b t e => (by cases e)⟩
    · exact keeps_bind
        (keeps_onAbort (g := State.openSsp (s.ssp - BitVec.ofNat 32 (2 * ws.length)) ws.length)
          (stackInAnyOrder_canonical _ _) fun _ h => h)
        (fun _ => keeps_modify (g := fun t => { t with ssp := s.ssp - BitVec.ofNat 32 (2 * ws.length) }) fun _ h => h)
        s h
  · exact ⟨fun b t e => (by cases e), fun b t e => (by cases e; exact h)⟩

/-- What was written after the last bus cycle, old or new, is no memory. -/
theorem State.mix_wf {r : Registers} {s : State} (h : s.mem.wf = true) : (s.mix r).mem.wf = true := h

end Sys2Proof.Machine
end

