-- ==== Sys2Proof/Laws/Cycles.lean ====
section
/-! SUPPORT. An access that is made in one go is the same as one made cycle by cycle, in either order of the two cycles of
a long one (R73). -/

namespace Sys2Proof.Machine

open Sys2Proof

/-- A cycle that completes by the maps alone ends so. -/
theorem State.cycle_of_completes {s : State} {c : BusCycle} (h : s.completes c = true) :
    s.quiet = true ∧ s.cycle false c = .done ∧ s.readsDevice c = false := by
  simpa only [State.completes, Bool.and_eq_true, decide_eq_true_eq, Bool.not_eq_true', and_assoc] using h

/-- A read cycle that completes by the maps alone gives what memory holds. -/
theorem busCycle_read_ok {s : State} {c : BusCycle} (h : s.completes c = true) (hd : c.dir = .read) (w : Word) :
    busCycle false c w s = .ok (s.memData c) s := by
  obtain ⟨h1, h2, h3⟩ := State.cycle_of_completes h
  rw [busCycle_quiet h1, h2, endCycle_read hd h3]

/-- A write cycle that completes by the maps alone stores its data. -/
theorem busCycle_write_ok {s : State} {c : BusCycle} (h : s.completes c = true) (hd : c.dir = .write) (w : Word) :
    ∃ v, busCycle false c w s = .ok v (s.storeCycle c .done w) := by
  obtain ⟨h1, h2, _⟩ := State.cycle_of_completes h
  rw [busCycle_quiet h1, h2]
  exact endCycle_write hd w

/-- The order of two word cycles next to each other does not matter. -/
theorem State.cycleMem_comm {m : Memory} (h : m.wf = true) (s : State) (c : BusCycle) (hc : c.width = .word) (v w : Word) :
    s.cycleMem { c with addr := c.addr + 2 } .done w (s.cycleMem c .done v m) =
      s.cycleMem c .done v (s.cycleMem { c with addr := c.addr + 2 } .done w m) := by
  unfold State.cycleMem
  by_cases h1 : s.stores c .done = true <;> by_cases h2 : s.stores { c with addr := c.addr + 2 } .done = true <;>
    simp only [h1, h2, Bool.false_eq_true, if_true, if_false]
  have e : ∀ x : Long, ∃ y : Nat, s.locate c.code x = y ∧ y < 2 ^ 26 := fun x => ⟨_, rfl, s.locate_lt _ _⟩
  have n1 := fun (i j : Nat) (hij : i ≠ j) (hi : i < 32) (hj : j < 32) =>
    s.locate_add_ne c.code c.code c.addr hij hi hj
  have n02 := n1 0 2 (by decide) (by decide) (by decide)
  have n03 := n1 0 3 (by decide) (by decide) (by decide)
  have n12 := n1 1 2 (by decide) (by decide) (by decide)
  have n13 := n1 1 3 (by decide) (by decide) (by decide)
  have a3 : c.addr + 2 + 1 = c.addr + BitVec.ofNat 32 3 := by rw [BitVec.add_assoc]; rfl
  have a0 : c.addr + BitVec.ofNat 32 0 = c.addr := BitVec.add_zero _
  rw [a0] at n02 n03
  simp only [State.written, hc, a3]
  obtain ⟨p0, q0, l0⟩ := e c.addr
  obtain ⟨p1, q1, l1⟩ := e (c.addr + 1)
  obtain ⟨p2, q2, l2⟩ := e (c.addr + 2)
  obtain ⟨p3, q3, l3⟩ := e (c.addr + BitVec.ofNat 32 3)
  have m02 : p0 ≠ p2 := by rw [← q0, ← q2]; exact n02
  have m03 : p0 ≠ p3 := by rw [← q0, ← q3]; exact n03
  have m12 : p1 ≠ p2 := by rw [← q1, ← q2]; exact n12
  have m13 : p1 ≠ p3 := by rw [← q1, ← q3]; exact n13
  rw [q0, q1, q2, q3]
  have w0 := fun b => Memory.wf_write (b := b) h l0
  have w2 := fun b => Memory.wf_write (b := b) h l2
  rw [Memory.write_comm (w0 _) m12 l1 l2, Memory.write_comm h m02 l0 l2,
    Memory.write_comm (Memory.wf_write (w2 _) l0) m13 l1 l3, Memory.write_comm (w2 _) m03 l0 l3]

/-- A read made cycle by cycle gives the same as one made in one go, and changes nothing but the count of draws. -/
theorem accessCycles_read {s : State} {sp : Space} {a : Long} {sz : Size} (h : s.canAccess sp .read a sz = true)
    (v : Long) :
    ∃ k, accessCycles sp .read a sz v s = .ok (s.loadMem (s.code sp) a sz) { s with drawCount := k } := by
  have hq := ((State.quiet_iff s).mp (State.quiet_of_canAccess h)).2
  simp only [State.canAccess, Bool.and_eq_true, Bool.or_eq_true, decide_eq_true_eq] at h
  obtain ⟨⟨h1, h2⟩, h3⟩ := h
  unfold accessCycles
  rw [run_bind_ok (run_get _)]
  show ∃ k, (raiseFetchError >>= _ : Exec Long) s = _
  simp only [run_bind_ok (raiseFetchError_ok hq), h1, if_true]
  cases sz with
  | byte =>
    refine ⟨s.drawCount, ?_⟩
    refine (run_bind_ok (busCycle_read_ok h2 rfl _)).trans ?_
    rw [run_pure]
    simp [State.memData, widthOf, State.loadMem]
  | word =>
    refine ⟨s.drawCount, ?_⟩
    exact run_bind_ok (busCycle_read_ok h2 rfl _)
  | long =>
    have h2 : s.completes { code := s.code sp, dir := .read, width := .word, addr := a } = true := h2
    have h3 := h3.resolve_left (by simp)
    refine ⟨s.drawCount + 1, ?_⟩
    refine (run_bind_ok (show drawBit s = .ok _ _ from rfl)).trans ?_
    have c2 := (State.completes_congr (s := s) (t := { s with drawCount := s.drawCount + 1 }) ⟨rfl, rfl, rfl⟩ _).trans h2
    have c3 := (State.completes_congr (s := s) (t := { s with drawCount := s.drawCount + 1 }) ⟨rfl, rfl, rfl⟩ _).trans h3
    unfold longCycles
    cases Config.freeBit s.drawCount
    · simp only [Bool.false_eq_true, if_false]
      rw [run_bind_ok (busCycle_read_ok c2 rfl _), run_bind_ok (busCycle_read_ok c3 rfl _), run_pure]
      rfl
    · simp only [if_true]
      rw [run_bind_ok (busCycle_read_ok c3 rfl _), run_bind_ok (busCycle_read_ok c2 rfl _), run_pure]
      rfl

/-- A write made cycle by cycle leaves the same as one made in one go, but for the count of draws. -/
theorem accessCycles_write {s : State} {a : Long} {sz : Size} (hw : s.mem.wf = true)
    (h : s.canAccess .data .write a sz = true) (v : Long) :
    ∃ r k, accessCycles .data .write a sz v s = .ok r { s.storeMem a sz v with drawCount := k } := by
  have hq := ((State.quiet_iff s).mp (State.quiet_of_canAccess h)).2
  simp only [State.canAccess, Bool.and_eq_true, Bool.or_eq_true, decide_eq_true_eq] at h
  obtain ⟨⟨h1, h2⟩, h3⟩ := h
  unfold accessCycles
  rw [run_bind_ok (run_get _)]
  show ∃ r k, (raiseFetchError >>= _ : Exec Long) s = _
  simp only [run_bind_ok (raiseFetchError_ok hq), h1, if_true]
  cases sz with
  | byte =>
    obtain ⟨r, hr⟩ := busCycle_write_ok h2 rfl (lowWord v)
    exact ⟨_, s.drawCount, run_bind_ok hr⟩
  | word =>
    obtain ⟨r, hr⟩ := busCycle_write_ok h2 rfl (lowWord v)
    exact ⟨_, s.drawCount, run_bind_ok hr⟩
  | long =>
    have h2 : s.completes { code := s.code .data, dir := .write, width := .word, addr := a } = true := h2
    have h3 := h3.resolve_left (by simp)
    show ∃ r k, (drawBit >>= fun lowFirst => longCycles lowFirst (s.code .data) .write a v) s = _
    simp only [run_bind_ok (show drawBit s = .ok (Config.freeBit s.drawCount)
      { s with drawCount := s.drawCount + 1 } from rfl)]
    have same : ∀ t : State, s.samePlatform t → (t.completes _ = true ∧ t.completes _ = true) := fun t ht =>
      ⟨(State.completes_congr ht _).trans h2, (State.completes_congr ht _).trans h3⟩
    unfold longCycles
    cases Config.freeBit s.drawCount
    · simp only [Bool.false_eq_true, if_false]
      obtain ⟨r, hr⟩ := busCycle_write_ok (same { s with drawCount := s.drawCount + 1 } ⟨rfl, rfl, rfl⟩).1 rfl (highWord v)
      obtain ⟨r', hr'⟩ := busCycle_write_ok (same (State.storeCycle
        { code := s.code .data, dir := .write, width := .word, addr := a } .done (highWord v)
        { s with drawCount := s.drawCount + 1 }) ⟨rfl, rfl, rfl⟩).2 rfl (lowWord v)
      exact ⟨_, s.drawCount + 1, by rw [run_bind_ok hr, run_bind_ok hr', run_pure]; rfl⟩
    · simp only [if_true]
      obtain ⟨r, hr⟩ := busCycle_write_ok (same { s with drawCount := s.drawCount + 1 } ⟨rfl, rfl, rfl⟩).2 rfl (lowWord v)
      obtain ⟨r', hr'⟩ := busCycle_write_ok (same (State.storeCycle
        { code := s.code .data, dir := .write, width := .word, addr := a + 2 } .done (lowWord v)
        { s with drawCount := s.drawCount + 1 }) ⟨rfl, rfl, rfl⟩).1 rfl (highWord v)
      refine ⟨r' ++ r, s.drawCount + 1, ?_⟩
      rw [run_bind_ok hr, run_bind_ok hr', run_pure]
      have e := State.cycleMem_comm hw s { code := s.code .data, dir := .write, width := .word, addr := a } rfl
        (highWord v) (lowWord v)
      unfold State.storeMem State.memStored
      simp only [widthOf]
      rw [e]
      rfl

end Sys2Proof.Machine
end

