-- ==== Sys2Proof/Laws/Decode.lean ====
section
/-! SUPPORT. What the operation word alone decides (R100, R117): whether it is legal, how many words follow, and
whether the instruction is privileged do not depend on the later words. -/

set_option linter.unusedSimpArgs false

namespace Sys2Proof.Machine

open Sys2Proof

/-- Two effective addresses of one mode and register field: they are legal together and have as many words. -/
structure EaLike (sz : Size) (e e' : Ea) : Prop where
  mem : e'.isMemory = e.isMemory
  data : e'.isData = e.isData
  control : e'.isControl = e.isControl
  alterable : e'.isAlterable = e.isAlterable
  postInc : e'.isPostInc = e.isPostInc
  preDec : e'.isPreDec = e.isPreDec
  immediate : e'.isImm = e.isImm
  addrReg : e'.isAddrReg = e.isAddrReg
  ok : e.immOk sz = true
  ok' : e'.immOk sz = true
  words : (eaWords sz e').length = (eaWords sz e).length

/-- Two instructions of one operation word. -/
structure InstrLike (i j : Instr) : Prop where
  words : j.words = i.words
  privileged : isPrivileged j = isPrivileged i
  wellFormed : j.wellFormed = i.wellFormed
  pushes : pushesFirst j = pushesFirst i

/-- Where one decoder goes through on some words, another goes through on any words, at least as many, with a
related result. -/
def Follows {α β : Type} (R : α → β → Prop) (p : List Word → Except DecodeError (α × List Word))
    (q : List Word → Except DecodeError (β × List Word)) : Prop :=
  ∀ ws a rest, p ws = .ok (a, rest) → ∀ ws', ws.length ≤ ws'.length →
    ∃ b rest', q ws' = .ok (b, rest') ∧ R a b ∧ rest.length ≤ rest'.length

theorem follows_error {α β : Type} {R : α → β → Prop} {e : DecodeError}
    {q : List Word → Except DecodeError (β × List Word)} : Follows R (fun _ => .error e) q := by
  intro ws a rest h
  cases h

theorem follows_ok {α β : Type} {R : α → β → Prop} {a : α} {b : β} (h : R a b) :
    Follows R (fun ws => .ok (a, ws)) (fun ws => .ok (b, ws)) := by
  intro ws c rest hc ws' hl
  cases hc
  exact ⟨b, ws', rfl, h, hl⟩

theorem follows_bind {α β γ δ : Type} {R : α → γ → Prop} {S : β → δ → Prop}
    {p : List Word → Except DecodeError (α × List Word)} {p' : List Word → Except DecodeError (γ × List Word)}
    {q : α → List Word → Except DecodeError (β × List Word)} {q' : γ → List Word → Except DecodeError (δ × List Word)}
    (hp : Follows R p p') (hq : ∀ a c, R a c → Follows S (q a) (q' c)) :
    Follows S (fun ws => p ws >>= fun r => q r.1 r.2) (fun ws => p' ws >>= fun r => q' r.1 r.2) := by
  intro ws b rest h ws' hl
  cases hpw : p ws with
  | error e => simp [hpw, bind, Except.bind] at h
  | ok r =>
    obtain ⟨a, r⟩ := r
    obtain ⟨c, r', hc, hR, hr⟩ := hp ws a r hpw ws' hl
    simp only [hpw, bind, Except.bind] at h
    obtain ⟨d, rest', hd, hS, hrest⟩ := hq a c hR r b rest h r' hr
    exact ⟨d, rest', by simpa only [hc, bind, Except.bind] using hd, hS, hrest⟩

theorem follows_map {α β : Type} {R : α → α → Prop} {S : β → β → Prop}
    {p : List Word → Except DecodeError (α × List Word)} (k : α → β) (hp : Follows R p p)
    (hk : ∀ a c, R a c → S (k a) (k c)) :
    Follows S (fun ws => p ws >>= fun r => .ok (k r.1, r.2)) (fun ws => p ws >>= fun r => .ok (k r.1, r.2)) :=
  follows_bind (q := fun a ws => .ok (k a, ws)) (q' := fun a ws => .ok (k a, ws)) hp
    (fun a c h => follows_ok (hk a c h))

theorem follows_takeWord : Follows (fun _ _ => True) takeWord takeWord := by
  intro ws a rest h ws' hl
  cases ws with
  | nil => cases h
  | cons w ws =>
    cases h
    cases ws' with
    | nil => simp at hl
    | cons w' ws' => exact ⟨w', ws', rfl, trivial, by simpa using hl⟩

theorem follows_takeLong : Follows (fun _ _ => True) takeLong takeLong :=
  follows_bind (q := fun hi ws => takeWord ws >>= fun r => .ok (joinWords hi r.1, r.2)) follows_takeWord
    (fun _ _ _ => follows_bind (q := fun lo ws => .ok (joinWords _ lo, ws)) follows_takeWord
      (fun _ _ _ => follows_ok trivial))

/-- An immediate that is decoded fits its size. -/
theorem follows_takeImm (sz : Size) :
    Follows (fun v v' => immFits sz v = true ∧ immFits sz v' = true) (takeImm sz) (takeImm sz) := by
  cases sz with
  | byte =>
    refine follows_map (fun w => (lowByte w).setWidth 32) follows_takeWord (fun a b _ => ?_)
    simp only [immFits, decide_eq_true_eq, BitVec.toNat_setWidth]
    omega
  | word =>
    refine follows_map (fun w => w.setWidth 32) follows_takeWord (fun a b _ => ?_)
    simp only [immFits, decide_eq_true_eq, BitVec.toNat_setWidth]
    omega
  | long =>
    intro ws a rest h ws' hl
    obtain ⟨b, r, hb, _, hr⟩ := follows_takeLong ws a rest h ws' hl
    exact ⟨b, r, hb, ⟨rfl, rfl⟩, hr⟩

/-- An effective address field means like addresses, whatever the extension words. -/
theorem follows_takeEa (sz : Size) (m x : Nat) : Follows (EaLike sz) (takeEa sz m x) (takeEa sz m x) := by
  have imm : ∀ v v', immFits sz v = true → immFits sz v' = true → EaLike sz (.imm v) (.imm v') := by
    intro v v' h h'
    exact ⟨rfl, rfl, rfl, rfl, rfl, rfl, rfl, rfl, h, h', by cases sz <;> rfl⟩
  have word : ∀ g : Word → Ea, (∀ w w', EaLike sz (g w) (g w')) →
      Follows (EaLike sz) (fun ws => do let (w, ws) ← takeWord ws; .ok (g w, ws))
        (fun ws => do let (w, ws) ← takeWord ws; .ok (g w, ws)) :=
    fun g hg => follows_map g follows_takeWord (fun w w' _ => hg w w')
  unfold takeEa
  split
  · exact follows_ok ⟨rfl, rfl, rfl, rfl, rfl, rfl, rfl, rfl, rfl, rfl, rfl⟩
  · exact follows_ok ⟨rfl, rfl, rfl, rfl, rfl, rfl, rfl, rfl, rfl, rfl, rfl⟩
  · exact follows_ok ⟨rfl, rfl, rfl, rfl, rfl, rfl, rfl, rfl, rfl, rfl, rfl⟩
  · exact follows_ok ⟨rfl, rfl, rfl, rfl, rfl, rfl, rfl, rfl, rfl, rfl, rfl⟩
  · exact follows_ok ⟨rfl, rfl, rfl, rfl, rfl, rfl, rfl, rfl, rfl, rfl, rfl⟩
  · exact word (fun w => Ea.disp (toReg x) w) (fun _ _ => ⟨rfl, rfl, rfl, rfl, rfl, rfl, rfl, rfl, rfl, rfl, rfl⟩)
  · exact word (fun w => Ea.index (toReg x) (indexExtOfWord w))
      (fun _ _ => ⟨rfl, rfl, rfl, rfl, rfl, rfl, rfl, rfl, rfl, rfl, by simp only [eaWords, List.length_singleton]⟩)
  · split
    · exact word (fun w => Ea.absShort w) (fun _ _ => ⟨rfl, rfl, rfl, rfl, rfl, rfl, rfl, rfl, rfl, rfl, rfl⟩)
    · exact follows_map (fun w => Ea.absLong w) follows_takeLong
        (fun _ _ _ => ⟨rfl, rfl, rfl, rfl, rfl, rfl, rfl, rfl, rfl, rfl, rfl⟩)
    · exact word (fun w => Ea.pcDisp w) (fun _ _ => ⟨rfl, rfl, rfl, rfl, rfl, rfl, rfl, rfl, rfl, rfl, rfl⟩)
    · exact word (fun w => Ea.pcIndex (indexExtOfWord w))
        (fun _ _ => ⟨rfl, rfl, rfl, rfl, rfl, rfl, rfl, rfl, rfl, rfl, by simp only [eaWords, List.length_singleton]⟩)
    · exact follows_bind (q := fun v ws => .ok (Ea.imm v, ws)) (follows_takeImm sz)
        (fun v v' h => follows_ok (imm v v' h.1 h.2))
    · exact follows_error
  · exact follows_error

/-! The combinations of operands. -/

theorem follows_withEa {sz : Size} {f : OpFields} {k : Ea → Instr}
    (hk : ∀ e e', EaLike sz e e' → InstrLike (k e) (k e')) :
    Follows InstrLike (fun ws => withEa sz f ws k) (fun ws => withEa sz f ws k) :=
  follows_bind (q := fun e ws => .ok (k e, ws)) (follows_takeEa sz f.m f.x) (fun e e' h => follows_ok (hk e e' h))

theorem follows_withWord {k : Word → Instr} (hk : ∀ w w', InstrLike (k w) (k w')) :
    Follows InstrLike (fun ws => withWord ws k) (fun ws => withWord ws k) :=
  follows_bind (q := fun w ws => .ok (k w, ws)) follows_takeWord (fun w w' _ => follows_ok (hk w w'))

theorem follows_withWordEa {sz : Size} {f : OpFields} {k : Word → Ea → Instr}
    (hk : ∀ w w' e e', EaLike sz e e' → InstrLike (k w e) (k w' e')) :
    Follows InstrLike (fun ws => withWordEa sz f ws k) (fun ws => withWordEa sz f ws k) :=
  follows_bind (q := fun w ws => takeEa sz f.m f.x ws >>= fun r => .ok (k w r.1, r.2)) follows_takeWord
    (fun w w' _ => follows_bind (q := fun e ws => .ok (k w e, ws)) (follows_takeEa sz f.m f.x)
      (fun e e' h => follows_ok (hk w w' e e' h)))

theorem follows_size {f : Nat} {α : Type} {R : α → α → Prop} {k : Size → List Word → Except DecodeError (α × List Word)}
    (hk : ∀ sz, Follows R (k sz) (k sz)) :
    Follows R (fun ws => sizeOfField f >>= fun sz => k sz ws) (fun ws => sizeOfField f >>= fun sz => k sz ws) := by
  unfold sizeOfField
  split
  · exact hk .byte
  · exact hk .word
  · exact hk .long
  · exact follows_error

theorem follows_withSizeEa {f : OpFields} {k : Size → Ea → Instr}
    (hk : ∀ sz e e', EaLike sz e e' → InstrLike (k sz e) (k sz e')) :
    Follows InstrLike (fun ws => withSizeEa f ws k) (fun ws => withSizeEa f ws k) :=
  follows_size (k := fun sz ws => takeEa sz f.m f.x ws >>= fun r => .ok (k sz r.1, r.2)) (fun sz =>
    follows_bind (q := fun e ws => .ok (k sz e, ws)) (follows_takeEa sz f.m f.x)
      (fun e e' h => follows_ok (hk sz e e' h)))

theorem follows_withImmEa {f : OpFields} {k : Size → Long → Ea → Instr}
    (hk : ∀ sz v v' e e', immFits sz v = true → immFits sz v' = true → EaLike sz e e' →
      InstrLike (k sz v e) (k sz v' e')) :
    Follows InstrLike (fun ws => withImmEa f ws k) (fun ws => withImmEa f ws k) :=
  follows_size (k := fun sz ws => takeImm sz ws >>= fun r => takeEa sz f.m f.x r.2 >>= fun r' => .ok (k sz r.1 r'.1, r'.2))
    (fun sz => follows_bind (q := fun v ws => takeEa sz f.m f.x ws >>= fun r' => .ok (k sz v r'.1, r'.2))
      (follows_takeImm sz)
      (fun v v' hv => follows_bind (q := fun e ws => .ok (k sz v e, ws)) (follows_takeEa sz f.m f.x)
        (fun e e' h => follows_ok (hk sz v v' e e' hv.1 hv.2 h))))

theorem follows_withMove {sz : Size} {f : OpFields} {k : Ea → Ea → Instr}
    (hk : ∀ e e' g g', EaLike sz e e' → EaLike sz g g' → InstrLike (k e g) (k e' g')) :
    Follows InstrLike (fun ws => withMove sz f ws k) (fun ws => withMove sz f ws k) :=
  follows_bind (q := fun e ws => takeEa sz f.o f.r ws >>= fun r => .ok (k e r.1, r.2)) (follows_takeEa sz f.m f.x)
    (fun e e' h => follows_bind (q := fun g ws => .ok (k e g, ws)) (follows_takeEa sz f.o f.r)
      (fun g g' h' => follows_ok (hk e e' g g' h h')))

theorem follows_withBranch {f : OpFields} {k : BranchDisp → Instr}
    (hl : ∀ w w', InstrLike (k (.long w)) (k (.long w'))) (hs : ∀ b, InstrLike (k (.short b)) (k (.short b))) :
    Follows InstrLike (fun ws => withBranch f ws k) (fun ws => withBranch f ws k) := by
  by_cases h : f.o % 4 * 64 + f.m * 8 + f.x = 0
  · simp only [withBranch, h, if_true]
    exact follows_withWord hl
  · simp only [withBranch, h, if_false]
    exact follows_ok (hs _)

theorem follows_withExtended {f : OpFields} {k : Size → Bool → Reg → Reg → Instr} {mem : Bool} :
    Follows InstrLike (fun ws => withExtended f ws k mem) (fun ws => withExtended f ws k mem) :=
  follows_size (k := fun sz ws => .ok (k sz mem (toReg f.x) (toReg f.r), ws)) (fun _ => follows_ok ⟨rfl, rfl, rfl, rfl⟩)

theorem follows_withShift {f : OpFields} {k : Size → ShiftCount → Reg → Instr} :
    Follows InstrLike (fun ws => withShift f ws k) (fun ws => withShift f ws k) :=
  follows_size (k := fun sz ws => .ok (k sz (shiftCountOf f) (toReg f.x), ws)) (fun _ => follows_ok ⟨rfl, rfl, rfl, rfl⟩)

theorem InstrLike.refl (i : Instr) : InstrLike i i := ⟨rfl, rfl, rfl, rfl⟩

theorem follows_refl (i : Instr) : Follows InstrLike (fun ws => .ok (i, ws)) (fun ws => .ok (i, ws)) :=
  follows_ok (InstrLike.refl i)

/-! The lines of the opcode map. -/

/-- Like effective addresses give like instructions: closes the goals of the lines below. -/
theorem instrLike_of {i j : Instr} (h1 : (encode j).length = (encode i).length) (h2 : isPrivileged j = isPrivileged i)
    (h3 : j.wellFormed = i.wellFormed) (h4 : pushesFirst j = pushesFirst i := by rfl) : InstrLike i j :=
  ⟨h1, h2, h3, h4⟩

theorem immWords_length (sz : Size) (v v' : Long) : (immWords sz v').length = (immWords sz v).length := by
  cases sz <;> rfl

theorem follows_parseLine0 (f : OpFields) : Follows InstrLike (parseLine0 f) (parseLine0 f) := by
  unfold parseLine0
  split
  all_goals first
    | with_reducible exact follows_error
    | with_reducible exact follows_withWord (fun _ _ => ⟨rfl, rfl, rfl, rfl⟩)
    | (with_reducible refine follows_withEa ?_); intro e e' h; exact instrLike_of (by simp only [encode, encodeMove, AddrSize.toSize, List.length_cons, List.length_append, h.words]) rfl (by simp only [Instr.wellFormed, AddrSize.toSize, Ea.dataOk, Ea.dataAlterable, Ea.dataNotImm, Ea.allOk, Ea.memAlterable, Ea.alterableOk, h.words, h.data, h.mem, h.control, h.alterable, h.addrReg, h.immediate, h.preDec, h.postInc, h.ok, h.ok'])
    | (with_reducible refine follows_withWordEa ?_); intro w w' e e' h; exact instrLike_of (by simp only [encode, encodeMove, AddrSize.toSize, List.length_cons, List.length_append, h.words]) rfl (by simp only [Instr.wellFormed, AddrSize.toSize, Ea.dataOk, Ea.dataAlterable, Ea.dataNotImm, Ea.allOk, Ea.memAlterable, Ea.alterableOk, h.words, h.data, h.mem, h.control, h.alterable, h.addrReg, h.immediate, h.preDec, h.postInc, h.ok, h.ok'])
    | (with_reducible refine follows_withImmEa ?_); intro sz v v' e e' hv hv' h; exact instrLike_of (by simp only [encode, encodeMove, AddrSize.toSize, List.length_cons, List.length_append, h.words, immWords_length sz v v']) rfl (by simp only [Instr.wellFormed, AddrSize.toSize, Ea.dataOk, Ea.dataAlterable, Ea.dataNotImm, Ea.allOk, Ea.memAlterable, Ea.alterableOk, hv, hv', h.words, h.data, h.mem, h.control, h.alterable, h.addrReg, h.immediate, h.preDec, h.postInc, h.ok, h.ok'])

theorem follows_parseMove (f : OpFields) : Follows InstrLike (parseMove f) (parseMove f) := by
  unfold parseMove
  split
  all_goals first
    | with_reducible exact follows_error
    | (with_reducible refine follows_withEa ?_); intro e e' h; exact instrLike_of (by simp only [encode, encodeMove, AddrSize.toSize, List.length_cons, List.length_append, h.words]) rfl (by simp only [Instr.wellFormed, AddrSize.toSize, Ea.dataOk, Ea.dataAlterable, Ea.dataNotImm, Ea.allOk, Ea.memAlterable, Ea.alterableOk, h.words, h.data, h.mem, h.control, h.alterable, h.addrReg, h.immediate, h.preDec, h.postInc, h.ok, h.ok'])
    | (with_reducible refine follows_withMove ?_); intro e e' g g' h h'; exact instrLike_of (by simp only [encode, encodeMove, AddrSize.toSize, List.length_cons, List.length_append, h.words, h'.words]) rfl (by simp only [Instr.wellFormed, AddrSize.toSize, Ea.dataOk, Ea.dataAlterable, Ea.dataNotImm, Ea.allOk, Ea.memAlterable, Ea.alterableOk, h.words, h.data, h.mem, h.control, h.alterable, h.addrReg, h.immediate, h.preDec, h.postInc, h.ok, h.ok', h'.data, h'.alterable])

theorem follows_parseLine4Misc (f : OpFields) : Follows InstrLike (parseLine4Misc f) (parseLine4Misc f) := by
  unfold parseLine4Misc
  split
  all_goals first
    | with_reducible exact follows_error
    | with_reducible exact follows_refl _
    | with_reducible exact follows_withWord (fun _ _ => ⟨rfl, rfl, rfl, rfl⟩)

theorem follows_parseLine4 (f : OpFields) : Follows InstrLike (parseLine4 f) (parseLine4 f) := by
  have low : ∀ k : Size → Ea → Instr, (∀ sz e e', EaLike sz e e' → InstrLike (k sz e) (k sz e')) →
      Follows InstrLike (fun ws => parseLine4.withSizeEaLow f ws k) (fun ws => parseLine4.withSizeEaLow f ws k) := by
    intro k hk
    by_cases h : f.o < 4
    · simp only [parseLine4.withSizeEaLow, h, if_true]
      exact follows_withSizeEa hk
    · simp only [parseLine4.withSizeEaLow, h, if_false]
      exact follows_error
  unfold parseLine4
  split
  all_goals first
    | with_reducible exact follows_error
    | with_reducible exact follows_refl _
    | with_reducible exact follows_parseLine4Misc f
    | (with_reducible refine follows_withEa ?_); intro e e' h; exact instrLike_of (by simp only [encode, encodeMove, AddrSize.toSize, List.length_cons, List.length_append, h.words]) rfl (by simp only [Instr.wellFormed, AddrSize.toSize, Ea.dataOk, Ea.dataAlterable, Ea.dataNotImm, Ea.allOk, Ea.memAlterable, Ea.alterableOk, h.words, h.data, h.mem, h.control, h.alterable, h.addrReg, h.immediate, h.preDec, h.postInc, h.ok, h.ok'])
    | (with_reducible refine follows_withWordEa ?_); intro w w' e e' h; exact instrLike_of (by simp only [encode, encodeMove, AddrSize.toSize, List.length_cons, List.length_append, h.words]) rfl (by simp only [Instr.wellFormed, AddrSize.toSize, Ea.dataOk, Ea.dataAlterable, Ea.dataNotImm, Ea.allOk, Ea.memAlterable, Ea.alterableOk, h.words, h.data, h.mem, h.control, h.alterable, h.addrReg, h.immediate, h.preDec, h.postInc, h.ok, h.ok'])
    | (with_reducible refine low _ ?_); intro sz e e' h; exact instrLike_of (by simp only [encode, encodeMove, AddrSize.toSize, List.length_cons, List.length_append, h.words]) rfl (by simp only [Instr.wellFormed, AddrSize.toSize, Ea.dataOk, Ea.dataAlterable, Ea.dataNotImm, Ea.allOk, Ea.memAlterable, Ea.alterableOk, h.words, h.data, h.mem, h.control, h.alterable, h.addrReg, h.immediate, h.preDec, h.postInc, h.ok, h.ok'])

theorem follows_parseLine5 (f : OpFields) : Follows InstrLike (parseLine5 f) (parseLine5 f) := by
  unfold parseLine5
  split <;> try split
  all_goals first
    | with_reducible exact follows_withWord (fun _ _ => ⟨rfl, rfl, rfl, rfl⟩)
    | (with_reducible refine follows_withEa ?_); intro e e' h; exact instrLike_of (by simp only [encode, encodeMove, AddrSize.toSize, List.length_cons, List.length_append, h.words]) rfl (by simp only [Instr.wellFormed, AddrSize.toSize, Ea.dataOk, Ea.dataAlterable, Ea.dataNotImm, Ea.allOk, Ea.memAlterable, Ea.alterableOk, h.words, h.data, h.mem, h.control, h.alterable, h.addrReg, h.immediate, h.preDec, h.postInc, h.ok, h.ok'])
    | (with_reducible refine follows_withSizeEa ?_); intro sz e e' h; exact instrLike_of (by simp only [encode, encodeMove, AddrSize.toSize, List.length_cons, List.length_append, h.words]) rfl (by simp only [Instr.wellFormed, AddrSize.toSize, Ea.dataOk, Ea.dataAlterable, Ea.dataNotImm, Ea.allOk, Ea.memAlterable, Ea.alterableOk, h.words, h.data, h.mem, h.control, h.alterable, h.addrReg, h.immediate, h.preDec, h.postInc, h.ok, h.ok'])

theorem follows_parseLine6 (f : OpFields) : Follows InstrLike (parseLine6 f) (parseLine6 f) := by
  unfold parseLine6
  split
  all_goals first
    | with_reducible exact follows_withBranch (fun _ _ => ⟨rfl, rfl, rfl, rfl⟩) (fun _ => InstrLike.refl _)

theorem follows_parseLine7 (f : OpFields) : Follows InstrLike (parseLine7 f) (parseLine7 f) := by
  unfold parseLine7
  split
  all_goals first
    | with_reducible exact follows_refl _
    | with_reducible exact follows_error

theorem follows_parseLine8 (f : OpFields) : Follows InstrLike (parseLine8 f) (parseLine8 f) := by
  unfold parseLine8
  split <;> try split
  all_goals first
    | with_reducible exact follows_refl _
    | with_reducible exact follows_withExtended
    | (with_reducible refine follows_withEa ?_); intro e e' h; exact instrLike_of (by simp only [encode, encodeMove, AddrSize.toSize, List.length_cons, List.length_append, h.words]) rfl (by simp only [Instr.wellFormed, AddrSize.toSize, Ea.dataOk, Ea.dataAlterable, Ea.dataNotImm, Ea.allOk, Ea.memAlterable, Ea.alterableOk, h.words, h.data, h.mem, h.control, h.alterable, h.addrReg, h.immediate, h.preDec, h.postInc, h.ok, h.ok'])
    | (with_reducible refine follows_withSizeEa ?_); intro sz e e' h; exact instrLike_of (by simp only [encode, encodeMove, AddrSize.toSize, List.length_cons, List.length_append, h.words]) rfl (by simp only [Instr.wellFormed, AddrSize.toSize, Ea.dataOk, Ea.dataAlterable, Ea.dataNotImm, Ea.allOk, Ea.memAlterable, Ea.alterableOk, h.words, h.data, h.mem, h.control, h.alterable, h.addrReg, h.immediate, h.preDec, h.postInc, h.ok, h.ok'])

theorem follows_parseLine9 (f : OpFields) : Follows InstrLike (parseLine9 f) (parseLine9 f) := by
  unfold parseLine9
  split <;> try split <;> try split
  all_goals first
    | with_reducible exact follows_refl _
    | with_reducible exact follows_withExtended
    | (with_reducible refine follows_withEa ?_); intro e e' h; exact instrLike_of (by simp only [encode, encodeMove, AddrSize.toSize, List.length_cons, List.length_append, h.words]) rfl (by simp only [Instr.wellFormed, AddrSize.toSize, Ea.dataOk, Ea.dataAlterable, Ea.dataNotImm, Ea.allOk, Ea.memAlterable, Ea.alterableOk, h.words, h.data, h.mem, h.control, h.alterable, h.addrReg, h.immediate, h.preDec, h.postInc, h.ok, h.ok'])
    | (with_reducible refine follows_withSizeEa ?_); intro sz e e' h; exact instrLike_of (by simp only [encode, encodeMove, AddrSize.toSize, List.length_cons, List.length_append, h.words]) rfl (by simp only [Instr.wellFormed, AddrSize.toSize, Ea.dataOk, Ea.dataAlterable, Ea.dataNotImm, Ea.allOk, Ea.memAlterable, Ea.alterableOk, h.words, h.data, h.mem, h.control, h.alterable, h.addrReg, h.immediate, h.preDec, h.postInc, h.ok, h.ok'])

theorem follows_parseLine11 (f : OpFields) : Follows InstrLike (parseLine11 f) (parseLine11 f) := by
  unfold parseLine11
  split <;> try split <;> try split
  all_goals first
    | with_reducible exact follows_refl _
    | with_reducible exact follows_withExtended
    | (with_reducible refine follows_withEa ?_); intro e e' h; exact instrLike_of (by simp only [encode, encodeMove, AddrSize.toSize, List.length_cons, List.length_append, h.words]) rfl (by simp only [Instr.wellFormed, AddrSize.toSize, Ea.dataOk, Ea.dataAlterable, Ea.dataNotImm, Ea.allOk, Ea.memAlterable, Ea.alterableOk, h.words, h.data, h.mem, h.control, h.alterable, h.addrReg, h.immediate, h.preDec, h.postInc, h.ok, h.ok'])
    | (with_reducible refine follows_withSizeEa ?_); intro sz e e' h; exact instrLike_of (by simp only [encode, encodeMove, AddrSize.toSize, List.length_cons, List.length_append, h.words]) rfl (by simp only [Instr.wellFormed, AddrSize.toSize, Ea.dataOk, Ea.dataAlterable, Ea.dataNotImm, Ea.allOk, Ea.memAlterable, Ea.alterableOk, h.words, h.data, h.mem, h.control, h.alterable, h.addrReg, h.immediate, h.preDec, h.postInc, h.ok, h.ok'])

theorem follows_parseLine12 (f : OpFields) : Follows InstrLike (parseLine12 f) (parseLine12 f) := by
  unfold parseLine12
  split <;> try split
  all_goals first
    | with_reducible exact follows_refl _
    | with_reducible exact follows_withExtended
    | (with_reducible refine follows_withEa ?_); intro e e' h; exact instrLike_of (by simp only [encode, encodeMove, AddrSize.toSize, List.length_cons, List.length_append, h.words]) rfl (by simp only [Instr.wellFormed, AddrSize.toSize, Ea.dataOk, Ea.dataAlterable, Ea.dataNotImm, Ea.allOk, Ea.memAlterable, Ea.alterableOk, h.words, h.data, h.mem, h.control, h.alterable, h.addrReg, h.immediate, h.preDec, h.postInc, h.ok, h.ok'])
    | (with_reducible refine follows_withSizeEa ?_); intro sz e e' h; exact instrLike_of (by simp only [encode, encodeMove, AddrSize.toSize, List.length_cons, List.length_append, h.words]) rfl (by simp only [Instr.wellFormed, AddrSize.toSize, Ea.dataOk, Ea.dataAlterable, Ea.dataNotImm, Ea.allOk, Ea.memAlterable, Ea.alterableOk, h.words, h.data, h.mem, h.control, h.alterable, h.addrReg, h.immediate, h.preDec, h.postInc, h.ok, h.ok'])

theorem follows_parseLine13 (f : OpFields) : Follows InstrLike (parseLine13 f) (parseLine13 f) := by
  unfold parseLine13
  split <;> try split <;> try split
  all_goals first
    | with_reducible exact follows_refl _
    | with_reducible exact follows_withExtended
    | (with_reducible refine follows_withEa ?_); intro e e' h; exact instrLike_of (by simp only [encode, encodeMove, AddrSize.toSize, List.length_cons, List.length_append, h.words]) rfl (by simp only [Instr.wellFormed, AddrSize.toSize, Ea.dataOk, Ea.dataAlterable, Ea.dataNotImm, Ea.allOk, Ea.memAlterable, Ea.alterableOk, h.words, h.data, h.mem, h.control, h.alterable, h.addrReg, h.immediate, h.preDec, h.postInc, h.ok, h.ok'])
    | (with_reducible refine follows_withSizeEa ?_); intro sz e e' h; exact instrLike_of (by simp only [encode, encodeMove, AddrSize.toSize, List.length_cons, List.length_append, h.words]) rfl (by simp only [Instr.wellFormed, AddrSize.toSize, Ea.dataOk, Ea.dataAlterable, Ea.dataNotImm, Ea.allOk, Ea.memAlterable, Ea.alterableOk, h.words, h.data, h.mem, h.control, h.alterable, h.addrReg, h.immediate, h.preDec, h.postInc, h.ok, h.ok'])

theorem follows_parseLine14 (f : OpFields) : Follows InstrLike (parseLine14 f) (parseLine14 f) := by
  unfold parseLine14
  split <;> try split
  all_goals first
    | with_reducible exact follows_error
    | with_reducible exact follows_withShift
    | (with_reducible refine follows_withEa ?_); intro e e' h; exact instrLike_of (by simp only [encode, encodeMove, AddrSize.toSize, List.length_cons, List.length_append, h.words]) rfl (by simp only [Instr.wellFormed, AddrSize.toSize, Ea.dataOk, Ea.dataAlterable, Ea.dataNotImm, Ea.allOk, Ea.memAlterable, Ea.alterableOk, h.words, h.data, h.mem, h.control, h.alterable, h.addrReg, h.immediate, h.preDec, h.postInc, h.ok, h.ok'])

theorem follows_parse (f : OpFields) : Follows InstrLike (parse f) (parse f) := by
  unfold parse
  split
  · exact follows_parseLine0 f
  · exact follows_parseMove f
  · exact follows_parseMove f
  · exact follows_parseMove f
  · exact follows_parseLine4 f
  · exact follows_parseLine5 f
  · exact follows_parseLine6 f
  · exact follows_parseLine7 f
  · exact follows_parseLine8 f
  · exact follows_parseLine9 f
  · exact follows_error
  · exact follows_parseLine11 f
  · exact follows_parseLine12 f
  · exact follows_parseLine13 f
  · exact follows_parseLine14 f
  · exact follows_error
  · exact follows_error

/-- What decodes with some words after the operation word decodes with any others, at least as many, to an instruction
of as many words, privileged if the first is. -/
theorem decode_like {op : Word} {ws ws' : List Word} {i : Instr} {rest : List Word}
    (h : decode (op :: ws) = .ok (i, rest)) (hl : ws.length ≤ ws'.length) :
    ∃ i' rest', decode (op :: ws') = .ok (i', rest') ∧ InstrLike i i' := by
  unfold decode at h
  cases hp : parse (unpack op) ws with
  | error e => simp [hp] at h
  | ok r =>
    obtain ⟨j, r⟩ := r
    simp only [hp] at h
    split at h
    · rename_i hw
      cases h
      obtain ⟨i', rest', h1, h2, _⟩ := follows_parse (unpack op) ws _ _ hp ws' hl
      exact ⟨i', rest', by simp [decode, h1, h2.wellFormed, hw], h2⟩
    · cases h

/-- What decodes is well formed. -/
theorem wellFormed_of_decode {ws : List Word} {i : Instr} {rest : List Word} (h : decode ws = .ok (i, rest)) :
    i.wellFormed = true := by
  cases ws with
  | nil => cases h
  | cons w ws =>
    unfold decode at h
    cases hp : parse (unpack w) ws with
    | error e => simp [hp] at h
    | ok r =>
      simp only [hp] at h
      split at h
      · cases h; assumption
      · cases h

end Sys2Proof.Machine
end

