-- ==== Sys2Proof/Laws/PerInstr.lean ====
section
/-! SUPPORT. What holds of every instruction, one lemma per constructor. -/

set_option Elab.async false

namespace Sys2Proof.Laws.Length

open Sys2Proof

/-- An instruction has one to five words (R100). -/
def Statement (i : Instr) : Prop := 1 ≤ i.words ∧ i.words ≤ 5

theorem immWords_le (sz : Size) (v : Long) : (immWords sz v).length ≤ 2 := by cases sz <;> simp [immWords]

theorem eaWords_le (sz : Size) (ea : Ea) : (eaWords sz ea).length ≤ 2 := by
  cases ea <;> simp [eaWords, immWords_le]

theorem branch_le (code : Nat) (d : BranchDisp) :
    1 ≤ (encodeBranch code d).length ∧ (encodeBranch code d).length ≤ 2 := by cases d <;> simp [encodeBranch]

theorem shift_length (dr tt : Nat) (sz : Size) (count : ShiftCount) (dn : Reg) :
    (encodeShift dr tt sz count dn).length = 1 := by cases count <;> rfl

/-- One operation word, and at most four more. -/
theorem of_length {i : Instr} (h1 : 1 ≤ (encode i).length) (h2 : (encode i).length ≤ 5) : Statement i := ⟨h1, h2⟩

theorem ori (sz : Size) (imm : Long) (ea : Ea) : Statement (.ori sz imm ea) := by
  have h1 := immWords_le sz imm
  have h2 := eaWords_le sz ea
  refine of_length ?_ ?_ <;> simp only [encode, List.length_cons, List.length_append] <;> omega

theorem andi (sz : Size) (imm : Long) (ea : Ea) : Statement (.andi sz imm ea) := by
  have h1 := immWords_le sz imm
  have h2 := eaWords_le sz ea
  refine of_length ?_ ?_ <;> simp only [encode, List.length_cons, List.length_append] <;> omega

theorem subi (sz : Size) (imm : Long) (ea : Ea) : Statement (.subi sz imm ea) := by
  have h1 := immWords_le sz imm
  have h2 := eaWords_le sz ea
  refine of_length ?_ ?_ <;> simp only [encode, List.length_cons, List.length_append] <;> omega

theorem addi (sz : Size) (imm : Long) (ea : Ea) : Statement (.addi sz imm ea) := by
  have h1 := immWords_le sz imm
  have h2 := eaWords_le sz ea
  refine of_length ?_ ?_ <;> simp only [encode, List.length_cons, List.length_append] <;> omega

theorem eori (sz : Size) (imm : Long) (ea : Ea) : Statement (.eori sz imm ea) := by
  have h1 := immWords_le sz imm
  have h2 := eaWords_le sz ea
  refine of_length ?_ ?_ <;> simp only [encode, List.length_cons, List.length_append] <;> omega

theorem cmpi (sz : Size) (imm : Long) (ea : Ea) : Statement (.cmpi sz imm ea) := by
  have h1 := immWords_le sz imm
  have h2 := eaWords_le sz ea
  refine of_length ?_ ?_ <;> simp only [encode, List.length_cons, List.length_append] <;> omega

theorem oriToCcr (imm : Byte) : Statement (.oriToCcr imm) := by
  exact of_length (by simp [encode]) (by simp [encode])

theorem oriToSr (imm : Word) : Statement (.oriToSr imm) := by
  exact of_length (by simp [encode]) (by simp [encode])

theorem andiToCcr (imm : Byte) : Statement (.andiToCcr imm) := by
  exact of_length (by simp [encode]) (by simp [encode])

theorem andiToSr (imm : Word) : Statement (.andiToSr imm) := by
  exact of_length (by simp [encode]) (by simp [encode])

theorem eoriToCcr (imm : Byte) : Statement (.eoriToCcr imm) := by
  exact of_length (by simp [encode]) (by simp [encode])

theorem eoriToSr (imm : Word) : Statement (.eoriToSr imm) := by
  exact of_length (by simp [encode]) (by simp [encode])

theorem btstStatic (b : Byte) (ea : Ea) : Statement (.btstStatic b ea) := by
  have h1 := eaWords_le .byte ea
  refine of_length ?_ ?_ <;> simp only [encode, List.length_cons] <;> omega

theorem btstDynamic (dn : Reg) (ea : Ea) : Statement (.btstDynamic dn ea) := by
  have h1 := eaWords_le .byte ea
  refine of_length ?_ ?_ <;> simp only [encode, List.length_cons] <;> omega

theorem bchgStatic (b : Byte) (ea : Ea) : Statement (.bchgStatic b ea) := by
  have h1 := eaWords_le .byte ea
  refine of_length ?_ ?_ <;> simp only [encode, List.length_cons] <;> omega

theorem bchgDynamic (dn : Reg) (ea : Ea) : Statement (.bchgDynamic dn ea) := by
  have h1 := eaWords_le .byte ea
  refine of_length ?_ ?_ <;> simp only [encode, List.length_cons] <;> omega

theorem bclrStatic (b : Byte) (ea : Ea) : Statement (.bclrStatic b ea) := by
  have h1 := eaWords_le .byte ea
  refine of_length ?_ ?_ <;> simp only [encode, List.length_cons] <;> omega

theorem bclrDynamic (dn : Reg) (ea : Ea) : Statement (.bclrDynamic dn ea) := by
  have h1 := eaWords_le .byte ea
  refine of_length ?_ ?_ <;> simp only [encode, List.length_cons] <;> omega

theorem bsetStatic (b : Byte) (ea : Ea) : Statement (.bsetStatic b ea) := by
  have h1 := eaWords_le .byte ea
  refine of_length ?_ ?_ <;> simp only [encode, List.length_cons] <;> omega

theorem bsetDynamic (dn : Reg) (ea : Ea) : Statement (.bsetDynamic dn ea) := by
  have h1 := eaWords_le .byte ea
  refine of_length ?_ ?_ <;> simp only [encode, List.length_cons] <;> omega

theorem movepLoadWord (dn an : Reg) (d : Word) : Statement (.movepLoadWord dn an d) := by
  exact of_length (by simp [encode]) (by simp [encode])

theorem movepLoadLong (dn an : Reg) (d : Word) : Statement (.movepLoadLong dn an d) := by
  exact of_length (by simp [encode]) (by simp [encode])

theorem movepStoreWord (dn an : Reg) (d : Word) : Statement (.movepStoreWord dn an d) := by
  exact of_length (by simp [encode]) (by simp [encode])

theorem movepStoreLong (dn an : Reg) (d : Word) : Statement (.movepStoreLong dn an d) := by
  exact of_length (by simp [encode]) (by simp [encode])

theorem moveByte (src dst : Ea) : Statement (.moveByte src dst) := by
  have h1 := eaWords_le .byte src
  have h2 := eaWords_le .byte dst
  refine of_length ?_ ?_ <;> simp only [encode, encodeMove, List.length_cons, List.length_append] <;> omega

theorem moveWord (src dst : Ea) : Statement (.moveWord src dst) := by
  have h1 := eaWords_le .word src
  have h2 := eaWords_le .word dst
  refine of_length ?_ ?_ <;> simp only [encode, encodeMove, List.length_cons, List.length_append] <;> omega

theorem moveaWord (src : Ea) (an : Reg) : Statement (.moveaWord src an) := by
  have h1 := eaWords_le .word src
  refine of_length ?_ ?_ <;> simp only [encode, List.length_cons] <;> omega

theorem moveLong (src dst : Ea) : Statement (.moveLong src dst) := by
  have h1 := eaWords_le .long src
  have h2 := eaWords_le .long dst
  refine of_length ?_ ?_ <;> simp only [encode, encodeMove, List.length_cons, List.length_append] <;> omega

theorem moveaLong (src : Ea) (an : Reg) : Statement (.moveaLong src an) := by
  have h1 := eaWords_le .long src
  refine of_length ?_ ?_ <;> simp only [encode, List.length_cons] <;> omega

theorem negx (sz : Size) (ea : Ea) : Statement (.negx sz ea) := by
  have h1 := eaWords_le sz ea
  refine of_length ?_ ?_ <;> simp only [encode, List.length_cons] <;> omega

theorem moveFromSr (ea : Ea) : Statement (.moveFromSr ea) := by
  have h1 := eaWords_le .word ea
  refine of_length ?_ ?_ <;> simp only [encode, List.length_cons] <;> omega

theorem chk (ea : Ea) (dn : Reg) : Statement (.chk ea dn) := by
  have h1 := eaWords_le .word ea
  refine of_length ?_ ?_ <;> simp only [encode, List.length_cons] <;> omega

theorem lea (ea : Ea) (an : Reg) : Statement (.lea ea an) := by
  have h1 := eaWords_le .long ea
  refine of_length ?_ ?_ <;> simp only [encode, List.length_cons] <;> omega

theorem clr (sz : Size) (ea : Ea) : Statement (.clr sz ea) := by
  have h1 := eaWords_le sz ea
  refine of_length ?_ ?_ <;> simp only [encode, List.length_cons] <;> omega

theorem neg (sz : Size) (ea : Ea) : Statement (.neg sz ea) := by
  have h1 := eaWords_le sz ea
  refine of_length ?_ ?_ <;> simp only [encode, List.length_cons] <;> omega

theorem moveToCcr (ea : Ea) : Statement (.moveToCcr ea) := by
  have h1 := eaWords_le .word ea
  refine of_length ?_ ?_ <;> simp only [encode, List.length_cons] <;> omega

theorem notEa (sz : Size) (ea : Ea) : Statement (.notEa sz ea) := by
  have h1 := eaWords_le sz ea
  refine of_length ?_ ?_ <;> simp only [encode, List.length_cons] <;> omega

theorem moveToSr (ea : Ea) : Statement (.moveToSr ea) := by
  have h1 := eaWords_le .word ea
  refine of_length ?_ ?_ <;> simp only [encode, List.length_cons] <;> omega

theorem nbcd (ea : Ea) : Statement (.nbcd ea) := by
  have h1 := eaWords_le .byte ea
  refine of_length ?_ ?_ <;> simp only [encode, List.length_cons] <;> omega

theorem swap (dn : Reg) : Statement (.swap dn) := by
  exact of_length (by simp [encode]) (by simp [encode])

theorem pea (ea : Ea) : Statement (.pea ea) := by
  have h1 := eaWords_le .long ea
  refine of_length ?_ ?_ <;> simp only [encode, List.length_cons] <;> omega

theorem extReg (sz : AddrSize) (dn : Reg) : Statement (.extReg sz dn) := by
  exact of_length (by simp [encode]) (by simp [encode])

theorem movemStore (sz : AddrSize) (mask : Word) (ea : Ea) : Statement (.movemStore sz mask ea) := by
  have h1 := eaWords_le sz.toSize ea
  refine of_length ?_ ?_ <;> simp only [encode, List.length_cons] <;> omega

theorem tst (sz : Size) (ea : Ea) : Statement (.tst sz ea) := by
  have h1 := eaWords_le sz ea
  refine of_length ?_ ?_ <;> simp only [encode, List.length_cons] <;> omega

theorem tas (ea : Ea) : Statement (.tas ea) := by
  have h1 := eaWords_le .byte ea
  refine of_length ?_ ?_ <;> simp only [encode, List.length_cons] <;> omega

theorem movemLoad (sz : AddrSize) (mask : Word) (ea : Ea) : Statement (.movemLoad sz mask ea) := by
  have h1 := eaWords_le sz.toSize ea
  refine of_length ?_ ?_ <;> simp only [encode, List.length_cons] <;> omega

theorem trap (v : Fin 16) : Statement (.trap v) := by
  exact of_length (by simp [encode]) (by simp [encode])

theorem link (an : Reg) (d : Word) : Statement (.link an d) := by
  exact of_length (by simp [encode]) (by simp [encode])

theorem unlk (an : Reg) : Statement (.unlk an) := by
  exact of_length (by simp [encode]) (by simp [encode])

theorem moveToUsp (an : Reg) : Statement (.moveToUsp an) := by
  exact of_length (by simp [encode]) (by simp [encode])

theorem moveFromUsp (an : Reg) : Statement (.moveFromUsp an) := by
  exact of_length (by simp [encode]) (by simp [encode])

theorem resetDevices : Statement (.resetDevices) := by
  exact of_length (by simp [encode]) (by simp [encode])

theorem nop : Statement (.nop) := by
  exact of_length (by simp [encode]) (by simp [encode])

theorem stop (imm : Word) : Statement (.stop imm) := by
  exact of_length (by simp [encode]) (by simp [encode])

theorem rte : Statement (.rte) := by
  exact of_length (by simp [encode]) (by simp [encode])

theorem rts : Statement (.rts) := by
  exact of_length (by simp [encode]) (by simp [encode])

theorem trapv : Statement (.trapv) := by
  exact of_length (by simp [encode]) (by simp [encode])

theorem rtr : Statement (.rtr) := by
  exact of_length (by simp [encode]) (by simp [encode])

theorem jsr (ea : Ea) : Statement (.jsr ea) := by
  have h1 := eaWords_le .long ea
  refine of_length ?_ ?_ <;> simp only [encode, List.length_cons] <;> omega

theorem jmp (ea : Ea) : Statement (.jmp ea) := by
  have h1 := eaWords_le .long ea
  refine of_length ?_ ?_ <;> simp only [encode, List.length_cons] <;> omega

theorem addq (q : Fin 8) (sz : Size) (ea : Ea) : Statement (.addq q sz ea) := by
  have h1 := eaWords_le sz ea
  refine of_length ?_ ?_ <;> simp only [encode, List.length_cons] <;> omega

theorem subq (q : Fin 8) (sz : Size) (ea : Ea) : Statement (.subq q sz ea) := by
  have h1 := eaWords_le sz ea
  refine of_length ?_ ?_ <;> simp only [encode, List.length_cons] <;> omega

theorem scc (cond : Cond) (ea : Ea) : Statement (.scc cond ea) := by
  have h1 := eaWords_le .byte ea
  refine of_length ?_ ?_ <;> simp only [encode, List.length_cons] <;> omega

theorem dbcc (cond : Cond) (dn : Reg) (d : Word) : Statement (.dbcc cond dn d) := by
  exact of_length (by simp [encode]) (by simp [encode])

theorem bra (d : BranchDisp) : Statement (.bra d) := by
  have h := branch_le 0 d
  exact of_length h.1 (by simp only [encode]; omega)

theorem bsr (d : BranchDisp) : Statement (.bsr d) := by
  have h := branch_le 1 d
  exact of_length h.1 (by simp only [encode]; omega)

theorem bcc (cond : Cond) (d : BranchDisp) : Statement (.bcc cond d) := by
  have h := branch_le (condCode cond) d
  exact of_length h.1 (by simp only [encode]; omega)

theorem moveq (dn : Reg) (d : Byte) : Statement (.moveq dn d) := by
  exact of_length (by simp [encode]) (by simp [encode])

theorem orToReg (sz : Size) (ea : Ea) (dn : Reg) : Statement (.orToReg sz ea dn) := by
  have h1 := eaWords_le sz ea
  refine of_length ?_ ?_ <;> simp only [encode, List.length_cons] <;> omega

theorem orToMem (sz : Size) (dn : Reg) (ea : Ea) : Statement (.orToMem sz dn ea) := by
  have h1 := eaWords_le sz ea
  refine of_length ?_ ?_ <;> simp only [encode, List.length_cons] <;> omega

theorem divu (ea : Ea) (dn : Reg) : Statement (.divu ea dn) := by
  have h1 := eaWords_le .word ea
  refine of_length ?_ ?_ <;> simp only [encode, List.length_cons] <;> omega

theorem divs (ea : Ea) (dn : Reg) : Statement (.divs ea dn) := by
  have h1 := eaWords_le .word ea
  refine of_length ?_ ?_ <;> simp only [encode, List.length_cons] <;> omega

theorem sbcd (mem : Bool) (ry rx : Reg) : Statement (.sbcd mem ry rx) := by
  exact of_length (by simp [encode, encodeExtended]) (by simp [encode, encodeExtended])

theorem subToReg (sz : Size) (ea : Ea) (dn : Reg) : Statement (.subToReg sz ea dn) := by
  have h1 := eaWords_le sz ea
  refine of_length ?_ ?_ <;> simp only [encode, List.length_cons] <;> omega

theorem subToMem (sz : Size) (dn : Reg) (ea : Ea) : Statement (.subToMem sz dn ea) := by
  have h1 := eaWords_le sz ea
  refine of_length ?_ ?_ <;> simp only [encode, List.length_cons] <;> omega

theorem suba (sz : AddrSize) (ea : Ea) (an : Reg) : Statement (.suba sz ea an) := by
  have h1 := eaWords_le sz.toSize ea
  refine of_length ?_ ?_ <;> simp only [encode, List.length_cons] <;> omega

theorem subx (sz : Size) (mem : Bool) (ry rx : Reg) : Statement (.subx sz mem ry rx) := by
  exact of_length (by simp [encode, encodeExtended]) (by simp [encode, encodeExtended])

theorem cmp (sz : Size) (ea : Ea) (dn : Reg) : Statement (.cmp sz ea dn) := by
  have h1 := eaWords_le sz ea
  refine of_length ?_ ?_ <;> simp only [encode, List.length_cons] <;> omega

theorem cmpa (sz : AddrSize) (ea : Ea) (an : Reg) : Statement (.cmpa sz ea an) := by
  have h1 := eaWords_le sz.toSize ea
  refine of_length ?_ ?_ <;> simp only [encode, List.length_cons] <;> omega

theorem eorToEa (sz : Size) (dn : Reg) (ea : Ea) : Statement (.eorToEa sz dn ea) := by
  have h1 := eaWords_le sz ea
  refine of_length ?_ ?_ <;> simp only [encode, List.length_cons] <;> omega

theorem cmpm (sz : Size) (ay ax : Reg) : Statement (.cmpm sz ay ax) := by
  exact of_length (by simp [encode, encodeExtended]) (by simp [encode, encodeExtended])

theorem andToReg (sz : Size) (ea : Ea) (dn : Reg) : Statement (.andToReg sz ea dn) := by
  have h1 := eaWords_le sz ea
  refine of_length ?_ ?_ <;> simp only [encode, List.length_cons] <;> omega

theorem andToMem (sz : Size) (dn : Reg) (ea : Ea) : Statement (.andToMem sz dn ea) := by
  have h1 := eaWords_le sz ea
  refine of_length ?_ ?_ <;> simp only [encode, List.length_cons] <;> omega

theorem mulu (ea : Ea) (dn : Reg) : Statement (.mulu ea dn) := by
  have h1 := eaWords_le .word ea
  refine of_length ?_ ?_ <;> simp only [encode, List.length_cons] <;> omega

theorem muls (ea : Ea) (dn : Reg) : Statement (.muls ea dn) := by
  have h1 := eaWords_le .word ea
  refine of_length ?_ ?_ <;> simp only [encode, List.length_cons] <;> omega

theorem abcd (mem : Bool) (ry rx : Reg) : Statement (.abcd mem ry rx) := by
  exact of_length (by simp [encode, encodeExtended]) (by simp [encode, encodeExtended])

theorem exgData (rx ry : Reg) : Statement (.exgData rx ry) := by
  exact of_length (by simp [encode]) (by simp [encode])

theorem exgAddr (rx ry : Reg) : Statement (.exgAddr rx ry) := by
  exact of_length (by simp [encode]) (by simp [encode])

theorem exgDataAddr (rx ry : Reg) : Statement (.exgDataAddr rx ry) := by
  exact of_length (by simp [encode]) (by simp [encode])

theorem addToReg (sz : Size) (ea : Ea) (dn : Reg) : Statement (.addToReg sz ea dn) := by
  have h1 := eaWords_le sz ea
  refine of_length ?_ ?_ <;> simp only [encode, List.length_cons] <;> omega

theorem addToMem (sz : Size) (dn : Reg) (ea : Ea) : Statement (.addToMem sz dn ea) := by
  have h1 := eaWords_le sz ea
  refine of_length ?_ ?_ <;> simp only [encode, List.length_cons] <;> omega

theorem adda (sz : AddrSize) (ea : Ea) (an : Reg) : Statement (.adda sz ea an) := by
  have h1 := eaWords_le sz.toSize ea
  refine of_length ?_ ?_ <;> simp only [encode, List.length_cons] <;> omega

theorem addx (sz : Size) (mem : Bool) (ry rx : Reg) : Statement (.addx sz mem ry rx) := by
  exact of_length (by simp [encode, encodeExtended]) (by simp [encode, encodeExtended])

theorem asrReg (sz : Size) (count : ShiftCount) (dn : Reg) : Statement (.asrReg sz count dn) := by
  refine of_length ?_ ?_ <;> simp only [encode, shift_length] <;> omega

theorem asrMem (ea : Ea) : Statement (.asrMem ea) := by
  have h1 := eaWords_le .word ea
  refine of_length ?_ ?_ <;> simp only [encode, List.length_cons] <;> omega

theorem aslReg (sz : Size) (count : ShiftCount) (dn : Reg) : Statement (.aslReg sz count dn) := by
  refine of_length ?_ ?_ <;> simp only [encode, shift_length] <;> omega

theorem aslMem (ea : Ea) : Statement (.aslMem ea) := by
  have h1 := eaWords_le .word ea
  refine of_length ?_ ?_ <;> simp only [encode, List.length_cons] <;> omega

theorem lsrReg (sz : Size) (count : ShiftCount) (dn : Reg) : Statement (.lsrReg sz count dn) := by
  refine of_length ?_ ?_ <;> simp only [encode, shift_length] <;> omega

theorem lsrMem (ea : Ea) : Statement (.lsrMem ea) := by
  have h1 := eaWords_le .word ea
  refine of_length ?_ ?_ <;> simp only [encode, List.length_cons] <;> omega

theorem lslReg (sz : Size) (count : ShiftCount) (dn : Reg) : Statement (.lslReg sz count dn) := by
  refine of_length ?_ ?_ <;> simp only [encode, shift_length] <;> omega

theorem lslMem (ea : Ea) : Statement (.lslMem ea) := by
  have h1 := eaWords_le .word ea
  refine of_length ?_ ?_ <;> simp only [encode, List.length_cons] <;> omega

theorem roxrReg (sz : Size) (count : ShiftCount) (dn : Reg) : Statement (.roxrReg sz count dn) := by
  refine of_length ?_ ?_ <;> simp only [encode, shift_length] <;> omega

theorem roxrMem (ea : Ea) : Statement (.roxrMem ea) := by
  have h1 := eaWords_le .word ea
  refine of_length ?_ ?_ <;> simp only [encode, List.length_cons] <;> omega

theorem roxlReg (sz : Size) (count : ShiftCount) (dn : Reg) : Statement (.roxlReg sz count dn) := by
  refine of_length ?_ ?_ <;> simp only [encode, shift_length] <;> omega

theorem roxlMem (ea : Ea) : Statement (.roxlMem ea) := by
  have h1 := eaWords_le .word ea
  refine of_length ?_ ?_ <;> simp only [encode, List.length_cons] <;> omega

theorem rorReg (sz : Size) (count : ShiftCount) (dn : Reg) : Statement (.rorReg sz count dn) := by
  refine of_length ?_ ?_ <;> simp only [encode, shift_length] <;> omega

theorem rorMem (ea : Ea) : Statement (.rorMem ea) := by
  have h1 := eaWords_le .word ea
  refine of_length ?_ ?_ <;> simp only [encode, List.length_cons] <;> omega

theorem rolReg (sz : Size) (count : ShiftCount) (dn : Reg) : Statement (.rolReg sz count dn) := by
  refine of_length ?_ ?_ <;> simp only [encode, shift_length] <;> omega

theorem rolMem (ea : Ea) : Statement (.rolMem ea) := by
  have h1 := eaWords_le .word ea
  refine of_length ?_ ?_ <;> simp only [encode, List.length_cons] <;> omega

end Sys2Proof.Laws.Length

namespace Sys2Proof

/-- The lengths of all instructions (R100). -/
theorem words_bounds : ∀ i : Instr, 1 ≤ i.words ∧ i.words ≤ 5
  | .ori sz imm ea => Laws.Length.ori sz imm ea
  | .andi sz imm ea => Laws.Length.andi sz imm ea
  | .subi sz imm ea => Laws.Length.subi sz imm ea
  | .addi sz imm ea => Laws.Length.addi sz imm ea
  | .eori sz imm ea => Laws.Length.eori sz imm ea
  | .cmpi sz imm ea => Laws.Length.cmpi sz imm ea
  | .oriToCcr imm => Laws.Length.oriToCcr imm
  | .oriToSr imm => Laws.Length.oriToSr imm
  | .andiToCcr imm => Laws.Length.andiToCcr imm
  | .andiToSr imm => Laws.Length.andiToSr imm
  | .eoriToCcr imm => Laws.Length.eoriToCcr imm
  | .eoriToSr imm => Laws.Length.eoriToSr imm
  | .btstStatic b ea => Laws.Length.btstStatic b ea
  | .btstDynamic dn ea => Laws.Length.btstDynamic dn ea
  | .bchgStatic b ea => Laws.Length.bchgStatic b ea
  | .bchgDynamic dn ea => Laws.Length.bchgDynamic dn ea
  | .bclrStatic b ea => Laws.Length.bclrStatic b ea
  | .bclrDynamic dn ea => Laws.Length.bclrDynamic dn ea
  | .bsetStatic b ea => Laws.Length.bsetStatic b ea
  | .bsetDynamic dn ea => Laws.Length.bsetDynamic dn ea
  | .movepLoadWord dn an d => Laws.Length.movepLoadWord dn an d
  | .movepLoadLong dn an d => Laws.Length.movepLoadLong dn an d
  | .movepStoreWord dn an d => Laws.Length.movepStoreWord dn an d
  | .movepStoreLong dn an d => Laws.Length.movepStoreLong dn an d
  | .moveByte src dst => Laws.Length.moveByte src dst
  | .moveWord src dst => Laws.Length.moveWord src dst
  | .moveaWord src an => Laws.Length.moveaWord src an
  | .moveLong src dst => Laws.Length.moveLong src dst
  | .moveaLong src an => Laws.Length.moveaLong src an
  | .negx sz ea => Laws.Length.negx sz ea
  | .moveFromSr ea => Laws.Length.moveFromSr ea
  | .chk ea dn => Laws.Length.chk ea dn
  | .lea ea an => Laws.Length.lea ea an
  | .clr sz ea => Laws.Length.clr sz ea
  | .neg sz ea => Laws.Length.neg sz ea
  | .moveToCcr ea => Laws.Length.moveToCcr ea
  | .notEa sz ea => Laws.Length.notEa sz ea
  | .moveToSr ea => Laws.Length.moveToSr ea
  | .nbcd ea => Laws.Length.nbcd ea
  | .swap dn => Laws.Length.swap dn
  | .pea ea => Laws.Length.pea ea
  | .extReg sz dn => Laws.Length.extReg sz dn
  | .movemStore sz mask ea => Laws.Length.movemStore sz mask ea
  | .tst sz ea => Laws.Length.tst sz ea
  | .tas ea => Laws.Length.tas ea
  | .movemLoad sz mask ea => Laws.Length.movemLoad sz mask ea
  | .trap v => Laws.Length.trap v
  | .link an d => Laws.Length.link an d
  | .unlk an => Laws.Length.unlk an
  | .moveToUsp an => Laws.Length.moveToUsp an
  | .moveFromUsp an => Laws.Length.moveFromUsp an
  | .resetDevices => Laws.Length.resetDevices
  | .nop => Laws.Length.nop
  | .stop imm => Laws.Length.stop imm
  | .rte => Laws.Length.rte
  | .rts => Laws.Length.rts
  | .trapv => Laws.Length.trapv
  | .rtr => Laws.Length.rtr
  | .jsr ea => Laws.Length.jsr ea
  | .jmp ea => Laws.Length.jmp ea
  | .addq q sz ea => Laws.Length.addq q sz ea
  | .subq q sz ea => Laws.Length.subq q sz ea
  | .scc cond ea => Laws.Length.scc cond ea
  | .dbcc cond dn d => Laws.Length.dbcc cond dn d
  | .bra d => Laws.Length.bra d
  | .bsr d => Laws.Length.bsr d
  | .bcc cond d => Laws.Length.bcc cond d
  | .moveq dn d => Laws.Length.moveq dn d
  | .orToReg sz ea dn => Laws.Length.orToReg sz ea dn
  | .orToMem sz dn ea => Laws.Length.orToMem sz dn ea
  | .divu ea dn => Laws.Length.divu ea dn
  | .divs ea dn => Laws.Length.divs ea dn
  | .sbcd mem ry rx => Laws.Length.sbcd mem ry rx
  | .subToReg sz ea dn => Laws.Length.subToReg sz ea dn
  | .subToMem sz dn ea => Laws.Length.subToMem sz dn ea
  | .suba sz ea an => Laws.Length.suba sz ea an
  | .subx sz mem ry rx => Laws.Length.subx sz mem ry rx
  | .cmp sz ea dn => Laws.Length.cmp sz ea dn
  | .cmpa sz ea an => Laws.Length.cmpa sz ea an
  | .eorToEa sz dn ea => Laws.Length.eorToEa sz dn ea
  | .cmpm sz ay ax => Laws.Length.cmpm sz ay ax
  | .andToReg sz ea dn => Laws.Length.andToReg sz ea dn
  | .andToMem sz dn ea => Laws.Length.andToMem sz dn ea
  | .mulu ea dn => Laws.Length.mulu ea dn
  | .muls ea dn => Laws.Length.muls ea dn
  | .abcd mem ry rx => Laws.Length.abcd mem ry rx
  | .exgData rx ry => Laws.Length.exgData rx ry
  | .exgAddr rx ry => Laws.Length.exgAddr rx ry
  | .exgDataAddr rx ry => Laws.Length.exgDataAddr rx ry
  | .addToReg sz ea dn => Laws.Length.addToReg sz ea dn
  | .addToMem sz dn ea => Laws.Length.addToMem sz dn ea
  | .adda sz ea an => Laws.Length.adda sz ea an
  | .addx sz mem ry rx => Laws.Length.addx sz mem ry rx
  | .asrReg sz count dn => Laws.Length.asrReg sz count dn
  | .asrMem ea => Laws.Length.asrMem ea
  | .aslReg sz count dn => Laws.Length.aslReg sz count dn
  | .aslMem ea => Laws.Length.aslMem ea
  | .lsrReg sz count dn => Laws.Length.lsrReg sz count dn
  | .lsrMem ea => Laws.Length.lsrMem ea
  | .lslReg sz count dn => Laws.Length.lslReg sz count dn
  | .lslMem ea => Laws.Length.lslMem ea
  | .roxrReg sz count dn => Laws.Length.roxrReg sz count dn
  | .roxrMem ea => Laws.Length.roxrMem ea
  | .roxlReg sz count dn => Laws.Length.roxlReg sz count dn
  | .roxlMem ea => Laws.Length.roxlMem ea
  | .rorReg sz count dn => Laws.Length.rorReg sz count dn
  | .rorMem ea => Laws.Length.rorMem ea
  | .rolReg sz count dn => Laws.Length.rolReg sz count dn
  | .rolMem ea => Laws.Length.rolMem ea

end Sys2Proof
end

