-- ==== Sys2Proof/Laws/Step.lean ====
section
/-! SUPPORT. What one step does, case by case (R429), and when an exception goes through. -/

namespace Sys2Proof.Machine

open Sys2Proof

/-- Whether an exception goes through depends on the platform and SSP only. -/
theorem State.exceptionReady_congr {s t : State} (h1 : s.samePlatform t) (h2 : t.ssp = s.ssp) (n : Nat) :
    t.exceptionReady n = s.exceptionReady n := by
  unfold State.exceptionReady
  rw [h2, State.canStack_congr h1 _ _ [0, 0, 0] rfl, State.vectorReady_congr h1]

/-- Exception processing that goes through, its conditions checked in an earlier state with the same platform and
SSP. -/
theorem takeException_at (p : State) {s : State} {k : ExcKind} {n : Nat} {pc : Long}
    (hr : p.exceptionReady n = true) (hv : s.vectorOf k = some n) (h1 : p.samePlatform s) (h2 : s.ssp = p.ssp) :
    takeException k pc s =
      .ok () (s.afterException n (k.mask s.sr.mask) pc (s.traceAtStart && decide (k.group = .group2))) :=
  takeException_ok hv (by rw [State.exceptionReady_congr h1 h2]; exact hr)

/-- Taking the input of a step changes the list of inputs only. -/
theorem State.takeInput_snd (s : State) : ∃ l, s.takeInput.2 = { s with inputs := l } := by
  cases h : s.inputs with
  | nil => exact ⟨s.inputs, show s.takeInput.2 = s by simp [State.takeInput, h]⟩
  | cons x xs => exact ⟨xs, by simp [State.takeInput, h]⟩

/-- A step under a given input. -/
theorem step_of_input {s : State} {x : PlatformInput} (h : s.takeInput.1 = x) :
    step s = stepInput x s.takeInput.2 := by rw [← h]; rfl

/-- A halted processor does nothing (R485). -/
theorem runProcessor_halted {s : State} {level : Fin 8} (h : s.procState = .halted) :
    runProcessor level s = .next s := by simp [runProcessor, h]

/-- A processor whose bus is lent out only samples the interrupt level (R390). -/
theorem runProcessor_lent {s : State} {level : Fin 8} (h1 : s.procState ≠ .halted) (h2 : s.busOwner = .other) :
    runProcessor level s = .next (s.sample level) := by
  unfold runProcessor
  rw [if_neg h1]
  exact if_pos (show (s.sample level).busOwner = .other from h2)

/-- An interrupt is taken (R463). -/
theorem runProcessor_interrupt {s : State} {level l : Fin 8} (h1 : s.procState ≠ .halted)
    (h2 : s.busOwner = .processor) (h3 : (s.sample level).interruptLevel = some l) :
    runProcessor level s = settled (finish (takeException (.interrupt l) s.pc { s.sample level with nmi := false })) := by
  unfold runProcessor
  rw [if_neg h1]
  have hb : ¬ (s.sample level).busOwner = .other := by
    show ¬ s.busOwner = .other
    simp [h2]
  simp only [if_neg hb, h3]
  rfl

/-- A stopped processor waits (R480). -/
theorem runProcessor_stopped {s : State} {level : Fin 8} (h1 : s.procState = .stopped)
    (h2 : s.busOwner = .processor) (h3 : (s.sample level).interruptLevel = none) :
    runProcessor level s = .next (s.sample level) := by
  unfold runProcessor
  rw [if_neg (by simp [h1])]
  have hb : ¬ (s.sample level).busOwner = .other := by
    show ¬ s.busOwner = .other
    simp [h2]
  simp only [if_neg hb, h3]
  exact if_pos h1

/-- Otherwise the next instruction is executed (R429). -/
theorem runProcessor_runs {s : State} {level : Fin 8} (h : s.runs level = true) :
    runProcessor level s = settled (runNext (s.sample level)) := by
  simp only [State.runs, Bool.and_eq_true, decide_eq_true_eq, Option.isNone_iff_eq_none] at h
  obtain ⟨⟨h1, h2⟩, h3⟩ := h
  unfold runProcessor
  rw [if_neg (by simp [h1])]
  have hb : ¬ (s.sample level).busOwner = .other := by
    show ¬ s.busOwner = .other
    simp [h2]
  have hp : ¬ (s.sample level).procState = .stopped := by
    show ¬ s.procState = .stopped
    simp [h1]
  simp only [if_neg hb, h3, if_neg hp]

/-! The two shapes of a meaning. -/

/-- The meaning of a privileged instruction checks S (R341). -/
theorem exec_privileged {i : Instr} (h : isPrivileged i = true) : ∃ body, ∀ s, exec i s = runPrivileged body s := by
  cases i <;> first | exact ⟨_, fun _ => rfl⟩ | exact absurd h Bool.false_ne_true

/-- The meaning of any other instruction does not. -/
theorem exec_unprivileged {i : Instr} (h : isPrivileged i = false) : ∃ body, ∀ s, exec i s = runInstr body s := by
  cases i <;> first
    | exact absurd h.symm Bool.false_ne_true
    | exact ⟨_, fun _ => rfl⟩
    | refine ⟨?_, ?_⟩
      rotate_left
      · intro s
        simp only [exec, execOriToCcr, execAndiToCcr, execEoriToCcr, execLea, execSwap]
        rfl

/-! Reading instruction words. -/

/-- Lists of accesses go through alike where bus cycles are answered alike. -/
theorem State.canAccessList_congr {s t : State} (h : s.sameBus t) (sp : Space) (dir : Direction) (sz : Size)
    (stride : Long) (k : Nat) (a : Long) : t.canAccessList sp dir sz stride k a = s.canAccessList sp dir sz stride k a := by
  induction k generalizing a with
  | zero => rfl
  | succ k ih => simp only [State.canAccessList, ih, State.canAccess_congr h]

/-- A list of accesses that goes through does so in two parts. -/
theorem State.canAccessList_append {s : State} {sp : Space} {dir : Direction} {sz : Size} {stride : Long}
    (k m : Nat) (a : Long) (h : s.canAccessList sp dir sz stride (k + m) a = true) :
    s.canAccessList sp dir sz stride k a = true ∧
      s.canAccessList sp dir sz stride m (a + BitVec.ofNat 32 k * stride) = true := by
  induction k generalizing a with
  | zero => exact ⟨rfl, by simpa using h⟩
  | succ k ih =>
    rw [Nat.add_right_comm] at h
    simp only [State.canAccessList, Bool.and_eq_true] at h ⊢
    have h2 := ih (a + stride) h.2
    have e : BitVec.ofNat 32 (k + 1) * stride = stride + BitVec.ofNat 32 k * stride := by
      rw [BitVec.ofNat_add, BitVec.add_mul]
      simp [BitVec.add_comm]
    exact ⟨⟨h.1, h2.1⟩, by rw [e, ← BitVec.add_assoc]; exact h2.2⟩

theorem State.wordsAt_length (s : State) (k : Nat) (a : Long) : (s.wordsAt k a).length = k := by
  induction k generalizing a with
  | zero => rfl
  | succ k ih => simp [State.wordsAt, ih]

/-- The words of memory depend on memory, its map and S only. -/
theorem State.wordsAt_congr {s t : State} (h1 : t.memMap = s.memMap) (h2 : t.mem = s.mem) (h3 : t.sr.s = s.sr.s)
    (k : Nat) (a : Long) : t.wordsAt k a = s.wordsAt k a := by
  have hc : t.code .program = s.code .program := by simp only [State.code, h3]
  induction k generalizing a with
  | zero => rfl
  | succ k ih => simp only [State.wordsAt, ih, State.wordAt, State.byteAt_congr h1 h2, hc]

/-- Whether the words read ahead are those of memory depends on them, on memory, its map and S only. -/
theorem State.prefetchFresh_congr {s t : State} (h0 : t.prefetch = s.prefetch) (h1 : t.memMap = s.memMap)
    (h2 : t.mem = s.mem) (h3 : t.sr.s = s.sr.s) : t.prefetchFresh = s.prefetchFresh := by
  have hc : t.code .program = s.code .program := by simp only [State.code, h3]
  have hw : ∀ a, t.wordAt (s.code .program) a = s.wordAt (s.code .program) a := fun a => by
    simp only [State.wordAt, State.byteAt_congr h1 h2]
  unfold State.prefetchFresh
  rw [h0, hc]
  exact congrArg s.prefetch.all (funext fun e => by rw [hw])

/-- With nothing read ahead, what is read ahead is fresh. -/
theorem State.prefetchFresh_nil {s : State} (h : s.prefetch = []) : s.prefetchFresh = true := by
  simp [State.prefetchFresh, h]

/-- A word read ahead that is fresh is the one in memory. -/
theorem State.readAheadAt_fresh {s : State} {a : Long} {w : Word} (h : s.prefetchFresh = true)
    (hr : s.readAheadAt a = some w) : w = s.wordAt (s.code .program) a := by
  unfold State.readAheadAt State.aheadAt at hr
  rw [Option.map_eq_some_iff] at hr
  obtain ⟨e, he, rfl⟩ := hr
  have hm := List.mem_of_find?_eq_some he
  have ha := List.find?_some he
  simp only [Bool.and_eq_true, decide_eq_true_eq] at ha
  have hw := List.all_eq_true.mp h e hm
  rw [decide_eq_true_eq, ha.1] at hw
  exact hw

/-- With only fresh words read ahead, a word that can be read is the one in memory. -/
theorem fetchWord_ok {s : State} {a : Long} (h1 : s.prefetchFresh = true)
    (h2 : s.canAccess .program .read a .word = true) :
    fetchWord a s = .ok (s.wordAt (s.code .program) a) s := by
  unfold fetchWord
  cases hr : s.aheadAt a with
  | none =>
    show (do let v ← readMem .program a .word; pure (lowWord v) : Exec Word) s = _
    rw [run_bind_ok (readMem_ok h2), run_pure]
    simp [State.loadMem, lowWord]
  | some e =>
    have hw := State.readAheadAt_fresh (w := e.word) h1 (by rw [State.readAheadAt, hr]; rfl)
    simp only [State.fetchable, h2, if_true, ← hw, or_true]

/-- The same for several words. -/
theorem fetchWords_ok {s : State} {k : Nat} {a : Long} (h1 : s.prefetchFresh = true)
    (h2 : s.canAccessList .program .read .word 2 k a = true) :
    fetchWords k a s = { words := s.wordsAt k a, state := s, error := none } := by
  induction k generalizing a with
  | zero => rfl
  | succ k ih =>
    simp only [State.canAccessList, Bool.and_eq_true] at h2
    unfold fetchWords
    rw [fetchWord_ok h1 h2.1]
    simp only [ih h2.2, State.wordsAt]

/-- Which words a bus cycle has read ahead depends on the words read ahead only. -/
theorem State.surelyRead_congr {s t : State} (h : t.prefetch = s.prefetch) : t.surelyRead = s.surelyRead := by
  funext a
  simp only [State.surelyRead, State.aheadAt, h]

/-- The words that a bus cycle has read ahead are within the number asked for. -/
theorem State.surelyAhead_le (s : State) (k : Nat) (a : Long) : s.surelyAhead k a ≤ k := by
  induction k generalizing a with
  | zero => exact Nat.le_refl 0
  | succ k ih =>
    have h := ih (a + 2)
    unfold State.surelyAhead
    split
    · split <;> omega
    · next n e => rw [e] at h; omega

/-- They reach to every word that a bus cycle has read ahead. -/
theorem State.lt_surelyAhead {s : State} {j k : Nat} {a : Long} (hj : j < k)
    (h : s.surelyRead (a + BitVec.ofNat 32 (2 * j)) = true) : j < s.surelyAhead k a := by
  induction k generalizing a j with
  | zero => omega
  | succ k ih =>
    unfold State.surelyAhead
    cases j with
    | zero =>
      rw [Nat.mul_zero, BitVec.add_zero] at h
      split
      · rw [h]; exact Nat.one_pos
      · exact Nat.succ_pos _
    | succ j =>
      have e : a + BitVec.ofNat 32 (2 * (j + 1)) = a + 2 + BitVec.ofNat 32 (2 * j) := by
        rw [Nat.mul_succ, Nat.add_comm, BitVec.ofNat_add, ← BitVec.add_assoc]
        rfl
      rw [e] at h
      have h' := ih (Nat.lt_of_succ_lt_succ hj) h
      split
      · next e' => rw [e'] at h'; omega
      · next n e' => rw [e'] at h'; omega

/-- With nothing read ahead, no bus cycle has read a word. -/
theorem State.surelyRead_nil {s : State} (h : s.prefetch = []) : s.surelyRead = fun _ => false := by
  funext a
  simp [State.surelyRead, State.aheadAt, h]

/-- A word that a bus cycle has read ahead is used as it is, and nothing changes (R503 c). -/
theorem fetchWord_surely {s : State} {a : Long} {e : AheadWord} (h : s.aheadAt a = some e) (hr : e.read = true) :
    fetchWord a s = .ok e.word s := by
  unfold fetchWord
  simp only [h, hr, true_or, if_true]

/-- What is read ahead with only fresh words read ahead before, where all words of the window can be read (R95). -/
theorem readAhead_ok {s : State} {n : Nat} {a : Long} (h0 : s.prefetchFresh = true) (hq : s.quiet = true)
    (h : s.canAccessList .program .read .word 2 n a = true) :
    s.readAhead n a =
      { words := s.wordsAt n a
        state := { s with prefetch := aheadWords s.surelyRead a (s.wordsAt n a) }
        error := none } := by
  unfold State.readAhead
  simp only [fetchWords_ok h0 h, hq, Option.isNone_none, Bool.and_self, if_true]

/-- The push of BSR or JSR not overlapping the words at its target, none of them is read before it, by the maps alone. -/
theorem targetAhead_ok {s : State} {i : Instr} (hq : s.quiet = true) (h : s.targetHit i = false) :
    s.targetAhead i = { words := [], state := s, error := none } := by
  unfold State.targetAhead
  split
  · rfl
  · rw [hq, h]
    rfl

/-- With no word of a target read before the push the outcome is as it is. -/
@[simp] theorem keepTarget_nil (o : Host.Outcome State Fault Refusal) : keepTarget [] o = o := by
  cases o <;> rfl

/-- All words of an instruction are fetched at once where all can be read by the maps alone and its push, if it makes one,
does not overlap them. -/
theorem fetchEarly_ok {s : State} {i : Instr} (h0 : s.prefetchFresh = true) (hq : s.quiet = true)
    (ho : s.pushOverlaps i = false)
    (h : s.canAccessList .program .read .word 2 (i.words - 1) (s.pc + 2) = true) :
    s.fetchEarly i = { words := s.wordsAt (i.words - 1) (s.pc + 2), state := s, error := none } := by
  unfold State.fetchEarly
  simp only [fetchWords_ok h0 h, hq, ho, Option.isNone_none, Bool.and_self, Bool.not_false, if_true]

/-- With no window, none of the words of an instruction but BSR is fetched before its first access that is not needed
there (R503 d). -/
theorem State.earlyBound_zero {s : State} {i : Instr} (h : s.windowWords = 0) (hi : ∀ d, i ≠ .bsr d) :
    s.earlyBound i = 0 := by
  unfold State.earlyBound
  split
  · next d => exact absurd rfl (hi d)
  · rw [h, Nat.min_zero]

/-- Nothing is read at a program counter reached by falling through, at an odd one, or while no instruction is next. -/
theorem State.settle_same {s : State}
    (h : s.procState ≠ .normal ∨ s.prefetch ≠ [] ∨ aligned s.pc .word = false) : s.settle = .next s := by
  unfold State.settle readTarget
  split
  · next hc =>
    have ha : aligned s.pc .word = false := by
      rcases h with h | h | h
      · exact absurd hc.1 h
      · exact absurd hc.2 h
      · exact h
    split
    · rw [State.withTarget, ha, if_neg Bool.false_ne_true, ← hc.2]
    · rw [ha, if_neg Bool.false_ne_true]
  · rfl

/-- Words at a target that can all be read are read ahead. -/
theorem State.settle_ready {s : State} (h1 : s.procState = .normal) (h2 : s.prefetch = [])
    (h : s.targetReady = true) : s.settle = .next s.withTarget := by
  simp only [State.targetReady, Bool.and_eq_true] at h
  unfold State.settle readTarget
  rw [if_pos ⟨h1, h2⟩]
  split
  · rfl
  · by_cases ha : aligned s.pc .word = true
    · rw [if_pos ha]
      simp only [readAhead_ok (State.prefetchFresh_nil h2) h.1 h.2, State.withTarget, ha, if_true, State.surelyRead_nil h2]
    · simp only [if_neg ha, State.withTarget, ← h2]

/-- An instruction whose words are in memory and can be read is executed (R429). -/
theorem runOperation_ok {s : State} {i : Instr} {before : Word} (h1 : s.prefetchFresh = true)
    (ho : s.pushOverlaps i = false)
    (h2 : s.canAccessList .program .read .word 2 i.words s.pc = true)
    (hd : decode (s.wordsAt i.words s.pc) = .ok (i, [])) (hp : isPrivileged i = true → s.sr.s = true) :
    runOperation before (s.wordAt (s.code .program) s.pc) s = runFetched i s := by
  obtain ⟨k, hk⟩ : ∃ k, i.words = k + 1 := ⟨i.words - 1, by have := words_bounds i; omega⟩
  have hk4 : k ≤ 4 := by have := words_bounds i; omega
  rw [hk] at h2 hd
  simp only [State.canAccessList, Bool.and_eq_true] at h2
  simp only [State.wordsAt] at hd
  obtain ⟨j, rest, hj, hlike⟩ := decode_like (ws' := [0, 0, 0, 0]) hd
    (by rw [State.wordsAt_length]; simpa using hk4)
  have hpriv : (isPrivileged j && !s.sr.s) = false := by
    rw [hlike.privileged]
    cases h : isPrivileged i
    · rfl
    · simp [hp h]
  have hw : j.words - 1 = k := by rw [hlike.words, hk]; rfl
  unfold runOperation
  simp only [show decodeOp (s.wordAt (s.code .program) s.pc) = .ok (j, rest) from hj, hpriv, Bool.false_eq_true, if_false,
    fetchEarly_ok h1 (State.quiet_of_canAccess h2.1) (i := j) (by rw [State.pushOverlaps, hlike.pushes]; exact ho)
      (by rw [hw]; exact h2.2), hw, State.wordsAt_length,
    Nat.sub_self, List.replicate_zero, List.append_nil, hd, show i.words - 1 = k by rw [hk]; rfl, Nat.lt_irrefl]

/-- One instruction fetched and executed whose words are in memory and can be read (R429). -/
theorem runNext_ok {s : State} {i : Instr} (h1 : s.prefetchFresh = true) (ho : s.pushOverlaps i = false)
    (h2 : s.canAccessList .program .read .word 2 i.words s.pc = true)
    (hd : decode (s.wordsAt i.words s.pc) = .ok (i, [])) (hp : isPrivileged i = true → s.sr.s = true) :
    runNext s =
      runFetched i (({ s with traceAtStart := s.sr.t } : State).withOperation (s.wordAt (s.code .program) s.pc)) := by
  obtain ⟨k, hk⟩ : ∃ k, i.words = k + 1 := ⟨i.words - 1, by have := words_bounds i; omega⟩
  have h3 : s.canAccess .program .read s.pc .word = true := by
    rw [hk] at h2
    simp only [State.canAccessList, Bool.and_eq_true] at h2
    exact h2.1
  have hw : onAbort (fetchWord s.pc) (fun t => t.openInstrReg t.unknownWord) { s with traceAtStart := s.sr.t } =
      .ok (s.wordAt (s.code .program) s.pc) { s with traceAtStart := s.sr.t } :=
    onAbort_ok (fetchWord_ok (s := { s with traceAtStart := s.sr.t }) (show s.prefetchFresh = true from h1) h3)
  unfold runNext
  simp only [hw]
  have key : ∀ t : State, t.pc = s.pc → t.prefetch = s.prefetch → s.sameBus t → t.memMap = s.memMap → t.mem = s.mem →
      t.pushOverlaps i = s.pushOverlaps i →
      runOperation s.instrReg (s.wordAt (s.code .program) s.pc) t = runFetched i t := by
    intro t e1 e2 e3 e4 e5 e6
    have hc : t.wordAt (t.code .program) t.pc = s.wordAt (s.code .program) s.pc := by
      rw [e1]
      simp only [State.wordAt, State.byteAt_congr e4 e5, State.code, e3.2]
    rw [← hc]
    refine runOperation_ok ((State.prefetchFresh_congr e2 e4 e5 e3.2).trans h1) (e6.trans ho) ?_ ?_ fun h => e3.2.trans (hp h)
    · rw [e1, State.canAccessList_congr e3]
      exact h2
    · rw [e1, State.wordsAt_congr e4 e5 e3.2]
      exact hd
  exact key _ rfl rfl ⟨⟨rfl, rfl, rfl⟩, rfl⟩ rfl rfl rfl

/-! Group 0 exceptions (R450 to R452). -/

/-- Whether a group 0 exception goes through depends on the platform, on SSP and on whether the run is only supposed. -/
theorem State.group0Ready_congr {s t : State} (h1 : s.samePlatform t) (h2 : t.ssp = s.ssp)
    (h3 : t.supposed = s.supposed) (n : Nat) : t.group0Ready n = s.group0Ready n := by
  unfold State.group0Ready
  rw [h2, h3, State.canStack_congr h1 _ _ [0, 0, 0, 0, 0, 0, 0] rfl, State.vectorReady_congr h1]

/-- Group 0 exception processing that goes through, inside the window of a double fault. -/
theorem takeGroup0_ok {s : State} {f : AccessFault} (hw : s.inGroup0 = true)
    (hr : s.group0Ready f.kind.vector = true) :
    takeGroup0 f s =
      .ok () (s.afterGroup0 f (group0Word (Config.freeWord s.drawCount) f s.procState.notInstruction)
        (s.instrAddr + BitVec.ofNat 32 (2 + 2 * (Config.freeChoice (s.drawCount + 1) % 5)))) := by
  simp only [State.group0Ready, Bool.and_eq_true] at hr
  obtain ⟨⟨⟨_, h1⟩, h2⟩, h3⟩ := hr
  unfold takeGroup0
  rw [run_bind_ok (run_get _), run_bind_ok (run_modify _ _), run_bind_ok (show drawWord _ = _ from rfl),
    run_bind_ok (show drawBelow 5 _ = _ from rfl), run_bind_ok (run_get _), run_bind_ok (stackFrame_ok ?_ ?_),
    loadVector_ok ?_]
  · cases s
    dsimp only at hw
    subst hw
    rfl
  · exact State.canAccess_vector rfl h3
  · exact h1
  · exact (State.canStack_congr (s := s) ⟨rfl, rfl, rfl⟩ _ _ [0, 0, 0, 0, 0, 0, 0] rfl).trans h2

/-- The first bus or address error that goes through. -/
theorem abortOutcome_ok {f : AccessFault} {s : State} (h0 : s.inGroup0 = false)
    (hr : s.group0Ready f.kind.vector = true) :
    abortOutcome (.access f) s =
      .next (s.afterGroup0 f (group0Word (Config.freeWord s.drawCount) f s.procState.notInstruction)
        (s.instrAddr + BitVec.ofNat 32 (2 + 2 * (Config.freeChoice (s.drawCount + 1) % 5)))) := by
  have hq : s.fetchError = none := by
    simp only [State.group0Ready, Bool.and_eq_true] at hr
    exact ((State.quiet_iff s).mp (State.quiet_of_vectorReady hr.2)).2
  have e : ({ s with inGroup0 := true, fetchError := none } : State) = { s with inGroup0 := true } := by rw [hq]
  have h := takeGroup0_ok (s := { s with inGroup0 := true }) rfl
    ((State.group0Ready_congr (s := s) ⟨rfl, rfl, rfl⟩ rfl rfl f.kind.vector).trans hr)
  simp only [abortOutcome, h0, e, h]
  rfl

end Sys2Proof.Machine
end

