-- ==== Sys2Proof/Laws/Fetch.lean ====
section
/-! SUPPORT. While the maps alone speak, the fetch of instruction words changes the count of draws only, and no reset ends
it: what `fetchWord`, `fetchWords`, `State.readAhead` and `State.settle` can do. -/

namespace Sys2Proof.Machine
open Sys2Proof

/-- A computation made while the maps alone speak reads: it changes the count of draws only, and no reset ends it. -/
def Reads {α : Type} (m : Exec α) : Prop :=
  ∀ s : State, s.quiet = true →
    (∀ a t, m s = .ok a t → ∃ k, t = { s with drawCount := k }) ∧
    (∀ e t, m s = .error e t → (∃ k, t = { s with drawCount := k }) ∧ ∀ level, e ≠ .reset level)

/-- An answer without any access. -/
theorem reads_pure {α : Type} (a : α) : Reads (pure a : Exec α) :=
  fun s _ => ⟨fun b t e => (by cases e; exact ⟨_, rfl⟩), fun b t e => (by cases e)⟩

/-- Two such computations one after the other. -/
theorem reads_bind {α β : Type} {m : Exec α} {f : α → Exec β} (hm : Reads m) (hf : ∀ a, Reads (f a)) :
    Reads (m >>= f) := by
  intro s hq
  rw [run_bind]
  cases h : m s with
  | ok a t =>
    obtain ⟨k, rfl⟩ := (hm s hq).1 a t h
    obtain ⟨h1, h2⟩ := hf a { s with drawCount := k } hq
    exact ⟨fun b t e => h1 b t e, fun e t h => h2 e t h⟩
  | error e t =>
    exact ⟨fun b u h => (by cases h), fun e' u h' => (by cases h'; exact (hm s hq).2 e t h)⟩

/-- The state looked at. -/
theorem reads_get : Reads (get : Exec State) :=
  fun s _ => ⟨fun _ _ e => (by cases e; exact ⟨_, rfl⟩), fun _ _ e => (by cases e)⟩

/-- A free bit. -/
theorem reads_drawBit : Reads drawBit :=
  fun _ _ => ⟨fun _ _ e => (by cases e; exact ⟨_, rfl⟩), fun _ _ e => (by cases e)⟩

/-- A free word. -/
theorem reads_drawWord : Reads drawWord :=
  fun _ _ => ⟨fun _ _ e => (by cases e; exact ⟨_, rfl⟩), fun _ _ e => (by cases e)⟩

/-- A choice. -/
theorem reads_ite {α : Type} {c : Prop} [Decidable c] {m n : Exec α} (hm : Reads m) (hn : Reads n) :
    Reads (if c then m else n) := by
  split
  · exact hm
  · exact hn

/-- A read cycle. -/
theorem reads_busCycle (c : BusCycle) (hd : c.dir = .read) (w : Word) : Reads (busCycle false c w) := by
  intro s hq
  rw [busCycle_quiet hq]
  have hw : ¬ (c.dir = .write ∧ (none : Option Bool).getD (s.stores c (s.cycle false c)) = true) := by simp [hd]
  unfold endCycle
  rw [if_neg hw]
  dsimp only
  split
  · unfold readData
    dsimp only
    split
    · exact reads_bind reads_drawWord (fun w => reads_pure _) s hq
    · exact ⟨fun _ _ e => (by cases e; exact ⟨_, rfl⟩), fun _ _ e => (by cases e)⟩
  · split
    · exact reads_bind reads_drawWord (fun w => reads_pure _) s hq
    · refine ⟨fun _ _ e => (by cases e), fun e t h => ?_⟩
      cases h
      refine ⟨⟨_, rfl⟩, fun level h => ?_⟩
      unfold cycleAbort at h
      split at h <;> cases h

/-- The read of an operand. -/
theorem reads_readMem (sp : Space) (a : Long) (sz : Size) : Reads (readMem sp a sz) := by
  intro s hq
  unfold readMem
  split
  · exact ⟨fun _ _ e => (by cases e; exact ⟨_, rfl⟩), fun _ _ e => (by cases e)⟩
  · have hr : Reads raiseFetchError := fun u hu => by
      rw [raiseFetchError_ok ((State.quiet_iff u).mp hu).2]
      exact ⟨fun _ _ e => (by cases e; exact ⟨_, rfl⟩), fun _ _ e => (by cases e)⟩
    have hl : ∀ (lowFirst : Bool) (code : FunctionCode), Reads (longCycles lowFirst code .read a 0) :=
      fun lowFirst code => by
        unfold longCycles
        exact reads_ite
          (reads_bind (reads_busCycle _ rfl _) fun _ => reads_bind (reads_busCycle _ rfl _) fun _ => reads_pure _)
          (reads_bind (reads_busCycle _ rfl _) fun _ => reads_bind (reads_busCycle _ rfl _) fun _ => reads_pure _)
    have ht : Reads (throw (.access { kind := .addressError, addr := a, dir := .read, code := s.code sp }) : Exec Long) :=
      fun _ _ => ⟨fun _ _ e => (by cases e), fun _ _ e => (by cases e; exact ⟨⟨_, rfl⟩, fun _ h => (by cases h)⟩)⟩
    have hm : Reads (do
        raiseFetchError
        if aligned a sz then
          match sz with
          | .long =>
            let lowFirst ← drawBit
            longCycles lowFirst (s.code sp) .read a 0
          | _ =>
            let w ← busCycle false { code := s.code sp, dir := .read, width := widthOf sz, addr := a } (lowWord 0)
            pure (w.setWidth 32)
        else if s.supposed then drawOperand sz
        else throw (.access { kind := .addressError, addr := a, dir := .read, code := s.code sp }) : Exec Long) := by
      refine reads_bind hr fun _ => reads_ite ?_ (reads_ite
        (reads_bind reads_drawWord fun _ => reads_bind reads_drawWord fun _ => reads_pure _) ht)
      cases sz with
      | long => exact reads_bind reads_drawBit fun b => hl b _
      | byte => exact reads_bind (reads_busCycle _ rfl _) fun _ => reads_pure _
      | word => exact reads_bind (reads_busCycle _ rfl _) fun _ => reads_pure _
    exact hm s hq

/-- The fetch of a word. -/
theorem reads_fetchWord (a : Long) : Reads (fetchWord a) := by
  have hm : Reads (do let v ← readMem .program a .word; pure (lowWord v) : Exec Word) :=
    reads_bind (reads_readMem _ _ _) fun _ => reads_pure _
  intro s hq
  unfold fetchWord
  split
  · exact hm s hq
  · split
    · exact ⟨fun _ _ e => (by cases e; exact ⟨_, rfl⟩), fun _ _ e => (by cases e)⟩
    · exact reads_bind reads_drawBit (fun stale => reads_ite (reads_pure _) hm) s hq

/-- What the fetch of several words leaves, and what can end it. -/
theorem fetchWords_quiet (k : Nat) (a : Long) {s : State} (hq : s.quiet = true) :
    (∃ n, (fetchWords k a s).state = { s with drawCount := n }) ∧
      ∀ level, (fetchWords k a s).error ≠ some (.reset level) := by
  induction k generalizing a s with
  | zero => exact ⟨⟨_, rfl⟩, fun _ h => (by cases h)⟩
  | succ k ih =>
    unfold fetchWords
    cases h : fetchWord a s with
    | error e t =>
      obtain ⟨h1, h2⟩ := (reads_fetchWord a s hq).2 e t h
      exact ⟨h1, fun level h => h2 level (Option.some.inj h)⟩
    | ok w t =>
      obtain ⟨n, rfl⟩ := (reads_fetchWord a s hq).1 w t h
      exact ih (a + 2) (s := { s with drawCount := n }) hq

/-- What reading ahead leaves, and what can end it. -/
theorem readAhead_quiet (window : Nat) (a : Long) {s : State} (hq : s.quiet = true) :
    (∃ n p, (s.readAhead window a).state = { s with drawCount := n, prefetch := p }) ∧
      ∀ level, (s.readAhead window a).error ≠ some (.reset level) := by
  unfold State.readAhead
  dsimp only
  split
  · obtain ⟨⟨n, h1⟩, h2⟩ := fetchWords_quiet window a hq
    exact ⟨⟨n, _, by rw [h1]⟩, h2⟩
  · obtain ⟨⟨n, h1⟩, h2⟩ := fetchWords_quiet
      (s.surelyAhead window a + Config.freeChoice s.drawCount % (window - s.surelyAhead window a + 1)) a
      (s := { s with drawCount := s.drawCount + 1 }) hq
    exact ⟨⟨n, _, by rw [h1]⟩, h2⟩

end Sys2Proof.Machine
end

