-- ==== Sys2Proof/Tests/Slice0.lean ====
section
/-! SUPPORT. Tests: words written out from the encodings of the spec, one step of each instruction with the values of
spec/95_test_vectors.md, ill-formed terms that the check refuses, and for each statement with hypotheses a state that
meets them. -/

set_option Elab.async false

namespace Sys2Proof.Tests

open Sys2Proof Sys2Proof.Machine

/-! Decoding. -/

/-- Line 0, from the encodings of spec/opcode_table.json. -/
theorem test_decode_line_0 :
    decode [0b0000000000000011, 0x00A5] = .ok (.ori .byte 0xA5 (.dreg 3), []) ∧
    decode [0b0000001001010100, 0xF00F] = .ok (.andi .word 0xF00F (.ind 4), []) ∧
    decode [0b0000010010011101, 0x8000, 0x0001] = .ok (.subi .long 0x80000001 (.postInc 5), []) ∧
    decode [0b0000011000101110, 0x00FF, 0x8002] = .ok (.addi .byte 0xFF (.disp 6 0x8002), []) ∧
    decode [0b0000101001110010, 0x1234, 0xB880] =
      .ok (.eori .word 0x1234 (.index 2 { isAddr := true, reg := 3, isLong := true, disp := 0x80 }), []) ∧
    decode [0b0000110010111001, 0x0001, 0x0002, 0x0001, 0x2340] = .ok (.cmpi .long 0x10002 (.absLong 0x12340), []) ∧
    decode [0b0000000000111100, 0x001F] = .ok (.oriToCcr 0x1F, []) ∧
    decode [0b0000000001111100, 0x0700] = .ok (.oriToSr 0x0700, []) ∧
    decode [0b0000001000111100, 0x0010] = .ok (.andiToCcr 0x10, []) ∧
    decode [0b0000001001111100, 0xF8FF] = .ok (.andiToSr 0xF8FF, []) ∧
    decode [0b0000101000111100, 0x0001] = .ok (.eoriToCcr 1, []) ∧
    decode [0b0000101001111100, 0x2000] = .ok (.eoriToSr 0x2000, []) ∧
    decode [0b0000100000111010, 0x001D, 0xFFFE] = .ok (.btstStatic 0x1D (.pcDisp 0xFFFE), []) ∧
    decode [0b0000100001000111, 0x001D] = .ok (.bchgStatic 0x1D (.dreg 7), []) ∧
    decode [0b0000100010100011, 0x001D] = .ok (.bclrStatic 0x1D (.preDec 3), []) ∧
    decode [0b0000100011111000, 0x001D, 0x8000] = .ok (.bsetStatic 0x1D (.absShort 0x8000), []) ∧
    decode [0b0000101100111100, 0x0080] = .ok (.btstDynamic 5 (.imm 0x80), []) ∧
    decode [0b0000101101000001] = .ok (.bchgDynamic 5 (.dreg 1), []) ∧
    decode [0b0000101110010110] = .ok (.bclrDynamic 5 (.ind 6), []) ∧
    decode [0b0000101111110001, 0xB880] =
      .ok (.bsetDynamic 5 (.index 1 { isAddr := true, reg := 3, isLong := true, disp := 0x80 }), []) ∧
    decode [0b0000110100001001, 0xFFF0] = .ok (.movepLoadWord 6 1 0xFFF0, []) ∧
    decode [0b0000110101001001, 0xFFF0] = .ok (.movepLoadLong 6 1 0xFFF0, []) ∧
    decode [0b0000110110001001, 0xFFF0] = .ok (.movepStoreWord 6 1 0xFFF0, []) ∧
    decode [0b0000110111001001, 0xFFF0] = .ok (.movepStoreLong 6 1 0xFFF0, []) := by
  refine ⟨?_, ?_, ?_, ?_, ?_, ?_, ?_, ?_, ?_, ?_, ?_, ?_, ?_, ?_, ?_, ?_, ?_, ?_, ?_, ?_, ?_, ?_, ?_, ?_⟩ <;> rfl

/-- Line 1, from the encodings of spec/opcode_table.json. -/
theorem test_decode_line_1 :
    decode [0b0001111011111100, 0x0080] = .ok (.moveByte (.imm 0x80) (.postInc 7), []) := rfl

/-- Line 2, from the encodings of spec/opcode_table.json. -/
theorem test_decode_line_2 :
    decode [0b0010001111111100, 0x1234, 0x5678, 0x0001, 0x2340] =
      .ok (.moveLong (.imm 0x12345678) (.absLong 0x12340), []) ∧
    decode [0b0010100001111010, 0xFFFE] = .ok (.moveaLong (.pcDisp 0xFFFE) 4, []) := by
  refine ⟨?_, ?_⟩ <;> rfl

/-- Line 3, from the encodings of spec/opcode_table.json. -/
theorem test_decode_line_3 :
    decode [0b0011010101111011, 0x2007, 0x8002] =
      .ok (.moveWord (.pcIndex { isAddr := false, reg := 2, isLong := false, disp := 7 }) (.disp 2 0x8002), []) ∧
    decode [0b0011011001001101] = .ok (.moveaWord (.areg 5) 3, []) := by
  refine ⟨?_, ?_⟩ <;> rfl

/-- Line 4, from the encodings of spec/opcode_table.json. -/
theorem test_decode_line_4 :
    decode [0b0100000001100010] = .ok (.negx .word (.preDec 2), []) ∧
    decode [0b0100000011010111] = .ok (.moveFromSr (.ind 7), []) ∧
    decode [0b0100010110111011, 0x2007] =
      .ok (.chk (.pcIndex { isAddr := false, reg := 2, isLong := false, disp := 7 }) 2, []) ∧
    decode [0b0100110111111000, 0x8000] = .ok (.lea (.absShort 0x8000) 6, []) ∧
    decode [0b0100001010000100] = .ok (.clr .long (.dreg 4), []) ∧
    decode [0b0100010000011001] = .ok (.neg .byte (.postInc 1), []) ∧
    decode [0b0100010011111100, 0x1234] = .ok (.moveToCcr (.imm 0x1234), []) ∧
    decode [0b0100011001111001, 0x0001, 0x2340] = .ok (.notEa .word (.absLong 0x12340), []) ∧
    decode [0b0100011011100111] = .ok (.moveToSr (.preDec 7), []) ∧
    decode [0b0100100000000010] = .ok (.nbcd (.dreg 2), []) ∧
    decode [0b0100100001000110] = .ok (.swap 6, []) ∧
    decode [0b0100100001111010, 0xFFFE] = .ok (.pea (.pcDisp 0xFFFE), []) ∧
    decode [0b0100100011000011] = .ok (.extReg .long 3, []) ∧
    decode [0b0100100010101101, 0x0F01, 0x8002] = .ok (.movemStore .word 0x0F01 (.disp 5 0x8002), []) ∧
    decode [0b0100101010110111, 0xB880] =
      .ok (.tst .long (.index 7 { isAddr := true, reg := 3, isLong := true, disp := 0x80 }), []) ∧
    decode [0b0100101011010011] = .ok (.tas (.ind 3), []) ∧
    decode [0b0100110011111011, 0x8001, 0x2007] =
      .ok (.movemLoad .long 0x8001 (.pcIndex { isAddr := false, reg := 2, isLong := false, disp := 7 }), []) ∧
    decode [0b0100111001001001] = .ok (.trap 9, []) ∧
    decode [0b0100111001010101, 0xFFF8] = .ok (.link 5 0xFFF8, []) ∧
    decode [0b0100111001011101] = .ok (.unlk 5, []) ∧
    decode [0b0100111001100010] = .ok (.moveToUsp 2, []) ∧
    decode [0b0100111001101010] = .ok (.moveFromUsp 2, []) ∧
    decode [0b0100111001110000] = .ok (.resetDevices, []) ∧
    decode [0b0100111001110001] = .ok (.nop, []) ∧
    decode [0b0100111001110010, 0x2300] = .ok (.stop 0x2300, []) ∧
    decode [0b0100111001110011] = .ok (.rte, []) ∧
    decode [0b0100111001110101] = .ok (.rts, []) ∧
    decode [0b0100111001110110] = .ok (.trapv, []) ∧
    decode [0b0100111001110111] = .ok (.rtr, []) ∧
    decode [0b0100111010111001, 0x0001, 0x2340] = .ok (.jsr (.absLong 0x12340), []) ∧
    decode [0b0100111011110000, 0xB880] =
      .ok (.jmp (.index 0 { isAddr := true, reg := 3, isLong := true, disp := 0x80 }), []) := by
  refine ⟨?_, ?_, ?_, ?_, ?_, ?_, ?_, ?_, ?_, ?_, ?_, ?_, ?_, ?_, ?_, ?_, ?_, ?_, ?_, ?_, ?_, ?_, ?_, ?_, ?_, ?_, ?_, ?_, ?_, ?_, ?_⟩ <;> rfl

/-- Line 5, from the encodings of spec/opcode_table.json. -/
theorem test_decode_line_5 :
    decode [0b0101000010001110] = .ok (.addq 0 .long (.areg 6), []) ∧
    decode [0b0101101100100100] = .ok (.subq 5 .byte (.preDec 4), []) ∧
    decode [0b0101101111011011] = .ok (.scc .mi (.postInc 3), []) ∧
    decode [0b0101010011001111, 0x7FFE] = .ok (.dbcc .cc 7 0x7FFE, []) := by
  refine ⟨?_, ?_, ?_, ?_⟩ <;> rfl

/-- Line 6, from the encodings of spec/opcode_table.json. -/
theorem test_decode_line_6 :
    decode [0b0110000010000000] = .ok (.bra (.short 0x80), []) ∧
    decode [0b0110000100000000, 0x0100] = .ok (.bsr (.long 0x0100), []) ∧
    decode [0b0110110111111111] = .ok (.bcc .lt (.short 0xFF), []) := by
  refine ⟨?_, ?_, ?_⟩ <;> rfl

/-- Line 7, from the encodings of spec/opcode_table.json. -/
theorem test_decode_line_7 :
    decode [0b0111101010000000] = .ok (.moveq 5 0x80, []) := rfl

/-- Line 8, from the encodings of spec/opcode_table.json. -/
theorem test_decode_line_8 :
    decode [0b1000001010111100, 0x1234, 0x5678] = .ok (.orToReg .long (.imm 0x12345678) 1, []) ∧
    decode [0b1000110100100110] = .ok (.orToMem .byte 6 (.preDec 6), []) ∧
    decode [0b1000011011011010] = .ok (.divu (.postInc 2) 3, []) ∧
    decode [0b1000100111000110] = .ok (.divs (.dreg 6) 4, []) ∧
    decode [0b1000011100001100] = .ok (.sbcd true 4 3, []) := by
  refine ⟨?_, ?_, ?_, ?_, ?_⟩ <;> rfl

/-- Line 9, from the encodings of spec/opcode_table.json. -/
theorem test_decode_line_9 :
    decode [0b1001111001001001] = .ok (.subToReg .word (.areg 1) 7, []) ∧
    decode [0b1001010110111000, 0x8000] = .ok (.subToMem .long 2 (.absShort 0x8000), []) ∧
    decode [0b1001001011111100, 0x1234] = .ok (.suba .word (.imm 0x1234) 1, []) ∧
    decode [0b1001101100000110] = .ok (.subx .byte false 6 5, []) := by
  refine ⟨?_, ?_, ?_, ?_⟩ <;> rfl

/-- Line B, from the encodings of spec/opcode_table.json. -/
theorem test_decode_line_B :
    decode [0b1011100000111100, 0x0080] = .ok (.cmp .byte (.imm 0x80) 4, []) ∧
    decode [0b1011010111001011] = .ok (.cmpa .long (.areg 3) 2, []) ∧
    decode [0b1011011110000101] = .ok (.eorToEa .long 3 (.dreg 5), []) ∧
    decode [0b1011110101001111] = .ok (.cmpm .word 7 6, []) := by
  refine ⟨?_, ?_, ?_, ?_⟩ <;> rfl

/-- Line C, from the encodings of spec/opcode_table.json. -/
theorem test_decode_line_C :
    decode [0b1100000001110101, 0xB880] =
      .ok (.andToReg .word (.index 5 { isAddr := true, reg := 3, isLong := true, disp := 0x80 }) 0, []) ∧
    decode [0b1100111101101001, 0x8002] = .ok (.andToMem .word 7 (.disp 1 0x8002), []) ∧
    decode [0b1100110011111100, 0x1234] = .ok (.mulu (.imm 0x1234) 6, []) ∧
    decode [0b1100001111000011] = .ok (.muls (.dreg 3) 1, []) ∧
    decode [0b1100111100001000] = .ok (.abcd true 0 7, []) ∧
    decode [0b1100011101000101] = .ok (.exgData 3 5, []) ∧
    decode [0b1100011101001101] = .ok (.exgAddr 3 5, []) ∧
    decode [0b1100011110001101] = .ok (.exgDataAddr 3 5, []) := by
  refine ⟨?_, ?_, ?_, ?_, ?_, ?_, ?_, ?_⟩ <;> rfl

/-- Line D, from the encodings of spec/opcode_table.json. -/
theorem test_decode_line_D :
    decode [0b1101010010111001, 0x0001, 0x2340] = .ok (.addToReg .long (.absLong 0x12340) 2, []) ∧
    decode [0b1101101100010001] = .ok (.addToMem .byte 5 (.ind 1), []) ∧
    decode [0b1101111111000001] = .ok (.adda .long (.dreg 1) 7, []) ∧
    decode [0b1101001110001010] = .ok (.addx .long true 2 1, []) := by
  refine ⟨?_, ?_, ?_, ?_⟩ <;> rfl

/-- Line E, from the encodings of spec/opcode_table.json. -/
theorem test_decode_line_E :
    decode [0b1110011000100110] = .ok (.asrReg .byte (.reg 3) 6, []) ∧
    decode [0b1110000011010010] = .ok (.asrMem (.ind 2), []) ∧
    decode [0b1110000101000110] = .ok (.aslReg .word (.imm 0) 6, []) ∧
    decode [0b1110000111011100] = .ok (.aslMem (.postInc 4), []) ∧
    decode [0b1110011010101110] = .ok (.lsrReg .long (.reg 3) 6, []) ∧
    decode [0b1110001011100101] = .ok (.lsrMem (.preDec 5), []) ∧
    decode [0b1110000100001110] = .ok (.lslReg .byte (.imm 0) 6, []) ∧
    decode [0b1110001111101011, 0x8002] = .ok (.lslMem (.disp 3 0x8002), []) ∧
    decode [0b1110011001110110] = .ok (.roxrReg .word (.reg 3) 6, []) ∧
    decode [0b1110010011110110, 0xB880] =
      .ok (.roxrMem (.index 6 { isAddr := true, reg := 3, isLong := true, disp := 0x80 }), []) ∧
    decode [0b1110000110010110] = .ok (.roxlReg .long (.imm 0) 6, []) ∧
    decode [0b1110010111111000, 0x8000] = .ok (.roxlMem (.absShort 0x8000), []) ∧
    decode [0b1110011000111110] = .ok (.rorReg .byte (.reg 3) 6, []) ∧
    decode [0b1110011011111001, 0x0001, 0x2340] = .ok (.rorMem (.absLong 0x12340), []) ∧
    decode [0b1110000101011110] = .ok (.rolReg .word (.imm 0) 6, []) ∧
    decode [0b1110011111010000] = .ok (.rolMem (.ind 0), []) := by
  refine ⟨?_, ?_, ?_, ?_, ?_, ?_, ?_, ?_, ?_, ?_, ?_, ?_, ?_, ?_, ?_, ?_⟩ <;> rfl

/-- Words that are no instruction (95, section 2.10). -/
theorem test_decode_illegal :
    ∀ w ∈ [(0x4AFC : Word), 0x4E74, 0x4E7A, 0x4E7B, 0x42C0, 0x0E10, 0x7100, 0xE8C0, 0x4E00, 0x4848,
      0x49C0, 0x50FC, 0x1040, 0x083C, 0x0C3C, 0x0C7A, 0x41C0, 0x5008, 0xD008, 0x08FC],
      decodeOp w = .error .illegal := by
  simp only [List.forall_mem_cons]
  refine ⟨?_, ?_, ?_, ?_, ?_, ?_, ?_, ?_, ?_, ?_, ?_, ?_, ?_, ?_, ?_, ?_, ?_, ?_, ?_, ?_, ?_⟩
  all_goals first | rfl | (intro w h; cases h)

/-- The two unimplemented lines, and the emptiness of no words (95, section 2.10). -/
theorem test_decode_unimplemented :
    decodeOp 0xA000 = .error .line1010 ∧ decodeOp 0xAFFF = .error .line1010 ∧ decodeOp 0xF000 = .error .line1111 ∧
    decodeOp 0xFFFF = .error .line1111 ∧ decode [] = .error .truncated ∧ decode [0x303C] = .error .truncated := by
  refine ⟨?_, ?_, ?_, ?_, ?_, ?_⟩ <;> rfl

/-! The check refuses an ill-formed term (R171, R116), one for each check. -/

/-- The addressing modes that an instruction does not take. -/
theorem test_wf_modes :
    ∀ i ∈ [Instr.ori .word 1 (.areg 0), .andi .word 1 (.pcDisp 0), .subi .word 1 (.imm 0), .addi .byte 1 (.areg 7),
        .eori .long 1 (.pcIndex { isAddr := false, reg := 0, isLong := false, disp := 0 }), .cmpi .word 1 (.pcDisp 0),
        .btstStatic 0 (.imm 0), .btstStatic 0 (.areg 0), .btstDynamic 0 (.areg 0), .bchgStatic 0 (.pcDisp 0),
        .bclrDynamic 0 (.areg 1), .bsetStatic 0 (.imm 0), .negx .byte (.areg 0), .clr .word (.pcDisp 0),
        .neg .long (.imm 0), .notEa .word (.areg 3), .tst .word (.pcDisp 0), .moveFromSr (.areg 0), .nbcd (.imm 0),
        .tas (.pcDisp 0), .chk (.areg 0) 0, .moveToCcr (.areg 0), .moveToSr (.areg 0), .scc .eq (.areg 0),
        .divu (.areg 0) 0, .muls (.areg 0) 0, .orToReg .word (.areg 0) 0, .andToReg .word (.areg 0) 0,
        .eorToEa .word 0 (.areg 0)],
      i.wellFormed = false := by decide

/-- The modes that are no control mode, no memory alterable mode, or not the mode MOVEM takes. -/
theorem test_wf_memory_modes :
    ∀ i ∈ [Instr.lea (.dreg 0) 0, .lea (.postInc 0) 0, .lea (.imm 0) 0, .pea (.preDec 0), .jsr (.dreg 0),
        .jmp (.postInc 0), .movemStore .word 1 (.postInc 0), .movemStore .word 1 (.pcDisp 0),
        .movemStore .long 1 (.dreg 0), .movemLoad .word 1 (.preDec 0), .movemLoad .long 1 (.areg 0),
        .orToMem .word 0 (.dreg 0), .subToMem .word 0 (.areg 0), .andToMem .word 0 (.pcDisp 0),
        .addToMem .word 0 (.imm 0), .asrMem (.dreg 0), .aslMem (.areg 0), .lsrMem (.pcDisp 0), .rolMem (.imm 0)],
      i.wellFormed = false := by decide

/-- Destinations of MOVE, and an address register as a byte operand (R165). -/
theorem test_wf_move :
    ∀ i ∈ [Instr.moveByte (.areg 0) (.dreg 0), .moveByte (.dreg 0) (.areg 0), .moveWord (.dreg 0) (.pcDisp 0),
        .moveWord (.dreg 0) (.areg 0), .moveLong (.dreg 0) (.imm 0), .addToReg .byte (.areg 0) 0,
        .subToReg .byte (.areg 0) 0, .cmp .byte (.areg 0) 0, .addq 1 .byte (.areg 0), .subq 1 .byte (.areg 0),
        .addq 1 .word (.pcDisp 0), .subq 1 .word (.imm 0)],
      i.wellFormed = false := by decide

/-- Immediates that do not fit the operand (R106). -/
theorem test_wf_immediates :
    ∀ i ∈ [Instr.ori .byte 0x100 (.dreg 0), .addi .word 0x10000 (.dreg 0), .moveByte (.imm 0x100) (.dreg 0),
        .moveWord (.imm 0x10000) (.dreg 0), .moveaWord (.imm 0x10000) 0, .btstDynamic 0 (.imm 0x100),
        .chk (.imm 0x10000) 0, .moveToSr (.imm 0x10000), .adda .word (.imm 0x10000) 0, .cmpa .word (.imm 0x10000) 0,
        .andToReg .byte (.imm 0x100) 0, .divs (.imm 0x10000) 0],
      i.wellFormed = false := by decide

/-- A short displacement of 0 (R113) and the conditions Bcc has not (R323). -/
theorem test_wf_branches :
    ∀ i ∈ [Instr.bra (.short 0), .bsr (.short 0), .bcc .eq (.short 0), .bcc .t (.short 2), .bcc .f (.long 2)],
      i.wellFormed = false := by decide

/-! One step of each instruction. -/

/-- A state about to run: PC at $1000, SSP at $3000, the SR, D0, D1, A0 and A1 given, the rest as after reset. -/
def start (sr : Word) (d0 d1 a0 a1 : Long) : State :=
  { State.reset with
    d := #v[d0, d1, 0, 0, 0, 0, 0, 0], a := #v[a0, a1, 0, 0, 0, 0, 0], pc := 0x1000, ssp := 0x3000
    sr := StatusRegister.ofWord sr, inGroup0 := false }

/-- One step on an instruction placed at the program counter, and what is seen of the state after it. -/
def after {α : Type} (s : State) (ws : List Word) (seen : State → α) : Option α :=
  match step (s.placeWords s.pc ws) with
  | .next t => some (seen t)
  | _ => none

/-- 95 L6. -/
theorem test_ori :
    after (start 0x2700 0xAB00 0x0 0x0 0x0) [0x0040, 0x00FF]
      (fun t => (t.d[0], t.sr.toWord)) =
    some (0xABFF, 0x2708) := by decide +kernel

/-- 95 L3. -/
theorem test_andi :
    after (start 0x2700 0xF0 0x0 0x0 0x0) [0x0200, 0x000F]
      (fun t => (t.d[0], t.sr.toWord)) =
    some (0x0, 0x2704) := by decide +kernel

/-- 95 A9. -/
theorem test_subi :
    after (start 0x2700 0x8000 0x0 0x0 0x0) [0x0440, 0x0001]
      (fun t => (t.d[0], t.sr.toWord)) =
    some (0x7FFF, 0x2702) := by decide +kernel

/-- 95 A8. -/
theorem test_addi :
    after (start 0x2700 0xF000 0x0 0x0 0x0) [0x0640, 0x1000]
      (fun t => (t.d[0], t.sr.toWord)) =
    some (0x0, 0x2715) := by decide +kernel

/-- 95 L8. -/
theorem test_eori :
    after (start 0x2700 0xF0F0F0F 0x0 0x0 0x0) [0x0A80, 0xFFFF, 0xFFFF]
      (fun t => (t.d[0], t.sr.toWord)) =
    some (0xF0F0F0F0, 0x2708) := by decide +kernel

/-- 95 A10. -/
theorem test_cmpi :
    after (start 0x2700 0x7F 0x0 0x0 0x0) [0x0C00, 0x0080]
      (fun t => (t.d[0], t.sr.toWord)) =
    some (0x7F, 0x270B) := by decide +kernel

/-- 95 Y11. -/
theorem test_oriToCcr :
    after (start 0x0000 0x0 0x0 0x0 0x0) [0x003C, 0x0010]
      (fun t => t.sr.toWord) =
    some 0x0010 := by decide +kernel

/-- 95 Y8. -/
theorem test_oriToSr :
    after (start 0x2000 0x0 0x0 0x0 0x0) [0x007C, 0x0700]
      (fun t => t.sr.toWord) =
    some 0x2700 := by decide +kernel

/-- 95 Y10. -/
theorem test_andiToCcr :
    after (start 0x271F 0x0 0x0 0x0 0x0) [0x023C, 0x0000]
      (fun t => t.sr.toWord) =
    some 0x2700 := by decide +kernel

/-- 95 Y7. -/
theorem test_andiToSr :
    after (start 0x2704 0x0 0x0 0x0 0x0) [0x027C, 0xF8FF]
      (fun t => t.sr.toWord) =
    some 0x2004 := by decide +kernel

/-- 95 Y12. -/
theorem test_eoriToCcr :
    after (start 0x2715 0x0 0x0 0x0 0x0) [0x0A3C, 0x001F]
      (fun t => t.sr.toWord) =
    some 0x270A := by decide +kernel

/-- 95 Y9. -/
theorem test_eoriToSr :
    after (start 0x2000 0x0 0x0 0x0 0x0) [0x0A7C, 0x2000]
      (fun t => t.sr.toWord) =
    some 0x0000 := by decide +kernel

/-- 95 B3, bit number modulo 32. -/
theorem test_btstStatic :
    after (start 0x271F 0x1 0x0 0x0 0x0) [0x0800, 0x0020]
      (fun t => (t.d[0], t.sr.toWord)) =
    some (0x1, 0x271B) := by decide +kernel

/-- 95 B4, bit number modulo 8. -/
theorem test_btstDynamic :
    after ((start 0x2704 0xF 0x0 0x2000 0x0).placeWords 0x2000 [0x8000]) [0x0110]
      (fun t => t.sr.toWord) =
    some 0x2700 := by decide +kernel

/-- 95 B8. -/
theorem test_bchgStatic :
    after (start 0x2700 0x0 0x0 0x0 0x0) [0x0840, 0x0000]
      (fun t => (t.d[0], t.sr.toWord)) =
    some (0x1, 0x2704) := by decide +kernel

/-- R307. -/
theorem test_bchgDynamic :
    after (start 0x2704 0x21 0x2 0x0 0x0) [0x0141]
      (fun t => (t.d[1], t.sr.toWord)) =
    some (0x0, 0x2700) := by decide +kernel

/-- R306. -/
theorem test_bclrStatic :
    after ((start 0x2704 0x0 0x0 0x2000 0x0).placeWords 0x2000 [0xFFFF]) [0x0890, 0x000F]
      (fun t => (t.wordAt .supervisorData 0x2000, t.sr.toWord)) =
    some (0x7FFF, 0x2700) := by decide +kernel

/-- 95 B7. -/
theorem test_bclrDynamic :
    after (start 0x2704 0x4 0xFF 0x0 0x0) [0x0181]
      (fun t => (t.d[1], t.sr.toWord)) =
    some (0xEF, 0x2700) := by decide +kernel

/-- 95 B6. -/
theorem test_bsetStatic :
    after (start 0x2700 0x0 0x0 0x0 0x0) [0x08F8, 0x0007, 0x2000]
      (fun t => (t.wordAt .supervisorData 0x2000, t.sr.toWord)) =
    some (0x8000, 0x2704) := by decide +kernel

/-- 95 B9. -/
theorem test_bsetDynamic :
    after (start 0x2700 0x21 0x0 0x0 0x0) [0x01C1]
      (fun t => (t.d[1], t.sr.toWord)) =
    some (0x2, 0x2704) := by decide +kernel

/-- 95 M16. -/
theorem test_movepLoadWord :
    after ((start 0x271F 0x12345678 0x0 0x2000 0x0).placeWords 0x2000 [0x00AB, 0x00CD]) [0x0108, 0x0001]
      (fun t => (t.d[0], t.sr.toWord)) =
    some (0x1234ABCD, 0x271F) := by decide +kernel

/-- R188. -/
theorem test_movepLoadLong :
    after ((start 0x271F 0x0 0x0 0x2000 0x0).placeWords 0x2000 [0x12AB, 0x34CD, 0x5600, 0x7800]) [0x0148, 0x0000]
      (fun t => (t.d[0], t.sr.toWord)) =
    some (0x12345678, 0x271F) := by decide +kernel

/-- R188. -/
theorem test_movepStoreWord :
    after (start 0x271F 0x1234ABCD 0x0 0x2000 0x0) [0x0188, 0x0001]
      (fun t => (t.longAt .supervisorData 0x2000, t.sr.toWord)) =
    some (0xAB00CD, 0x271F) := by decide +kernel

/-- 95 M15. -/
theorem test_movepStoreLong :
    after (start 0x271F 0x12345678 0x0 0x2000 0x0) [0x01C8, 0x0000]
      (fun t => (t.longAt .supervisorData 0x2000, t.longAt .supervisorData 0x2004)) =
    some (0x12003400, 0x56007800) := by decide +kernel

/-- 95 M1. -/
theorem test_moveByte :
    after (start 0x271F 0x12345680 0xFFFFFFFF 0x0 0x0) [0x1200]
      (fun t => (t.d[1], t.sr.toWord)) =
    some (0xFFFFFF80, 0x2718) := by decide +kernel

/-- 95 E2, the byte step of A7 is 2. -/
theorem test_moveByte_push :
    after (start 0x2700 0xAB 0x0 0x0 0x0) [0x1F00]
      (fun t => (t.ssp, t.wordAt .supervisorData 0x2FFE, t.sr.toWord)) =
    some (0x2FFE, 0xAB00, 0x2708) := by decide +kernel

/-- 95 M17. -/
theorem test_moveWord :
    after (start 0x271F 0xF 0x0 0x0 0x0) [0x31C0, 0x2010]
      (fun t => (t.wordAt .supervisorData 0x2010, t.sr.toWord)) =
    some (0xF, 0x2710) := by decide +kernel

/-- 95 M2. -/
theorem test_moveaWord :
    after (start 0x271F 0x8000 0x0 0x0 0x0) [0x3040]
      (fun t => (t.a[0], t.sr.toWord)) =
    some (0xFFFF8000, 0x271F) := by decide +kernel

/-- 95 E1. -/
theorem test_moveLong :
    after ((start 0x2717 0x0 0x0 0x2000 0x2010).placeWords 0x2000 [0xDEAD, 0xBEEF]) [0x2318]
      (fun t => (t.longAt .supervisorData 0x200C, t.a[0], t.a[1], t.sr.toWord)) =
    some (0xDEADBEEF, 0x2004, 0x200C, 0x2718) := by decide +kernel

/-- 95 M3. -/
theorem test_moveaLong :
    after (start 0x271F 0x8000 0x0 0x0 0x0) [0x2040]
      (fun t => (t.a[0], t.sr.toWord)) =
    some (0x8000, 0x271F) := by decide +kernel

/-- 95 2.3. -/
theorem test_negx :
    after (start 0x2714 0x0 0x0 0x0 0x0) [0x4040]
      (fun t => (t.d[0], t.sr.toWord)) =
    some (0xFFFF, 0x2719) := by decide +kernel

/-- 95 Y1. -/
theorem test_moveFromSr :
    after (start 0x2704 0xFFFFFFFF 0x0 0x0 0x0) [0x40C0]
      (fun t => (t.d[0], t.sr.toWord)) =
    some (0xFFFF2704, 0x2704) := by decide +kernel

/-- 95 2.3: no trap, the upper word does not take part, X stays. -/
theorem test_chk_in_bounds :
    after (start 0x2710 0x10003 0x4 0x0 0x0) [0x4181]
      (fun t => (t.pc, t.sr.ccr.x)) =
    some (0x1002, true) := by decide +kernel

/-- 95 2.3: a three-word frame, N = 1. -/
theorem test_chk_trap :
    after ((start 0x2710 0xFFFF 0x4 0x0 0x0).placeWords 0x18 [0x0000, 0x1600]) [0x4181]
      (fun t => (t.d[0], t.ssp, t.sr.ccr.n, t.traceAtStart)) =
    some (0xFFFF, 0x2FFA, true, false) := by decide +kernel

/-- 95 E4. -/
theorem test_lea :
    after (start 0x2700 0x0 0x1FFFE 0x2000 0x0) [0x43F0, 0x1008]
      (fun t => t.a[1]) =
    some 0x2006 := by decide +kernel

/-- 95 A12. -/
theorem test_clr :
    after (start 0x2710 0x12345678 0x0 0x0 0x0) [0x4240]
      (fun t => (t.d[0], t.sr.toWord)) =
    some (0x12340000, 0x2714) := by decide +kernel

/-- 95 2.3. -/
theorem test_neg :
    after (start 0x2700 0x80 0x0 0x0 0x0) [0x4400]
      (fun t => (t.d[0], t.sr.toWord)) =
    some (0x80, 0x271B) := by decide +kernel

/-- 95 Y2. -/
theorem test_moveToCcr :
    after (start 0x2000 0xFFFF 0x0 0x0 0x0) [0x44C0]
      (fun t => t.sr.toWord) =
    some 0x201F := by decide +kernel

/-- 95 L9. -/
theorem test_notEa :
    after (start 0x2710 0x123456FF 0x0 0x0 0x0) [0x4600]
      (fun t => (t.d[0], t.sr.toWord)) =
    some (0x12345600, 0x2714) := by decide +kernel

/-- 95 Y4. -/
theorem test_moveToSr :
    after (start 0x2000 0xFFFF 0x0 0x0 0x0) [0x46C0]
      (fun t => t.sr.toWord) =
    some 0xA71F := by decide +kernel

/-- 95 Y6. -/
theorem test_moveToSr_in_user_state :
    after ((start 0x0000 0x0 0x0 0x0 0x0).placeWords 0x20 [0x0000, 0x1600]) [0x46FC, 0x2700]
      (fun t => (t.pc, t.sr.toWord, t.wordAt .supervisorData 0x2FFA, t.longAt .supervisorData 0x2FFC)) =
    some (0x1600, 0x2000, 0x0000, 0x1000) := by decide +kernel

/-- 95 2.7. -/
theorem test_nbcd :
    after (start 0x2704 0x25 0x0 0x0 0x0) [0x4800]
      (fun t => (t.d[0], t.sr.ccr.x, t.sr.ccr.z, t.sr.ccr.c)) =
    some (0x75, true, false, true) := by decide +kernel

/-- 95 M8. -/
theorem test_swap :
    after (start 0x271F 0x12345678 0x0 0x0 0x0) [0x4840]
      (fun t => (t.d[0], t.sr.toWord)) =
    some (0x56781234, 0x2710) := by decide +kernel

/-- 95 E8. -/
theorem test_pea :
    after (start 0x2700 0x0 0x0 0x0 0x0) [0x4878, 0x1234]
      (fun t => (t.ssp, t.longAt .supervisorData 0x2FFC)) =
    some (0x2FFC, 0x1234) := by decide +kernel

/-- 95 A19. -/
theorem test_extReg_word :
    after (start 0x2700 0x12345680 0x0 0x0 0x0) [0x4880]
      (fun t => (t.d[0], t.sr.toWord)) =
    some (0x1234FF80, 0x2708) := by decide +kernel

/-- 95 A20. -/
theorem test_extReg_long :
    after (start 0x2700 0x12348000 0x0 0x0 0x0) [0x48C0]
      (fun t => (t.d[0], t.sr.toWord)) =
    some (0xFFFF8000, 0x2708) := by decide +kernel

/-- 95 M12. -/
theorem test_movemStore :
    after (start 0x2700 0xD0D0D0D0 0xD1D1D1D1 0xA0A0A0A0 0x0) [0x48E7, 0xC080]
      (fun t => (t.longAt .supervisorData 0x2FFC, t.longAt .supervisorData 0x2FF8, t.longAt .supervisorData 0x2FF4, t.ssp)) =
    some (0xA0A0A0A0, 0xD1D1D1D1, 0xD0D0D0D0, 0x2FF4) := by decide +kernel

/-- 95 A14. -/
theorem test_tst :
    after (start 0x2710 0x80000000 0x0 0x0 0x0) [0x4A80]
      (fun t => (t.d[0], t.sr.toWord)) =
    some (0x80000000, 0x2718) := by decide +kernel

/-- 95 A15. -/
theorem test_tas_register :
    after (start 0x2700 0x0 0x0 0x0 0x0) [0x4AC0]
      (fun t => (t.d[0], t.sr.toWord)) =
    some (0x80, 0x2704) := by decide +kernel

/-- 95 A17. -/
theorem test_tas_memory :
    after (start 0x2700 0x0 0x0 0x0 0x0) [0x4AF8, 0x2000]
      (fun t => (t.wordAt .supervisorData 0x2000, t.sr.toWord)) =
    some (0x8000, 0x2704) := by decide +kernel

/-- 95 M14. -/
theorem test_movemLoad :
    after ((start 0x271F 0x0 0x0 0x2000 0x0).placeWords 0x2000 [0x8001, 0x7FFF]) [0x4C90, 0x0201]
      (fun t => (t.d[0], t.a[1], t.a[0], t.sr.toWord)) =
    some (0xFFFF8001, 0x7FFF, 0x2000, 0x271F) := by decide +kernel

/-- 95 Y15. -/
theorem test_trap :
    after ((start 0x0000 0x0 0x0 0x0 0x0).placeWords 0xBC [0x0000, 0x1600]) [0x4E4F]
      (fun t => (t.pc, t.sr.toWord, t.wordAt .supervisorData 0x2FFA, t.longAt .supervisorData 0x2FFC)) =
    some (0x1600, 0x2000, 0x0000, 0x1002) := by decide +kernel

/-- 95 M10. -/
theorem test_link :
    after { start 0x2700 0x0 0x0 0x0 0x0 with a := #v[0, 0, 0, 0, 0, 0, 0x2000], ssp := 0x2FFC } [0x4E56, 0xFFFC]
      (fun t => (t.longAt .supervisorData 0x2FF8, t.a[6], t.ssp)) =
    some (0x2000, 0x2FF8, 0x2FF4) := by decide +kernel

/-- 95 M11. -/
theorem test_unlk :
    after ({ start 0x2700 0x0 0x0 0x0 0x0 with a := #v[0, 0, 0, 0, 0, 0, 0x2FF8] }.placeWords 0x2FF8 [0x0000, 0x2000]) [0x4E5E]
      (fun t => (t.a[6], t.ssp)) =
    some (0x2000, 0x2FFC) := by decide +kernel

/-- 95 Y13. -/
theorem test_moveToUsp :
    after (start 0x2700 0x0 0x0 0x2800 0x0) [0x4E60]
      (fun t => (t.usp, t.ssp)) =
    some (0x2800, 0x3000) := by decide +kernel

/-- 95 Y14. -/
theorem test_moveFromUsp :
    after { start 0x2700 0x0 0x0 0x0 0x0 with usp := 0x2800 } [0x4E69]
      (fun t => t.a[1]) =
    some 0x2800 := by decide +kernel

/-- 95 Y17. -/
theorem test_resetDevices :
    after (start 0x2700 0x0 0x0 0x0 0x0) [0x4E70]
      (fun t => (t.resetPulses, t.pc)) =
    some (1, 0x1002) := by decide +kernel

/-- 95 C19. -/
theorem test_nop :
    after (start 0x271F 0x0 0x0 0x0 0x0) [0x4E71]
      (fun t => (t.pc, t.sr.toWord)) =
    some (0x1002, 0x271F) := by decide +kernel

/-- 95 Y19. -/
theorem test_stop :
    after (start 0x2700 0x0 0x0 0x0 0x0) [0x4E72, 0x2000]
      (fun t => (t.pc, t.sr.toWord, t.procState)) =
    some (0x1004, 0x2000, .stopped) := by decide +kernel

/-- 95 Y20. -/
theorem test_rte :
    after ({ start 0x2700 0x0 0x0 0x0 0x0 with ssp := 0x2FFA }.placeWords 0x2FFA [0x0015, 0x0000, 0x1234]) [0x4E73]
      (fun t => (t.pc, t.sr.toWord, t.ssp)) =
    some (0x1234, 0x0015, 0x3000) := by decide +kernel

/-- 95 C17. -/
theorem test_rts :
    after ({ start 0x2700 0x0 0x0 0x0 0x0 with ssp := 0x2FFC }.placeWords 0x2FFC [0x0000, 0x1004]) [0x4E75]
      (fun t => (t.pc, t.ssp)) =
    some (0x1004, 0x3000) := by decide +kernel

/-- 95 Y16. -/
theorem test_trapv_taken :
    after ((start 0x2702 0x0 0x0 0x0 0x0).placeWords 0x1C [0x0000, 0x1600]) [0x4E76]
      (fun t => (t.pc, t.longAt .supervisorData 0x2FFC)) =
    some (0x1600, 0x1002) := by decide +kernel

/-- 95 Y16. -/
theorem test_trapv_not_taken :
    after (start 0x2700 0x0 0x0 0x0 0x0) [0x4E76]
      (fun t => (t.pc, t.ssp)) =
    some (0x1002, 0x3000) := by decide +kernel

/-- 95 C18. -/
theorem test_rtr :
    after ({ start 0x2700 0x0 0x0 0x0 0x0 with ssp := 0x2FFA }.placeWords 0x2FFA [0xFF15, 0x0000, 0x1008]) [0x4E77]
      (fun t => (t.pc, t.sr.toWord, t.ssp)) =
    some (0x1008, 0x2715, 0x3000) := by decide +kernel

/-- 95 C15. -/
theorem test_jsr :
    after (start 0x2700 0x0 0x0 0x0 0x0) [0x4EB8, 0x2000]
      (fun t => (t.pc, t.ssp, t.longAt .supervisorData 0x2FFC)) =
    some (0x2000, 0x2FFC, 0x1004) := by decide +kernel

/-- 95 C14. -/
theorem test_jmp :
    after (start 0x2700 0x0 0x0 0x1234 0x0) [0x4ED0]
      (fun t => t.pc) =
    some 0x1234 := by decide +kernel

/-- 95 A4, the field 000 means 8. -/
theorem test_addq :
    after (start 0x2700 0x0 0xFFF8 0x0 0x0) [0x5041]
      (fun t => (t.d[1], t.sr.toWord)) =
    some (0x0, 0x2715) := by decide +kernel

/-- 95 A5. -/
theorem test_addq_address :
    after (start 0x271F 0x0 0x0 0xFFFFFFFF 0x0) [0x5288]
      (fun t => (t.a[0], t.sr.toWord)) =
    some (0x0, 0x271F) := by decide +kernel

/-- 95 A7. -/
theorem test_subq :
    after (start 0x2700 0x12345600 0x0 0x0 0x0) [0x5300]
      (fun t => (t.d[0], t.sr.toWord)) =
    some (0x123456FF, 0x2719) := by decide +kernel

/-- 95 A6. -/
theorem test_subq_address :
    after (start 0x271F 0x0 0x0 0x10000 0x0) [0x5348]
      (fun t => (t.a[0], t.sr.toWord)) =
    some (0xFFFF, 0x271F) := by decide +kernel

/-- 95 C9. -/
theorem test_scc :
    after (start 0x2704 0x12345678 0x0 0x0 0x0) [0x57C0]
      (fun t => (t.d[0], t.sr.toWord)) =
    some (0x123456FF, 0x2704) := by decide +kernel

/-- 95 C6. -/
theorem test_dbcc_expired :
    after (start 0x2700 0x0 0x10000 0x0 0x0) [0x51C9, 0xFFFC]
      (fun t => (t.d[1], t.pc)) =
    some (0x1FFFF, 0x1004) := by decide +kernel

/-- 95 C7. -/
theorem test_dbcc_loops :
    after (start 0x2700 0x0 0x4 0x0 0x0) [0x51C9, 0xFFFC]
      (fun t => (t.d[1], t.pc)) =
    some (3, 0xFFE) := by decide +kernel

/-- 95 C1. -/
theorem test_bra :
    after (start 0x2700 0x0 0x0 0x0 0x0) [0x600E]
      (fun t => t.pc) =
    some 0x1010 := by decide +kernel

/-- 95 C5. -/
theorem test_bsr :
    after (start 0x2700 0x0 0x0 0x0 0x0) [0x6100, 0x0100]
      (fun t => (t.pc, t.ssp, t.longAt .supervisorData 0x2FFC)) =
    some (0x1102, 0x2FFC, 0x1004) := by decide +kernel

/-- 95 C3. -/
theorem test_bcc_taken :
    after (start 0x2704 0x0 0x0 0x0 0x0) [0x6700, 0x0100]
      (fun t => t.pc) =
    some 0x1102 := by decide +kernel

/-- 95 C3. -/
theorem test_bcc_not_taken :
    after (start 0x2700 0x0 0x0 0x0 0x0) [0x6700, 0x0100]
      (fun t => t.pc) =
    some 0x1004 := by decide +kernel

/-- 95 M4. -/
theorem test_moveq :
    after (start 0x271F 0x0 0x0 0x0 0x0) [0x70FF]
      (fun t => (t.d[0], t.sr.toWord)) =
    some (0xFFFFFFFF, 0x2718) := by decide +kernel

/-- 95 L4. -/
theorem test_orToReg :
    after (start 0x2700 0x80000000 0x1 0x0 0x0) [0x8081]
      (fun t => (t.d[0], t.sr.toWord)) =
    some (0x80000001, 0x2708) := by decide +kernel

/-- 95 L5. -/
theorem test_orToMem :
    after ((start 0x2700 0x8000 0x0 0x2000 0x0).placeWords 0x2000 [0x0001]) [0x8150]
      (fun t => (t.wordAt .supervisorData 0x2000, t.sr.toWord)) =
    some (0x8001, 0x2708) := by decide +kernel

/-- 95 2.3. -/
theorem test_divu :
    after (start 0x271F 0x309 0x64 0x0 0x0) [0x80C1]
      (fun t => (t.d[0], t.sr.toWord)) =
    some (0x4D0007, 0x2710) := by decide +kernel

/-- 95 2.3. -/
theorem test_divu_overflow :
    after (start 0x2711 0x10000 0x1 0x0 0x0) [0x80C1]
      (fun t => (t.d[0], t.sr.ccr.x, t.sr.ccr.v, t.sr.ccr.c)) =
    some (0x10000, true, true, false) := by decide +kernel

/-- 95 2.3. -/
theorem test_divs :
    after (start 0x2700 0xFFFFFFF9 0x2 0x0 0x0) [0x81C1]
      (fun t => (t.d[0], t.sr.toWord)) =
    some (0xFFFFFFFD, 0x2708) := by decide +kernel

/-- 95 2.3: a three-word frame, the register unchanged. -/
theorem test_divs_by_zero :
    after ((start 0x2701 0x7 0x0 0x0 0x0).placeWords 0x14 [0x0000, 0x1600]) [0x81C1]
      (fun t => (t.d[0], t.ssp, t.sr.ccr.c)) =
    some (7, 0x2FFA, false) := by decide +kernel

/-- 95 2.7. -/
theorem test_sbcd :
    after (start 0x2714 0x50 0x49 0x0 0x0) [0x8101]
      (fun t => (t.d[0], t.sr.ccr.x, t.sr.ccr.z, t.sr.ccr.c)) =
    some (0, false, true, false) := by decide +kernel

/-- 95 2.3. -/
theorem test_subToReg :
    after (start 0x2700 0x7FFFFFFF 0xFFFFFFFF 0x0 0x0) [0x9081]
      (fun t => (t.d[0], t.sr.toWord)) =
    some (0x80000000, 0x271B) := by decide +kernel

/-- R229. -/
theorem test_subToMem :
    after ((start 0x2700 0x1 0x0 0x2000 0x0).placeWords 0x2000 [0x8000]) [0x9150]
      (fun t => (t.wordAt .supervisorData 0x2000, t.sr.toWord)) =
    some (0x7FFF, 0x2702) := by decide +kernel

/-- 95 A2. -/
theorem test_suba :
    after (start 0x271F 0x0 0x1 0x2000 0x0) [0x91C1]
      (fun t => (t.a[0], t.sr.toWord)) =
    some (0x1FFF, 0x271F) := by decide +kernel

/-- 95 2.3. -/
theorem test_subx :
    after (start 0x2714 0x0 0x0 0x0 0x0) [0x9181]
      (fun t => (t.d[0], t.sr.toWord)) =
    some (0xFFFFFFFF, 0x2719) := by decide +kernel

/-- 95 2.3. -/
theorem test_cmp :
    after (start 0x2710 0x80 0x1 0x0 0x0) [0xB001]
      (fun t => (t.d[0], t.sr.toWord)) =
    some (0x80, 0x2712) := by decide +kernel

/-- 95 A3. -/
theorem test_cmpa :
    after (start 0x2710 0x0 0xFFFF 0xFFFFFFFF 0x0) [0xB0C1]
      (fun t => (t.a[0], t.sr.toWord)) =
    some (0xFFFFFFFF, 0x2714) := by decide +kernel

/-- 95 L7. -/
theorem test_eorToEa :
    after (start 0x2710 0xFFFF 0xFFFF 0x0 0x0) [0xB340]
      (fun t => (t.d[0], t.sr.toWord)) =
    some (0x0, 0x2714) := by decide +kernel

/-- 95 A18. -/
theorem test_cmpm :
    after (((start 0x2700 0x0 0x0 0x2000 0x2010).placeWords 0x2000 [0x0500]).placeWords 0x2010 [0x0500]) [0xB109]
      (fun t => (t.a[0], t.a[1], t.sr.toWord)) =
    some (0x2001, 0x2011, 0x2704) := by decide +kernel

/-- 95 L1. -/
theorem test_andToReg :
    after (start 0x2710 0x1234FF0F 0xF0F0 0x0 0x0) [0xC041]
      (fun t => (t.d[0], t.sr.toWord)) =
    some (0x1234F000, 0x2718) := by decide +kernel

/-- 95 L2. -/
theorem test_andToMem :
    after ((start 0x2700 0xFF 0x0 0x2000 0x0).placeWords 0x2000 [0x1234]) [0xC150]
      (fun t => (t.wordAt .supervisorData 0x2000, t.sr.toWord)) =
    some (0x34, 0x2700) := by decide +kernel

/-- 95 2.3. -/
theorem test_mulu :
    after (start 0x2717 0x1234FFFF 0xFFFF 0x0 0x0) [0xC0C1]
      (fun t => (t.d[0], t.sr.toWord)) =
    some (0xFFFE0001, 0x2718) := by decide +kernel

/-- 95 2.3. -/
theorem test_muls :
    after (start 0x2700 0x8000 0x2 0x0 0x0) [0xC1C1]
      (fun t => (t.d[0], t.sr.toWord)) =
    some (0xFFFF0000, 0x2708) := by decide +kernel

/-- 95 2.7. -/
theorem test_abcd :
    after (start 0x2714 0x99 0x99 0x0 0x0) [0xC101]
      (fun t => (t.d[0], t.sr.ccr.x, t.sr.ccr.z, t.sr.ccr.c)) =
    some (0x99, true, false, true) := by decide +kernel

/-- 95 2.7, the first of the two additions. -/
theorem test_abcd_memory :
    after (((start 0x2704 0x0 0x0 0x2002 0x2012).placeWords 0x2000 [0x1999]).placeWords 0x2010 [0x0001]) [0xC109]
      (fun t => (t.wordAt .supervisorData 0x2000, t.a[0], t.a[1], t.sr.ccr.x)) =
    some (0x1900, 0x2001, 0x2011, true) := by decide +kernel

/-- 95 M7. -/
theorem test_exgData :
    after (start 0x271F 0x1 0x2 0x0 0x0) [0xC141]
      (fun t => (t.d[0], t.d[1], t.sr.toWord)) =
    some (2, 1, 0x271F) := by decide +kernel

/-- R181. -/
theorem test_exgAddr :
    after (start 0x271F 0x0 0x0 0x1 0x2) [0xC149]
      (fun t => (t.a[0], t.a[1])) =
    some (2, 1) := by decide +kernel

/-- 95 M6. -/
theorem test_exgDataAddr :
    after (start 0x2700 0x0 0x11111111 0x22222222 0x0) [0xC388]
      (fun t => (t.d[1], t.a[0])) =
    some (0x22222222, 0x11111111) := by decide +kernel

/-- 95 2.3: the upper bits stay. -/
theorem test_addToReg :
    after (start 0x2700 0x123456FF 0xFF 0x0 0x0) [0xD001]
      (fun t => (t.d[0], t.sr.toWord)) =
    some (0x123456FE, 0x2719) := by decide +kernel

/-- 95 A11. -/
theorem test_addToMem :
    after ((start 0x2700 0x1 0x0 0x2000 0x0).placeWords 0x2000 [0x7FFF]) [0xD150]
      (fun t => (t.wordAt .supervisorData 0x2000, t.sr.toWord)) =
    some (0x8000, 0x270A) := by decide +kernel

/-- 95 A1. -/
theorem test_adda :
    after (start 0x271F 0x0 0xFFFF 0x2000 0x0) [0xD0C1]
      (fun t => (t.a[0], t.sr.toWord)) =
    some (0x1FFF, 0x271F) := by decide +kernel

/-- 95 2.3: Z stays set on a zero result. -/
theorem test_addx :
    after (start 0x2714 0xFFFFFFFF 0x0 0x0 0x0) [0xD181]
      (fun t => (t.d[0], t.sr.toWord)) =
    some (0x0, 0x2715) := by decide +kernel

/-- 95 2.3. -/
theorem test_addx_memory :
    after (((start 0x2704 0x0 0x0 0x2002 0x2012).placeWords 0x2000 [0x00FF]).placeWords 0x2010 [0x0001]) [0xD109]
      (fun t => (t.wordAt .supervisorData 0x2000, t.a[0], t.a[1], t.sr.toWord)) =
    some (0, 0x2001, 0x2011, 0x2715) := by decide +kernel

/-- 95 2.5. -/
theorem test_asrReg :
    after (start 0x2700 0x8001 0x0 0x0 0x0) [0xE240]
      (fun t => (t.d[0], t.sr.toWord)) =
    some (0xC000, 0x2719) := by decide +kernel

/-- 95 2.5. -/
theorem test_aslReg :
    after (start 0x2710 0x1 0x9 0x0 0x0) [0xE320]
      (fun t => (t.d[0], t.sr.toWord)) =
    some (0x0, 0x2706) := by decide +kernel

/-- 95 2.5. -/
theorem test_lsrReg :
    after (start 0x2700 0x80000000 0x20 0x0 0x0) [0xE2A8]
      (fun t => (t.d[0], t.sr.toWord)) =
    some (0x0, 0x2715) := by decide +kernel

/-- 95 2.5. -/
theorem test_lslReg :
    after (start 0x2710 0x1 0x21 0x0 0x0) [0xE3A8]
      (fun t => (t.d[0], t.sr.toWord)) =
    some (0x0, 0x2704) := by decide +kernel

/-- 95 2.5. -/
theorem test_roxrReg :
    after (start 0x2710 0x1 0x20 0x0 0x0) [0xE2B0]
      (fun t => (t.d[0], t.sr.toWord)) =
    some (0x3, 0x2700) := by decide +kernel

/-- 95 2.5. -/
theorem test_roxlReg :
    after (start 0x2710 0x55 0x9 0x0 0x0) [0xE330]
      (fun t => (t.d[0], t.sr.toWord)) =
    some (0x55, 0x2711) := by decide +kernel

/-- 95 2.5. -/
theorem test_rorReg :
    after (start 0x2710 0x12345678 0x0 0x0 0x0) [0xE898]
      (fun t => (t.d[0], t.sr.toWord)) =
    some (0x81234567, 0x2719) := by decide +kernel

/-- 95 2.5. -/
theorem test_rolReg :
    after (start 0x2710 0x81 0x0 0x0 0x0) [0xE118]
      (fun t => (t.d[0], t.sr.toWord)) =
    some (0x81, 0x2719) := by decide +kernel

/-- 95 2.5. -/
theorem test_asrMem :
    after ((start 0x2700 0x0 0x0 0x2000 0x0).placeWords 0x2000 [0x8001]) [0xE0D0]
      (fun t => (t.wordAt .supervisorData 0x2000, t.sr.toWord)) =
    some (0xC000, 0x2719) := by decide +kernel

/-- 95 2.5. -/
theorem test_aslMem :
    after ((start 0x2700 0x0 0x0 0x2000 0x0).placeWords 0x2000 [0x4000]) [0xE1D0]
      (fun t => (t.wordAt .supervisorData 0x2000, t.sr.toWord)) =
    some (0x8000, 0x270A) := by decide +kernel

/-- R281, R292. -/
theorem test_lsrMem :
    after ((start 0x2700 0x0 0x0 0x2000 0x0).placeWords 0x2000 [0x0001]) [0xE2D0]
      (fun t => (t.wordAt .supervisorData 0x2000, t.sr.toWord)) =
    some (0x0, 0x2715) := by decide +kernel

/-- R281, R292. -/
theorem test_lslMem :
    after ((start 0x2700 0x0 0x0 0x2000 0x0).placeWords 0x2000 [0x8001]) [0xE3D0]
      (fun t => (t.wordAt .supervisorData 0x2000, t.sr.toWord)) =
    some (0x2, 0x2711) := by decide +kernel

/-- 95 2.5. -/
theorem test_roxrMem :
    after ((start 0x2710 0x0 0x0 0x2000 0x0).placeWords 0x2000 [0x0000]) [0xE4D0]
      (fun t => (t.wordAt .supervisorData 0x2000, t.sr.toWord)) =
    some (0x8000, 0x2708) := by decide +kernel

/-- R281, R292. -/
theorem test_roxlMem :
    after ((start 0x2710 0x0 0x0 0x2000 0x0).placeWords 0x2000 [0x8000]) [0xE5D0]
      (fun t => (t.wordAt .supervisorData 0x2000, t.sr.toWord)) =
    some (0x1, 0x2711) := by decide +kernel

/-- R281, R292. -/
theorem test_rorMem :
    after ((start 0x2710 0x0 0x0 0x2000 0x0).placeWords 0x2000 [0x0001]) [0xE6D0]
      (fun t => (t.wordAt .supervisorData 0x2000, t.sr.toWord)) =
    some (0x8000, 0x2719) := by decide +kernel

/-- R281, R292. -/
theorem test_rolMem :
    after ((start 0x2700 0x0 0x0 0x2000 0x0).placeWords 0x2000 [0x8000]) [0xE7D0]
      (fun t => (t.wordAt .supervisorData 0x2000, t.sr.toWord)) =
    some (0x1, 0x2701) := by decide +kernel

/-! Exceptions, one step each. -/


/-- An interrupt acknowledged with VPA (95, scenario S4: vector 26, frame $2000, $1000, mask 2). -/
theorem test_interrupt_autovector :
    after { (start 0x2000 0 0 0 0).placeWords 0x68 [0, 0x1600] with
        inputs := [.run 2], iack := Vector.replicate 8 .autovector } [0x4E71]
      (fun t => (t.pc, t.sr.toWord, t.wordAt .supervisorData 0x2FFA, t.longAt .supervisorData 0x2FFC)) =
    some (0x1600, 0x2200, 0x2000, 0x1000) := by decide +kernel

/-- A spurious interrupt (95, scenario S4: vector 24). -/
theorem test_interrupt_spurious :
    after { (start 0x2000 0 0 0 0).placeWords 0x60 [0, 0x1700] with inputs := [.run 2] } [0x4E71] (fun t => t.pc) =
    some 0x1700 := by decide +kernel

/-- The acknowledge of level 3 is a bus cycle of function code 111 at $FFFFF7 (R372, R379, R402): a region that covers it
answers by VPA (vector 27), or by DTACK with the byte its memory has there (vector 64); the table is not asked. -/
theorem test_acknowledge_cycle :
    [BusAnswer.vpa, .dtack].map (fun answer => after { (start 0x2000 0 0 0 0).placeWords 0xFFFFF6 [0x0140] with
        inputs := [.run 3]
        busMap := [{ lo := 0xFFFFF7, hi := 0xFFFFF7, codes := [.interruptAcknowledge], widths := [.byte], onRead := answer,
                     onWrite := answer, writable := false, storesOnBerr := false, device := false }] } [0x4E71]
      (fun t => (t.iackVector 3, t.sr.mask))) =
    [some (some 27, 3), some (some 64, 3)] := by decide +kernel

/-- An illegal word, with the word's own address stacked and no trace (95, scenario S3). -/
theorem test_illegal :
    after ((start 0xA700 0 0 0 0).placeWords 0x10 [0, 0x1600]) [0x4AFC]
      (fun t => (t.pc, t.sr.toWord, t.wordAt .supervisorData 0x2FFA, t.longAt .supervisorData 0x2FFC)) =
    some (0x1600, 0x2700, 0xA700, 0x1000) := by decide +kernel

/-- Trace after an instruction that began with T set (95, program P5 and R470). -/
theorem test_trace :
    after ((start 0xA700 0 0 0 0).placeWords 0x24 [0, 0x1300]) [0x7001]
      (fun t => (t.pc, t.sr.toWord, t.wordAt .supervisorData 0x2FFA, t.longAt .supervisorData 0x2FFC, t.d[0])) =
    some (0x1300, 0x2700, 0xA700, 0x1002, 1) := by decide +kernel

/-- An address error stacks seven words and leaves the register alone (95, scenario S5). -/
theorem test_address_error :
    after (start 0x2700 0 0 0x1234 0) [0x3078, 0x2001] (fun t => (t.ssp, t.a[0], t.inGroup0)) =
    some (0x2FF2, 0x1234, true) := by decide +kernel

/-- An address error that finds SSP odd halts the processor (95, scenario S7). -/
theorem test_double_fault :
    after { start 0x2700 0 0 0 0 with ssp := 0x3001 } [0x3078, 0x2001] (fun t => t.procState) =
    some .halted := by decide +kernel

/-- The reset sequence (95, T3). -/
theorem test_external_reset :
    after { (start 0x0000 7 0 0 0).placeWords 0 [0, 0x3000, 0, 0x1000] with
        inputs := [.externalReset 0], ssp := 0, procState := .halted } []
      (fun t => (t.ssp, t.pc, t.sr.toWord, t.procState, t.d[0])) =
    some (0x3000, 0x1000, 0x2700, .normal, 7) := by decide +kernel

/-- The row of MOVE.L given by its table word, run as the first instruction after reset. -/
theorem test_first_after_reset :
    (match step (State.reset.withFetchWord 16 0x203C) with | .next t => some (t.d[0], t.pc) | _ => none) =
    some (0, 6) ∧ decodeTableWord 16 0x203C = some (.moveLong (.imm 0) (.dreg 0)) := by
  constructor
  · decide +kernel
  · rfl

/-! What the platform does at the cycles of one instruction. -/

/-- A cycle at which the platform does as its maps say. -/
def asMapped : CycleInput := { before := [], reset := none, answer := none, iack := none, data := none, stores := none }

/-- What is seen of the next state of one instruction. -/
def execSees {α : Type} (i : Instr) (s : State) (seen : State → α) : Option α :=
  match exec i s with
  | .next t => some (seen t)
  | _ => none

/-- Another master writes before the first cycle of ADD.B D0,$2001, inside the step: the instruction reads what it wrote
(R392, R18). -/
theorem test_master_between_cycles :
    execSees (.addToMem .byte 0 (.absShort 0x2001))
      { (start 0x2700 0x10 0 0 0).placeWords 0x2000 [0x0102] with
        cycles := [{ asMapped with
          before := [{ code := .supervisorData, width := .byte, addr := 0x2001, data := 0x20 }] }] }
      (fun t => (t.byteAt .supervisorData 0x2001, t.cycles)) =
    some (0x30, []) := by decide +kernel

/-- A device answers a byte read on D15 to D8 of an even address, D7 to D0 of an odd one (R72, R376). -/
theorem test_device_data :
    [0x2000, 0x2001].map (fun a => execSees (.moveByte (.absShort a) (.dreg 0))
      { start 0x2700 0 0 0 0 with cycles := [{ asMapped with data := some 0xABCD }] } (fun t => t.d[0])) =
    [some 0xAB, some 0xCD] := by decide +kernel

/-- A transient bus error on the second transfer of MOVEM.W D0-D1,(A0): the first is stored, the
bus error exception is taken, its cycles under the maps again (R395, D16). -/
theorem test_transient_bus_error :
    execSees (.movemStore .word 3 (.ind 0))
      { start 0x2700 0x1111 0x2222 0x2000 0 with cycles := [asMapped, { asMapped with answer := some .berr }] }
      (fun t => (t.wordAt .supervisorData 0x2000, t.inGroup0, t.ssp, t.cycles)) =
    some (0x1111, true, 0x2FF2, []) := by decide +kernel

/-- A reset in place of the second transfer: the first is stored, and the reset sequence has run (R505). -/
theorem test_reset_inside_an_instruction :
    execSees (.movemStore .word 3 (.ind 0))
      { (start 0x2000 0x1111 0x2222 0x2000 0).placeWords 0 [0, 0x3300, 0, 0x1100] with
        cycles := [asMapped, { asMapped with reset := some 3 }] }
      (fun t => (t.longAt .supervisorData 0x2000, t.ssp, t.pc, t.sr.mask, t.pendingIrq)) =
    some (0x11110000, 0x3300, 0x1100, 7, 3) := by decide +kernel

/-- The words at the target of a jump are read before the next boundary (R530): a write of another master there between
the steps may be seen or not, so the words read are kept. -/
theorem test_read_at_target :
    after ((start 0x2700 0 0 0 0).placeWords 0x2000 [0x4E71, 0x7001]) [0x4EF8, 0x2000] (fun t => (t.pc, t.prefetch)) =
    some (0x2000, [{ addr := 0x2000, word := 0x4E71, read := false }, { addr := 0x2002, word := 0x7001, read := false }]) := by
  decide +kernel

/-- A word that a bus cycle has read ahead is used as it is, although user state could not read it now and memory holds
another (R503 c). -/
theorem test_read_ahead_is_used :
    (match fetchWord 0x1000
        { start 0 0 0 0 0 with
          prefetch := [{ addr := 0x1000, word := 0x4E71, read := true }]
          busMap := [{ lo := 0x1000, hi := 0x1001, codes := [.userProgram], widths := [.word], onRead := .berr, onWrite := .berr,
                       writable := false, storesOnBerr := false, device := false }] } with
      | .ok w t => some (w, t.drawCount)
      | _ => none) = some (0x4E71, 0) := by decide +kernel

/-- What a bus cycle has read ahead stays read ahead (R503 c): at least up to the last word so read. -/
theorem test_surely_ahead :
    ({ start 0 0 0 0 0 with
        prefetch := [{ addr := 0x1000, word := 0, read := false }, { addr := 0x1002, word := 0, read := true }] }
      : State).surelyAhead 4 0x1000 = 2 := by decide +kernel

/-- STOP makes no bus cycle (R532): a platform that answers with BERR right after it is not asked. -/
theorem test_stop_reads_nothing :
    after { start 0x2700 0 0 0 0 with
        busMap := [{ lo := 0x1004, hi := 0x1007, codes := [.supervisorProgram], widths := [.word], onRead := .berr,
                     onWrite := .berr, writable := false, storesOnBerr := false, device := false }] }
      [0x4E72, 0x2000] (fun t => (t.procState, t.sr.toWord, t.pc, t.drawCount)) =
    some (.stopped, 0x2000, 0x1004, 0) := by decide +kernel

/-- JSR $2000 whose push overlaps its target: a word read there before the push is kept, the push is in memory (R95, R329). -/
theorem test_call_keeps_target :
    (let s : State := { (start 0x2700 0 0 0 0).placeWords 0x2000 [0x4E71, 0x7001] with ssp := 0x2004, pc := 0x1000 }
     s.targetHit (.jsr (.absShort 0x2000)) = true ∧ s.targetHit (.jsr (.absShort 0x2004)) = false ∧
      (match keepTarget [0x4E71] (exec (.jsr (.absShort 0x2000)) s) with
        | .next t => some (t.pc, t.readAheadAt 0x2000, t.longAt .supervisorData 0x2000)
        | _ => none) = some (0x2000, some 0x4E71, 0x1004)) := by decide +kernel

/-- RTE with an odd SSP is cut short at its frame and leaves SR as it was (R343, R502, R451). -/
theorem test_rte_cut_short :
    ∃ f t, returnFromException { start 0x2704 0 0 0 0 with ssp := 0x3001 } = .error (.access f) t ∧ t.sr.toWord = 0x2704 :=
  ⟨_, _, (run_bind_ok (run_get _)).trans (run_bind_error (onAbort_error (readMem_misaligned rfl rfl rfl))), by
    unfold State.maybe
    dsimp only
    split <;> rfl⟩

/-- LSR of a word at an odd address, cut short at its operand, leaves N clear: a right shift by one can only clear it
(U3, R287). -/
theorem test_lsr_cut_short (s : State) (h : s.sr.ccr.n = false) :
    (s.openFlags (s.afterSupposed (shiftMem .lsr (.absShort 0x2001)))).sr.ccr.n = false := by
  have hn : (s.afterSupposed (shiftMem .lsr (.absShort 0x2001))).sr.ccr.n = false := by
    have ha : aligned (sextWord 0x2001) .word = false := by decide +kernel
    have hr := fun t : State => readMem_supposed (s := t) (sp := .data) ha
    have hw := fun (t : State) v => writeMem_supposed (s := t) (v := v) ha
    have hm : ∃ v t, shiftMem .lsr (.absShort 0x2001) s.suppose =
        .ok () (State.setCcr (shiftAlu .lsr .word 1 s.sr.ccr (trunc .word v)).2 t) := by
      refine ⟨_, _, (run_bind_ok (resolveEa_run _ _ _)).trans ((run_bind_ok (m := rd (.mem .data (sextWord 0x2001)) .word)
        (hr (s.suppose.advance 2) rfl rfl)).trans ((run_bind_ok (run_get _)).trans
          ((run_bind_ok (m := wr (.mem .data (sextWord 0x2001)) .word _) (hw _ _ rfl rfl)).trans (run_modify _ _))))⟩
    obtain ⟨v, t, hm⟩ := hm
    unfold State.afterSupposed
    rw [hm]
    simp [shiftAlu, shiftSteps, shiftStep, msbOf, sizeBits, trunc]
  obtain ⟨cc, k, hc, he⟩ := State.openFlags_cases s (s.afterSupposed (shiftMem .lsr (.absShort 0x2001)))
  rw [he]
  exact hc.2.1.elim (fun e => e.trans h) fun e => e.trans hn

/-- ANDI to CCR of which the immediate word is not known cannot set a flag (U3). -/
theorem test_andi_cut_short (s : State) (h : s.sr.ccr.z = false) :
    (s.openFlags (s.afterUnknown [0x023C])).sr.ccr.z = false := by
  have hz : (s.afterUnknown [0x023C]).sr.ccr.z = false := by
    have hd : decode ([0x023C] ++ freeWords s.drawCount 4) =
        .ok (.andiToCcr ((Config.freeWord s.drawCount).setWidth 8), freeWords (s.drawCount + 1) 3) := rfl
    have hf : ∀ (c : Ccr) (b : Word), c.z = false → (BitVec.ofNat 16 c.toNat &&& b).getLsbD 2 = false := by
      intro c b hc
      have e : ∀ x n v c : Bool,
          (BitVec.ofNat 16 (Ccr.toNat { x := x, n := n, z := false, v := v, c := c })).getLsbD 2 = false := by decide
      rw [BitVec.getLsbD_and, show c = { x := c.x, n := c.n, z := false, v := c.v, c := c.c } by rw [← hc], e, Bool.false_and]
    unfold State.afterUnknown
    simp only [hd]
    exact hf s.sr.ccr _ h
  obtain ⟨cc, k, hc, he⟩ := State.openFlags_cases s (s.afterUnknown [0x023C])
  rw [he]
  exact hc.2.2.1.elim (fun e => e.trans h) fun e => e.trans hz

/-- MOVE.W D0,$00002002 whose first destination word was fetched before the source was read: the second follows it (R63,
R150, R503). -/
theorem test_half_of_a_destination :
    (match runLate 0x4E71 0x33C0 [0x0000] (.moveWord (.dreg 0) (.absLong 0))
        ((start 0x2700 0xABCD 0 0 0).placeWords 0x1000 [0x33C0, 0x0000, 0x2002, 0x4E71]) with
      | .next t => some (t.wordAt .supervisorData 0x2002, t.pc, t.prefetch.map fun e => e.addr)
      | _ => none) =
    some (0xABCD, 0x1006, [0x1006, 0x1008]) := by decide +kernel

/-- With a window of 0, LINK A0 whose push overwrites its displacement word takes the word written (R503 d, R183):
A0 = $00100000 goes to $1002, so SP becomes $1002 + $10. -/
theorem test_push_onto_displacement :
    (match runLate 0x4E71 0x4E50 [] (.link 0 0)
        { (start 0x2700 0 0 0x00100000 0).placeWords 0x1000 [0x4E50, 0x1234] with ssp := 0x1006, prefetchWindow := 0 } with
      | .next t => some (t.ssp, t.a[0], t.pc)
      | _ => none) =
    some (0x1012, 0x1002, 0x1004) := by decide +kernel

/-- MOVE needs no word of its destination before its source is read (R503 d, R162): three words of five for
MOVE.L xxx.L, xxx.L, and at window 0 none of the others is fetched first. -/
theorem test_needed_first :
    neededFirst (.moveLong (.absLong 0) (.absLong 0)) = 2 ∧ neededFirst (.moveWord (.ind 0) (.absShort 0)) = 0 ∧
    ({ start 0x2700 0 0 0 0 with prefetchWindow := 0 } : State).earlyBound (.moveLong (.absLong 0) (.absLong 0)) = 0 ∧
    (start 0x2700 0 0 0 0).earlyBound (.moveLong (.absLong 0) (.absLong 0)) = 2 ∧ neededFirst (.addi .long 0 (.absLong 0)) = 4 := by
  decide +kernel

/-- Two memories by function code (R67), and a device that decodes A23 to A5 only in part (R83). -/
theorem test_memories_and_aliases :
    after { start 0x2700 0 0 0 0 with
        memMap := [{ lo := 0, hi := 0xFFFFFF, codes := [.supervisorProgram], decoded := BitVec.allOnes 19, base := 0, bank := 1 },
          { lo := 0x8000, hi := 0x80FF, codes := [.supervisorData], decoded := ~~~3, base := 0, bank := 0 }] }
      [0x13FC, 0x0055, 0x0000, 0x8021]
      (fun t => (t.byteAt .supervisorData 0x8041, t.byteAt .supervisorProgram 0x1003, t.byteAt .supervisorData 0x1003)) =
    some (0x55, 0x55, 0) := by decide +kernel

/-! For each statement with hypotheses, a state and operands that meet them, at the edges of each clause. -/

/-- Does the outcome go on? -/
def goes (o : Host.Outcome State Fault Refusal) : Bool :=
  match o with
  | .next _ => true
  | _ => false

/-- An outcome that goes on is a next state. -/
theorem goes_next {o : Host.Outcome State Fault Refusal} (h : goes o = true) : ∃ t, o = .next t := by
  cases o with
  | next t => exact ⟨t, rfl⟩
  | fault f => cases h
  | refused r => cases h

/-- Several instructions that go on from one state. -/
theorem goes_all {l : List Instr} {s : State} (h : (l.all fun i => goes (exec i s)) = true) :
    ∀ i ∈ l, ∃ t, exec i s = .next t := fun i hi => goes_next (List.all_eq_true.mp h i hi)

/-- Supervisor state, four words at $2000. -/
def sup : State := (start 0x2700 5 3 0x2000 0x2010).placeWords 0x2000 [0x0102, 0x0304, 0x8506, 0xFFFE]

/-- User state, the stacks apart, four words at $2000. -/
def usr : State :=
  { (start 0x0000 5 3 0x2000 0x2010).placeWords 0x2000 [0x0102, 0x0304, 0x8506, 0xFFFE] with usp := 0x2800 }

/-- A platform that answers with BERR at one address. -/
def berrAt (a : Nat) : List BusRegion :=
  [{ lo := a, hi := a, codes := [.userData, .supervisorData, .supervisorProgram], onRead := .berr, onWrite := .berr,
     widths := [.byte, .word], writable := true, storesOnBerr := false, device := false }]

theorem witness_DecodeOfEncode :
    (Instr.moveLong (.imm 0xFFFFFFFF) (.absLong 0x80000000)).wellFormed = true ∧
    (Instr.addi .byte 0xFF (.index 7 { isAddr := true, reg := 7, isLong := true, disp := 0xFF })).wellFormed = true ∧
    (Instr.bcc .hi (.short 1)).wellFormed = true := by decide

/-- The invariant holds of the first of the two states. -/
theorem sup_inv : Inv sup := by
  refine ⟨by decide +kernel, ?_, rfl, rfl, rfl, by decide +kernel, ?_, ?_, ?_⟩
  · intro g h; cases h
  · intro e he; cases he
  · intro h; cases h
  · intro h; cases h

theorem witness_InvKeptByStep : ∃ s t, Inv s ∧ step s = .next t := by
  obtain ⟨t, h⟩ := goes_next (o := step sup) (by decide +kernel)
  exact ⟨sup, t, sup_inv, h⟩

/-- The same with two words read ahead, in the window of a double fault. -/
theorem witness_InvKeptByStep_edges :
    ∃ s t, Inv s ∧ s.prefetch.length = 2 ∧ s.inGroup0 = true ∧ step s = .next t := by
  obtain ⟨t, h⟩ := goes_next
    (o := step { sup with
      prefetch := [{ addr := 0x1000, word := 0, read := true }, { addr := 0x1002, word := 0, read := false }]
      inGroup0 := true }) (by decide +kernel)
  refine ⟨{ sup with
    prefetch := [{ addr := 0x1000, word := 0, read := true }, { addr := 0x1002, word := 0, read := false }]
    inGroup0 := true }, t, ?_, rfl, rfl, h⟩
  refine ⟨by decide +kernel, ?_, rfl, rfl, rfl, by decide +kernel, ?_, ?_, ?_⟩
  · intro g h; cases h
  · intro e he
    rcases List.mem_cons.mp he with rfl | he
    · rfl
    · rcases List.mem_cons.mp he with rfl | he
      · rfl
      · cases he
  · intro _; exact ⟨rfl, fun h => by cases h⟩
  · intro h; cases h

theorem witness_StepRunsDecoded :
    ∃ (s : State) (level : Fin 8) (i : Instr), s.takeInput.1 = .run level ∧ s.takeInput.2.runs level = true ∧
      s.prefetch = [{ addr := 0x1000, word := 0x303C, read := true }, { addr := 0x1002, word := 0x1234, read := false }] ∧
      (s.takeInput.2.sample level).fetches i.words (s.windowAfter i) = true ∧ (isPrivileged i = true → s.sr.s = true) ∧
      decode (s.wordsAt i.words s.pc) = .ok (i, []) ∧ s.pushOverlaps i = false ∧ s.targetHit i = false :=
  ⟨{ usr.placeWords 0x1000 [0x303C, 0x1234] with
      prefetch := [{ addr := 0x1000, word := 0x303C, read := true }, { addr := 0x1002, word := 0x1234, read := false }] }, 0,
    .moveWord (.imm 0x1234) (.dreg 0), rfl, by decide +kernel, rfl, by decide +kernel, fun h => (by cases h), rfl, rfl, rfl⟩

/-- LINK and BSR that push onto their own displacement, the last and the first of the four bytes on it. -/
theorem witness_StepRunsDecoded_overlap :
    ∀ x ∈ [((0x4E50 : Word), (0x0FFF + 4 : Long), Instr.link 0 0x1234), (0x6100, 0x1003 + 4, .bsr (.long 0x1234))],
      ∃ (s : State) (level : Fin 8), s.takeInput.1 = .run level ∧ s.takeInput.2.runs level = true ∧
        (s.takeInput.2.sample level).fetches x.2.2.words (s.windowAfter x.2.2) = true ∧ (isPrivileged x.2.2 = true → s.sr.s = true) ∧
        s.ssp = x.2.1 ∧ decode (s.wordsAt x.2.2.words s.pc) = .ok (x.2.2, []) ∧ s.pushOverlaps x.2.2 = true :=
  List.forall_mem_cons.mpr
    ⟨⟨{ sup.placeWords 0x1000 [0x4E50, 0x1234] with ssp := 0x0FFF + 4 }, 0, rfl, by decide +kernel, by decide +kernel,
      fun h => (by cases h), rfl, rfl, by decide +kernel⟩,
    List.forall_mem_singleton.mpr ⟨{ sup.placeWords 0x1000 [0x6100, 0x1234] with ssp := 0x1003 + 4 }, 0, rfl,
      by decide +kernel, by decide +kernel, fun h => (by cases h), rfl, rfl, by decide +kernel⟩⟩

/-- BSR and JSR that push onto the first and the last word of the window at their targets. -/
theorem witness_StepRunsDecoded_target :
    ∀ x ∈ [(([0x6100, 0x0FFE] : List Word), Instr.bsr (.long 0x0FFE), (0x2002 : Long)),
        ([0x4EB8, 0x2000], .jsr (.absShort 0x2000), 0x2006)],
      ∃ (s : State) (level : Fin 8), s.takeInput.1 = .run level ∧ s.takeInput.2.runs level = true ∧
        (s.takeInput.2.sample level).fetches x.2.1.words (s.windowAfter x.2.1) = true ∧
        (isPrivileged x.2.1 = true → s.sr.s = true) ∧ s.ssp = x.2.2 ∧
        decode (s.wordsAt x.2.1.words s.pc) = .ok (x.2.1, []) ∧ s.targetHit x.2.1 = true ∧
        ∃ a, s.callTarget x.2.1 = some a ∧ s.canAccessList .program .read .word 2 s.windowWords a = true :=
  List.forall_mem_cons.mpr
    ⟨⟨{ sup.placeWords 0x1000 [0x6100, 0x0FFE] with ssp := 0x2002 }, 0, rfl, by decide +kernel, by decide +kernel,
      fun h => (by cases h), rfl, rfl, by decide +kernel, 0x2000, by decide +kernel, by decide +kernel⟩,
    List.forall_mem_singleton.mpr ⟨{ sup.placeWords 0x1000 [0x4EB8, 0x2000] with ssp := 0x2006 }, 0, rfl,
      by decide +kernel, by decide +kernel, fun h => (by cases h), rfl, rfl, by decide +kernel, 0x2000, by decide +kernel,
      by decide +kernel⟩⟩

/-- The same for a privileged instruction, level 7 held under mask 7, and with another window. -/
theorem witness_StepRunsDecoded_privileged :
    ∃ (s : State) (level : Fin 8) (i : Instr), s.takeInput.1 = .run level ∧ s.takeInput.2.runs level = true ∧
      s.prefetchWindow = 6 ∧ (s.takeInput.2.sample level).fetches i.words (s.windowAfter i) = true ∧ isPrivileged i = true ∧
      s.sr.s = true ∧ decode (s.wordsAt i.words s.pc) = .ok (i, []) ∧ s.pushOverlaps i = false ∧ s.targetHit i = false :=
  ⟨{ sup.placeWords 0x1000 [0x46FC, 0x2000] with inputs := [.run 7], prevIrqLevel := 7, prefetchWindow := 6 }, 7,
    .moveToSr (.imm 0x2000), rfl, by decide +kernel, rfl, by decide +kernel, rfl, rfl, rfl, rfl, rfl⟩

theorem witness_ResetSequence :
    ∃ (s : State) (level : Fin 8), s.procState = .halted ∧ s.takeInput.1 = .externalReset level ∧
      s.completes (wordRead .supervisorProgram 0) = true ∧ s.completes (wordRead .supervisorProgram 2) = true ∧
      s.completes (wordRead .supervisorProgram 4) = true ∧ s.completes (wordRead .supervisorProgram 6) = true :=
  ⟨{ usr with procState := .halted, inputs := [.externalReset 7] }, 7, rfl, rfl, rfl, rfl, rfl, rfl⟩

/-- What the second clause of `ResetSequence` asks for the read at an address after others. -/
def resetBerrMeets (s : State) (before : List Long) (a : Long) : Bool :=
  s.cycles.isEmpty && !s.supposed && before.all (fun b => s.cycle false (wordRead .supervisorProgram b) = .done) &&
    decide (s.cycle false (wordRead .supervisorProgram a) = .berr)

/-- A bus error on each of the four reads; on the first one, nobody answers the second. -/
theorem witness_ResetSequence_bus_error :
    resetBerrMeets { usr with
      busMap := berrAt 0 ++ (berrAt 2).map fun r => { r with onRead := .none } } [] 0 = true ∧
    resetBerrMeets { usr with busMap := berrAt 2 } [0] 2 = true ∧
    resetBerrMeets { usr with busMap := berrAt 4 } [0, 2] 4 = true ∧
    resetBerrMeets { usr with busMap := berrAt 6 } [0, 2, 4] 6 = true := by decide +kernel

theorem witness_HaltedStays :
    ∃ s t : State, s.procState = .halted ∧ (∀ level, s.takeInput.1 ≠ .externalReset level) ∧ step s = .next t ∧
      (∀ w, s.takeInput.1 ≠ .busWrite w) :=
  ⟨{ sup with procState := .halted, inputs := [.run 7] }, _, rfl, fun _ h => (by cases h), rfl,
    fun _ h => (by cases h)⟩

/-- The same while another bus master writes. -/
theorem witness_HaltedStays_write :
    ∃ s t : State, s.procState = .halted ∧ (∀ level, s.takeInput.1 ≠ .externalReset level) ∧ step s = .next t :=
  ⟨{ sup with procState := .halted, busOwner := .other, inputs := [.busWrite { code := .supervisorData, width := .byte, addr := 0x2001, data := 7 }] }, _, rfl,
    fun _ h => (by cases h), rfl⟩

theorem witness_InterruptTaken :
    ∃ (s : State) (level : Fin 8) (n : Nat), s.takeInput.1 = .run level ∧ s.procState ≠ .halted ∧
      s.busOwner = .processor ∧ s.sr.mask < level ∧ s.iackVector level = some n ∧ s.exceptionReady n = true :=
  ⟨{ usr with inputs := [.run 1], procState := .stopped, iack := Vector.replicate 8 (.vector 255) }, 1, 255, rfl,
    (by decide), rfl, (by decide +kernel), rfl, by decide +kernel⟩

/-- A transition to level 7 at mask 7, just seen, and one latched before. -/
theorem witness_InterruptTaken_seven :
    ∀ s ∈ [{ sup with inputs := [.run 7] }, { sup with inputs := [.run 7], prevIrqLevel := 7, nmi := true }],
      s.takeInput.1 = .run 7 ∧ s.procState ≠ .halted ∧ s.busOwner = .processor ∧ s.sr.mask = 7 ∧
      (s.sr.mask < 7 ∨ s.nmi = true ∨ ((7 : Fin 8) = 7 ∧ s.prevIrqLevel ≠ 7)) ∧ s.iackVector 7 = some 24 ∧
      s.exceptionReady 24 = true := by decide +kernel

/-- The same at mask 6, level 7, acknowledged with VPA and with BERR. -/
theorem witness_InterruptTaken_edges :
    (∃ s : State, s.sr.mask = 6 ∧ s.iackVector 7 = some 31 ∧ s.exceptionReady 31 = true) ∧
    (∃ s : State, s.sr.mask = 6 ∧ s.iackVector 7 = some 24 ∧ s.exceptionReady 24 = true) :=
  ⟨⟨{ start 0x2600 0 0 0 0 with iack := Vector.replicate 8 .autovector }, rfl, rfl, by decide +kernel⟩,
    ⟨start 0x2600 0 0 0 0, rfl, rfl, by decide +kernel⟩⟩

theorem witness_LevelSevenEdge :
    (∃ s : State, s.prevIrqLevel ≠ 7 ∧ s.sr.mask = 7) ∧
    (∃ s : State, s.prevIrqLevel = 7 ∧ s.nmi = false ∧ s.sr.mask = 7) :=
  ⟨⟨{ sup with prevIrqLevel := 6 }, by decide, rfl⟩, ⟨{ sup with prevIrqLevel := 7 }, rfl, rfl, rfl⟩⟩

theorem witness_StoppedWaits :
    ∃ (s : State) (level : Fin 8), s.takeInput.1 = .run level ∧ s.procState = .stopped ∧ s.busOwner = .processor ∧
      s.nmi = false ∧ level ≤ s.sr.mask ∧ ¬ (level = 7 ∧ s.prevIrqLevel ≠ 7) :=
  ⟨{ start 0x2300 0 0 0 0 with procState := .stopped, inputs := [.run 3] }, 3, rfl, rfl, rfl, rfl, by decide +kernel,
    by decide⟩

/-- The same at level 7, held. -/
theorem witness_StoppedWaits_seven :
    ∃ (s : State), s.takeInput.1 = .run 7 ∧ s.procState = .stopped ∧ s.busOwner = .processor ∧
      s.nmi = false ∧ (7 : Fin 8) ≤ s.sr.mask ∧ ¬ ((7 : Fin 8) = 7 ∧ s.prevIrqLevel ≠ 7) :=
  ⟨{ sup with procState := .stopped, inputs := [.run 7], prevIrqLevel := 7 }, rfl, rfl, rfl, rfl, by decide +kernel,
    by decide +kernel⟩

/-- After a jump, and after an instruction that falls through. -/
theorem witness_TraceTaken :
    (∃ t u : State, t.prefetch = [] ∧ t.traceAtStart = true ∧ t.settle = .next u ∧ u.traceAtStart = true ∧
      u.exceptionReady 9 = true) ∧
    (∃ t u : State, t.prefetch ≠ [] ∧ t.traceAtStart = true ∧ t.settle = .next u ∧ u.traceAtStart = true ∧
      u.exceptionReady 9 = true) :=
  ⟨⟨{ usr with traceAtStart := true }, _, rfl, rfl, rfl, rfl, by decide +kernel⟩,
    ⟨{ usr with traceAtStart := true, prefetch := [{ addr := 0x1000, word := 0, read := false }] }, _, by decide, rfl, rfl, rfl, by decide +kernel⟩⟩

/-- The hypotheses of `IllegalWordTaken` for a word. -/
def illegalMeets (s : State) (e : DecodeError) (n : Nat) : Prop :=
  ∃ (level : Fin 8) (op : Word), s.takeInput.1 = .run level ∧ s.takeInput.2.runs level = true ∧
    (s.takeInput.2.sample level).fetches 1 s.windowWords = true ∧ op = s.wordAt (s.code .program) s.pc ∧ decodeOp op = .error e ∧
    n = (match e with | .line1010 => 10 | .line1111 => 11 | _ => 4) ∧ s.exceptionReady n = true

/-- The three kinds of words that are no instruction. -/
theorem witness_IllegalWordTaken :
    illegalMeets { usr.placeWords 0x1000 [0x4AFC] with prefetch := [{ addr := 0x1000, word := 0x4AFC, read := true }] } .illegal 4 ∧
    illegalMeets (sup.placeWords 0x1000 [0xA000]) .line1010 10 ∧
    illegalMeets (usr.placeWords 0x1000 [0xFFFF]) .line1111 11 :=
  ⟨⟨0, _, rfl, by decide +kernel, by decide +kernel, rfl, rfl, rfl, by decide +kernel⟩,
    ⟨0, _, rfl, by decide +kernel, by decide +kernel, rfl, rfl, rfl, by decide +kernel⟩,
    ⟨0, _, rfl, by decide +kernel, by decide +kernel, rfl, rfl, rfl, by decide +kernel⟩⟩

/-- First words of instructions of one and of five words, extension words of ones after them. -/
theorem witness_IllegalWordTaken_words :
    (∃ i rest, decodeOp 0x4E71 = .ok (i, rest) ∧ 4 ≤ (List.replicate 4 (0x4AFC : Word)).length) ∧
    (∃ i rest, decodeOp 0x23FC = .ok (i, rest) ∧ 4 ≤ (List.replicate 4 (0xFFFF : Word)).length) :=
  ⟨⟨_, _, rfl, by decide⟩, ⟨_, _, rfl, by decide⟩⟩

theorem witness_UnimplementedLines :
    (0xA000 : Word).toNat / 4096 = 10 ∧ (0xAFFF : Word).toNat / 4096 = 10 ∧ (0xF000 : Word).toNat / 4096 = 15 ∧
    (0xFFFF : Word).toNat / 4096 = 15 := by decide

theorem witness_PrivilegeViolation :
    ∀ i ∈ [Instr.stop 0, .resetDevices, .rte, .moveToSr (.dreg 0), .andiToSr 0, .eoriToSr 0, .oriToSr 0, .moveToUsp 0,
      .moveFromUsp 7], isPrivileged i = true ∧ usr.sr.s = false ∧ usr.exceptionReady 8 = true := by decide +kernel

theorem witness_TrapResults :
    usr.exceptionReady (32 + (0 : Fin 16).val) = true ∧ sup.exceptionReady (32 + (15 : Fin 16).val) = true ∧
    ((start 0x2702 0 0 0 0).sr.ccr.v = true ∧ (start 0x2702 0 0 0 0).exceptionReady 7 = true) ∧
    (start 0x2700 0 0 0 0).sr.ccr.v = false := by decide +kernel

/-- The hypotheses of `ChkResults` for CHK D1, D0, within the bounds or outside. -/
def chkMeets (s : State) (bound v : Word) (inside : Bool) : Prop :=
  ∃ (loc : Loc) (p : State), s.beginInstr.resolve (.dreg 1) .word = (loc, p) ∧ loc.readable .word p = true ∧
    bound = lowWord (loc.load .word p) ∧ v = lowWord (p.dreg 0) ∧
    (if inside = true then 0 ≤ v.toInt ∧ v.toInt ≤ bound.toInt
      else (v.toInt < 0 ∨ bound.toInt < v.toInt) ∧ p.exceptionReady 6 = true)

/-- Bounds 0 and 32767 met exactly, one below zero, one above the bound, a bound below zero. -/
theorem witness_ChkResults :
    chkMeets (start 0x2700 0 0 0 0) 0 0 true ∧ chkMeets (start 0x2700 0x7FFF 0x7FFF 0 0) 0x7FFF 0x7FFF true ∧
    chkMeets (start 0 0xFFFF 4 0 0) 4 0xFFFF false ∧ chkMeets (start 0 5 4 0 0) 4 5 false ∧
    chkMeets (start 0x2700 0 0xFFFF 0 0) 0xFFFF 0 false :=
  ⟨⟨_, _, rfl, rfl, by decide +kernel, by decide +kernel, by decide +kernel⟩,
    ⟨_, _, rfl, rfl, by decide +kernel, by decide +kernel, by decide +kernel⟩,
    ⟨_, _, rfl, rfl, by decide +kernel, by decide +kernel, by decide +kernel⟩,
    ⟨_, _, rfl, rfl, by decide +kernel, by decide +kernel, by decide +kernel⟩,
    ⟨_, _, rfl, rfl, by decide +kernel, by decide +kernel, by decide +kernel⟩⟩

theorem witness_ZeroDivideTaken :
    ∃ (ea : Ea) (s : State) (loc : Loc) (p : State), s.beginInstr.resolve ea .word = (loc, p) ∧
      loc.readable .word p = true ∧ lowWord (loc.load .word p) = 0 ∧ p.exceptionReady 5 = true :=
  ⟨.postInc 7, usr, _, _, rfl, by decide +kernel, by decide +kernel, by decide +kernel⟩

/-- A word and a long word read at an odd address, in data and in program space; a word and a long word written to the
lowest and the highest odd address. -/
theorem witness_AddressErrorTaken :
    (∃ (ea : Ea) (s p : State) (sp : Space) (a : Long), s.beginInstr.resolve ea .word = (.mem sp a, p) ∧
      a.getLsbD 0 = true ∧ (∀ g, s.procState ≠ .exception g) ∧ p.group0Ready 3 = true) ∧
    (∃ (ea : Ea) (s p : State) (sp : Space) (a : Long), s.beginInstr.resolve ea .long = (.mem sp a, p) ∧
      a.getLsbD 0 = true ∧ (∀ g, s.procState ≠ .exception g) ∧ p.group0Ready 3 = true) ∧
    (∃ (src dst : Ea) (s p q : State) (from_ : Loc) (sp : Space) (a : Long),
      s.beginInstr.resolve src .word = (from_, p) ∧ from_.readable .word p = true ∧
      p.resolve dst .word = (.mem sp a, q) ∧ a = 1 ∧ a.getLsbD 0 = true ∧ (∀ g, s.procState ≠ .exception g) ∧
      q.group0Ready 3 = true) ∧
    (∃ (src dst : Ea) (s p q : State) (from_ : Loc) (sp : Space) (a : Long),
      s.beginInstr.resolve src .long = (from_, p) ∧ from_.readable .long p = true ∧
      p.resolve dst .long = (.mem sp a, q) ∧ a = 0xFFFFFFFF ∧ a.getLsbD 0 = true ∧ (∀ g, s.procState ≠ .exception g) ∧
      q.group0Ready 3 = true) :=
  ⟨⟨.absShort 0x2001, usr, _, _, _, rfl, by decide +kernel, fun _ h => (by cases h), by decide +kernel⟩,
    ⟨.pcDisp 0xFFFF, sup, _, _, _, rfl, by decide +kernel, fun _ h => (by cases h), by decide +kernel⟩,
    ⟨.postInc 0, .absShort 1, usr, _, _, _, _, _, rfl, by decide +kernel, rfl, by decide +kernel, by decide +kernel,
      fun _ h => (by cases h), by decide +kernel⟩,
    ⟨.dreg 0, .absLong 0xFFFFFFFF, sup, _, _, _, _, _, rfl, rfl, rfl, rfl, by decide +kernel, fun _ h => (by cases h),
      by decide +kernel⟩⟩

/-- An odd stack pointer of user state, for PEA and RTS (the stack of the exception is the other one), and an odd program
counter. -/
theorem witness_AddressErrorTaken_stack :
    (∃ (s p : State) (loc : Loc), s.beginInstr.resolve (.absShort 0) .long = (loc, p) ∧ p.sp.getLsbD 0 = true ∧
      (∀ g, s.procState ≠ .exception g) ∧ p.group0Ready 3 = true) ∧
    (∃ s : State, s.sp.getLsbD 0 = true ∧ (∀ g, s.procState ≠ .exception g) ∧ s.group0Ready 3 = true) ∧
    (∃ (s : State) (level : Fin 8), s.takeInput.1 = .run level ∧ s.takeInput.2.runs level = true ∧
      s.pc.getLsbD 0 = true ∧ s.inGroup0 = false ∧ s.group0Ready 3 = true) :=
  ⟨⟨{ usr with usp := 1 }, _, _, rfl, by decide +kernel, fun _ h => (by cases h), by decide +kernel⟩,
    ⟨{ usr with usp := 0xFFFFFFFF }, by decide +kernel, fun _ h => (by cases h), by decide +kernel⟩,
    ⟨{ usr with pc := 0xFFFFFFFF }, 0, rfl, by decide +kernel, by decide +kernel, rfl, by decide +kernel⟩⟩

/-- The hypotheses of `BusErrorTaken` for a read of a size at $2000 by (A0)+, a bus error at an address. -/
def berrMeets (s : State) (sz : Size) (cycles : List Long) (x : Long) : Prop :=
  ∃ (p : State) (sp : Space) (a : Long),
    s.beginInstr.resolve (.postInc 0) sz = (.mem sp a, p) ∧ aligned a sz = true ∧
    cycles = (if sz = .long then [a, a + 2] else [a]) ∧ x ∈ cycles ∧
    (cycles.all fun y =>
      decide (s.cycle false { code := s.code sp, dir := .read, width := widthOf sz, addr := y } =
        (if y = x then .berr else .done))) = true ∧
    (∀ g, s.procState ≠ .exception g) ∧ p.group0Ready 2 = true

/-- A byte, a word, and each half of a long word read. -/
theorem witness_BusErrorTaken :
    berrMeets { usr with busMap := berrAt 0x2000 } .byte [0x2000] 0x2000 ∧
    berrMeets { usr with busMap := berrAt 0x2000 } .word [0x2000] 0x2000 ∧
    berrMeets { usr with busMap := berrAt 0x2000 } .long [0x2000, 0x2002] 0x2000 ∧
    berrMeets { usr with busMap := berrAt 0x2002 } .long [0x2000, 0x2002] 0x2002 :=
  ⟨⟨_, _, _, rfl, by decide +kernel, rfl, by decide, by decide +kernel, fun _ h => (by cases h), by decide +kernel⟩,
    ⟨_, _, _, rfl, by decide +kernel, rfl, by decide, by decide +kernel, fun _ h => (by cases h), by decide +kernel⟩,
    ⟨_, _, _, rfl, by decide +kernel, rfl, by decide, by decide +kernel, fun _ h => (by cases h), by decide +kernel⟩,
    ⟨_, _, _, rfl, by decide +kernel, rfl, by decide, by decide +kernel, fun _ h => (by cases h), by decide +kernel⟩⟩

/-- A byte written at an odd address, and a word. -/
theorem witness_BusErrorTaken_write :
    ∀ sz ∈ [Size.byte, .word], ∃ (dst : Ea) (s p q : State) (from_ : Loc) (sp : Space) (a : Long) (c : BusCycle),
      s.beginInstr.resolve (.dreg 0) sz = (from_, p) ∧ from_.readable sz p = true ∧
      p.resolve dst sz = (.mem sp a, q) ∧ aligned a sz = true ∧
      c = { code := s.code .data, dir := .write, width := widthOf sz, addr := a } ∧ s.cycle false c = .berr ∧
      (∀ g, s.procState ≠ .exception g) ∧ q.group0Ready 2 = true :=
  List.forall_mem_cons.mpr ⟨⟨.disp 0 1, { usr with busMap := berrAt 0x2001 }, _, _, _, _, _, _, rfl, rfl, rfl, by decide +kernel, rfl,
      by decide +kernel, fun _ h => (by cases h), by decide +kernel⟩,
    List.forall_mem_singleton.mpr ⟨.preDec 7, { sup with busMap := berrAt 0x2FFE, ssp := 0x3000 }, _, _, _, _, _, _, rfl, rfl, rfl, by decide +kernel,
      rfl, by decide +kernel, fun _ h => (by cases h), by decide +kernel⟩⟩

/-- A bus error on the first word of the program memory at $1000. -/
theorem witness_BusErrorTaken_target :
    ∃ s : State, s.procState = .normal ∧ s.prefetch = [] ∧ s.pc.getLsbD 0 = false ∧ s.inGroup0 = false ∧
      s.cycle false (wordRead (s.code .program) s.pc) = .berr ∧ s.group0Ready 2 = true :=
  ⟨{ sup with busMap := berrAt 0x1000 }, rfl, rfl, by decide +kernel, rfl, by decide +kernel, by decide +kernel⟩

/-- Words at a target that can be read, in the window. -/
theorem witness_DoubleFaultHalts_target :
    ∃ s t : State, s.inGroup0 = true ∧ s.plain = true ∧ s.settle = .next t :=
  ⟨{ sup with inGroup0 := true }, _, rfl, rfl, rfl⟩

theorem witness_DoubleFaultHalts :
    ({ sup with inGroup0 := true } : State).inGroup0 = true ∧
    ({ usr with ssp := 0x3001 } : State).inGroup0 = false ∧ ({ usr with ssp := 0x3001 } : State).ssp.getLsbD 0 = true := by
  decide +kernel

/-- An instruction that stays in user state, and one that leaves it. -/
theorem witness_UserStateConfined :
    (∃ t, usr.sr.s = false ∧ exec (.addToReg .long (.dreg 1) 0) usr = .next t ∧ t.sr.s = false) ∧
    (∃ t, usr.sr.s = false ∧ exec (.trap 0) usr = .next t ∧ t.sr.s = true ∧ usr.plain = true) :=
  ⟨⟨_, rfl, rfl, by decide +kernel⟩, ⟨_, rfl, rfl, by decide +kernel, rfl⟩⟩

/-- Operands of each size, the greatest ones (the statements on flags and shifts ask that they fit the size). -/
theorem witness_AddSubFlags :
    trunc .byte 0xFF = 0xFF ∧ trunc .word 0xFFFF = 0xFFFF ∧ trunc .long 0xFFFFFFFF = 0xFFFFFFFF ∧
    trunc .byte 0 = 0 := by decide

theorem witness_NegateFlags : trunc .byte 0x80 = 0x80 ∧ trunc .word 0x8000 = 0x8000 ∧ trunc .long 0x80000000 = 0x80000000 := by
  decide

theorem witness_ConditionsAfterCompare : trunc .word 0x8000 = 0x8000 ∧ trunc .word 0x7FFF = 0x7FFF := by decide

/-- The counts 0, one less than the width, the width, one more, and the greatest one (the statement asks nothing of a
count). -/
theorem witness_ShiftClosedForms :
    (trunc .byte 0xFF = 0xFF ∧ trunc .word 0xFFFF = 0xFFFF ∧ trunc .long 0xFFFFFFFF = 0xFFFFFFFF) ∧
    (sizeBits .byte = 8 ∧ sizeBits .word = 16 ∧ sizeBits .long = 32) ∧
    ([0, 7, 8, 9, 15, 16, 17, 31, 32, 33, 63] : List Nat).length = 11 := by decide

/-- Quotients at the edge, an overflow, the greatest dividend. -/
theorem witness_DivisionLaw :
    (0xFFFF : Word) ≠ 0 ∧ (∃ q r, divUnsigned 0xFFFEFFFF 0xFFFF = some (q, r)) ∧ divUnsigned 0x10000 1 = none ∧
    (∃ q r, divSigned 0xFFFF8000 1 = some (q, r)) ∧ divSigned 0x80000000 0xFFFF = none :=
  ⟨by decide, ⟨_, _, rfl⟩, rfl, ⟨_, _, rfl⟩, rfl⟩

theorem witness_DecimalArithmetic : (99 < 100 ∧ 0 < 100) ∧ 99 < 99 + 99 + true.toNat ∧ (0 : Int) - 99 - true.toNat < 0 := by
  decide

/-- Across the end of the address space. -/
theorem witness_BigEndianStore :
    ∃ (a : Long) (write : Long → BusCycle), sup.mem.wf = true ∧ a.getLsbD 0 = false ∧
      write = (fun x => { code := sup.code .data, dir := .write, width := .word, addr := x }) ∧
      sup.stores (write a) .done = true ∧ sup.stores (write (a + 2)) .done = true :=
  ⟨0xFFFFFFFE, _, by decide +kernel, rfl, rfl, by decide +kernel, by decide +kernel⟩

theorem witness_FetchIsOldOrNew :
    (∃ t w, sup.plain = true ∧ fetchWord 0x2000 sup = .ok w t) ∧
    (∃ t w, sup.plain = true ∧
      fetchWord 0x2000 { sup with prefetch := [{ addr := 0x2000, word := 0x0102, read := false }] } = .ok w t) :=
  ⟨⟨_, _, rfl, rfl⟩, ⟨_, _, rfl, rfl⟩⟩

/-- A word read for sure that differs from the one in memory, with S changed or not, and a platform with a cycle in store. -/
theorem witness_FetchIsOldOrNew_surely :
    (∃ (s : State) (e : AheadWord), s.aheadAt 0x2000 = some e ∧ e.read = true ∧
      e.word ≠ s.wordAt (s.code .program) 0x2000) ∧
    (∃ s : State, s.quiet = false) :=
  ⟨⟨{ usr with prefetch := [{ addr := 0x2000, word := 0x4E71, read := true }] }, _, rfl, rfl, by decide +kernel⟩,
    ⟨{ sup with cycles := [asMapped] }, rfl⟩⟩

/-- The last word of a window, all of which bus cycles have read ahead, with a cycle in store and without. -/
theorem witness_FetchIsOldOrNew_stays :
    ∀ es ∈ [[], [asMapped]], ∃ (s : State) (e : AheadWord), s.cycles = es ∧ (1 : Nat) < 2 ∧
      s.aheadAt (0x2000 + BitVec.ofNat 32 (2 * 1)) = some e ∧ e.read = true ∧ (s.readAhead 2 0x2000).error = none := by
  intro es _
  refine ⟨{ usr with
    prefetch := [{ addr := 0x2000, word := 1, read := true }, { addr := 0x2002, word := 2, read := true }]
    cycles := es }, _, rfl, by decide, rfl, rfl, ?_⟩
  unfold State.readAhead
  dsimp only
  split
  · rfl
  · show (fetchWords (2 + Config.freeChoice _ % (0 + 1)) _ _).error = none
    rw [Nat.zero_add, Nat.mod_one]
    rfl

/-- The words at a target, and no window. -/
theorem witness_FetchIsOldOrNew_target :
    (sup.procState = .normal ∧ sup.prefetch = [] ∧ sup.targetReady = true) ∧
    ({ sup with prefetchWindow := 0 } : State).targetReady = true := by decide +kernel

theorem witness_RegisterArithmetic :
    ∃ (sz : Size) (ea : Ea) (s p : State) (loc : Loc), s.beginInstr.resolve ea sz = (loc, p) ∧
      loc.readable sz p = true := ⟨.long, .preDec 1, sup, _, _, rfl, by decide +kernel⟩

/-- A byte at an odd address, in user state. -/
theorem witness_MemoryArithmetic :
    ∃ (ea : Ea) (s p : State) (loc : Loc), s.beginInstr.resolve ea .byte = (loc, p) ∧ loc.readable .byte p = true ∧
      loc.writable .byte p = true := ⟨.disp 0 1, usr, _, _, rfl, by decide +kernel, by decide +kernel⟩

theorem witness_ImmediateArithmetic :
    ∃ (ea : Ea) (s p : State) (loc : Loc), (s.beginInstr.advance (immBytes .long)).resolve ea .long = (loc, p) ∧
      loc.readable .long p = true ∧ loc.writable .long p = true :=
  ⟨.absLong 0xFFFFFFFC, sup, _, _, rfl, by decide +kernel, by decide +kernel⟩

theorem witness_UnaryResults :
    ∃ (ea : Ea) (s p : State) (loc : Loc), s.beginInstr.resolve ea .byte = (loc, p) ∧ loc.readable .byte p = true ∧
      loc.writable .byte p = true := ⟨.preDec 7, usr, _, _, rfl, by decide +kernel, by decide +kernel⟩

theorem witness_CompareResults :
    (∃ (ea : Ea) (s p : State) (loc : Loc), s.beginInstr.resolve ea .word = (loc, p) ∧ loc.readable .word p = true) ∧
    (∃ (ea : Ea) (s p : State) (loc : Loc), (s.beginInstr.advance (immBytes .byte)).resolve ea .byte = (loc, p) ∧
      loc.readable .byte p = true) ∧
    (∃ (ea : Ea) (s p : State) (loc : Loc), s.beginInstr.resolve ea AddrSize.long.toSize = (loc, p) ∧
      loc.readable AddrSize.long.toSize p = true) ∧
    (∃ s q : State, q = s.beginInstr.setA 1 (s.areg 1 + eaStep .long 1) ∧
      s.canAccess .data .read (s.areg 1) .long = true ∧ s.canAccess .data .read (q.areg 1) .long = true) :=
  ⟨⟨.pcIndex { isAddr := false, reg := 1, isLong := true, disp := 1 }, sup, _, _, rfl, by decide +kernel⟩,
    ⟨.absShort 0xFFFF, usr, _, _, rfl, by decide +kernel⟩, ⟨.areg 7, usr, _, _, rfl, by decide +kernel⟩,
    ⟨usr, _, rfl, by decide +kernel, by decide +kernel⟩⟩

theorem witness_AddressArithmetic :
    ∃ (sz : AddrSize) (ea : Ea) (s p : State) (loc : Loc), s.beginInstr.resolve ea sz.toSize = (loc, p) ∧
      loc.readable sz.toSize p = true := ⟨.word, .postInc 0, sup, _, _, rfl, by decide +kernel⟩

theorem witness_QuickArithmetic :
    (∃ k : Long, k = BitVec.ofNat 32 (if (0 : Fin 8).val = 0 then 8 else (0 : Fin 8).val)) ∧
    (∃ (ea : Ea) (s p : State) (loc : Loc), ea.isAddrReg = false ∧ s.beginInstr.resolve ea .word = (loc, p) ∧
      loc.readable .word p = true ∧ loc.writable .word p = true) :=
  ⟨⟨_, rfl⟩, ⟨.postInc 0, usr, _, _, rfl, rfl, by decide +kernel, by decide +kernel⟩⟩

theorem witness_ExtendedArithmetic :
    ∃ (s q : State) (ay ax : Long), ay = s.areg 7 - eaStep .byte 7 ∧ q = s.beginInstr.setA 7 ay ∧
      ax = q.areg 7 - eaStep .byte 7 ∧ s.canAccess .data .read ay .byte = true ∧
      s.canAccess .data .read ax .byte = true ∧ s.canAccess .data .write ax .byte = true :=
  ⟨usr, _, _, _, rfl, rfl, rfl, by decide +kernel, by decide +kernel, by decide +kernel⟩

/-- The product of the two most negative words, and of the two greatest. -/
theorem witness_MultiplyResults :
    ∃ (ea : Ea) (s p : State) (loc : Loc) (src dst : Word) (rs ru : Long),
      s.beginInstr.resolve ea .word = (loc, p) ∧ loc.readable .word p = true ∧
      src = lowWord (loc.load .word p) ∧ dst = lowWord (p.dreg 0) ∧
      rs.toInt = dst.toInt * src.toInt ∧ ru.toNat = dst.toNat * src.toNat :=
  ⟨.dreg 1, start 0x2700 0x8000 0x8000 0 0, _, _, _, _, 0x40000000, 0x40000000, rfl, rfl, rfl, rfl, by decide +kernel,
    by decide +kernel⟩

theorem witness_DivideResults :
    (∃ (s p : State) (loc : Loc) (src : Word), s.beginInstr.resolve (.dreg 1) .word = (loc, p) ∧
      loc.readable .word p = true ∧ src = lowWord (loc.load .word p) ∧ src ≠ 0 ∧
      (∃ q r, divSigned (p.dreg 0) src = some (q, r))) ∧
    (∃ (s p : State) (loc : Loc) (src : Word), s.beginInstr.resolve (.dreg 1) .word = (loc, p) ∧
      loc.readable .word p = true ∧ src = lowWord (loc.load .word p) ∧ src ≠ 0 ∧
      divUnsigned (p.dreg 0) src = none) :=
  ⟨⟨start 0x2700 0xFFFF8000 1 0 0, _, _, _, rfl, rfl, rfl, by decide +kernel, ⟨_, _, rfl⟩⟩,
    ⟨start 0x2700 0x10000 1 0 0, _, _, _, rfl, rfl, rfl, by decide +kernel, rfl⟩⟩

theorem witness_DecimalResults :
    (∃ (s : State) (sd dd : Nat) (r : Byte) (c : Bool), decOf ((s.dreg 1).setWidth 8) = some sd ∧
      decOf ((s.dreg 0).setWidth 8) = some dd ∧ (r, c) = bcdAdd sd dd s.sr.ccr.x) ∧
    (∃ (s q : State) (ay ax : Long) (sd dd : Nat) (r : Byte) (c : Bool),
      ay = s.areg 0 - eaStep .byte 0 ∧ q = s.beginInstr.setA 0 ay ∧ ax = q.areg 1 - eaStep .byte 1 ∧
      s.canAccess .data .read ay .byte = true ∧ s.canAccess .data .read ax .byte = true ∧
      s.canAccess .data .write ax .byte = true ∧ decOf (s.byteAt (s.code .data) ay) = some sd ∧ decOf (s.byteAt (s.code .data) ax) = some dd ∧
      (r, c) = bcdSub sd dd s.sr.ccr.x) ∧
    (∃ (s p : State) (loc : Loc) (dd : Nat) (r : Byte) (c : Bool), s.beginInstr.resolve (.ind 0) .byte = (loc, p) ∧
      loc.readable .byte p = true ∧ loc.writable .byte p = true ∧
      decOf ((loc.load .byte p).setWidth 8) = some dd ∧ (r, c) = bcdSub dd 0 s.sr.ccr.x) :=
  ⟨⟨start 0x2710 0x99 0x99 0 0, 99, 99, _, _, by decide +kernel, by decide +kernel, rfl⟩,
    ⟨start 0x2710 0 0 0x2001 0x2003, _, _, _, 0, 0, _, _, rfl, rfl, rfl, by decide +kernel, by decide +kernel,
      by decide +kernel, by decide +kernel, by decide +kernel, rfl⟩,
    ⟨(start 0x2710 0 0 0x2001 0).placeWords 0x2000 [0x0099], _, _, 99, _, _, rfl, by decide +kernel, by decide +kernel,
      by decide +kernel, rfl⟩⟩

/-- Source and destination through one register, and a source read by MOVEA. -/
theorem witness_MoveResults :
    (∃ (s p q : State) (from_ to_ : Loc), s.beginInstr.resolve (.postInc 0) .long = (from_, p) ∧
      from_.readable .long p = true ∧ p.resolve (.preDec 0) .long = (to_, q) ∧ to_.writable .long q = true) ∧
    (∃ (s p : State) (from_ : Loc), s.beginInstr.resolve (.postInc 7) .word = (from_, p) ∧
      from_.readable .word p = true) :=
  ⟨⟨usr, _, _, _, _, rfl, by decide +kernel, rfl, by decide +kernel⟩, ⟨usr, _, _, rfl, by decide +kernel⟩⟩

theorem witness_StackFrameResults :
    (∃ (s p : State) (loc : Loc), s.beginInstr.resolve (.absShort 0x8000) .long = (loc, p) ∧
      p.canAccess .data .write (p.sp - 4) .long = true) ∧
    usr.canAccess .data .write (usr.sp - 4) .long = true ∧ usr.canAccess .data .read (usr.areg 7) .long = true ∧
    usr.canAccess .data .read (usr.areg 0) .long = true :=
  ⟨⟨usr, _, _, rfl, by decide +kernel⟩, by decide +kernel, by decide +kernel, by decide +kernel⟩

/-- Every register, and none. -/
theorem witness_MovemResults :
    (∃ (s p : State) (loc : Loc), (Ea.ind 0).isPreDec = false ∧
      (s.beginInstr.advance 2).resolve (.ind 0) .long = (loc, p) ∧
      p.canAccessList .data .write .long 4 16 loc.address = true) ∧
    (maskBits 0xFFFF).length = 16 ∧ (maskBits 0).length = 0 ∧
    (sup.beginInstr.advance 2).canAccessList .data .write .word (-2) 16 (sup.areg 0 - 2) = true ∧
    (∃ (s p : State) (loc : Loc), (Ea.pcDisp 0).isPostInc = false ∧
      (s.beginInstr.advance 2).resolve (.pcDisp 0) .word = (loc, p) ∧
      p.canAccessList loc.space .read .word 2 16 loc.address = true ∧
      p.canAccess loc.space .read (loc.address + 32) .word = true) ∧
    (usr.beginInstr.advance 2).canAccessList .data .read .long 4 16 (usr.areg 7) = true ∧
    (usr.beginInstr.advance 2).canAccess .data .read (usr.areg 7 + 64) .word = true :=
  ⟨⟨usr, _, _, rfl, rfl, by decide +kernel⟩, rfl, rfl, by decide +kernel, ⟨sup, _, _, rfl, rfl, by decide +kernel,
    by decide +kernel⟩, by decide +kernel, by decide +kernel⟩

theorem witness_MovepResults :
    usr.canAccessList .data .write .byte 2 2 0x2001 = true ∧ usr.canAccessList .data .write .byte 2 4 0xFFFFFFFF = true ∧
    usr.canAccessList .data .read .byte 2 2 0x2000 = true ∧ usr.canAccessList .data .read .byte 2 4 0x2001 = true := by
  decide +kernel

/-- The static form on memory with number 15, the dynamic one on a register with number 33. -/
theorem witness_BitResults :
    (∃ (s p : State) (loc : Loc), (∀ n, Ea.postInc 0 ≠ .dreg n) ∧ (15 : Byte).toNat % 8 = 7 ∧
      (s.beginInstr.advance 2).resolve (.postInc 0) .byte = (loc, p) ∧ loc.readable .byte p = true ∧
      loc.writable .byte p = true) ∧
    (∃ (s p : State) (loc : Loc) (b : Byte), (∃ n, Ea.dreg 1 = .dreg n) ∧ b = (s.dreg 0).setWidth 8 ∧
      b.toNat % 32 = 1 ∧ s.beginInstr.resolve (.dreg 1) .long = (loc, p) ∧ loc.readable .long p = true ∧
      loc.writable .long p = true) :=
  ⟨⟨usr, _, _, fun _ h => (by cases h), rfl, rfl, by decide +kernel, by decide +kernel⟩,
    ⟨start 0 33 0 0 0, _, _, _, ⟨1, rfl⟩, rfl, by decide +kernel, rfl, rfl, rfl⟩⟩

/-- A count of 8 from the field 0, and of 63 from a register; a word in memory. -/
theorem witness_ShiftResults :
    (∃ k : Nat, k = (if (0 : Fin 8).val = 0 then 8 else (0 : Fin 8).val) ∧ k = 8) ∧
    ((start 0x2700 0xFFFFFFFF 0 0 0).dreg 0).toNat % 64 = 63 ∧
    (∃ (s q : State) (loc : Loc), s.beginInstr.resolve (.preDec 0) .word = (loc, q) ∧ loc.readable .word q = true ∧
      loc.writable .word q = true) :=
  ⟨⟨8, rfl, rfl⟩, by decide +kernel, ⟨usr, _, _, rfl, by decide +kernel, by decide +kernel⟩⟩

theorem witness_TasResults :
    (∃ (s p : State) (n : Reg) (b : Byte), s.beginInstr.resolve (.dreg 0) .byte = (.dreg n, p) ∧
      b = (p.dreg n).setWidth 8) ∧
    (∃ (s p : State) (sp : Space) (a : Long), s.beginInstr.resolve (.postInc 7) .byte = (.mem sp a, p) ∧
      p.canRmw a = true) := ⟨⟨sup, _, _, _, rfl, rfl⟩, ⟨usr, _, _, _, rfl, by decide +kernel⟩⟩

/-- Conditions that hold and fail, and the counter at its last value and before. -/
theorem witness_BranchResults :
    condHolds (start 0x2704 0 0 0 0).sr.ccr .eq = true ∧ condHolds (start 0x2700 0 0 0 0).sr.ccr .eq = false ∧
    (∃ count : Word, count = ((start 0x2700 0x10000 0 0 0).dreg 0).setWidth 16 ∧ count = 0) ∧
    (∃ count : Word, count = ((start 0x2700 0xFFFF 0 0 0).dreg 0).setWidth 16 ∧ count ≠ 0) :=
  ⟨by decide +kernel, by decide +kernel, ⟨_, rfl, by decide +kernel⟩, ⟨_, rfl, by decide +kernel⟩⟩

theorem witness_CallResults :
    (∃ target : Long, target = usr.pc + 2 + (0xFE : Byte).signExtend 32 ∧ target.getLsbD 0 = false) ∧
    usr.canAccess .data .write (usr.sp - 4) .long = true ∧
    (∃ (s p : State) (loc : Loc), s.beginInstr.resolve (.ind 0) .long = (loc, p) ∧ loc.address.getLsbD 0 = false ∧
      p.canAccess .data .write (p.sp - 4) .long = true) ∧
    (∃ target : Long, target = usr.pc + 2 + (0xFF : Byte).signExtend 32 ∧ target.getLsbD 0 = true) ∧
    (∃ target : Long, target = usr.pc + 2 + (0x7FFF : Word).signExtend 32 ∧ target.getLsbD 0 = true) ∧
    (∃ (s p : State) (loc : Loc), s.beginInstr.resolve (.absShort 0xFFFF) .long = (loc, p) ∧
      loc.address.getLsbD 0 = true ∧ p.canAccess .data .write (p.sp - 4) .long = true) :=
  ⟨⟨_, rfl, by decide +kernel⟩, by decide +kernel, ⟨sup, _, _, rfl, by decide +kernel, by decide +kernel⟩,
    ⟨_, rfl, by decide +kernel⟩, ⟨_, rfl, by decide +kernel⟩, ⟨usr, _, _, rfl, by decide +kernel, by decide +kernel⟩⟩

theorem witness_ReturnResults :
    usr.canAccess .data .read usr.sp .long = true ∧ usr.canAccess .data .read usr.sp .word = true ∧
    usr.canAccess .data .read (usr.sp + 2) .long = true := by decide +kernel

/-- RTE with an odd SSP. -/
theorem witness_ReturnResults_cut :
    ∃ (s t : State) (e : Abort), s.sr.s = true ∧ returnFromException s.beginInstr = .error e t :=
  ⟨{ sup with ssp := 0x3001 }, _, _, rfl,
    (run_bind_ok (run_get _)).trans (run_bind_error (onAbort_error (readMem_misaligned rfl rfl rfl)))⟩

theorem witness_ConditionCodeMoves :
    ∃ (s p : State) (loc : Loc), s.beginInstr.resolve (.postInc 0) .word = (loc, p) ∧ loc.readable .word p = true ∧
      loc.writable .word p = true := ⟨usr, _, _, rfl, by decide +kernel, by decide +kernel⟩

theorem witness_SupervisorResults :
    sup.sr.s = true ∧ (∃ (p : State) (loc : Loc), sup.beginInstr.resolve (.imm 0xFFFF) .word = (loc, p) ∧
      loc.readable .word p = true) ∧
    sup.canAccess .data .read sup.ssp .word = true ∧ sup.canAccess .data .read (sup.ssp + 2) .long = true :=
  ⟨rfl, ⟨_, _, rfl, rfl⟩, by decide +kernel, by decide +kernel⟩

theorem witness_RegisterFrame :
    ∃ (p : State) (loc : Loc), usr.beginInstr.resolve (.postInc 0) .word = (loc, p) ∧ loc.readable .word p = true ∧
      lowWord (loc.load .word p) ≠ 0 ∧
      ∀ i ∈ [Instr.addToReg .word (.postInc 0) 0, .subToReg .word (.postInc 0) 0, .andToReg .word (.postInc 0) 0,
          .orToReg .word (.postInc 0) 0, .muls (.postInc 0) 0, .mulu (.postInc 0) 0, .divs (.postInc 0) 0,
          .divu (.postInc 0) 0, .cmp .word (.postInc 0) 0, .tst .word (.postInc 0), .cmpa .word (.postInc 0) 0,
          .moveToCcr (.postInc 0), .adda .word (.postInc 0) 0, .suba .word (.postInc 0) 0, .moveaWord (.postInc 0) 0],
        ∃ t, exec i usr = .next t :=
  ⟨_, _, rfl, by decide +kernel, by decide +kernel, goes_all (by decide +kernel)⟩

theorem witness_OneRegisterFrame :
    ∀ i ∈ [Instr.aslReg .byte (.reg 1) 0, .negx .long (.dreg 7), .nbcd (.dreg 0), .addx .word false 1 1,
        .sbcd false 1 0, .addi .byte 0xFF (.dreg 0), .subq 0 .long (.dreg 0), .rolReg .word (.imm 0) 7, .swap 0,
        .extReg .word 0, .moveq 7 0x80, .tas (.dreg 0), .eori .long 1 (.dreg 0), .bchgStatic 0xFF (.dreg 0),
        .bsetDynamic 0 (.dreg 0), .scc .t (.dreg 0), .moveFromSr (.dreg 0)],
      ∃ t, exec i usr = .next t := goes_all (by decide +kernel)

theorem witness_OneRegisterFrame_usp : sup.sr.s = true ∧ ∃ t, exec (.moveFromUsp 7) sup = .next t :=
  ⟨rfl, goes_next (by decide +kernel)⟩

theorem witness_StoreFrame :
    usr.mem.wf = true ∧
    (∃ (p : State) (sp : Space) (a : Long), usr.beginInstr.resolve (.preDec 1) .long = (.mem sp a, p) ∧
      p.canAccess sp .read a .long = true ∧ p.canAccess .data .write a .long = true) ∧
    (∃ (p : State) (sp : Space) (a : Long),
      (usr.beginInstr.advance (immBytes .byte)).resolve (.preDec 7) .byte = (.mem sp a, p) ∧
      p.canAccess sp .read a .byte = true ∧ p.canAccess .data .write a .byte = true) ∧
    (∀ i ∈ [Instr.addToMem .long 0 (.preDec 1), .neg .long (.preDec 1), .subq 1 .long (.preDec 1),
        .addi .byte 1 (.preDec 7), .nbcd (.ind 0), .aslMem (.postInc 0), .eorToEa .long 0 (.preDec 1),
        .clr .long (.preDec 1), .andi .byte 1 (.preDec 7), .rolMem (.ind 0), .bchgDynamic 0 (.disp 0 1),
        .scc .f (.preDec 7), .moveFromSr (.ind 0)], ∃ t, exec i usr = .next t) :=
  ⟨by decide +kernel, ⟨_, _, _, rfl, by decide +kernel, by decide +kernel⟩,
    ⟨_, _, _, rfl, by decide +kernel, by decide +kernel⟩, goes_all (by decide +kernel)⟩

/-- TAS, the static bit operations, and the memory form of ADDX, SUBX, ABCD and SBCD, also through one register. -/
theorem witness_StoreFrame_more :
    (∃ (p : State) (sp : Space) (a : Long), usr.beginInstr.resolve (.postInc 7) .byte = (.mem sp a, p) ∧
      p.canAccess sp .read a .byte = true ∧ p.canAccess .data .write a .byte = true ∧ p.canRmw a = true) ∧
    (∃ (p : State) (sp : Space) (a : Long),
      (usr.beginInstr.advance 2).resolve (.disp 0 1) .byte = (.mem sp a, p) ∧
      p.canAccess sp .read a .byte = true ∧ p.canAccess .data .write a .byte = true) ∧
    (∀ q ∈ [((1 : Reg), (0 : Reg), Size.long), (7, 7, .byte)],
      ∃ (u p : State) (sp : Space) (a : Long),
        u = usr.beginInstr.setA q.1 (usr.areg q.1 - eaStep q.2.2 q.1) ∧
        u.resolve (.preDec q.2.1) q.2.2 = (.mem sp a, p) ∧
        usr.canAccess .data .read (usr.areg q.1 - eaStep q.2.2 q.1) q.2.2 = true ∧
        p.canAccess sp .read a q.2.2 = true ∧ p.canAccess .data .write a q.2.2 = true) ∧
    (∀ i ∈ [Instr.tas (.postInc 7), .bsetStatic 15 (.disp 0 1), .bclrStatic 0 (.disp 0 1), .bchgStatic 7 (.disp 0 1),
        .addx .long true 1 0, .subx .byte true 7 7, .abcd true 7 7, .sbcd true 7 7], ∃ t, exec i usr = .next t) := by
  refine ⟨⟨_, _, _, rfl, by decide +kernel, by decide +kernel, by decide +kernel⟩,
    ⟨_, _, _, rfl, by decide +kernel, by decide +kernel⟩, ?_, goes_all (by decide +kernel)⟩
  exact List.forall_mem_cons.mpr ⟨⟨_, _, _, _, rfl, rfl, by decide +kernel, by decide +kernel, by decide +kernel⟩,
    List.forall_mem_singleton.mpr ⟨_, _, _, _, rfl, rfl, by decide +kernel, by decide +kernel, by decide +kernel⟩⟩

theorem witness_MoveStoreFrame :
    ∃ (s p q : State) (from_ : Loc) (sp : Space) (a : Long), s.mem.wf = true ∧
      s.beginInstr.resolve (.postInc 0) .long = (from_, p) ∧ from_.readable .long p = true ∧
      p.resolve (.preDec 0) .long = (.mem sp a, q) ∧ q.canAccess .data .write a .long = true ∧
      ∃ t, exec (.moveLong (.postInc 0) (.preDec 0)) s = .next t :=
  ⟨usr, _, _, _, _, _, by decide +kernel, rfl, by decide +kernel, rfl, by decide +kernel,
    goes_next (by decide +kernel)⟩

/-- MOVEM of every register and of none, in both forms, and MOVEP of both sizes, past the end of the address space. -/
theorem witness_MoveStoreFrame_more :
    usr.mem.wf = true ∧ (maskBits 0xFFFF).length = 16 ∧ (maskBits 0).length = 0 ∧ (Ea.disp 0 2).isPreDec = false ∧
    (∃ (p : State) (loc : Loc), (usr.beginInstr.advance 2).resolve (.disp 0 2) .long = (loc, p) ∧
      p.canAccessList .data .write .long 4 16 loc.address = true) ∧
    usr.canAccessList .data .write .word (-2) 16 (usr.areg 0 - 2) = true ∧
    usr.canAccessList .data .write .byte 2 2 (usr.areg 0 + (1 : Word).signExtend 32) = true ∧
    { usr with a := Vector.replicate 7 0 }.canAccessList .data .write .byte 2 4 (0 + (0xFFFF : Word).signExtend 32) = true ∧
    (∀ i ∈ [Instr.movemStore .long 0xFFFF (.disp 0 2), .movemStore .long 0 (.disp 0 2), .movemStore .word 0xFFFF (.preDec 0),
        .movemStore .word 0 (.preDec 0), .movepStoreWord 0 0 1, .movepStoreLong 7 0 0xFFFF],
      ∃ t, exec i usr = .next t) :=
  ⟨by decide +kernel, rfl, rfl, rfl, ⟨_, _, rfl, by decide +kernel⟩, by decide +kernel, by decide +kernel,
    by decide +kernel, goes_all (by decide +kernel)⟩

theorem witness_ControlFrame :
    usr.mem.wf = true ∧ usr.canAccess .data .write (usr.sp - 4) .long = true ∧
    usr.canAccess .data .read (usr.areg 0) .long = true ∧ usr.canAccess .data .read usr.sp .long = true ∧
    usr.canAccess .data .read usr.sp .word = true ∧ usr.canAccess .data .read (usr.sp + 2) .long = true ∧
    (Ea.pcDisp 2).isControl = true ∧
    ∀ i ∈ [Instr.bra (.short 0x80), .bcc .eq (.long 0x8000), .nop, .jmp (.pcDisp 2), .dbcc .f 0 0xFFFE,
        .lea (.pcDisp 2) 7, .bsr (.long 2), .jsr (.pcDisp 2), .pea (.pcDisp 2), .link 0 0xFFF8, .unlk 0, .rts, .rtr],
      ∃ t, exec i usr = .next t :=
  ⟨by decide +kernel, by decide +kernel, by decide +kernel, by decide +kernel, by decide +kernel, by decide +kernel,
    rfl, goes_all (by decide +kernel)⟩

end Sys2Proof.Tests
end

section
/-! PROOFS. The family of spec 10: the 16 bits of SR written and read (O55), and the state right after reset (O3, O4). -/

namespace Sys2Proof.Machine

open Sys2Proof

/-! The status register as a word (R30, R31): every field is compared as a number, so that the places of the bits
become quotients and remainders by powers of two. -/

/-- The user byte fits in bits 4 to 0. -/
theorem Ccr.toNat_lt (c : Ccr) : c.toNat < 32 := by
  have := c.x.toNat_le; have := c.n.toNat_le; have := c.z.toNat_le; have := c.v.toNat_le; have := c.c.toNat_le
  unfold Ccr.toNat; omega

/-- A bit of a word as a number. -/
theorem toNat_getLsbD (w : Word) (i : Nat) : (w.getLsbD i).toNat = w.toNat / 2 ^ i % 2 :=
  Nat.toNat_testBit w.toNat i

/-- A bit of a word is the bit `b` when the number at its place is `b`. -/
theorem getLsbD_eq_of_toNat {w : Word} {i : Nat} {b : Bool} (h : w.toNat / 2 ^ i % 2 = b.toNat) : w.getLsbD i = b :=
  Function.LeftInverse.injective Bool.ofNat_toNat ((toNat_getLsbD w i).trans h)

/-- The fields of SR never overflow 16 bits. -/
theorem StatusRegister.toNat_toWord (sr : StatusRegister) :
    sr.toWord.toNat = sr.t.toNat * 32768 + sr.s.toNat * 8192 + sr.mask.val * 256 + sr.ccr.toNat := by
  have := sr.t.toNat_le; have := sr.s.toNat_le; have := sr.mask.isLt; have := sr.ccr.toNat_lt
  unfold StatusRegister.toWord
  rw [BitVec.toNat_ofNat]; omega

/-- The flags read from a word whose low five bits are the user byte. -/
theorem Ccr.ofWord_of_mod {w : Word} {c : Ccr} (h : w.toNat % 32 = c.toNat) : Ccr.ofWord w = c := by
  have := c.x.toNat_le; have := c.n.toNat_le; have := c.z.toNat_le; have := c.v.toNat_le; have := c.c.toNat_le
  unfold Ccr.toNat at h
  have hx : w.getLsbD 4 = c.x := getLsbD_eq_of_toNat (by omega)
  have hn : w.getLsbD 3 = c.n := getLsbD_eq_of_toNat (by omega)
  have hz : w.getLsbD 2 = c.z := getLsbD_eq_of_toNat (by omega)
  have hv : w.getLsbD 1 = c.v := getLsbD_eq_of_toNat (by omega)
  have hc : w.getLsbD 0 = c.c := getLsbD_eq_of_toNat (by omega)
  simp only [Ccr.ofWord, hx, hn, hz, hv, hc]

/-- The flags of a word are its low five bits. -/
theorem Ccr.toNat_ofWord (w : Word) : (Ccr.ofWord w).toNat = w.toNat % 32 := by
  simp only [Ccr.toNat, Ccr.ofWord, toNat_getLsbD]; omega

/-- Writing SR with what was read from it changes nothing. -/
theorem StatusRegister.ofWord_toWord (sr : StatusRegister) : StatusRegister.ofWord sr.toWord = sr := by
  have := sr.t.toNat_le; have := sr.s.toNat_le; have := sr.mask.isLt; have := sr.ccr.toNat_lt
  have hsum := sr.toNat_toWord
  have ht : sr.toWord.getLsbD 15 = sr.t := getLsbD_eq_of_toNat (by omega)
  have hs : sr.toWord.getLsbD 13 = sr.s := getLsbD_eq_of_toNat (by omega)
  have hmask : Fin.ofNat 8 (sr.toWord.toNat / 256) = sr.mask := Fin.ext (by simp only [Fin.val_ofNat]; omega)
  have hccr : Ccr.ofWord sr.toWord = sr.ccr := Ccr.ofWord_of_mod (by omega)
  simp only [StatusRegister.ofWord, ht, hs, hmask, hccr]

/-- The bits of SR by the field they are in: T from 15, S from 13, the mask from 8, the user byte from 0. -/
theorem StatusRegister.testBit_toWord (sr : StatusRegister) (i : Nat) :
    sr.toWord.toNat.testBit i =
      if i < 8 then sr.ccr.toNat.testBit i
      else if i < 13 then sr.mask.val.testBit (i - 8)
      else if i < 15 then sr.s.toNat.testBit (i - 13)
      else sr.t.toNat.testBit (i - 15) := by
  have := sr.s.toNat_le; have := sr.mask.isLt; have := sr.ccr.toNat_lt
  have hnest : sr.toWord.toNat = 2 ^ 8 * (2 ^ 5 * (2 ^ 2 * sr.t.toNat + sr.s.toNat) + sr.mask.val) + sr.ccr.toNat := by
    rw [sr.toNat_toWord]; omega
  rw [hnest, Nat.testBit_two_pow_mul_add _ (by omega), Nat.testBit_two_pow_mul_add _ (by omega),
    Nat.testBit_two_pow_mul_add _ (by omega)]
  grind

/-- The mask written with a word is its bits 10 to 8. -/
theorem StatusRegister.testBit_mask_ofWord (w : Word) (j : Nat) :
    (StatusRegister.ofWord w).mask.val.testBit j = (decide (j < 3) && w.getLsbD (j + 8)) := by
  have hmask : (StatusRegister.ofWord w).mask.val = w.toNat / 2 ^ 8 % 2 ^ 3 := rfl
  rw [hmask, Nat.testBit_mod_two_pow, Nat.testBit_div_two_pow, BitVec.testBit_toNat]

/-- The flags written with a word are its bits 4 to 0. -/
theorem Ccr.testBit_ofWord (w : Word) (j : Nat) :
    (Ccr.ofWord w).toNat.testBit j = (decide (j < 5) && w.getLsbD j) := by
  have hflags : (Ccr.ofWord w).toNat = w.toNat % 2 ^ 5 := Ccr.toNat_ofWord w
  rw [hflags, Nat.testBit_mod_two_pow, BitVec.testBit_toNat]

/-- The word read from SR after a write is the written one with the bits that have no field cleared: each of the 16
bits is in one field, which keeps it exactly when $A71F has it. -/
theorem StatusRegister.toWord_ofWord (w : Word) : (StatusRegister.ofWord w).toWord = w &&& 0xA71F := by
  refine BitVec.eq_of_getLsbD_eq fun i hi => ?_
  have ht : (StatusRegister.ofWord w).t = w.getLsbD 15 := rfl
  have hs : (StatusRegister.ofWord w).s = w.getLsbD 13 := rfl
  have hccr : (StatusRegister.ofWord w).ccr = Ccr.ofWord w := rfl
  rw [← BitVec.testBit_toNat, StatusRegister.testBit_toWord, StatusRegister.testBit_mask_ofWord, ht, hs, hccr,
    Ccr.testBit_ofWord, Nat.testBit_bool_toNat, Nat.testBit_bool_toNat, BitVec.getLsbD_and]
  interval_cases i <;> simp

/-- Settles O55: both directions of the 16-bit view of SR. -/
theorem statusRegisterBits : Obligations.StatusRegisterBits := fun w sr =>
  ⟨StatusRegister.toWord_ofWord w, sr.ofWord_toWord⟩

/-! Right after reset (R45). -/

/-- With nothing listed in memory every byte reads as an unlisted one (log 4), whatever the map of memories. -/
theorem State.byteAt_of_mem_nil {s : State} (h : s.mem = []) (c : FunctionCode) (x : Long) :
    s.byteAt c x = Memory.unlisted := by
  rw [State.byteAt, h, Memory.read]

/-- With nothing listed in memory every long word reads as zero. -/
theorem State.longAt_of_mem_nil {s : State} (h : s.mem = []) (c : FunctionCode) (x : Long) : s.longAt c x = 0 := by
  simp only [State.longAt, State.wordAt, State.byteAt_of_mem_nil h]
  rfl

/-- Settles O3: SSP and PC are zero, as is every long word of the memory of reset; the rest are fields of it. -/
theorem resetState : Obligations.ResetState := by
  have hmem : State.reset.mem = [] := rfl
  have hssp : State.reset.ssp = State.reset.longAt .supervisorProgram 0 := (State.longAt_of_mem_nil hmem _ _).symm
  have hpc : State.reset.pc = State.reset.longAt .supervisorProgram 4 := (State.longAt_of_mem_nil hmem _ _).symm
  exact ⟨rfl, rfl, rfl, hssp, hpc, rfl, rfl, rfl, rfl⟩

/-- Settles O4: nothing is read ahead, the window of a double fault is open in supervisor state (R455), and the
processor is in the normal state, so neither stopped nor halted nor within an exception. -/
theorem invAtReset : Obligations.InvAtReset := by
  have hprocState : State.reset.procState = .normal := rfl
  have hprefetch : State.reset.prefetch = [] := rfl
  have hnoException : ∀ g, State.reset.procState ≠ .exception g := by simp [hprocState]
  have hlength : State.reset.prefetch.length ≤ State.reset.windowWords := by simp [hprefetch]
  have haligned : ∀ e ∈ State.reset.prefetch, aligned e.addr .word = true := by simp [hprefetch]
  have hwindow : State.reset.inGroup0 = true → State.reset.sr.s = true ∧ State.reset.procState ≠ .stopped :=
    fun _ => ⟨rfl, by simp [hprocState]⟩
  exact ⟨State.reset_mem_wf, hnoException, rfl, rfl, rfl, hlength, haligned, hwindow, fun _ => rfl⟩

end Sys2Proof.Machine
end

section
/-! PROOFS. The family of spec 20: words and long words stored big-endian (O29), and instruction words that are the one
read ahead or the one in memory now (O30). -/

namespace Sys2Proof.Machine

open Sys2Proof

/-! The bytes of the two words of a long word. -/

theorem extractLsb'_lowWord (v : Long) {k : Nat} (hk : k + 8 ≤ 16) :
    (lowWord v).extractLsb' k 8 = v.extractLsb' k 8 := by
  refine BitVec.eq_of_getLsbD_eq fun i hi => ?_
  have hin : k + i < 16 := by omega
  simp [lowWord, hi, hin]

theorem extractLsb'_highWord (v : Long) {k : Nat} (hk : k + 8 ≤ 16) :
    ((highWord v).setWidth 32).extractLsb' k 8 = v.extractLsb' (16 + k) 8 := by
  refine BitVec.eq_of_getLsbD_eq fun i hi => ?_
  have hin : k + i < 16 := by omega
  have hin' : k + i < 32 := by omega
  simp [highWord, hi, hin, hin', Nat.add_assoc]

/-! Storing a word (R61): read after write for the two bytes and for every other one. -/

/-- The bus cycle that writes a word of data (R66). -/
def State.wordWrite (s : State) (a : Long) : BusCycle :=
  { code := s.code .data, dir := .write, width := .word, addr := a }

/-- A word kept by the platform is the high byte at its address, then the low byte at the next. -/
theorem State.storeMem_word_mem {s : State} {a : Long} (hkeeps : s.stores (s.wordWrite a) .done = true) (v : Long) :
    (s.storeMem a .word v).mem =
      (s.mem.write (s.locate (s.code .data) a) (v.extractLsb' 8 8)).write (s.locate (s.code .data) (a + 1))
        (v.extractLsb' 0 8) := by
  have hstored : (s.storeMem a .word v).mem = s.cycleMem (s.wordWrite a) .done (lowWord v) s.mem := rfl
  have hlow : (lowWord v).setWidth 8 = (lowWord v).extractLsb' 0 8 := BitVec.setWidth_eq_extractLsb' (by decide)
  rw [hstored, State.cycleMem, if_pos hkeeps, ← extractLsb'_lowWord v (k := 8) (by decide),
    ← extractLsb'_lowWord v (k := 0) (by decide), ← hlow]
  rfl

section
variable {s : State} {a : Long} (hwf : s.mem.wf = true) (hkeeps : s.stores (s.wordWrite a) .done = true) (v : Long)
include hwf hkeeps

/-- Every byte after a word is stored, by its place. -/
theorem State.byteAt_storeMem_word (c : FunctionCode) (x : Long) :
    (s.storeMem a .word v).byteAt c x =
      if s.locate (s.code .data) (a + 1) = s.locate c x then v.extractLsb' 0 8
      else if s.locate (s.code .data) a = s.locate c x then v.extractLsb' 8 8
      else s.byteAt c x := by
  have hplace : (s.storeMem a .word v).locate c x = s.locate c x := State.locate_congr rfl c x
  rw [State.byteAt, State.storeMem_word_mem hkeeps, hplace,
    Memory.read_write (Memory.wf_write hwf (s.locate_lt _ _)), Memory.read_write hwf, State.byteAt]

theorem State.storeMem_word_high : (s.storeMem a .word v).byteAt (s.code .data) a = v.extractLsb' 8 8 := by
  have hne := s.locate_ne (s.code .data) (s.code .data) (a := a + 1) (b := a) (by bv_omega)
  rw [State.byteAt_storeMem_word hwf hkeeps, if_neg hne, if_pos rfl]

theorem State.storeMem_word_low : (s.storeMem a .word v).byteAt (s.code .data) (a + 1) = v.extractLsb' 0 8 := by
  rw [State.byteAt_storeMem_word hwf hkeeps, if_pos rfl]

/-- Storing a word leaves every byte but its two. -/
theorem State.storeMem_word_frame : State.sameMemoryBut (s.code .data) a 2 s (s.storeMem a .word v) := by
  intro c x hother
  have h0 : s.locate (s.code .data) a ≠ s.locate c x := by simpa using (hother 0 (by decide)).symm
  have h1 : s.locate (s.code .data) (a + 1) ≠ s.locate c x := (hother 1 (by decide)).symm
  rw [State.byteAt_storeMem_word hwf hkeeps, if_neg h1, if_neg h0]

end

/-! Storing a long word (R62): its high word, then its low word two bytes on. -/

/-- Storing a long word is storing two words. -/
theorem State.storeMem_long (s : State) (a v : Long) :
    s.storeMem a .long v = (s.storeMem a .word ((highWord v).setWidth 32)).storeMem (a + 2) .word v := by
  have hhigh : lowWord ((highWord v).setWidth 32) = highWord v := by simp [lowWord]
  unfold State.storeMem State.memStored
  rw [hhigh]
  rfl

section
variable {s : State} {a : Long} (hwf : s.mem.wf = true) (hhigh : s.stores (s.wordWrite a) .done = true)
  (hlow : s.stores (s.wordWrite (a + 2)) .done = true) (v : Long)
include hwf hhigh hlow

/-- The bytes of the two words: storing the lower one leaves those of the upper one. -/
theorem State.storeMem_long_bytes :
    (s.storeMem a .long v).byteAt (s.code .data) a = v.extractLsb' 24 8 ∧
      (s.storeMem a .long v).byteAt (s.code .data) (a + 1) = v.extractLsb' 16 8 ∧
      (s.storeMem a .long v).byteAt (s.code .data) (a + 2) = v.extractLsb' 8 8 ∧
      (s.storeMem a .long v).byteAt (s.code .data) (a + 3) = v.extractLsb' 0 8 := by
  have hwf' := State.storeMem_wf hwf a .word ((highWord v).setWidth 32)
  have hupper := State.storeMem_word_frame hwf' hlow v
  rw [State.storeMem_long]
  refine ⟨?_, ?_, State.storeMem_word_high hwf' hlow v, ?_⟩
  · rw [hupper _ a fun j hj => State.locate_ne _ _ _ (by interval_cases j <;> bv_omega),
      State.storeMem_word_high hwf hhigh, extractLsb'_highWord v (by decide)]
  · rw [hupper _ (a + 1) fun j hj => State.locate_ne _ _ _ (by interval_cases j <;> bv_omega),
      State.storeMem_word_low hwf hhigh, extractLsb'_highWord v (by decide)]
  · have hlast : a + 3 = a + 2 + 1 := by rw [BitVec.add_assoc]; rfl
    rw [hlast]
    exact State.storeMem_word_low hwf' hlow v

/-- Storing a long word leaves every byte but its four. -/
theorem State.storeMem_long_frame : State.sameMemoryBut (s.code .data) a 4 s (s.storeMem a .long v) := by
  intro c x hother
  have hwf' := State.storeMem_wf hwf a .word ((highWord v).setWidth 32)
  rw [State.storeMem_long]
  have hafter (j : Nat) : a + 2 + BitVec.ofNat 32 j = a + BitVec.ofNat 32 (2 + j) := by
    rw [BitVec.ofNat_add, BitVec.add_assoc]; rfl
  have hupper : ∀ j < 2, s.locate c x ≠ s.locate (s.code .data) (a + 2 + BitVec.ofNat 32 j) := fun j hj => by
    rw [hafter]; exact hother (2 + j) (by omega)
  have hlower : ∀ j < 2, s.locate c x ≠ s.locate (s.code .data) (a + BitVec.ofNat 32 j) := fun j hj =>
    hother j (by omega)
  exact (State.storeMem_word_frame hwf' hlow v c x hupper).trans (State.storeMem_word_frame hwf hhigh _ c x hlower)

end

/-- Settles O29: a word by its own two bytes, a long word by those of its two words. -/
theorem bigEndianStore : Obligations.BigEndianStore := by
  intro s a v code write hwf _ hcode hwrite hkeeps
  subst hcode hwrite
  refine ⟨⟨State.storeMem_word_high hwf hkeeps v, State.storeMem_word_low hwf hkeeps v,
    State.storeMem_word_frame hwf hkeeps v⟩, fun hlow => ?_⟩
  obtain ⟨h0, h1, h2, h3⟩ := State.storeMem_long_bytes hwf hkeeps hlow v
  exact ⟨h0, h1, h2, h3, State.storeMem_long_frame hwf hkeeps hlow v⟩

/-! Where nothing but the map of answers speaks, a word is read only by an access that completes (R395). -/

/-- Nothing else is in store, the run is not one only supposed, and the map of answers has no device. -/
theorem State.plain_iff (s : State) :
    s.plain = true ↔ s.quiet = true ∧ s.supposed = false ∧ ∀ r ∈ s.busMap, r.device = false := by
  simp [State.plain, and_assoc]

/-- No cycle there gets its data from a device. -/
theorem State.readsDevice_of_plain {s : State} (h : s.plain = true) (c : BusCycle) : s.readsDevice c = false := by
  obtain ⟨_, _, hdevice⟩ := s.plain_iff.mp h
  unfold State.readsDevice
  split
  · rfl
  · next r hr => rw [hdevice r (List.mem_of_find?_eq_some hr), Bool.false_and]

/-- A read cycle that does not complete there is cut short. -/
theorem busCycle_read_fails {s : State} {c : BusCycle} (h : s.plain = true) (hd : c.dir = .read)
    (hc : s.completes c = false) (w : Word) : ∃ e, busCycle false c w s = .error e s := by
  obtain ⟨hquiet, hsupposed, _⟩ := s.plain_iff.mp h
  have hnotDone : s.cycle false c ≠ .done := fun hdone => by
    simp [State.completes, hquiet, hdone, State.readsDevice_of_plain h] at hc
  refine ⟨cycleAbort (s.cycle false c) c, ?_⟩
  rw [busCycle_quiet hquiet]
  simp [endCycle, hd, hnotDone, hsupposed]

/-- A word that is read there is the one in memory, readable. -/
theorem readMem_word_inv {s t : State} {sp : Space} {a v : Long} (h : s.plain = true)
    (hr : readMem sp a .word s = .ok v t) :
    s.canAccess sp .read a .word = true ∧ lowWord v = s.wordAt (s.code sp) a := by
  obtain ⟨hquiet, hsupposed, _⟩ := s.plain_iff.mp h
  have hnone := ((State.quiet_iff s).mp hquiet).2
  by_cases hcan : s.canAccess sp .read a .word = true
  · rw [readMem_ok hcan] at hr
    cases hr
    exact ⟨hcan, by simp [State.loadMem, lowWord]⟩
  · exfalso
    by_cases halign : aligned a .word = true
    · have hstops : s.completes { code := s.code sp, dir := .read, width := .word, addr := a } = false := by
        simpa [State.canAccess, halign, widthOf] using hcan
      obtain ⟨e, he⟩ := busCycle_read_fails h rfl hstops (lowWord 0)
      have hcut : accessCycles sp .read a .word 0 s = .error e s := by
        unfold accessCycles
        rw [run_bind_ok (run_get _)]
        show (raiseFetchError >>= _ : Exec Long) s = _
        rw [run_bind_ok (raiseFetchError_ok hnone), if_pos halign]
        exact run_bind_error he
      rw [readMem, if_neg hcan, hcut] at hr
      cases hr
    · rw [readMem_misaligned (by simpa using halign) hnone hsupposed] at hr
      cases hr

/-! The fetch of an instruction word (R95). -/

/-- A word that the fetch answers was read ahead, or is read now, perhaps after a free choice between the two. -/
theorem fetchWord_cases {s t : State} {a : Long} {w : Word} (h : fetchWord a s = .ok w t) :
    ∃ n, (s.readAheadAt a = some w ∧ t = { s with drawCount := n }) ∨
      ∃ v, readMem .program a .word { s with drawCount := n } = .ok v t ∧ lowWord v = w := by
  have hread (u : State) (hu : (do let v ← readMem .program a .word; pure (lowWord v) : Exec Word) u = .ok w t) :
      ∃ v, readMem .program a .word u = .ok v t ∧ lowWord v = w := by
    rw [run_bind] at hu
    cases hv : readMem .program a .word u with
    | ok v u' => rw [hv] at hu; cases hu; exact ⟨v, rfl, rfl⟩
    | error e u' => rw [hv] at hu; cases hu
  unfold fetchWord at h
  split at h
  · exact ⟨s.drawCount, .inr (hread s h)⟩
  · next e he =>
    have hahead : s.readAheadAt a = some e.word := by rw [State.readAheadAt, he]; rfl
    split at h
    · cases h
      exact ⟨s.drawCount, .inl ⟨hahead, rfl⟩⟩
    · refine ⟨s.drawCount + 1, ?_⟩
      have hdraw : drawBit s = .ok (Config.freeBit s.drawCount) { s with drawCount := s.drawCount + 1 } := rfl
      rw [run_bind_ok hdraw] at h
      cases hbit : Config.freeBit s.drawCount with
      | true => simp only [hbit, if_true] at h; cases h; exact .inl ⟨hahead, rfl⟩
      | false => simp only [hbit] at h; exact .inr (hread _ h)

/-- The fetch of a word leaves the words read ahead. -/
theorem fetchWord_prefetch {s t : State} {a : Long} {w : Word} (h : fetchWord a s = .ok w t) :
    t.prefetch = s.prefetch := by
  obtain ⟨n, ⟨_, rfl⟩ | ⟨v, hv, _⟩⟩ := fetchWord_cases h
  · rfl
  · have hsame := ((accesses_readMem .program a .word) _ _ (State.sameButBus_refl { s with drawCount := n })).1 v t hv
    rw [hsame]

/-- Where nothing but the map of answers speaks, a word fetched is one read ahead or the one in memory, readable. -/
theorem fetchWord_plain {s t : State} {a : Long} {w : Word} (hp : s.plain = true) (h : fetchWord a s = .ok w t) :
    s.readAheadAt a = some w ∨
      (w = s.wordAt (s.code .program) a ∧ s.canAccess .program .read a .word = true) := by
  obtain ⟨n, ⟨hahead, _⟩ | ⟨v, hv, rfl⟩⟩ := fetchWord_cases h
  · exact .inl hahead
  · obtain ⟨hcan, hword⟩ := readMem_word_inv (s := { s with drawCount := n }) hp hv
    exact .inr ⟨hword, hcan⟩

/-! Words read ahead stay so: the list of the words fetched has, at the address of each word that a bus cycle has read
ahead, that word. -/

/-- Words all of which are fetched are as many as asked for. -/
theorem fetchWords_length {k : Nat} {a : Long} {s : State} (h : (fetchWords k a s).error = none) :
    (fetchWords k a s).words.length = k := by
  induction k generalizing a s with
  | zero => rfl
  | succ k ih =>
    unfold fetchWords at h ⊢
    split at h
    · cases h
    · next w t ht => simp only [List.length_cons, ih h]

/-- The mark of a word read ahead is the one given for its address. -/
theorem read_of_mem_aheadWords {read : Long → Bool} {a : Long} {ws : List Word} {e : AheadWord}
    (h : e ∈ aheadWords read a ws) : e.read = read e.addr := by
  induction ws generalizing a with
  | nil => cases h
  | cons w ws ih =>
    rcases List.mem_cons.mp h with rfl | h
    · rfl
    · exact ih h

/-- Among words read ahead there is one for each place of the list. -/
theorem exists_mem_aheadWords (read : Long → Bool) (a : Long) {ws : List Word} {j : Nat} (hj : j < ws.length) :
    ∃ e ∈ aheadWords read a ws, e.addr = a + BitVec.ofNat 32 (2 * j) := by
  induction ws generalizing a j with
  | nil => cases hj
  | cons w ws ih =>
    cases j with
    | zero => exact ⟨_, List.mem_cons_self, by simp⟩
    | succ j =>
      obtain ⟨e, he, haddr⟩ := ih (a + 2) (Nat.lt_of_succ_lt_succ hj)
      have hnext : a + 2 + BitVec.ofNat 32 (2 * j) = a + BitVec.ofNat 32 (2 * (j + 1)) := by
        rw [Nat.mul_succ, Nat.add_comm (2 * j), BitVec.ofNat_add, ← BitVec.add_assoc]
        rfl
      exact ⟨e, List.mem_cons_of_mem _ he, haddr.trans hnext⟩

/-- A word that a bus cycle has read ahead is the one fetched from its address, however often it is fetched. -/
theorem word_of_mem_fetchWords {s : State} {x : Long} {e : AheadWord} (he : s.aheadAt x = some e) (hr : e.read = true)
    (read : Long → Bool) {k : Nat} {a : Long} {d : AheadWord}
    (hd : d ∈ aheadWords read a (fetchWords k a s).words) (hx : d.addr = x) : d.word = e.word := by
  induction k generalizing a s with
  | zero => cases hd
  | succ k ih =>
    unfold fetchWords at hd
    cases hf : fetchWord a s with
    | error err t => rw [hf] at hd; cases hd
    | ok w t =>
      rw [hf] at hd
      have he' : t.aheadAt x = some e := by rw [State.aheadAt, fetchWord_prefetch hf]; exact he
      rcases List.mem_cons.mp hd with rfl | hd
      · have hax : a = x := hx
        rw [hax, fetchWord_surely he hr] at hf
        cases hf
        rfl
      · exact ih he' hd

/-- A word read ahead is from the address asked for, which is even. -/
theorem State.aheadAt_some {s : State} {x : Long} {e : AheadWord} (h : s.aheadAt x = some e) :
    e.addr = x ∧ aligned x .word = true := by
  simpa using List.find?_some h

/-- Words read ahead that agree in every field are the same. -/
theorem AheadWord.eq_of_fields {d e : AheadWord} (haddr : d.addr = e.addr) (hword : d.word = e.word)
    (hread : d.read = e.read) : d = e := by
  cases d; cases e
  exact AheadWord.mk.injEq .. ▸ ⟨haddr, hword, hread⟩

/-- At an even address that has words read ahead, all the same, that word is the one read ahead there. -/
theorem State.aheadAt_eq_some {s : State} {x : Long} {e : AheadWord} (ha : aligned x .word = true)
    (hex : ∃ d ∈ s.prefetch, d.addr = x) (hall : ∀ d ∈ s.prefetch, d.addr = x → d = e) : s.aheadAt x = some e := by
  obtain ⟨d, hd, hdx⟩ := hex
  cases hfind : s.aheadAt x with
  | none => simpa [hdx, ha] using List.find?_eq_none.mp hfind d hd
  | some d' => rw [hall d' (List.mem_of_find?_eq_some hfind) (State.aheadAt_some hfind).1]

/-- Words fetched kept as read ahead. -/
def Fetched.keptAhead (f : Fetched) (read : Long → Bool) (a : Long) : Fetched :=
  { f with state := { f.state with prefetch := aheadWords read a f.words } }

/-- What reading ahead does (R95, R503 b, c): some words are fetched and kept as read ahead, enough to reach every word of
the window that a bus cycle has read before; such a word keeps its mark, and every word gets it while the platform has more
in store than its maps. -/
theorem State.readAhead_eq (s : State) (window : Nat) (a : Long) :
    ∃ k n read, s.readAhead window a = (fetchWords k a { s with drawCount := n }).keptAhead read a ∧
      (∀ j < window, s.surelyRead (a + BitVec.ofNat 32 (2 * j)) = true → j < k) ∧
      (∀ x, s.surelyRead x = true → read x = true) ∧ (s.quiet = false → ∀ x, read x = true) := by
  unfold State.readAhead
  dsimp only
  split
  · next hall =>
    refine ⟨window, s.drawCount, s.surelyRead, rfl, fun j hj _ => hj, fun x hx => hx, fun hquiet => ?_⟩
    rw [hquiet, Bool.false_and] at hall
    cases hall
  · refine ⟨_, s.drawCount + 1, fun _ => true, rfl, fun j hj hsurely => ?_, fun _ _ => rfl, fun _ _ => rfl⟩
    exact Nat.lt_add_right _ (State.lt_surelyAhead hj hsurely)

/-- A word of the window that a bus cycle has read ahead stays read ahead (R503 c). -/
theorem State.aheadAt_readAhead {s : State} {window j : Nat} {a : Long} {e : AheadWord} (hj : j < window)
    (he : s.aheadAt (a + BitVec.ofNat 32 (2 * j)) = some e) (hr : e.read = true)
    (hok : (s.readAhead window a).error = none) :
    (s.readAhead window a).state.aheadAt (a + BitVec.ofNat 32 (2 * j)) = some e := by
  obtain ⟨haddr, halign⟩ := State.aheadAt_some he
  have hsurely : s.surelyRead (a + BitVec.ofNat 32 (2 * j)) = true := by rw [State.surelyRead, he]; exact hr
  obtain ⟨k, n, read, heq, hreach, hmark, _⟩ := s.readAhead_eq window a
  rw [heq] at hok ⊢
  have hlength : j < (fetchWords k a { s with drawCount := n }).words.length := by
    rw [fetchWords_length hok]; exact hreach j hj hsurely
  refine State.aheadAt_eq_some halign (exists_mem_aheadWords read a hlength) fun d hd hdx => ?_
  have hword : d.word = e.word := word_of_mem_fetchWords (s := { s with drawCount := n }) he hr read hd hdx
  have hread : d.read = true := by rw [read_of_mem_aheadWords hd, hdx]; exact hmark _ hsurely
  exact AheadWord.eq_of_fields (hdx.trans haddr.symm) hword (hread.trans hr.symm)

/-- While the platform has more in store than its maps, a bus cycle has read every word read ahead (R503 b). -/
theorem State.read_of_mem_readAhead {s : State} (window : Nat) (a : Long) (h : s.quiet = false) {e : AheadWord}
    (he : e ∈ (s.readAhead window a).state.prefetch) : e.read = true := by
  obtain ⟨k, n, read, heq, _, _, hmark⟩ := s.readAhead_eq window a
  rw [heq] at he
  rw [read_of_mem_aheadWords he]
  exact hmark h _

/-- Settles O30: the fetch of a word, and reading words ahead anew, case by case. -/
theorem fetchIsOldOrNew : Obligations.FetchIsOldOrNew := by
  refine ⟨fun s t a w hp hf => ⟨fetchWord_plain hp hf, ?_⟩, fun s a e he hr => fetchWord_surely he hr,
    fun s window j a e hj he hr hok => State.aheadAt_readAhead hj he hr hok,
    fun s window a hq e he => State.read_of_mem_readAhead window a hq he,
    fun s hnormal hnil hready => State.settle_ready hnormal hnil hready⟩
  obtain ⟨n, rfl⟩ := (reads_fetchWord a s (s.plain_iff.mp hp).1).1 w t hf
  rfl

end Sys2Proof.Machine
end

section
/-! PROOFS. The family of spec 30: the unimplemented instructions of lines 1010 and 1111 (O14). -/

namespace Sys2Proof.Machine

open Sys2Proof

@[simp] theorem unpack_line (w : Word) : (unpack w).line = w.toNat / 4096 := rfl

/-- What the opcode map refuses, the decoder refuses for the same reason. -/
theorem decode_of_parse_error {w : Word} {ws : List Word} {e : DecodeError} (h : parse (unpack w) ws = .error e) :
    decode (w :: ws) = .error e := by
  simp only [decode, h]

/-- Line 1010 of the opcode map holds no instruction (R115, R117). -/
theorem parse_of_line_eq_ten {f : OpFields} (h : f.line = 10) (ws : List Word) : parse f ws = .error .line1010 := by
  simp only [parse, h]

/-- Line 1111 of the opcode map holds no instruction (R115, R117). -/
theorem parse_of_line_eq_fifteen {f : OpFields} (h : f.line = 15) (ws : List Word) : parse f ws = .error .line1111 := by
  simp only [parse, h]

/-- Settles O14: bits 15-12 alone select the line, and the opcode map refuses these two before it looks at another field
or word. -/
theorem unimplementedLines : Obligations.UnimplementedLines := by
  intro w ws
  constructor
  · intro hline
    exact decode_of_parse_error (parse_of_line_eq_ten ((unpack_line w).trans hline) ws)
  · intro hline
    exact decode_of_parse_error (parse_of_line_eq_fifteen ((unpack_line w).trans hline) ws)

end Sys2Proof.Machine
end

section
/-! PROOFS. Frames: what a run of changes of the state leaves alone, composed change by change. -/

namespace Sys2Proof.Machine

open Sys2Proof

/-! Storing an operand leaves every byte but its own, whether the platform keeps what is written or not (U24). -/

/-- A write cycle that the platform does not keep leaves memory as it is. -/
theorem State.cycleMem_of_not_stores {s : State} {c : BusCycle} {e : CycleEnd} (h : s.stores c e ≠ true) (w : Word)
    (m : Memory) : s.cycleMem c e w m = m := if_neg h

/-- The bus cycle that writes a byte of data (R66). -/
def State.byteWrite (s : State) (a : Long) : BusCycle :=
  { code := s.code .data, dir := .write, width := .byte, addr := a }

theorem State.byteAt_storeMem_byte {s : State} (hwf : s.mem.wf = true) (a v : Long) {c : FunctionCode} {x : Long}
    (hx : s.locate c x ≠ s.locate (s.code .data) a) : (s.storeMem a .byte v).byteAt c x = s.byteAt c x := by
  have hmem : (s.storeMem a .byte v).mem = s.cycleMem (s.byteWrite a) .done (lowWord v) s.mem := rfl
  have hplace : (s.storeMem a .byte v).locate c x = s.locate c x := State.locate_congr rfl c x
  rw [State.byteAt, hplace, hmem, State.byteAt]
  by_cases hkeeps : s.stores (s.byteWrite a) .done = true
  · rw [State.cycleMem, if_pos hkeeps]
    exact (Memory.read_write hwf _ _ _).trans (if_neg hx.symm)
  · rw [State.cycleMem_of_not_stores hkeeps]

theorem State.byteAt_storeMem_word_of_ne {s : State} (hwf : s.mem.wf = true) (a v : Long) {c : FunctionCode} {x : Long}
    (hx : ∀ j < 2, s.locate c x ≠ s.locate (s.code .data) (a + BitVec.ofNat 32 j)) :
    (s.storeMem a .word v).byteAt c x = s.byteAt c x := by
  by_cases hkeeps : s.stores (s.wordWrite a) .done = true
  · exact State.storeMem_word_frame hwf hkeeps v c x hx
  · have hmem : (s.storeMem a .word v).mem = s.mem := State.cycleMem_of_not_stores hkeeps (lowWord v) s.mem
    exact State.byteAt_congr (s := s) (t := s.storeMem a .word v) rfl hmem c x

/-- Storing an operand leaves every byte but those of the operand. -/
theorem State.storeMem_frame {s : State} (hwf : s.mem.wf = true) (a : Long) (sz : Size) (v : Long) :
    State.sameMemoryBut (s.code .data) a (sizeBytes sz) s (s.storeMem a sz v) := by
  intro c x hx
  cases sz with
  | byte => exact State.byteAt_storeMem_byte hwf a v (by simpa using hx 0 (by decide))
  | word => exact State.byteAt_storeMem_word_of_ne hwf a v hx
  | long =>
    have hafter (j : Nat) : a + 2 + BitVec.ofNat 32 j = a + BitVec.ofNat 32 (2 + j) := by
      rw [BitVec.ofNat_add, BitVec.add_assoc]; rfl
    rw [State.storeMem_long]
    refine (State.byteAt_storeMem_word_of_ne (State.storeMem_wf hwf _ _ _) _ _ fun j hj => ?_).trans
      (State.byteAt_storeMem_word_of_ne hwf a _ fun j hj => hx j (Nat.lt_of_lt_of_le hj (by decide)))
    rw [hafter]
    exact hx (2 + j) (Nat.add_lt_add_left hj 2)

/-! What a frame lists stays the same from change to change, so changes compose. -/

theorem State.sameButRegs_refl (ds as : List Reg) (s : State) : State.sameButRegs ds as s s := by
  simp [State.sameButRegs]

theorem State.sameButRegs_trans {ds as : List Reg} {s t u : State} (h : State.sameButRegs ds as s t)
    (h' : State.sameButRegs ds as t u) : State.sameButRegs ds as s u := by
  obtain ⟨hd, ha, husp, hssp, ht, hs, hrest⟩ := h
  obtain ⟨hd', ha', husp', hssp', ht', hs', hrest'⟩ := h'
  refine ⟨fun n hn => (hd' n hn).trans (hd n hn), fun n hn => (ha' n hn).trans (ha n hn),
    fun h => (husp' (hs.trans h)).trans (husp h), fun h => (hssp' (hs.trans h)).trans (hssp h), ht'.trans ht,
    hs'.trans hs, ?_⟩
  simp only [hrest, hrest', and_self]

/-- The map of memories is among what a frame lists. -/
theorem State.memMap_of_sameButRegs {ds as : List Reg} {s t : State} (h : State.sameButRegs ds as s t) :
    t.memMap = s.memMap := by
  obtain ⟨-, -, -, -, -, -, -, -, -, -, -, -, -, -, -, hmap, -⟩ := h
  exact hmap

theorem State.sameButRegs_setD {ds : List Reg} {n : Reg} (hn : n ∈ ds) (as : List Reg) (s : State) (sz : Size)
    (v : Long) : State.sameButRegs ds as s (s.setD sz n v) := by
  have hd : ∀ m, m ∉ ds → (s.setD sz n v).dreg m = s.dreg m := fun m hm =>
    State.dreg_setD_of_ne s sz v fun e => hm (e ▸ hn)
  simpa [State.sameButRegs] using hd

theorem State.setA_stackPointers (s : State) (n : Reg) (v : Long) :
    (s.sr.s = true → (s.setA n v).usp = s.usp) ∧ (s.sr.s = false → (s.setA n v).ssp = s.ssp) := by
  constructor <;> intro h <;> simp [State.setA, State.setSp, h]

theorem State.sameButRegs_setA {as : List Reg} {n : Reg} (hn : n ∈ as) (ds : List Reg) (s : State) (v : Long) :
    State.sameButRegs ds as s (s.setA n v) := by
  have ha : ∀ m, m ∉ as → (s.setA n v).areg m = s.areg m := fun m hm =>
    State.areg_setA_of_ne s v fun e => hm (e ▸ hn)
  obtain ⟨husp, hssp⟩ := s.setA_stackPointers n v
  simpa [State.sameButRegs] using ⟨ha, husp, hssp⟩

/-- The active stack pointer is A7 (R24). -/
theorem State.setSp_eq_setA (s : State) (v : Long) : s.setSp v = s.setA 7 v := rfl

/-- From one state to another nothing changes but PC, the flags, the data registers `ds`, the address registers `as`, the
bytes of memory at `places`, and the model's own records; a canonical memory stays so. -/
structure State.Changes (ds as : List Reg) (places : Nat → Prop) (s t : State) : Prop where
  regs : State.sameButRegs ds as s t
  bytes : ∀ (c : FunctionCode) (x : Long), ¬ places (s.locate c x) → t.byteAt c x = s.byteAt c x
  wf : s.mem.wf = true → t.mem.wf = true

namespace State.Changes

variable {ds as : List Reg} {places : Nat → Prop} {s t u : State}

theorem memMap (h : Changes ds as places s t) : t.memMap = s.memMap := State.memMap_of_sameButRegs h.regs

theorem code (h : Changes ds as places s t) (sp : Space) : t.code sp = s.code sp := by
  obtain ⟨-, -, -, -, -, hs, -⟩ := h.regs
  cases sp <;> simp only [State.code, hs]

theorem trans (h : Changes ds as places s t) (h' : Changes ds as places t u) : Changes ds as places s u where
  regs := State.sameButRegs_trans h.regs h'.regs
  bytes c x hx := (h'.bytes c x (by rwa [State.locate_congr h.memMap])).trans (h.bytes c x hx)
  wf hwf := h'.wf (h.wf hwf)

/-- A change that leaves memory alone. -/
theorem of_regs (h : State.sameButRegs ds as s t) (hmem : t.mem = s.mem) : Changes ds as places s t :=
  ⟨h, fun c x _ => State.byteAt_congr (State.memMap_of_sameButRegs h) hmem c x, fun hwf => hmem ▸ hwf⟩

/-! The changes an instruction is made of. -/

theorem beginInstr (s : State) : Changes ds as places s s.beginInstr :=
  of_regs (State.sameButRegs_refl ds as s) rfl

theorem advance (h : Changes ds as places s t) (v : Long) : Changes ds as places s (t.advance v) :=
  h.trans (of_regs (State.sameButRegs_refl ds as t) rfl)

theorem jump (h : Changes ds as places s t) (v : Long) : Changes ds as places s (t.jump v) :=
  h.trans (of_regs (State.sameButRegs_refl ds as t) rfl)

theorem draw (h : Changes ds as places s t) (k : Nat) : Changes ds as places s { t with drawCount := k } :=
  h.trans (of_regs (State.sameButRegs_refl ds as t) rfl)

theorem setCcr (h : Changes ds as places s t) (cc : Ccr) : Changes ds as places s (t.setCcr cc) :=
  h.trans (of_regs (State.sameButRegs_refl ds as t) rfl)

theorem setD (h : Changes ds as places s t) {n : Reg} (hn : n ∈ ds) (sz : Size) (v : Long) :
    Changes ds as places s (t.setD sz n v) := h.trans (of_regs (State.sameButRegs_setD hn as t sz v) rfl)

theorem setA (h : Changes ds as places s t) {n : Reg} (hn : n ∈ as) (v : Long) : Changes ds as places s (t.setA n v) :=
  h.trans (of_regs (State.sameButRegs_setA hn ds t v) rfl)

theorem setSp (h : Changes ds as places s t) (h7 : 7 ∈ as) (v : Long) : Changes ds as places s (t.setSp v) := by
  rw [State.setSp_eq_setA]
  exact h.setA h7 v

theorem resolve (h : Changes ds as places s t) {ea : Ea} {sz : Size} {loc : Loc} (hl : t.resolve ea sz = (loc, u))
    (hea : ∀ n ∈ eaChanges ea, n ∈ as) : Changes ds as places s u := by
  obtain rfl : (t.resolve ea sz).2 = u := by rw [hl]
  cases ea with
  | postInc n => exact h.setA (hea n (by simp [eaChanges])) _
  | preDec n => exact h.setA (hea n (by simp [eaChanges])) _
  | dreg _ | areg _ | ind _ => exact h
  | _ => exact h.advance _

theorem storeMem (h : Changes ds as places s t) (hwf : s.mem.wf = true) {a : Long} {sz : Size}
    (hplaces : ∀ j < sizeBytes sz, places (s.locate (s.code .data) (a + BitVec.ofNat 32 j))) (v : Long) :
    Changes ds as places s (t.storeMem a sz v) := by
  refine h.trans ⟨State.sameButRegs_refl ds as t, fun c x hx => ?_, fun hwf => State.storeMem_wf hwf a sz v⟩
  refine State.storeMem_frame (h.wf hwf) a sz v c x fun j hj e => hx ?_
  rw [e, h.code, State.locate_congr h.memMap]
  exact hplaces j hj

theorem storeList (h : Changes ds as places s t) (hwf : s.mem.wf = true) {sz : Size} {stride : Long} {vs : List Long}
    {a : Long} (hplaces : ∀ i < vs.length, ∀ j < sizeBytes sz,
      places (s.locate (s.code .data) (a + BitVec.ofNat 32 i * stride + BitVec.ofNat 32 j))) :
    Changes ds as places s (t.storeList sz stride vs a) := by
  induction vs generalizing t a with
  | nil => exact h
  | cons v vs ih =>
    refine ih (h.storeMem hwf (fun j hj => ?_) v) fun i hi j hj => ?_
    · simpa using hplaces 0 (by simp) j hj
    · have hsucc : BitVec.ofNat 32 (i + 1) = BitVec.ofNat 32 i + 1 := BitVec.ofNat_add i 1
      have hnext : a + stride + BitVec.ofNat 32 i * stride = a + BitVec.ofNat 32 (i + 1) * stride := by
        rw [hsucc]; ring
      rw [hnext]
      exact hplaces (i + 1) (by simpa using hi) j hj

/-! From changes to the frames of the statements. -/

theorem frame (h : Changes ds as (fun _ => False) s t) : State.sameButRegs ds as s t ∧ State.sameMemory s t :=
  ⟨h.regs, fun c x => h.bytes c x not_false⟩

theorem frame_sr (h : Changes ds as (fun _ => False) s t) (hsr : t.sr = s.sr) :
    State.sameButRegs ds as s t ∧ t.sr = s.sr ∧ State.sameMemory s t := ⟨h.regs, hsr, h.frame.2⟩

end State.Changes

/-- The places of the `k` bytes that a function code reaches from an address up. -/
def State.span (s : State) (code : FunctionCode) (a : Long) (k : Nat) (place : Nat) : Prop :=
  ∃ j < k, place = s.locate code (a + BitVec.ofNat 32 j)

theorem State.Changes.sameMemoryBut {ds as : List Reg} {s t : State} {code : FunctionCode} {a : Long} {k : Nat}
    (h : State.Changes ds as (s.span code a k) s t) : State.sameMemoryBut code a k s t :=
  fun c x hx => h.bytes c x fun ⟨j, hj, e⟩ => hx j hj e

theorem State.Changes.frame_span {ds as : List Reg} {s t : State} {code : FunctionCode} {a : Long} {k : Nat}
    (h : State.Changes ds as (s.span code a k) s t) (hsr : t.sr = s.sr) :
    State.sameButRegs ds as s t ∧ t.sr = s.sr ∧ State.sameMemoryBut code a k s t := ⟨h.regs, hsr, h.sameMemoryBut⟩

end Sys2Proof.Machine
end

section
/-! PROOFS. The family of spec 41, results: MOVE and MOVEA (O42), MOVEQ, SWAP, EXT, EXG and LEA (O43), PEA, LINK and UNLK
(O44), MOVEM (O45), MOVEP (O46). -/

namespace Sys2Proof.Machine

open Sys2Proof

/-! Reading a source operand, then changing the state with it. -/

/-- Resolving leaves the status register. -/
theorem State.sr_of_resolve {s p : State} {ea : Ea} {sz : Size} {loc : Loc} (hl : s.resolve ea sz = (loc, p)) :
    p.sr = s.sr := by
  rw [← State.resolve_sr s ea sz, hl]

/-- Bus cycles are answered after a resolve as before. -/
theorem State.sameBus_of_resolve {s p : State} {ea : Ea} {sz : Size} {loc : Loc} (hl : s.resolve ea sz = (loc, p)) :
    s.sameBus p := by
  simpa only [hl] using s.resolve_sameBus ea sz

/-- The address of a control mode. -/
theorem eaAddress_ok {ea : Ea} {s p : State} {loc : Loc} (hl : s.resolve ea .long = (loc, p)) :
    eaAddress ea s = .ok loc.address p := by
  rw [eaAddress, run_bind_ok (resolveEa_run ea .long s), hl, run_pure]

/-- An instruction that reads its operand and then changes the state in one go. -/
theorem runInstr_readEa {ea : Ea} {sz : Size} {s p : State} {loc : Loc} (hl : s.beginInstr.resolve ea sz = (loc, p))
    (hr : loc.readable sz p = true) (g : Long → State → State) :
    runInstr (do let v ← readEa ea sz; modify (g v)) s = .next (g (loc.load sz p) p) :=
  runInstr_ok (by rw [run_bind_ok (readEa_at hl hr), run_modify])

/-- The second half of MOVE, where the destination is writable (R184). -/
theorem moveStore_ok {sz : Size} {v : Long} {dst : Ea} {p q : State} {to_ : Loc} (hl : p.resolve dst sz = (to_, q))
    (hw : to_.writable sz q = true) :
    moveStore sz v dst p = .ok () ((to_.store sz v q).setCcr (moveFlags sz p.sr.ccr v)) := by
  unfold moveStore
  rw [run_bind_ok (resolveEa_run dst sz p), hl, run_bind_ok (run_get q), wrFlagged_ok hw, State.sr_of_resolve hl]

/-- MOVE where both operands can be accessed (R184, R162). -/
theorem runInstr_moveBody {sz : Size} {src dst : Ea} {s p q : State} {from_ to_ : Loc}
    (hl : s.beginInstr.resolve src sz = (from_, p)) (hr : from_.readable sz p = true)
    (hl' : p.resolve dst sz = (to_, q)) (hw : to_.writable sz q = true) :
    runInstr (moveBody sz src dst) s =
      .next ((to_.store sz (from_.load sz p) q).setCcr (moveFlags sz s.sr.ccr (from_.load sz p))) := by
  have hsr : p.sr = s.sr := State.sr_of_resolve (s := s.beginInstr) hl
  refine runInstr_ok ?_
  unfold moveBody
  rw [run_bind_ok (readEa_at hl hr), moveStore_ok hl' hw, hsr]

/-- The three sizes of MOVE have one meaning. -/
theorem exec_move {i : Instr} {sz : Size} {src dst : Ea}
    (hi : (i = .moveByte src dst ∧ sz = .byte) ∨ (i = .moveWord src dst ∧ sz = .word) ∨
      (i = .moveLong src dst ∧ sz = .long)) (s : State) : exec i s = runInstr (moveBody sz src dst) s := by
  obtain ⟨rfl, rfl⟩ | ⟨rfl, rfl⟩ | ⟨rfl, rfl⟩ := hi <;> rfl

/-- The two sizes of MOVEA have one meaning. -/
theorem exec_movea {i : Instr} {sz : Size} {src : Ea} {an : Reg}
    (hi : (i = .moveaWord src an ∧ sz = .word) ∨ (i = .moveaLong src an ∧ sz = .long)) (s : State) :
    exec i s = runInstr (moveaBody sz src an) s := by
  obtain ⟨rfl, rfl⟩ | ⟨rfl, rfl⟩ := hi <;> rfl

/-- Settles O42: the source is read in the state its own mode leaves, and from there the destination is resolved. -/
theorem moveResults : Obligations.MoveResults := by
  constructor
  · intro i sz src dst s p q from_ to_ v hi hl hr hv hl' hw
    rw [exec_move hi, runInstr_moveBody hl hr hl' hw, ← hv]
    rfl
  · intro i sz src an s p from_ hi hl hr
    rw [exec_movea hi]
    exact runInstr_readEa hl hr fun v => State.setA an (signExtend sz v)

/-! MOVEQ, SWAP, EXT, EXG, LEA: one change of the state each. -/

/-- An instruction that only changes the state. -/
theorem runInstr_modify (g : State → State) (s : State) : runInstr (modify g) s = .next (g s.beginInstr) :=
  runInstr_ok rfl

/-- A byte sign-extended shows its sign in the most significant bit, and is zero only when the byte is. -/
theorem moveFlags_sextByte (old : Ccr) (d : Byte) :
    moveFlags .long old (sextByte d) =
      { x := old.x, n := d.getLsbD 7, z := decide (d = 0), v := false, c := false } := by
  have hn : msbOf .long (sextByte d) = d.getLsbD 7 := by
    simp [msbOf, sizeBits, sextByte, BitVec.getElem_signExtend, BitVec.msb_eq_getLsbD_last]
  have hz : sextByte d = 0 ↔ d = 0 := by
    rw [← BitVec.toInt_inj, ← BitVec.toInt_inj, sextByte, BitVec.toInt_signExtend_of_le (by decide)]
    rfl
  simp only [moveFlags, hn, hz]

/-- The halves exchanged are the long word turned by 16 places. -/
theorem joinWords_swap (v : Long) : joinWords (lowWord v) (highWord v) = v.rotateLeft 16 := by
  refine BitVec.eq_of_getLsbD_eq fun i hi => ?_
  simp only [joinWords, lowWord, highWord, BitVec.getLsbD_append, BitVec.getLsbD_rotateLeft, BitVec.getLsbD_extractLsb',
    BitVec.getLsbD_setWidth]
  grind

/-- Only the low word of what a word write is given is written. -/
theorem State.setD_word_trunc (s : State) (n : Reg) (v : Long) : s.setD .word n (trunc .word v) = s.setD .word n v := by
  simp [State.setD, mergeLow, trunc]

/-- A byte sign-extended to 32 bits and cut to a word is the byte sign-extended to a word. -/
theorem trunc_word_signExtend (v : Long) :
    trunc .word (signExtend .byte v) = ((v.setWidth 8).signExtend 16).setWidth 32 := by
  refine congrArg (BitVec.setWidth 32) (BitVec.eq_of_getLsbD_eq fun i hi => ?_)
  have hi' : i < 32 := by omega
  simp only [signExtend, BitVec.getLsbD_setWidth, BitVec.getLsbD_signExtend, hi, hi', decide_true, Bool.true_and]

/-- LEA loads the address of its operand (R182). -/
theorem exec_lea (ea : Ea) (n : Reg) (s : State) :
    exec (.lea ea n) s =
      .next ((s.beginInstr.resolve ea .long).2.setA n (s.beginInstr.resolve ea .long).1.address) := by
  rw [exec, execLea]
  exact runInstr_ok rfl

/-- Settles O43: each is one change of the state; the exchanges hold by what a register reads back after a write to it or
to the other one. -/
theorem registerMoves : Obligations.RegisterMoves := by
  intro s x y d ea
  refine ⟨?moveq, ?swap, ?extWord, ?extLong, ?exgData, ?exgAddr, ?exgDataAddr, exec_lea ea x s, ?dx, ?dy, ?ax, ?ay⟩
  case moveq => rw [exec, execMoveq, runInstr_modify, ← moveFlags_sextByte]; rfl
  case swap => rw [exec, execSwap, runInstr_modify, joinWords_swap]; rfl
  case extWord => rw [exec, execExtReg, runInstr_modify, ← trunc_word_signExtend, ← State.setD_word_trunc]; rfl
  case extLong => rw [exec, execExtReg, runInstr_modify]; rfl
  case exgData => rw [exec, execExgData, runInstr_modify]; rfl
  case exgAddr => rw [exec, execExgAddr, runInstr_modify]; rfl
  case exgDataAddr => rw [exec, execExgDataAddr, runInstr_modify]; rfl
  case dx =>
    by_cases hxy : x = y
    · subst hxy; simp [mergeLow]
    · rw [State.dreg_setD_of_ne _ _ _ hxy]; simp [mergeLow]
  case dy => simp [mergeLow]
  case ax =>
    by_cases hxy : x = y
    · subst hxy; simp
    · rw [State.areg_setA_of_ne _ _ hxy]; simp
  case ay => simp

/-! PEA, LINK, UNLK. -/

/-- Accesses at the start of an instruction go through as before it. -/
theorem State.sameBus_beginInstr (s : State) : s.sameBus s.beginInstr := ⟨⟨rfl, rfl, rfl⟩, rfl⟩

/-- The same after its own words. -/
theorem State.sameBus_operandWords (s : State) (v : Long) : s.sameBus (s.beginInstr.advance v) :=
  ⟨⟨rfl, rfl, rfl⟩, rfl⟩

theorem exec_pea {ea : Ea} {s p : State} {loc : Loc} (hl : s.beginInstr.resolve ea .long = (loc, p))
    (hw : p.canAccess .data .write (p.sp - 4) .long = true) :
    exec (.pea ea) s = .next ((p.storeMem (p.sp - 4) .long loc.address).setSp (p.sp - 4)) := by
  rw [exec, execPea]
  exact runInstr_ok ((run_bind_ok (eaAddress_ok hl)).trans (push32_ok hw))

theorem exec_link {an : Reg} {s : State} (hw : s.canAccess .data .write (s.sp - 4) .long = true) (d : Word) :
    exec (.link an d) s =
      .next (((((s.beginInstr.advance 2).storeMem (s.sp - 4) .long (linkValue an s)).setSp (s.sp - 4)).setA an
        (s.sp - 4)).setSp (s.sp - 4 + sextWord d)) := by
  have hw' : (s.beginInstr.advance 2).canAccess .data .write (s.sp - 4) .long = true :=
    (State.canAccess_congr (s.sameBus_operandWords 2) ..).trans hw
  rw [exec, execLink]
  refine runInstr_ok ?_
  rw [run_bind_ok (run_modify _ _), run_bind_ok (run_get _)]
  exact run_bind_ok (onAbort_ok (writeMem_ok hw'))

theorem exec_unlk {an : Reg} {s : State} (hr : s.canAccess .data .read (s.areg an) .long = true) :
    exec (.unlk an) s = .next (unlkFinish an (s.areg an) (s.longAt (s.code .data) (s.areg an)) s.beginInstr) := by
  have hr' : s.beginInstr.canAccess .data .read (s.areg an) .long = true :=
    (State.canAccess_congr s.sameBus_beginInstr ..).trans hr
  rw [exec, execUnlk]
  refine runInstr_ok ?_
  rw [run_bind_ok (run_get _)]
  exact run_bind_ok (onAbort_ok (readMem_ok hr'))

/-- Settles O44: the address of PEA is computed before the push; LINK and UNLK put A7 and the register in place after
their one access. -/
theorem stackFrameResults : Obligations.StackFrameResults := by
  refine ⟨fun ea s p loc hl hw => exec_pea hl hw, fun an d s a v ha hw hv => ?_, fun an s v hr hv => ?_⟩
  · subst ha hv
    exact exec_link hw d
  · subst hv
    exact exec_unlk hr

/-! Lists of transfers: where all their accesses go through, they are made in one go (R186, R188). -/

theorem State.sameBus_trans {s t u : State} (h : s.sameBus t) (h' : t.sameBus u) : s.sameBus u := by
  obtain ⟨⟨hmap, hcycles, herror⟩, hs⟩ := h
  obtain ⟨⟨hmap', hcycles', herror'⟩, hs'⟩ := h'
  exact ⟨⟨hmap'.trans hmap, hcycles'.trans hcycles, herror'.trans herror⟩, hs'.trans hs⟩

/-- After an operand is stored, accesses go through as before. -/
theorem State.sameBus_storeMem (s : State) (a : Long) (sz : Size) (v : Long) : s.sameBus (s.storeMem a sz v) :=
  ⟨⟨rfl, rfl, rfl⟩, rfl⟩

/-- After a register is loaded, accesses go through as before. -/
theorem State.sameBus_setGpr (s : State) (r : Fin 16) (v : Long) : s.sameBus (s.setGpr r v) := by
  unfold State.setGpr
  split <;> exact ⟨⟨rfl, rfl, rfl⟩, rfl⟩

theorem State.code_of_sameBus {s t : State} (h : s.sameBus t) (sp : Space) : t.code sp = s.code sp := by
  cases sp <;> simp only [State.code, h.2]

/-- The first access of a list goes through, and the others do in any state of the same bus. -/
theorem State.canAccessList_succ {s t : State} {sp : Space} {dir : Direction} {sz : Size} {stride a : Long} {k : Nat}
    (h : s.canAccessList sp dir sz stride (k + 1) a = true) (ht : s.sameBus t) :
    s.canAccess sp dir a sz = true ∧ t.canAccessList sp dir sz stride k (a + stride) = true := by
  rw [State.canAccessList_congr ht]
  simpa only [State.canAccessList, Bool.and_eq_true] using h

theorem storeUp_ok {sz : Size} {rs : List (Fin 16)} {a : Long} {s : State}
    (h : s.canAccessList .data .write sz (BitVec.ofNat 32 (sizeBytes sz)) rs.length a = true) :
    storeUp sz rs a s =
      .ok () (s.storeList sz (BitVec.ofNat 32 (sizeBytes sz)) (rs.map fun r => trunc sz (s.gpr r)) a) := by
  induction rs generalizing a s with
  | nil => rfl
  | cons r rs ih =>
    obtain ⟨hfirst, hrest⟩ := State.canAccessList_succ h (s.sameBus_storeMem a sz (trunc sz (s.gpr r)))
    rw [storeUp, run_bind_ok (run_get s), run_bind_ok (writeMem_ok hfirst), ih hrest]
    rfl

theorem storeDown_ok {sz : Size} {rs : List (Fin 16)} {a k : Long} {s : State} (hk : k = BitVec.ofNat 32 (sizeBytes sz))
    (h : s.canAccessList .data .write sz (-k) rs.length (a - k) = true) :
    storeDown sz rs a s = .ok () (s.storeList sz (-k) (rs.map fun r => trunc sz (s.gpr r)) (a - k)) := by
  subst hk
  induction rs generalizing a s with
  | nil => rfl
  | cons r rs ih =>
    obtain ⟨hfirst, hrest⟩ := State.canAccessList_succ h
      (s.sameBus_storeMem (a - BitVec.ofNat 32 (sizeBytes sz)) sz (trunc sz (s.gpr r)))
    rw [← BitVec.sub_eq_add_neg] at hrest
    rw [storeDown, run_bind_ok (run_get s), run_bind_ok (writeMem_ok hfirst), ih hrest, List.map_cons, State.storeList,
      ← BitVec.sub_eq_add_neg]
    rfl

theorem loadUp_ok {sz : Size} {sp : Space} {rs : List (Fin 16)} {a : Long} {s : State}
    (h : s.canAccessList sp .read sz (BitVec.ofNat 32 (sizeBytes sz)) rs.length a = true) :
    loadUp sz sp rs a s = .ok () (s.loadList (s.code sp) sz rs a) := by
  induction rs generalizing a s with
  | nil => rfl
  | cons r rs ih =>
    have hbus := s.sameBus_setGpr r (signExtend sz (s.loadMem (s.code sp) a sz))
    obtain ⟨hfirst, hrest⟩ := State.canAccessList_succ h hbus
    rw [loadUp, run_bind_ok (readMem_ok hfirst), run_bind_ok (run_modify _ _), ih hrest, State.code_of_sameBus hbus]
    rfl

theorem State.sameBus_loadList (s : State) (code : FunctionCode) (sz : Size) (rs : List (Fin 16)) (a : Long) :
    s.sameBus (s.loadList code sz rs a) := by
  induction rs generalizing s a with
  | nil => exact ⟨⟨rfl, rfl, rfl⟩, rfl⟩
  | cons r rs ih => exact State.sameBus_trans (s.sameBus_setGpr r _) (ih _ _)

/-- The registers loaded and the word beyond them read (R186). -/
theorem loadUp_extra {sz : Size} {sp : Space} {rs : List (Fin 16)} {a : Long} {s : State}
    (h : s.canAccessList sp .read sz (BitVec.ofNat 32 (sizeBytes sz)) rs.length a = true)
    (hextra : s.canAccess sp .read (a + listBytes sz rs) .word = true) :
    (do loadUp sz sp rs a; let _ ← readMem sp (a + listBytes sz rs) .word; pure () : Exec Unit) s =
      .ok () (s.loadList (s.code sp) sz rs a) := by
  have hextra' := (State.canAccess_congr (s.sameBus_loadList (s.code sp) sz rs a) ..).trans hextra
  rw [run_bind_ok (loadUp_ok h), run_bind_ok (readMem_ok hextra'), run_pure]

theorem storeAlternate_ok {bs : List Byte} {a : Long} {s : State}
    (h : s.canAccessList .data .write .byte 2 bs.length a = true) :
    storeAlternate bs a s = .ok () (s.storeList .byte 2 (bs.map (BitVec.setWidth 32)) a) := by
  induction bs generalizing a s with
  | nil => rfl
  | cons b bs ih =>
    obtain ⟨hfirst, hrest⟩ := State.canAccessList_succ h (s.sameBus_storeMem a .byte (b.setWidth 32))
    rw [storeAlternate, run_bind_ok (writeMem_ok hfirst), ih hrest]
    rfl

theorem loadAlternate_ok {k : Nat} {a acc : Long} {s : State}
    (h : s.canAccessList .data .read .byte 2 k a = true) :
    loadAlternate k a acc s = .ok (s.bytesAt (s.code .data) k a acc) s := by
  induction k generalizing a acc with
  | zero => rfl
  | succ k ih =>
    obtain ⟨hfirst, hrest⟩ := State.canAccessList_succ (t := s) h ⟨⟨rfl, rfl, rfl⟩, rfl⟩
    rw [loadAlternate, run_bind_ok (readMem_ok hfirst), ih hrest]
    rfl

/-! MOVEM (R186). -/

theorem exec_movemStore_up {sz : AddrSize} {mask : Word} {ea : Ea} {s p : State} {loc : Loc} (hea : ea.isPreDec = false)
    (hl : (s.beginInstr.advance 2).resolve ea .long = (loc, p))
    (hw : p.canAccessList .data .write sz.toSize (BitVec.ofNat 32 (sizeBytes sz.toSize)) (maskBits mask).length
      loc.address = true) :
    exec (.movemStore sz mask ea) s =
      .next (p.storeList sz.toSize (BitVec.ofNat 32 (sizeBytes sz.toSize))
        ((maskBits mask).map fun r => trunc sz.toSize (p.gpr r)) loc.address) := by
  rw [exec, execMovemStore]
  · exact runInstr_ok ((run_bind_ok (run_modify _ _)).trans ((run_bind_ok (eaAddress_ok hl)).trans (storeUp_ok hw)))
  · rintro n rfl
    cases hea

theorem exec_movemStore_down {sz : AddrSize} {mask : Word} {n : Reg} {s : State} {k : Long}
    (hk : k = BitVec.ofNat 32 (sizeBytes sz.toSize))
    (hw : s.canAccessList .data .write sz.toSize (-k) (maskBits mask).length (s.areg n - k) = true) :
    exec (.movemStore sz mask (.preDec n)) s =
      .next (((s.beginInstr.advance 2).storeList sz.toSize (-k)
        ((maskBits mask).map fun i => trunc sz.toSize (s.gpr (downRegister i))) (s.areg n - k)).setA n
          (s.areg n - BitVec.ofNat 32 ((maskBits mask).length * sizeBytes sz.toSize))) := by
  have hw' : (s.beginInstr.advance 2).canAccessList .data .write sz.toSize (-k)
      ((maskBits mask).map downRegister).length (s.areg n - k) = true := by
    rw [List.length_map, State.canAccessList_congr (s.sameBus_operandWords 2), hw]
  rw [exec, execMovemStore]
  refine runInstr_ok ?_
  rw [run_bind_ok (run_modify _ _), run_bind_ok (run_get _)]
  refine (run_bind_ok (onAbort_ok (storeDown_ok hk hw'))).trans ?_
  rw [run_modify, listBytes, List.length_map, List.map_map]
  rfl

theorem exec_movemLoad_of_not_postInc {sz : AddrSize} {mask : Word} {ea : Ea} {s p : State} {loc : Loc}
    (hea : ea.isPostInc = false) (hl : (s.beginInstr.advance 2).resolve ea sz.toSize = (loc, p))
    (hr : p.canAccessList loc.space .read sz.toSize (BitVec.ofNat 32 (sizeBytes sz.toSize)) (maskBits mask).length
      loc.address = true)
    (hextra : p.canAccess loc.space .read (loc.address + listBytes sz.toSize (maskBits mask)) .word = true) :
    exec (.movemLoad sz mask ea) s = .next (p.loadList (p.code loc.space) sz.toSize (maskBits mask) loc.address) := by
  rw [exec, execMovemLoad]
  refine runInstr_ok ?_
  rw [run_bind_ok (run_modify _ _)]
  cases ea with
  | postInc n => cases hea
  | _ =>
    dsimp only
    rw [run_bind_ok (resolveEa_run _ _ _), hl]
    exact loadUp_extra hr hextra

theorem exec_movemLoad_postInc {sz : AddrSize} {mask : Word} {n : Reg} {s p : State} {a : Long}
    (hp : p = s.beginInstr.advance 2) (ha : a = s.areg n)
    (hr : p.canAccessList .data .read sz.toSize (BitVec.ofNat 32 (sizeBytes sz.toSize)) (maskBits mask).length a = true)
    (hextra : p.canAccess .data .read (a + listBytes sz.toSize (maskBits mask)) .word = true) :
    exec (.movemLoad sz mask (.postInc n)) s =
      .next ((p.loadList (p.code .data) sz.toSize (maskBits mask) a).setA n (a + listBytes sz.toSize (maskBits mask))) := by
  subst hp ha
  rw [exec, execMovemLoad]
  refine runInstr_ok ?_
  rw [run_bind_ok (run_modify _ _)]
  dsimp only
  rw [run_bind_ok (run_get _)]
  exact run_bind_ok (onAbort_ok (loadUp_extra hr hextra))

/-- Settles O45: the transfers of each form are a list of accesses that all go through. -/
theorem movemResults : Obligations.MovemResults := by
  refine ⟨fun sz mask ea s p loc vs hea hl hvs hw => ?_, fun sz mask n s p vs k hp hk hvs hw => ?_,
    fun sz mask ea s p loc rs hea hl hrs hr hextra => ?_, fun sz mask n s p a b rs hp ha hrs hb hr hextra => ?_⟩
  · subst hvs
    rw [List.length_map] at hw
    exact exec_movemStore_up hea hl hw
  · subst hp hvs
    rw [List.length_map, State.canAccessList_congr (s.sameBus_operandWords 2)] at hw
    rw [List.length_map]
    exact exec_movemStore_down hk hw
  · subst hrs
    exact exec_movemLoad_of_not_postInc hea hl hr hextra
  · subst hb hrs
    exact exec_movemLoad_postInc hp ha hr hextra

/-! MOVEP (R188). -/

/-- A byte write stores the low byte only. -/
theorem State.storeMem_byte_congr {v w : Long} (h : v.setWidth 8 = w.setWidth 8) (a : Long) (s : State) :
    s.storeMem a .byte v = s.storeMem a .byte w := by
  have hlow : (lowWord v).setWidth 8 = (lowWord w).setWidth 8 := by
    simpa only [lowWord, BitVec.setWidth_setWidth_of_le _ (by decide : 8 ≤ 16)] using h
  have hwritten :
      s.written (s.byteWrite a) (lowWord v) s.mem = s.written (s.byteWrite a) (lowWord w) s.mem :=
    congrArg (s.mem.write (s.locate (s.code .data) a)) hlow
  have hmem : s.memStored a .byte v = s.memStored a .byte w :=
    congrArg (fun m => if s.stores (s.byteWrite a) .done then m else s.mem) hwritten
  rw [State.storeMem, State.storeMem, hmem]

theorem State.storeList_byte_congr {vs ws : List Long} (h : vs.map (BitVec.setWidth 8) = ws.map (BitVec.setWidth 8))
    (stride a : Long) (s : State) : s.storeList .byte stride vs a = s.storeList .byte stride ws a := by
  induction vs generalizing ws a s with
  | nil => rw [List.map_eq_nil_iff.mp h.symm]
  | cons v vs ih =>
    cases ws with
    | nil => cases h
    | cons w ws =>
      obtain ⟨hhead, htail⟩ := List.cons.inj h
      rw [State.storeList, State.storeList, State.storeMem_byte_congr hhead, ih htail]

/-- The bytes of MOVEP are the register shifted right, as far as a byte write shows. -/
theorem movepBytes_eq (v : Long) :
    movepBytes .word v = [v >>> 8, v].map (BitVec.setWidth 8) ∧
      movepBytes .long v = [v >>> 24, v >>> 16, v >>> 8, v].map (BitVec.setWidth 8) := by
  simp only [movepBytes, List.map_cons, List.map_nil, ← BitVec.setWidth_ushiftRight_eq_extractLsb,
    BitVec.ushiftRight_zero, and_self]

theorem runInstr_movepStore {sz : AddrSize} {dn an : Reg} {d : Word} {s : State} {vs : List Long}
    (hvs : movepBytes sz (s.dreg dn) = vs.map (BitVec.setWidth 8))
    (hw : s.canAccessList .data .write .byte 2 vs.length (s.areg an + sextWord d) = true) :
    runInstr (movepStore sz dn an d) s =
      .next ((s.beginInstr.advance 2).storeList .byte 2 vs (s.areg an + sextWord d)) := by
  have hw' : (s.beginInstr.advance 2).canAccessList .data .write .byte 2 (vs.map (BitVec.setWidth 8)).length
      (s.areg an + sextWord d) = true := by
    rw [List.length_map, State.canAccessList_congr (s.sameBus_operandWords 2), hw]
  have hbytes : ((vs.map (BitVec.setWidth 8)).map (BitVec.setWidth 32)).map (BitVec.setWidth 8) =
      vs.map (BitVec.setWidth 8) := by
    simp [Function.comp_def]
  refine runInstr_ok ?_
  rw [movepStore, run_bind_ok (run_modify _ _), run_bind_ok (run_get _)]
  show storeAlternate (movepBytes sz (s.dreg dn)) (s.areg an + sextWord d) (s.beginInstr.advance 2) = _
  rw [hvs, storeAlternate_ok hw', State.storeList_byte_congr hbytes]

theorem State.bytesAt_congr {s t : State} (hmap : t.memMap = s.memMap) (hmem : t.mem = s.mem) (code : FunctionCode)
    (k : Nat) (a acc : Long) : t.bytesAt code k a acc = s.bytesAt code k a acc := by
  induction k generalizing a acc with
  | zero => rfl
  | succ k ih => rw [State.bytesAt, State.bytesAt, State.byteAt_congr hmap hmem, ih]

theorem runInstr_movepLoad {sz : AddrSize} {an : Reg} {d : Word} {s : State} (dn : Reg)
    (hr : s.canAccessList .data .read .byte 2 (sizeBytes sz.toSize) (s.areg an + sextWord d) = true) :
    runInstr (movepLoad sz dn an d) s =
      .next ((s.beginInstr.advance 2).setD sz.toSize dn
        (s.bytesAt (s.code .data) (sizeBytes sz.toSize) (s.areg an + sextWord d) 0)) := by
  have hr' := (State.canAccessList_congr (s.sameBus_operandWords 2) ..).trans hr
  refine runInstr_ok ?_
  rw [movepLoad, run_bind_ok (run_modify _ _), run_bind_ok (run_get _)]
  refine (run_bind_ok (loadAlternate_ok hr')).trans ?_
  rw [run_modify, State.bytesAt_congr (s := s) (t := s.beginInstr.advance 2) rfl rfl]
  rfl

/-- Settles O46: the bytes are transferred as a list of accesses that all go through; a byte access is never misaligned. -/
theorem movepResults : Obligations.MovepResults := by
  intro dn an d s p a v hp ha hv
  subst hp ha hv
  obtain ⟨hword, hlong⟩ := movepBytes_eq (s.dreg dn)
  refine ⟨fun hw => ?_, fun hw => ?_, fun hr => ?_, fun hr => ?_⟩
  · rw [exec, execMovepStoreWord]; exact runInstr_movepStore hword hw
  · rw [exec, execMovepStoreLong]; exact runInstr_movepStore hlong hw
  · rw [exec, execMovepLoadWord]; exact runInstr_movepLoad dn hr
  · rw [exec, execMovepLoadLong]; exact runInstr_movepLoad dn hr

end Sys2Proof.Machine
end

section
/-! PROOFS. The family of spec 41, frames: the instructions that read an operand and write a register or flags (O56), MOVE,
MOVEM and MOVEP to memory (O59), branches, jumps, calls, returns and the stack instructions (O60). -/

namespace Sys2Proof.Machine

open Sys2Proof

/-! Instructions that read an operand and write a register or the flags (O56). -/

/-- The state after an instruction whose body goes through. -/
theorem eq_of_runInstr {body : Exec Unit} {s t u : State} (hbody : body s.beginInstr = .ok () u)
    (h : runInstr body s = .next t) : t = u :=
  Host.Outcome.next.inj (h.symm.trans (runInstr_ok hbody))

/-- The state after an instruction that reads its operand and then changes the state in one go. -/
theorem eq_of_runInstr_readEa {ea : Ea} {sz : Size} {s p t : State} {loc : Loc}
    (hl : s.beginInstr.resolve ea sz = (loc, p)) (hr : loc.readable sz p = true) {g : Long → State → State}
    (h : runInstr (do let v ← readEa ea sz; modify (g v)) s = .next t) : t = g (loc.load sz p) p :=
  Host.Outcome.next.inj (h.symm.trans (runInstr_readEa hl hr g))

/-- Passing the operation word and resolving an operand changes the register of the mode only. -/
theorem State.Changes.operand {ds as : List Reg} {places : Nat → Prop} {ea : Ea} {sz : Size} {s p : State} {loc : Loc}
    (hl : s.beginInstr.resolve ea sz = (loc, p)) (hea : ∀ n ∈ eaChanges ea, n ∈ as) :
    State.Changes ds as places s p := (State.Changes.beginInstr s).resolve hl hea

section
variable {ea : Ea} {sz : Size} {s p t : State} {loc : Loc} (hl : s.beginInstr.resolve ea sz = (loc, p))
  (hr : loc.readable sz p = true)
include hl hr

/-- A data register and the flags from an operand. -/
theorem setD_readEa_frame {n : Reg} {size : Size} {r : Long → State → Long} {cc : Long → State → Ccr}
    (h : runInstr (do let v ← readEa ea sz; modify fun u => (u.setD size n (r v u)).setCcr (cc v u)) s = .next t) :
    (State.sameButRegs [n] (eaChanges ea) s t ∧ State.sameMemory s t) ∧ t.sr.ccr = cc (loc.load sz p) p := by
  obtain rfl := eq_of_runInstr_readEa hl hr h
  exact ⟨(((State.Changes.operand hl fun _ hm => hm).setD List.mem_cons_self _ _).setCcr _).frame, rfl⟩

/-- The flags from an operand. -/
theorem setCcr_readEa_frame {cc : Long → State → Ccr}
    (h : runInstr (do let v ← readEa ea sz; modify fun u => u.setCcr (cc v u)) s = .next t) :
    (State.sameButRegs [] (eaChanges ea) s t ∧ State.sameMemory s t) ∧ t.sr.ccr = cc (loc.load sz p) p := by
  obtain rfl := eq_of_runInstr_readEa hl hr h
  exact ⟨((State.Changes.operand hl fun _ hm => hm).setCcr _).frame, rfl⟩

/-- An address register from an operand: no flag changes. -/
theorem setA_readEa_frame {n : Reg} {f : Long → State → Long}
    (h : runInstr (do let v ← readEa ea sz; modify fun u => u.setA n (f v u)) s = .next t) :
    State.sameButRegs [] (n :: eaChanges ea) s t ∧ State.sameMemory s t ∧ t.sr = s.sr := by
  have hsr : p.sr = s.sr := State.sr_of_resolve (s := s.beginInstr) hl
  obtain rfl := eq_of_runInstr_readEa hl hr h
  obtain ⟨hregs, hmem⟩ :=
    ((State.Changes.operand hl fun _ hm => List.mem_cons_of_mem n hm).setA List.mem_cons_self (f (loc.load sz p) p)).frame
  exact ⟨hregs, hmem, hsr⟩

/-- `<ea>, Dn`: the flags are those of the operation. -/
theorem aluToReg_frame {alu : Alu} {dn : Reg} (h : runInstr (aluToReg alu sz ea dn) s = .next t) :
    (State.sameButRegs [dn] (eaChanges ea) s t ∧ State.sameMemory s t) ∧
      t.sr.ccr = (alu sz s.sr.ccr (loc.load sz p) (trunc sz (p.dreg dn))).2 := by
  have hsr : p.sr = s.sr := State.sr_of_resolve (s := s.beginInstr) hl
  rw [← hsr]
  exact setD_readEa_frame hl hr (r := fun v u => (alu sz u.sr.ccr v (trunc sz (u.dreg dn))).1)
    (cc := fun v u => (alu sz u.sr.ccr v (trunc sz (u.dreg dn))).2) h

end

/-- A division by another number than zero changes its register, unless the quotient does not fit, and the flags but X. -/
theorem divBody_frame {div : Divider} {ea : Ea} {dn : Reg} {s p t : State} {loc : Loc}
    (hl : s.beginInstr.resolve ea .word = (loc, p)) (hr : loc.readable .word p = true)
    (hnz : lowWord (loc.load .word p) ≠ 0) (h : runInstr (divBody div ea dn) s = .next t) :
    (State.sameButRegs [dn] (eaChanges ea) s t ∧ State.sameMemory s t) ∧ t.sr.ccr.x = p.sr.ccr.x := by
  have hp : State.Changes [dn] (eaChanges ea) (fun _ => False) s p := State.Changes.operand hl fun _ hm => hm
  have hread : divBody div ea dn s.beginInstr = _ := run_bind_ok (readEa_at hl hr)
  rw [run_ite, if_neg hnz, run_bind_ok (run_get p)] at hread
  cases hq : div (p.dreg dn) (lowWord (loc.load .word p)) with
  | none =>
    rw [hq] at hread
    obtain rfl := eq_of_runInstr hread h
    exact ⟨((hp.draw _).setCcr _).frame, rfl⟩
  | some qr =>
    rw [hq] at hread
    obtain rfl := eq_of_runInstr hread h
    exact ⟨((hp.setD List.mem_cons_self _ _).setCcr _).frame, rfl⟩

/-- Settles O56: every instruction of the groups reads its operand and then writes one register, the flags, or both. -/
theorem registerFrame : Obligations.RegisterFrame := by
  intro i sz asz ea dn an s p t loc hl hr h
  have hx : p.sr.ccr.x = s.sr.ccr.x := by rw [State.sr_of_resolve (s := s.beginInstr) hl]; rfl
  refine ⟨fun hi => ?arith, fun hi => ?logicMulDiv, fun hi => ?compare, fun hi => ?moveToCcr, fun hi => ?address⟩
  case arith =>
    simp only [List.mem_cons, List.not_mem_nil, or_false] at hi
    obtain rfl | rfl := hi
    · rw [exec, execAddToReg] at h; exact (aluToReg_frame hl hr h).1
    · rw [exec, execSubToReg] at h; exact (aluToReg_frame hl hr h).1
  case logicMulDiv =>
    simp only [List.mem_cons, List.not_mem_nil, or_false] at hi
    rw [← and_assoc]
    obtain (rfl | rfl) | ⟨rfl, rfl | rfl⟩ | ⟨rfl, hnz, rfl | rfl⟩ := hi
    · rw [exec, execAndToReg] at h
      exact (aluToReg_frame hl hr h).imp_right fun e => by rw [e]; rfl
    · rw [exec, execOrToReg] at h
      exact (aluToReg_frame hl hr h).imp_right fun e => by rw [e]; rfl
    · rw [exec, execMuls, mulBody] at h
      exact (setD_readEa_frame hl hr h).imp_right fun e => by rw [e]; exact hx
    · rw [exec, execMulu, mulBody] at h
      exact (setD_readEa_frame hl hr h).imp_right fun e => by rw [e]; exact hx
    · rw [exec, execDivs] at h
      exact (divBody_frame hl hr hnz h).imp_right fun e => e.trans hx
    · rw [exec, execDivu] at h
      exact (divBody_frame hl hr hnz h).imp_right fun e => e.trans hx
  case compare =>
    simp only [List.mem_cons, List.not_mem_nil, or_false] at hi
    rw [← and_assoc]
    obtain (rfl | rfl) | ⟨rfl, rfl⟩ := hi
    · rw [exec, execCmp] at h
      exact (setCcr_readEa_frame hl hr h).imp_right fun e => by rw [e]; exact hx
    · rw [exec, execTst] at h
      exact (setCcr_readEa_frame hl hr h).imp_right fun e => by rw [e]; exact hx
    · rw [exec, execCmpa] at h
      exact (setCcr_readEa_frame hl hr h).imp_right fun e => by rw [e]; exact hx
  case moveToCcr =>
    obtain ⟨rfl, rfl⟩ := hi
    rw [exec, execMoveToCcr] at h
    exact (setCcr_readEa_frame hl hr h).1
  case address =>
    simp only [List.mem_cons, List.not_mem_nil, or_false] at hi
    obtain ⟨rfl, rfl | rfl⟩ | ⟨rfl, rfl⟩ | ⟨rfl, rfl⟩ := hi
    · rw [exec, execAdda, addrArith] at h; exact setA_readEa_frame hl hr h
    · rw [exec, execSuba, addrArith] at h; exact setA_readEa_frame hl hr h
    · rw [exec, execMoveaWord, moveaBody] at h; exact setA_readEa_frame hl hr h
    · rw [exec, execMoveaLong, moveaBody] at h; exact setA_readEa_frame hl hr h

/-! MOVE, MOVEM and MOVEP to memory (O59). -/

@[simp] theorem State.storeList_sr (s : State) (sz : Size) (stride a : Long) (vs : List Long) :
    (s.storeList sz stride vs a).sr = s.sr := by
  induction vs generalizing s a with
  | nil => rfl
  | cons v vs ih => exact ih _ _

/-- The bytes of the operands of an ascending list are one span. -/
theorem State.span_up (s : State) (code : FunctionCode) (a : Long) {k size i j : Nat} (hi : i < k) (hj : j < size) :
    s.span code a (k * size)
      (s.locate code (a + BitVec.ofNat 32 i * BitVec.ofNat 32 size + BitVec.ofNat 32 j)) := by
  refine ⟨i * size + j, ?_, ?_⟩
  · calc i * size + j < (i + 1) * size := by rw [Nat.add_one_mul]; omega
      _ ≤ k * size := Nat.mul_le_mul_right size hi
  · rw [BitVec.ofNat_add, BitVec.ofNat_mul, BitVec.add_assoc]

/-- The bytes of the operands of a descending list are the span that ends where the list began. -/
theorem State.span_down (s : State) (code : FunctionCode) (a : Long) {k size i j : Nat} (hi : i < k) (hj : j < size) :
    s.span code (a - BitVec.ofNat 32 (k * size)) (k * size)
      (s.locate code
        (a - BitVec.ofNat 32 size + BitVec.ofNat 32 i * -BitVec.ofNat 32 size + BitVec.ofNat 32 j)) := by
  have hfromBelow : a - BitVec.ofNat 32 size + BitVec.ofNat 32 i * -BitVec.ofNat 32 size =
      a - BitVec.ofNat 32 (k * size) + BitVec.ofNat 32 (k - 1 - i) * BitVec.ofNat 32 size := by
    obtain ⟨m, rfl⟩ : ∃ m, k = i + 1 + m := ⟨k - 1 - i, by omega⟩
    have hm : i + 1 + m - 1 - i = m := by omega
    have hsucc : BitVec.ofNat 32 (i + 1) = BitVec.ofNat 32 i + 1 := BitVec.ofNat_add i 1
    rw [hm, BitVec.ofNat_mul, BitVec.ofNat_add, hsucc]
    ring
  rw [hfromBelow]
  exact s.span_up code _ (by omega) hj

/-- Settles O59: each form stores its operands one by one, every one within the bytes named. -/
theorem moveStoreFrame : Obligations.MoveStoreFrame := by
  refine ⟨?move, ?movemUp, ?movemDown, ?movep⟩
  case move =>
    intro i sz src dst s p q t from_ sp a hi hwf hl hr hl' hw h
    rw [exec_move hi, runInstr_moveBody hl hr hl' hw] at h
    obtain rfl := Host.Outcome.next.inj h
    have hchanges : State.Changes [] (eaChanges src ++ eaChanges dst) (s.span (s.code .data) a (sizeBytes sz)) s
        ((q.storeMem a sz (from_.load sz p)).setCcr (moveFlags sz s.sr.ccr (from_.load sz p))) :=
      ((((State.Changes.operand hl fun _ hn => List.mem_append_left _ hn).resolve hl' fun _ hn =>
        List.mem_append_right _ hn).storeMem hwf fun j hj => ⟨j, hj, rfl⟩) _).setCcr _
    exact ⟨hchanges.regs, hchanges.sameMemoryBut, rfl⟩
  case movemUp =>
    intro sz mask ea s p t loc k size hwf hea hl hk hsize hw h
    subst hk hsize
    rw [exec_movemStore_up hea hl hw] at h
    obtain rfl := Host.Outcome.next.inj h
    have hsr : p.sr = s.sr := State.sr_of_resolve (s := s.beginInstr.advance 2) hl
    refine State.Changes.frame_span ?_ ((State.storeList_sr ..).trans hsr)
    refine (((State.Changes.beginInstr s).advance 2).resolve hl fun _ hn => hn).storeList hwf fun i hi j hj => ?_
    rw [List.length_map] at hi
    exact s.span_up _ _ hi hj
  case movemDown =>
    intro sz mask n s t k size hwf hk hsize hw h
    rw [hk] at hw
    rw [exec_movemStore_down hsize hw] at h
    obtain rfl := Host.Outcome.next.inj h
    subst hk hsize
    refine State.Changes.frame_span ?_ (State.storeList_sr ..)
    refine (((State.Changes.beginInstr s).advance 2).storeList hwf fun i hi j hj => ?_).setA List.mem_cons_self _
    rw [List.length_map] at hi
    exact s.span_down _ _ hi hj
  case movep =>
    intro i dn an d s t k a hi hwf ha hw h
    subst ha
    obtain ⟨vs, hlength, hexec⟩ : ∃ vs : List Long, vs.length = k ∧
        exec i s = .next ((s.beginInstr.advance 2).storeList .byte 2 vs (s.areg an + d.signExtend 32)) := by
      obtain ⟨hword, hlong⟩ := movepBytes_eq (s.dreg dn)
      obtain ⟨rfl, rfl⟩ | ⟨rfl, rfl⟩ := hi
      · exact ⟨_, rfl, by rw [exec, execMovepStoreWord]; exact runInstr_movepStore hword hw⟩
      · exact ⟨_, rfl, by rw [exec, execMovepStoreLong]; exact runInstr_movepStore hlong hw⟩
    obtain rfl := Host.Outcome.next.inj (hexec.symm.trans h)
    have hchanges : State.Changes [] [] (fun place => ∃ j < k,
        place = s.locate (s.code .data) (s.areg an + d.signExtend 32 + BitVec.ofNat 32 (2 * j))) s
        ((s.beginInstr.advance 2).storeList .byte 2 vs (s.areg an + d.signExtend 32)) := by
      refine ((State.Changes.beginInstr s).advance 2).storeList hwf fun i hi j hj => ⟨i, hlength ▸ hi, ?_⟩
      obtain rfl : j = 0 := Nat.lt_one_iff.mp hj
      rw [BitVec.add_zero, Nat.mul_comm, BitVec.ofNat_mul]
      rfl
    exact ⟨hchanges.regs, State.storeList_sr .., fun c x hx => hchanges.bytes c x fun ⟨j, hj, e⟩ => hx j hj e⟩

/-! Branches, jumps, calls, returns and the stack instructions (O60). -/

/-- A control mode changes no register. -/
theorem eaChanges_of_isControl {ea : Ea} (hea : ea.isControl = true) : eaChanges ea = [] := by
  cases ea with
  | postInc _ | preDec _ => cases hea
  | _ => rfl

/-- A control mode leaves the stack pointer. -/
theorem State.sp_of_resolve {s p : State} {ea : Ea} {sz : Size} {loc : Loc} (hea : ea.isControl = true)
    (hl : s.resolve ea sz = (loc, p)) : p.sp = s.sp := by
  obtain rfl : (s.resolve ea sz).2 = p := by rw [hl]
  cases ea with
  | postInc _ | preDec _ => cases hea
  | _ => rfl

/-- The operand of a control mode resolved: only PC changes. -/
theorem State.Changes.control {ds as : List Reg} {places : Nat → Prop} {ea : Ea} {s p : State} {loc : Loc}
    (hea : ea.isControl = true) (hl : s.beginInstr.resolve ea .long = (loc, p)) : State.Changes ds as places s p :=
  State.Changes.operand hl (by simp [eaChanges_of_isControl hea])

/-- Where a push goes through at the start of an instruction, it does after the operand of a control mode is resolved. -/
theorem State.canPush_of_resolve {s p : State} {ea : Ea} {loc : Loc} (hea : ea.isControl = true)
    (hl : s.beginInstr.resolve ea .long = (loc, p)) (hw : s.canAccess .data .write (s.sp - 4) .long = true) :
    p.canAccess .data .write (p.sp - 4) .long = true := by
  have hsp : p.sp = s.sp := State.sp_of_resolve (s := s.beginInstr) hea hl
  rw [hsp, State.canAccess_congr (State.sameBus_trans s.sameBus_beginInstr (State.sameBus_of_resolve hl)), hw]

/-- A push changes A7 and the four bytes below it. -/
theorem State.Changes.push {ds as : List Reg} {s p : State}
    (h : State.Changes ds as (s.span (s.code .data) (s.sp - 4) 4) s p) (hwf : s.mem.wf = true) (h7 : 7 ∈ as)
    (hsp : p.sp = s.sp) (v : Long) :
    State.Changes ds as (s.span (s.code .data) (s.sp - 4) 4) s ((p.storeMem (p.sp - 4) .long v).setSp (p.sp - 4)) := by
  rw [hsp]
  have hbytes : ∀ j < sizeBytes .long,
      s.span (s.code .data) (s.sp - 4) 4 (s.locate (s.code .data) (s.sp - 4 + BitVec.ofNat 32 j)) :=
    fun j hj => ⟨j, hj, rfl⟩
  exact (h.storeMem hwf hbytes v).setSp h7 _

/-- A jump to a subroutine pushes the return address, or, to an odd target, does not (U15). -/
theorem callBody_cases {p : State} (hw : p.canAccess .data .write (p.sp - 4) .long = true) (ret target : Long) :
    ∃ k, callBody ret target p = .ok () ((({ p with drawCount := k }.storeMem (p.sp - 4) .long ret).setSp
        (p.sp - 4)).jump target) ∨
      callBody ret target p = .ok () ({ p with drawCount := k }.jump target) := by
  have hbus (k : Nat) : p.sameBus { p with drawCount := k } := ⟨⟨rfl, rfl, rfl⟩, rfl⟩
  have hpush (k : Nat) : push32 ret { p with drawCount := k } =
      .ok () (({ p with drawCount := k }.storeMem (p.sp - 4) .long ret).setSp (p.sp - 4)) :=
    push32_ok ((State.canAccess_congr (hbus k) ..).trans hw)
  have hdraw : drawBit p = .ok (Config.freeBit p.drawCount) { p with drawCount := p.drawCount + 1 } := rfl
  unfold callBody
  by_cases hodd : target.getLsbD 0 = true
  · refine ⟨p.drawCount + 1, ?_⟩
    rw [if_pos hodd, run_bind_ok hdraw]
    by_cases hpushed : Config.freeBit p.drawCount = true
    · rw [if_pos hpushed]
      exact .inl (run_bind_ok (hpush _))
    · rw [if_neg hpushed]
      exact .inr rfl
  · rw [if_neg hodd]
    exact ⟨p.drawCount, .inl (run_bind_ok (hpush p.drawCount))⟩

/-- A jump to a subroutine changes A7 and the four bytes below it. -/
theorem callBody_frame {s p : State} (h : State.Changes [] [7] (s.span (s.code .data) (s.sp - 4) 4) s p)
    (hwf : s.mem.wf = true) (hsp : p.sp = s.sp) (hw : p.canAccess .data .write (p.sp - 4) .long = true)
    (ret target : Long) :
    ∃ t, callBody ret target p = .ok () t ∧ State.Changes [] [7] (s.span (s.code .data) (s.sp - 4) 4) s t ∧
      t.sr = p.sr := by
  obtain ⟨k, hcall | hcall⟩ := callBody_cases hw ret target
  · exact ⟨_, hcall, ((h.draw k).push hwf List.mem_cons_self hsp ret).jump target, rfl⟩
  · exact ⟨_, hcall, (h.draw k).jump target, rfl⟩

section
variable {s t : State}

/-- BRA and Bcc change PC only, NOP nothing else. -/
theorem branch_frame {i : Instr} {d : BranchDisp} {c : Cond} (hi : i ∈ [Instr.bra d, .bcc c d, .nop])
    (h : exec i s = .next t) : State.sameButRegs [] [] s t ∧ t.sr = s.sr ∧ State.sameMemory s t := by
  simp only [List.mem_cons, List.not_mem_nil, or_false] at hi
  obtain rfl | rfl | rfl := hi
  · rw [exec, execBra] at h
    obtain rfl := eq_of_runInstr (run_modify _ _) h
    exact ((State.Changes.beginInstr s).jump _).frame_sr rfl
  · rw [exec, execBcc] at h
    obtain rfl := eq_of_runInstr (run_modify _ _) h
    split
    · exact ((State.Changes.beginInstr s).jump _).frame_sr rfl
    · exact ((State.Changes.beginInstr s).advance _).frame_sr rfl
  · rw [exec, execNop] at h
    obtain rfl := eq_of_runInstr (run_pure _ _) h
    exact (State.Changes.beginInstr s).frame_sr rfl

/-- DBcc changes its counter where the condition does not hold. -/
theorem dbcc_frame {c : Cond} {n : Reg} {w : Word} (h : exec (.dbcc c n w) s = .next t) :
    State.sameButRegs [n] [] s t ∧ t.sr = s.sr ∧ State.sameMemory s t := by
  have hcount (v : Long) :=
    (State.Changes.beginInstr (as := []) (places := fun _ => False) s).setD (List.mem_singleton_self n) .word v
  rw [exec, execDbcc] at h
  obtain rfl := eq_of_runInstr (run_modify _ _) h
  split
  · exact ((State.Changes.beginInstr s).advance _).frame_sr rfl
  · dsimp only
    split
    · exact ((hcount _).advance _).frame_sr rfl
    · exact ((hcount _).jump _).frame_sr rfl

theorem unlk_frame {n : Reg} (hr : s.canAccess .data .read (s.areg n) .long = true)
    (h : exec (.unlk n) s = .next t) : State.sameButRegs [] [n, 7] s t ∧ t.sr = s.sr ∧ State.sameMemory s t := by
  have h7 : (7 : Reg) ∈ [n, 7] := by simp
  rw [exec_unlk hr, unlkFinish] at h
  obtain rfl := Host.Outcome.next.inj h
  split
  · exact ((State.Changes.beginInstr s).setSp h7 _).frame_sr rfl
  · exact (((State.Changes.beginInstr s).setA List.mem_cons_self _).setSp h7 _).frame_sr rfl

theorem rts_frame (hr : s.canAccess .data .read s.sp .long = true) (h : exec .rts s = .next t) :
    State.sameButRegs [] [7] s t ∧ t.sr = s.sr ∧ State.sameMemory s t := by
  have hpop := pop32_ok ((State.canAccess_congr s.sameBus_beginInstr ..).trans hr)
  rw [exec, execRts] at h
  obtain rfl := eq_of_runInstr ((run_bind_ok hpop).trans (run_modify _ _)) h
  exact (((State.Changes.beginInstr s).setSp List.mem_cons_self _).jump _).frame_sr rfl

/-- RTR pops a word and then a long word. -/
theorem rtr_frame (hword : s.canAccess .data .read s.sp .word = true)
    (hlong : s.canAccess .data .read (s.sp + 2) .long = true) (h : exec .rtr s = .next t) :
    State.sameButRegs [] [7] s t ∧ State.sameMemory s t := by
  have hsp : (s.beginInstr.setSp (s.sp + 2)).sp = s.sp + 2 := State.setSp_sp _ _
  have hbus : s.sameBus (s.beginInstr.setSp (s.sp + 2)) := ⟨⟨rfl, rfl, rfl⟩, rfl⟩
  have hpop16 := pop16_ok ((State.canAccess_congr s.sameBus_beginInstr ..).trans hword)
  have hpop32 := pop32_ok (s := s.beginInstr.setSp (s.sp + 2)) (by rw [hsp, State.canAccess_congr hbus, hlong])
  rw [exec, execRtr] at h
  obtain rfl := eq_of_runInstr ((run_bind_ok hpop16).trans ((run_bind_ok hpop32).trans (run_modify _ _))) h
  exact (((((State.Changes.beginInstr s).setSp List.mem_cons_self _).setSp List.mem_cons_self _).setCcr _).jump _).frame

variable {ea : Ea} (hea : ea.isControl = true)

section
include hea

theorem jmp_frame (h : exec (.jmp ea) s = .next t) :
    State.sameButRegs [] [] s t ∧ t.sr = s.sr ∧ State.sameMemory s t := by
  obtain ⟨loc, p, hl⟩ : ∃ loc p, s.beginInstr.resolve ea .long = (loc, p) := ⟨_, _, rfl⟩
  have hsr : p.sr = s.sr := State.sr_of_resolve (s := s.beginInstr) hl
  rw [exec, execJmp] at h
  obtain rfl := eq_of_runInstr ((run_bind_ok (eaAddress_ok hl)).trans (run_modify _ _)) h
  exact ((State.Changes.control hea hl).jump _).frame_sr hsr

theorem lea_frame {n : Reg} (h : exec (.lea ea n) s = .next t) :
    State.sameButRegs [] [n] s t ∧ t.sr = s.sr ∧ State.sameMemory s t := by
  obtain ⟨loc, p, hl⟩ : ∃ loc p, s.beginInstr.resolve ea .long = (loc, p) := ⟨_, _, rfl⟩
  have hsr : p.sr = s.sr := State.sr_of_resolve (s := s.beginInstr) hl
  rw [exec_lea, hl] at h
  obtain rfl := Host.Outcome.next.inj h
  exact ((State.Changes.control hea hl).setA List.mem_cons_self _).frame_sr hsr

end

variable (hwf : s.mem.wf = true) (hw : s.canAccess .data .write (s.sp - 4) .long = true)
include hwf hw

theorem bsr_frame {d : BranchDisp} (h : exec (.bsr d) s = .next t) :
    State.sameButRegs [] [7] s t ∧ t.sr = s.sr ∧ State.sameMemoryBut (s.code .data) (s.sp - 4) 4 s t := by
  obtain ⟨u, hcall, hu, hsr⟩ := callBody_frame (State.Changes.beginInstr s) hwf rfl
    ((State.canAccess_congr s.sameBus_beginInstr ..).trans hw) (s.beginInstr.pc + branchBytes d)
    (s.beginInstr.pc + branchOffset d)
  rw [exec, execBsr] at h
  obtain rfl := eq_of_runInstr ((run_bind_ok (run_get _)).trans hcall) h
  exact hu.frame_span hsr

theorem link_frame {n : Reg} {w : Word} (h : exec (.link n w) s = .next t) :
    State.sameButRegs [] [n, 7] s t ∧ t.sr = s.sr ∧ State.sameMemoryBut (s.code .data) (s.sp - 4) 4 s t := by
  have h7 : (7 : Reg) ∈ [n, 7] := by simp
  rw [exec_link hw] at h
  obtain rfl := Host.Outcome.next.inj h
  exact (((((State.Changes.beginInstr s).advance 2).push hwf h7 rfl (linkValue n s)).setA List.mem_cons_self _).setSp h7
    _).frame_span rfl

include hea

theorem jsr_frame (h : exec (.jsr ea) s = .next t) :
    State.sameButRegs [] [7] s t ∧ t.sr = s.sr ∧ State.sameMemoryBut (s.code .data) (s.sp - 4) 4 s t := by
  obtain ⟨loc, p, hl⟩ : ∃ loc p, s.beginInstr.resolve ea .long = (loc, p) := ⟨_, _, rfl⟩
  have hsr : p.sr = s.sr := State.sr_of_resolve (s := s.beginInstr) hl
  have hsp : p.sp = s.sp := State.sp_of_resolve (s := s.beginInstr) hea hl
  obtain ⟨u, hcall, hu, husr⟩ := callBody_frame (State.Changes.control hea hl) hwf hsp
    (State.canPush_of_resolve hea hl hw) p.pc loc.address
  rw [exec, execJsr] at h
  obtain rfl := eq_of_runInstr ((run_bind_ok (eaAddress_ok hl)).trans ((run_bind_ok (run_get p)).trans hcall)) h
  exact hu.frame_span (husr.trans hsr)

theorem pea_frame (h : exec (.pea ea) s = .next t) :
    State.sameButRegs [] [7] s t ∧ t.sr = s.sr ∧ State.sameMemoryBut (s.code .data) (s.sp - 4) 4 s t := by
  obtain ⟨loc, p, hl⟩ : ∃ loc p, s.beginInstr.resolve ea .long = (loc, p) := ⟨_, _, rfl⟩
  have hsr : p.sr = s.sr := State.sr_of_resolve (s := s.beginInstr) hl
  have hsp : p.sp = s.sp := State.sp_of_resolve (s := s.beginInstr) hea hl
  rw [exec_pea hl (State.canPush_of_resolve hea hl hw)] at h
  obtain rfl := Host.Outcome.next.inj h
  exact ((State.Changes.control hea hl).push hwf List.mem_cons_self hsp _).frame_span hsr

end

/-- Settles O60, instruction by instruction: PC apart, each changes the registers it names, and memory only by its one
push. -/
theorem controlFrame : Obligations.ControlFrame := by
  intro i d w c n ea s t hwf h
  refine ⟨fun hi => ?branch, fun hi => ?dbcc, fun hi => ?lea, fun hi hw => ?push, fun hi hw => ?link, fun hi hr => ?unlk,
    fun hi hr => ?rts, fun hi hr hr' => ?rtr⟩
  case branch =>
    obtain hi | ⟨rfl, hea⟩ := hi
    · exact branch_frame hi h
    · exact jmp_frame hea h
  case dbcc => subst hi; exact dbcc_frame h
  case lea => obtain ⟨rfl, hea⟩ := hi; exact lea_frame hea h
  case push =>
    obtain rfl | ⟨rfl | rfl, hea⟩ := hi
    · exact bsr_frame hwf hw h
    · exact jsr_frame hea hwf hw h
    · exact pea_frame hea hwf hw h
  case link => subst hi; exact link_frame hwf hw h
  case unlk => subst hi; exact unlk_frame hr h
  case rts => subst hi; exact rts_frame hr h
  case rtr => subst hi; exact rtr_frame hr hr' h

end Sys2Proof.Machine
end

section
/-! PROOFS. The family of spec 42, numbers: the flags of addition and subtraction (O23), of NEG and NEGX (O24), and the
laws of division (O26). -/

namespace Sys2Proof.Machine

open Sys2Proof

/-! Operands of a size as numbers. -/

/-- The weight of the most significant bit of a size: half of what its operands range over. -/
def signWeight (sz : Size) : Nat := 2 ^ (sizeBits sz - 1)

theorem two_pow_sizeBits (sz : Size) : 2 ^ sizeBits sz = 2 * signWeight sz := by cases sz <;> rfl

theorem cast_signWeight (sz : Size) : (2 : Int) ^ (sizeBits sz - 1) = signWeight sz := by simp [signWeight]

theorem toNat_trunc (sz : Size) (v : Long) : (trunc sz v).toNat = v.toNat % (2 * signWeight sz) := by
  rw [← two_pow_sizeBits]
  cases sz with
  | byte | word => rw [trunc, BitVec.toNat_setWidth_of_le (by decide), BitVec.toNat_setWidth]; rfl
  | long => exact (Nat.mod_eq_of_lt v.isLt).symm

theorem trunc_trunc (sz : Size) (v : Long) : trunc sz (trunc sz v) = trunc sz v :=
  BitVec.eq_of_toNat_eq (by simp only [toNat_trunc, Nat.mod_mod])

theorem toNat_lt_of_trunc {sz : Size} {v : Long} (hv : trunc sz v = v) : v.toNat < 2 * signWeight sz := by
  rw [← hv, toNat_trunc]
  exact Nat.mod_lt _ (by simp [signWeight])

/-- The most significant bit of an operand says in which half of the range it is. -/
theorem msbOf_eq_decide {sz : Size} {v : Long} (hv : trunc sz v = v) :
    msbOf sz v = decide (signWeight sz ≤ v.toNat) := by
  have hlt := toNat_lt_of_trunc hv
  have hbit : msbOf sz v = decide (v.toNat / signWeight sz % 2 = 1) := Nat.testBit_eq_decide_div_mod_eq
  rw [hbit, decide_eq_decide]
  cases sz <;> simp only [signWeight, sizeBits] at hlt ⊢ <;> omega

/-- The upper half of the range stands for the negative numbers. -/
theorem toInt_signExtend {sz : Size} {v : Long} (hv : trunc sz v = v) :
    (signExtend sz v).toInt = if signWeight sz ≤ v.toNat then (v.toNat : Int) - 2 * signWeight sz else v.toNat := by
  have hlt := toNat_lt_of_trunc hv
  cases sz <;> simp only [signExtend, signWeight, sizeBits] at hlt ⊢
  · rw [BitVec.toInt_signExtend_of_le (by decide), BitVec.toInt_eq_toNat_cond, BitVec.toNat_setWidth]
    omega
  · rw [BitVec.toInt_signExtend_of_le (by decide), BitVec.toInt_eq_toNat_cond, BitVec.toNat_setWidth]
    omega
  · rw [BitVec.toInt_eq_toNat_cond]
    omega

/-- A flag that takes part in a sum. -/
theorem bitLong_eq_ofNat (b : Bool) : bitLong b = BitVec.ofNat 32 b.toNat := by cases b <;> rfl

theorem toNat_bitLong (b : Bool) : (bitLong b).toNat = b.toNat := by cases b <;> rfl

theorem add_bitLong_false (v : Long) : v + bitLong false = v := BitVec.add_zero v

theorem sub_bitLong_false (v : Long) : v - bitLong false = v := BitVec.sub_zero v

/-! Addition and subtraction with X (R210): the result and the carry or borrow are those of the numbers. -/

section
variable {sz : Size} {s d : Long} (hs : trunc sz s = s) (hd : trunc sz d = d) (x : Bool)
include hs hd

/-- The range of the numbers in a sum; the result is the sum, or one range below it. -/
theorem toNat_sum_cases {r : Long} (hr : r = trunc sz (d + s + bitLong x)) :
    s.toNat < 2 * signWeight sz ∧ d.toNat < 2 * signWeight sz ∧ r.toNat < 2 * signWeight sz ∧ x.toNat ≤ 1 ∧
      (r.toNat = d.toNat + s.toNat + x.toNat ∨ r.toNat + 2 * signWeight sz = d.toNat + s.toNat + x.toNat) := by
  have hs := toNat_lt_of_trunc hs
  have hd := toNat_lt_of_trunc hd
  have hx := x.toNat_le
  refine ⟨hs, hd, hr ▸ toNat_lt_of_trunc (trunc_trunc ..), hx, ?_⟩
  rw [hr, toNat_trunc, BitVec.toNat_add, BitVec.toNat_add, toNat_bitLong]
  cases sz <;> simp only [signWeight, sizeBits] at hs hd ⊢ <;> omega

/-- The range of the numbers in a difference; the result is the difference, or one range above it. -/
theorem toNat_difference_cases {r : Long} (hr : r = trunc sz (d - s - bitLong x)) :
    s.toNat < 2 * signWeight sz ∧ d.toNat < 2 * signWeight sz ∧ r.toNat < 2 * signWeight sz ∧ x.toNat ≤ 1 ∧
      (r.toNat + s.toNat + x.toNat = d.toNat ∨ r.toNat + s.toNat + x.toNat = d.toNat + 2 * signWeight sz) := by
  have hs := toNat_lt_of_trunc hs
  have hd := toNat_lt_of_trunc hd
  have hx := x.toNat_le
  refine ⟨hs, hd, hr ▸ toNat_lt_of_trunc (trunc_trunc ..), hx, ?_⟩
  rw [hr, toNat_trunc, BitVec.toNat_sub, BitVec.toNat_sub, toNat_bitLong]
  cases sz <;> simp only [signWeight, sizeBits] at hs hd ⊢ <;> omega

/-- The carry of a sum says that it leaves the unsigned range. -/
theorem addCarry_eq : addCarry sz s d (trunc sz (d + s + bitLong x)) =
    decide (2 ^ sizeBits sz ≤ d.toNat + s.toNat + x.toNat) := by
  have hnumbers := toNat_sum_cases hs hd x rfl
  rw [Bool.eq_iff_iff, two_pow_sizeBits]
  simp only [addCarry, msbOf_eq_decide hs, msbOf_eq_decide hd, msbOf_eq_decide (trunc_trunc ..), Bool.or_eq_true,
    Bool.and_eq_true, Bool.not_eq_true', decide_eq_true_eq, decide_eq_false_iff_not]
  omega

/-- The borrow of a difference says that it leaves the unsigned range. -/
theorem subBorrow_eq : subBorrow sz s d (trunc sz (d - s - bitLong x)) = decide (d.toNat < s.toNat + x.toNat) := by
  have hnumbers := toNat_difference_cases hs hd x rfl
  rw [Bool.eq_iff_iff]
  simp only [subBorrow, msbOf_eq_decide hs, msbOf_eq_decide hd, msbOf_eq_decide (trunc_trunc ..), Bool.or_eq_true,
    Bool.and_eq_true, Bool.not_eq_true', decide_eq_true_eq, decide_eq_false_iff_not]
  omega

/-- The overflow of a sum says that it leaves the signed range. -/
theorem addOverflow_iff : addOverflow sz s d (trunc sz (d + s + bitLong x)) = true ↔
    ¬ (-(2 : Int) ^ (sizeBits sz - 1) ≤ (signExtend sz d).toInt + (signExtend sz s).toInt + x.toNat ∧
      (signExtend sz d).toInt + (signExtend sz s).toInt + x.toNat < (2 : Int) ^ (sizeBits sz - 1)) := by
  have hnumbers := toNat_sum_cases hs hd x rfl
  rw [toInt_signExtend hs, toInt_signExtend hd, cast_signWeight]
  simp only [addOverflow, msbOf_eq_decide hs, msbOf_eq_decide hd, msbOf_eq_decide (trunc_trunc ..), Bool.or_eq_true,
    Bool.and_eq_true, Bool.not_eq_true', decide_eq_true_eq, decide_eq_false_iff_not]
  omega

/-- The overflow of a difference says that it leaves the signed range. -/
theorem subOverflow_iff : subOverflow sz s d (trunc sz (d - s - bitLong x)) = true ↔
    ¬ (-(2 : Int) ^ (sizeBits sz - 1) ≤ (signExtend sz d).toInt - (signExtend sz s).toInt - x.toNat ∧
      (signExtend sz d).toInt - (signExtend sz s).toInt - x.toNat < (2 : Int) ^ (sizeBits sz - 1)) := by
  have hnumbers := toNat_difference_cases hs hd x rfl
  rw [toInt_signExtend hs, toInt_signExtend hd, cast_signWeight]
  simp only [subOverflow, msbOf_eq_decide hs, msbOf_eq_decide hd, msbOf_eq_decide (trunc_trunc ..), Bool.or_eq_true,
    Bool.and_eq_true, Bool.not_eq_true', decide_eq_true_eq, decide_eq_false_iff_not]
  omega

end

theorem addxAlu_result (sz : Size) (old : Ccr) (s d : Long) :
    (addxAlu sz old s d).1 = trunc sz (d + s + BitVec.ofNat 32 old.x.toNat) := by
  rw [← bitLong_eq_ofNat]
  rfl

theorem subxAlu_result (sz : Size) (old : Ccr) (s d : Long) :
    (subxAlu sz old s d).1 = trunc sz (d - s - BitVec.ofNat 32 old.x.toNat) := by
  rw [← bitLong_eq_ofNat]
  rfl

/-- Settles O23: C and V of the four operations are the carry or borrow and the overflow of a sum or difference with X,
which ADD and SUB take as clear; the other flags are so by definition. -/
theorem addSubFlags : Obligations.AddSubFlags := by
  intro sz old s d hs hd
  have haddCarry := addCarry_eq hs hd false
  have haddOverflow := addOverflow_iff hs hd false
  have hsubBorrow := subBorrow_eq hs hd false
  have hsubOverflow := subOverflow_iff hs hd false
  simp only [add_bitLong_false, sub_bitLong_false, Bool.toNat_false, Nat.cast_zero, add_zero, sub_zero]
    at haddCarry haddOverflow hsubBorrow hsubOverflow
  exact ⟨rfl, addxAlu_result .., rfl, subxAlu_result .., haddCarry, addCarry_eq hs hd old.x, hsubBorrow,
    subBorrow_eq hs hd old.x, haddOverflow, addOverflow_iff hs hd old.x, hsubOverflow, subOverflow_iff hs hd old.x,
    by simp [addAlu, addxAlu, subAlu, subxAlu], by simp [addAlu, subAlu], by simp [addxAlu, subxAlu]⟩

/-! Negation (R227, R228): subtraction from zero. -/

theorem trunc_zero (sz : Size) : trunc sz 0 = 0 := by cases sz <;> rfl

theorem msbOf_zero (sz : Size) : msbOf sz 0 = false := by simp [msbOf]

/-- A subtraction from zero borrows where the operand or the result is in the upper half. -/
theorem subBorrow_zero (sz : Size) (s r : Long) : subBorrow sz s 0 r = (msbOf sz s || msbOf sz r) := by
  rw [subBorrow, msbOf_zero]
  cases msbOf sz s <;> simp

/-- A subtraction from zero overflows where both are. -/
theorem subOverflow_zero (sz : Size) (s r : Long) : subOverflow sz s 0 r = (msbOf sz s && msbOf sz r) := by
  rw [subOverflow, msbOf_zero]
  cases msbOf sz s <;> simp

/-- Without X it borrows just if the result is not zero. -/
theorem subBorrow_zero_eq_decide {sz : Size} {s : Long} (hs : trunc sz s = s) :
    subBorrow sz s 0 (trunc sz (0 - s)) = decide (trunc sz (0 - s) ≠ 0) := by
  have hborrow := subBorrow_eq hs (trunc_zero sz) false
  have hnumbers := toNat_difference_cases hs (trunc_zero sz) false rfl
  rw [sub_bitLong_false] at hborrow hnumbers
  rw [hborrow, decide_eq_decide, Ne, ← BitVec.toNat_inj]
  have hzero : (0 : Long).toNat = 0 := rfl
  simp only [hzero, Bool.toNat_false] at hnumbers ⊢
  omega

/-- Settles O24: the flags of a subtraction from zero, C of NEG by whether the result is zero. -/
theorem negateFlags : Obligations.NegateFlags := by
  intro sz old s hs
  constructor
  · simp only [negAlu, subAlu, subBorrow_zero_eq_decide hs, subOverflow_zero]
  · simp only [negxAlu, subxAlu, subBorrow_zero, subOverflow_zero, bitLong_eq_ofNat]

/-! Division (R222, R223). -/

theorem divUnsigned_eq_none_iff {d : Long} {s : Word} (hs : s ≠ 0) :
    divUnsigned d s = none ↔ s.toNat ≤ d.toNat / 65536 := by
  have hpos : 0 < s.toNat := Nat.pos_of_ne_zero (BitVec.toNat_ne_iff_ne.mpr hs)
  have hfits : divUnsigned d s = none ↔ 65536 ≤ d.toNat / s.toNat := by
    simp only [divUnsigned, ite_eq_left_iff, reduceCtorEq, imp_false, not_not]
    exact Nat.lt_iff_add_one_le
  rw [hfits, Nat.le_div_iff_mul_le hpos, Nat.le_div_iff_mul_le (by decide), Nat.mul_comm]

theorem divUnsigned_some {d : Long} {s q r : Word} (hs : s ≠ 0) (h : divUnsigned d s = some (q, r)) :
    d.toNat = q.toNat * s.toNat + r.toNat ∧ r.toNat < s.toNat := by
  have hpos : 0 < s.toNat := Nat.pos_of_ne_zero (BitVec.toNat_ne_iff_ne.mpr hs)
  have hr := Nat.mod_lt d.toNat hpos
  have hlt := s.isLt
  simp only [divUnsigned, Option.ite_none_left_eq_some, Option.some.injEq, Prod.mk.injEq] at h
  obtain ⟨hq, rfl, rfl⟩ := h
  rw [BitVec.toNat_ofNat, BitVec.toNat_ofNat, Nat.mod_eq_of_lt (by omega), Nat.mod_eq_of_lt (by omega)]
  exact ⟨(Nat.div_add_mod' ..).symm, hr⟩

theorem divSigned_eq_none_iff (d : Long) (s : Word) :
    divSigned d s = none ↔ (d.toInt.tdiv s.toInt < -32768 ∨ 32767 < d.toInt.tdiv s.toInt) := by
  simp only [divSigned, ite_eq_left_iff, reduceCtorEq, imp_false, not_not]

/-- A number that fits a word is the one its word stands for. -/
theorem toInt_ofInt_word {k : Int} (h : -32768 ≤ k) (h' : k ≤ 32767) : (BitVec.ofInt 16 k).toInt = k := by
  rw [BitVec.toInt_ofInt_eq_self (by decide) (by omega) (by omega)]

theorem divSigned_some {d : Long} {s q r : Word} (hs : s ≠ 0) (h : divSigned d s = some (q, r)) :
    d.toInt = q.toInt * s.toInt + r.toInt ∧ r.toInt.natAbs < s.toInt.natAbs ∧
      (r.toInt = 0 ∨ (r.toInt < 0 ↔ d.toInt < 0)) := by
  have hne : s.toInt ≠ 0 := fun h => hs (BitVec.eq_of_toInt_eq h)
  have hlt : (d.toInt.tmod s.toInt).natAbs < s.toInt.natAbs := by
    rw [Int.natAbs_tmod]
    exact Nat.mod_lt _ (Int.natAbs_pos.mpr hne)
  have hle := BitVec.le_toInt s
  have hge := BitVec.toInt_lt (x := s)
  simp only [divSigned, Option.ite_none_left_eq_some, Option.some.injEq, Prod.mk.injEq] at h
  obtain ⟨hq, rfl, rfl⟩ := h
  rw [toInt_ofInt_word (by omega) (by omega), toInt_ofInt_word (by omega) (by omega)]
  refine ⟨(Int.tdiv_mul_add_tmod ..).symm, hlt, ?_⟩
  by_cases hdvd : s.toInt ∣ d.toInt
  · exact .inl (Int.tmod_eq_zero_of_dvd hdvd)
  · have hsign := Int.sign_tmod d.toInt s.toInt
    rw [if_neg hdvd] at hsign
    exact .inr (by rw [← Int.sign_eq_neg_one_iff_neg, hsign, Int.sign_eq_neg_one_iff_neg])

/-- Settles O26: quotient and remainder fit a word where the division does not overflow. -/
theorem divisionLaw : Obligations.DivisionLaw := fun d s hs =>
  ⟨fun _ _ => divUnsigned_some hs, divUnsigned_eq_none_iff hs, fun _ _ => divSigned_some hs, divSigned_eq_none_iff d s⟩

end Sys2Proof.Machine
end

section
/-! PROOFS. The family of spec 42, results: arithmetic and logic with a data register (O31, O32), immediate (O33), of
one operand (O34), compare and test (O35), with an address register (O36), quick (O37), extended (O38), multiply (O39),
divide (O40, O18), TAS (O49). -/

namespace Sys2Proof.Machine

open Sys2Proof

/-! Operands read before anything is stored: those of the start of the instruction. -/

/-- From one state to another nothing changes that the access to an operand depends on. -/
def State.sameOperands (s t : State) : Prop := s.sameBus t ∧ t.memMap = s.memMap ∧ t.mem = s.mem

theorem State.sameOperands_beginInstr (s : State) : s.sameOperands s.beginInstr := ⟨s.sameBus_beginInstr, rfl, rfl⟩

theorem State.sameOperands_setA {s t : State} (h : s.sameOperands t) (n : Reg) (v : Long) :
    s.sameOperands (t.setA n v) := h

/-- An operand in memory is accessible as before, and the same. -/
theorem State.canAccess_of_sameOperands {s t : State} (h : s.sameOperands t) (sp : Space) (dir : Direction) (a : Long)
    (sz : Size) : t.canAccess sp dir a sz = s.canAccess sp dir a sz := State.canAccess_congr h.1 sp dir a sz

theorem State.loadMem_of_sameOperands {s t : State} (h : s.sameOperands t) (sp : Space) (a : Long) (sz : Size) :
    t.loadMem (t.code sp) a sz = s.loadMem (s.code sp) a sz := by
  obtain ⟨hbus, hmap, hmem⟩ := h
  rw [State.loadMem_congr hmap hmem, State.code_of_sameBus hbus]

section
variable {s t : State} (h : s.sameOperands t) {sz : Size} {n : Reg}
include h

/-- An operand of CMPM (R221). -/
theorem readThenIncrement_ok (hr : s.canAccess .data .read (t.areg n) sz = true) :
    readThenIncrement sz n t =
      .ok (s.loadMem (s.code .data) (t.areg n) sz) (t.setA n (t.areg n + eaStep sz n)) := by
  have hread := readMem_ok ((State.canAccess_of_sameOperands h ..).trans hr)
  rw [readThenIncrement, run_bind_ok (run_get t), run_bind_ok (onAbort_ok hread), run_bind_ok (run_modify _ _),
    run_pure, State.loadMem_of_sameOperands h]

variable {a : Long} (ha : a = t.areg n - eaStep sz n) (hr : s.canAccess .data .read a sz = true)
include ha hr

/-- A source operand of the predecrement mode (R146). -/
theorem readEa_preDec_ok : readEa (.preDec n) sz t = .ok (s.loadMem (s.code .data) a sz) (t.setA n a) := by
  subst ha
  have h' := State.sameOperands_setA h n (t.areg n - eaStep sz n)
  rw [readEa_at (ea := .preDec n) rfl ((State.canAccess_of_sameOperands h' ..).trans hr), Loc.load,
    State.loadMem_of_sameOperands h']

/-- A destination operand of the predecrement mode (R146). -/
theorem aluOnEa_preDec_ok (hw : s.canAccess .data .write a sz = true) (alu : Alu) (src : Long) {r : Long × Ccr}
    (hr' : alu sz t.sr.ccr src (s.loadMem (s.code .data) a sz) = r) :
    aluOnEa alu sz src (.preDec n) t = .ok () (((t.setA n a).storeMem a sz r.1).setCcr r.2) := by
  subst ha hr'
  have h' := State.sameOperands_setA h n (t.areg n - eaStep sz n)
  rw [aluOnEa_ok (ea := .preDec n) rfl ((State.canAccess_of_sameOperands h' ..).trans hr)
    ((State.canAccess_of_sameOperands h' ..).trans hw), Loc.load, State.loadMem_of_sameOperands h']
  rfl

end

/-! Arithmetic and logic by the shape of the instruction (O31 to O34). -/

/-- Settles O31: each reads its source and then changes the register and the flags. -/
theorem registerArithmetic : Obligations.RegisterArithmetic := by
  intro sz ea dn s p loc src dst hl hr hsrc hdst
  subst hsrc hdst
  refine ⟨?add, ?sub, ?and, ?or⟩ <;> exact runInstr_ok (aluToReg_ok hl hr)

/-- Settles O32: each reads its operand and stores the result at the same place. -/
theorem memoryArithmetic : Obligations.MemoryArithmetic := by
  intro sz ea dn s p loc src dst hl hr hw hsrc hdst
  subst hsrc hdst
  refine ⟨?add, ?sub, ?and, ?or, ?eor⟩ <;> exact runInstr_ok (aluToMem_ok hl hr hw)

/-- Settles O33: the operand is resolved past the immediate words. -/
theorem immediateArithmetic : Obligations.ImmediateArithmetic := by
  intro sz imm ea s p loc src dst hl hr hw hsrc hdst
  subst hsrc hdst
  refine ⟨?addi, ?subi, ?andi, ?ori, ?eori⟩ <;> exact runInstr_ok (aluImm_ok hl hr hw)

/-- The flags written as they are. -/
theorem State.setCcr_self {s : State} {cc : Ccr} (h : s.sr.ccr = cc) : s.setCcr cc = s := by
  subst h
  rfl

theorem moveFlags_zero (sz : Size) (old : Ccr) :
    moveFlags sz old 0 = { x := old.x, n := false, z := true, v := false, c := false } := by
  rw [moveFlags, msbOf_zero]
  rfl

/-- Settles O34: each reads its operand and stores at the same place; Scc writes the flags it read. -/
theorem unaryResults : Obligations.UnaryResults := by
  intro sz c ea s p loc v hl hr hw hv
  subst hv
  refine ⟨runInstr_ok (unaryOnEa_ok hl hr hw), ?negx, runInstr_ok (unaryOnEa_ok hl hr hw), ?clr, fun hsz => ?scc⟩
  case negx =>
    rw [← subxAlu_result sz s.sr.ccr (loc.load sz p) 0]
    exact runInstr_ok (unaryOnEa_ok hl hr hw)
  case clr =>
    rw [← moveFlags_zero sz]
    exact runInstr_ok (unaryOnEa_ok hl hr hw)
  case scc =>
    subst hsz
    have hflags : (loc.store .byte (if condHolds s.sr.ccr c then 0xFF else 0) p).sr.ccr = s.sr.ccr := by
      rw [Loc.store_sr, State.sr_of_resolve (s := s.beginInstr) hl]
      rfl
    rw [← State.setCcr_self hflags]
    exact runInstr_ok (unaryOnEa_ok hl hr hw)

/-! Compare and test (O35). -/

/-- The flags from an operand that is read. -/
theorem runInstr_compare {ea : Ea} {sz : Size} {s p : State} {loc : Loc} (hl : s.beginInstr.resolve ea sz = (loc, p))
    (hr : loc.readable sz p = true) (cc : Ccr → Long → State → Ccr) :
    runInstr (do let v ← readEa ea sz; modify fun u => u.setCcr (cc u.sr.ccr v u)) s =
      .next (p.setCcr (cc s.sr.ccr (loc.load sz p) p)) := by
  have hsr : p.sr = s.sr := State.sr_of_resolve (s := s.beginInstr) hl
  rw [runInstr_readEa hl hr, hsr]

/-- Settles O35: each reads its operands and then writes the flags; CMPM reads the second where the first left the
registers. -/
theorem compareResults : Obligations.CompareResults := by
  refine ⟨fun sz ea dn s p loc hl hr => ⟨?cmp, ?tst⟩, fun sz imm ea s p loc hl hr => ?cmpi,
    fun sz ea an s p loc hl hr => ?cmpa, fun sz ay ax s q t hq ht hry hrx => ?cmpm⟩
  case cmp => exact runInstr_compare hl hr fun old v u => cmpFlags sz old v (trunc sz (u.dreg dn))
  case tst => exact runInstr_compare hl hr fun old v _ => moveFlags sz old v
  case cmpi =>
    have hsr : p.sr = s.sr := State.sr_of_resolve (s := s.beginInstr.advance (immBytes sz)) hl
    rw [exec, execCmpi, ← hsr]
    exact runInstr_ok ((run_bind_ok (run_modify _ _)).trans ((run_bind_ok (readEa_at hl hr)).trans (run_modify _ _)))
  case cmpa => exact runInstr_compare hl hr fun old v u => cmpFlags .long old (signExtend sz.toSize v) (u.areg an)
  case cmpm =>
    subst hq ht
    have hstart := s.sameOperands_beginInstr
    have hsource := readThenIncrement_ok hstart hry
    have hdest := readThenIncrement_ok (State.sameOperands_setA hstart ay (s.areg ay + eaStep sz ay)) hrx
    rw [exec, execCmpm]
    exact runInstr_ok ((run_bind_ok hsource).trans ((run_bind_ok hdest).trans (run_modify _ _)))

/-! Address registers, quick data (O36, O37). -/

/-- Settles O36: each reads its source and then changes the register. -/
theorem addressArithmetic : Obligations.AddressArithmetic := by
  intro sz ea an s p loc src hl hr hsrc
  subst hsrc
  exact ⟨runInstr_ok (addrArith_ok hl hr), runInstr_ok (addrArith_ok hl hr)⟩

/-- The data of ADDQ and SUBQ: the field 0 stands for 8 (R112). -/
theorem quickValue_eq_ofNat (q : Fin 8) : quickValue q = BitVec.ofNat 32 (if q.val = 0 then 8 else q.val) := by
  unfold quickValue
  split <;> rfl

/-- An operand that is no address register is changed at the size. -/
theorem quickBody_of_not_addrReg {ea : Ea} (hea : ea.isAddrReg = false) (alu : Alu) (f : Long → Long → Long) (q : Fin 8)
    (sz : Size) : quickBody alu f q sz ea = aluOnEa alu sz (quickValue q) ea := by
  cases ea with
  | areg n => cases hea
  | _ => rfl

/-- Settles O37: an address register is one change of the state, any other operand is read and stored. -/
theorem quickArithmetic : Obligations.QuickArithmetic := by
  intro q sz ea s p loc k dst hk
  rw [← quickValue_eq_ofNat] at hk
  subst hk
  refine ⟨fun n => ⟨runInstr_modify _ s, runInstr_modify _ s⟩, fun hea hl hr hw hdst => ?_⟩
  subst hdst
  rw [exec, exec, execAddq, execSubq, quickBody_of_not_addrReg hea, quickBody_of_not_addrReg hea]
  exact ⟨runInstr_ok (aluOnEa_ok hl hr hw), runInstr_ok (aluOnEa_ok hl hr hw)⟩

/-! ADDX and SUBX (O38). -/

theorem runInstr_aluExtended_reg (alu : Alu) (sz : Size) (ry rx : Reg) (s : State) :
    runInstr (aluExtended alu sz false ry rx) s =
      .next ((s.beginInstr.setD sz rx (alu sz s.sr.ccr (trunc sz (s.dreg ry)) (trunc sz (s.dreg rx))).1).setCcr
        (alu sz s.sr.ccr (trunc sz (s.dreg ry)) (trunc sz (s.dreg rx))).2) := by
  rw [aluExtended, if_neg Bool.false_ne_true]
  exact runInstr_ok (aluToReg_ok (ea := .dreg ry) (p := s.beginInstr) (loc := .dreg ry) rfl rfl)

/-- Both operands are in the memory of the start of the instruction; the address of the second is that after the first
decrement. -/
theorem runInstr_aluExtended_mem {alu : Alu} {sz : Size} {ry rx : Reg} {s q : State} {ay ax : Long}
    (hay : ay = s.areg ry - eaStep sz ry) (hq : q = s.beginInstr.setA ry ay) (hax : ax = q.areg rx - eaStep sz rx)
    (hry : s.canAccess .data .read ay sz = true) (hrx : s.canAccess .data .read ax sz = true)
    (hwx : s.canAccess .data .write ax sz = true) {r : Long × Ccr}
    (hr : r = alu sz s.sr.ccr (s.loadMem (s.code .data) ay sz) (s.loadMem (s.code .data) ax sz)) :
    runInstr (aluExtended alu sz true ry rx) s = .next (((q.setA rx ax).storeMem ax sz r.1).setCcr r.2) := by
  subst hq
  have hstart := s.sameOperands_beginInstr
  have hsource := readEa_preDec_ok (n := ry) hstart hay hry
  have hdest := aluOnEa_preDec_ok (State.sameOperands_setA hstart ry ay) hax hrx hwx alu _ hr.symm
  exact runInstr_ok ((run_bind_ok hsource).trans hdest)

/-- Settles O38: the register form by its two registers, the memory form by its two operands. -/
theorem extendedArithmetic : Obligations.ExtendedArithmetic := by
  refine ⟨fun sz ry rx s src dst hsrc hdst => ?reg,
    fun sz ry rx s q p ay ax src dst hay hq hax hp hry hrx hwx hsrc hdst => ?mem⟩
  case reg =>
    subst hsrc hdst
    rw [exec, exec, execAddx, execSubx]
    exact ⟨runInstr_aluExtended_reg .., runInstr_aluExtended_reg ..⟩
  case mem =>
    subst hp hsrc hdst
    rw [exec, exec, execAddx, execSubx]
    exact ⟨runInstr_aluExtended_mem hay hq hax hry hrx hwx rfl, runInstr_aluExtended_mem hay hq hax hry hrx hwx rfl⟩

/-! MULS and MULU (O39). -/

theorem runInstr_mulBody {ea : Ea} {s p : State} {loc : Loc} (hl : s.beginInstr.resolve ea .word = (loc, p))
    (hr : loc.readable .word p = true) {f : Word → Word → Long} {dn : Reg} {r : Long}
    (hf : f (lowWord (p.dreg dn)) (lowWord (loc.load .word p)) = r) :
    runInstr (mulBody f ea dn) s = .next ((p.setD .long dn r).setCcr (moveFlags .long s.sr.ccr r)) := by
  have hsr : p.sr = s.sr := State.sr_of_resolve (s := s.beginInstr) hl
  rw [mulBody, runInstr_readEa hl hr, hf, hsr]

/-- Settles O39: a long word is given by the number it stands for, signed or unsigned. -/
theorem multiplyResults : Obligations.MultiplyResults := by
  intro ea dn s p loc src dst rs ru hl hr hsrc hdst hsigned hunsigned
  subst hsrc hdst
  refine ⟨runInstr_mulBody hl hr ?_, runInstr_mulBody hl hr ?_⟩
  · rw [mulSigned, ← hsigned, BitVec.ofInt_toInt]
  · rw [mulUnsigned, ← hunsigned, BitVec.ofNat_toNat, BitVec.setWidth_eq]

/-! DIVS and DIVU (O40, O18). -/

/-- The flags of a value extended with zeros are those of its own bits. -/
theorem moveFlags_setWidth {sz : Size} {w : Nat} (hw : w = sizeBits sz) (old : Ccr) (v : BitVec w) :
    moveFlags sz old (v.setWidth 32) =
      { x := old.x, n := v.getLsbD (w - 1), z := decide (v = 0), v := false, c := false } := by
  have hle : 0 < w ∧ w ≤ 32 := by subst hw; cases sz <;> decide
  have hn : msbOf sz (v.setWidth 32) = v.getLsbD (w - 1) := by
    have hlt : w - 1 < 32 := by omega
    rw [msbOf, ← hw, BitVec.getLsbD_setWidth, decide_eq_true hlt, Bool.true_and]
  have hz : v.setWidth 32 = 0 ↔ v = 0 := by
    rw [← BitVec.toNat_inj, ← BitVec.toNat_inj, BitVec.toNat_setWidth_of_le hle.2]
    rfl
  simp only [moveFlags, hn, hz]

section
variable {div : Divider} {ea : Ea} {dn : Reg} {s p : State} {loc : Loc}
  (hl : s.resolve ea .word = (loc, p)) (hr : loc.readable .word p = true)
include hl hr

theorem divBody_quotient (hnz : lowWord (loc.load .word p) ≠ 0) {q r : Word}
    (hdiv : div (p.dreg dn) (lowWord (loc.load .word p)) = some (q, r)) :
    divBody div ea dn s =
      .ok () ((p.setD .long dn (joinWords r q)).setCcr (moveFlags .word s.sr.ccr (q.setWidth 32))) := by
  have hsr : p.sr = s.sr := State.sr_of_resolve hl
  rw [divBody, run_bind_ok (readEa_at hl hr), run_ite, if_neg hnz, run_bind_ok (run_get p), hdiv, ← hsr]
  rfl

/-- On overflow N and Z are free (D18). -/
theorem divBody_overflow (hnz : lowWord (loc.load .word p) ≠ 0)
    (hdiv : div (p.dreg dn) (lowWord (loc.load .word p)) = none) :
    divBody div ea dn s =
      .ok () (State.setCcr { x := s.sr.ccr.x, n := Config.freeBit p.drawCount, z := Config.freeBit (p.drawCount + 1),
                             v := true, c := false } { p with drawCount := p.drawCount + 2 }) := by
  have hsr : p.sr = s.sr := State.sr_of_resolve hl
  rw [divBody, run_bind_ok (readEa_at hl hr), run_ite, if_neg hnz, run_bind_ok (run_get p), hdiv, ← hsr]
  rfl

/-- By zero N, Z and V are free, and then the exception is processed. -/
theorem divBody_zero (hz : lowWord (loc.load .word p) = 0) :
    divBody div ea dn s = takeException .zeroDivide p.pc
      (State.setCcr { x := p.sr.ccr.x, n := Config.freeBit p.drawCount, z := Config.freeBit (p.drawCount + 1),
                      v := Config.freeBit (p.drawCount + 2), c := false } { p with drawCount := p.drawCount + 3 }) := by
  rw [divBody, run_bind_ok (readEa_at hl hr), run_ite, if_pos hz]
  rfl

end

/-- DIVS and DIVU are one body with two dividers. -/
theorem exec_div {i : Instr} {div : Divider} {ea : Ea} {dn : Reg}
    (hi : (i = .divs ea dn ∧ div = divSigned) ∨ (i = .divu ea dn ∧ div = divUnsigned)) (s : State) :
    exec i s = runInstr (divBody div ea dn) s := by
  obtain ⟨rfl, rfl⟩ | ⟨rfl, rfl⟩ := hi <;> rfl

/-- Settles O40: the two ends of a division by a word that is not zero, by whether the quotient fits. -/
theorem divideResults : Obligations.DivideResults := by
  intro i div ea dn s p loc src hi hl hr hsrc hnz
  subst hsrc
  rw [exec_div hi]
  refine ⟨fun q r hdiv => ?_, fun hdiv => ⟨_, _, runInstr_ok (divBody_overflow hl hr hnz hdiv)⟩⟩
  rw [← moveFlags_setWidth (sz := .word) (w := 16) rfl]
  exact runInstr_ok (divBody_quotient hl hr hnz hdiv)

/-- Settles O18: whether the exception goes through does not depend on the flags and draws made before it. -/
theorem zeroDivideTaken : Obligations.ZeroDivideTaken := by
  intro i ea dn s loc p hi hl hr hz hready
  obtain ⟨div, hexec⟩ : ∃ div, exec i s = runInstr (divBody div ea dn) s := by
    simp only [List.mem_cons, List.not_mem_nil, or_false] at hi
    obtain rfl | rfl := hi
    · exact ⟨_, exec_div (.inl ⟨rfl, rfl⟩) s⟩
    · exact ⟨_, exec_div (.inr ⟨rfl, rfl⟩) s⟩
  have hsr : p.sr = s.sr := State.sr_of_resolve (s := s.beginInstr) hl
  have htrace : (p.traceAtStart && decide (ExcKind.zeroDivide.group = .group2)) = s.traceAtStart := by
    have hresolve := State.resolve_traceAtStart s.beginInstr ea .word
    rw [hl] at hresolve
    exact (Bool.and_true _).trans hresolve
  have htaken : divBody div ea dn s.beginInstr = _ :=
    (divBody_zero hl hr hz).trans (takeException_at p hready rfl ⟨rfl, rfl, rfl⟩ rfl)
  rw [← hsr, ← htrace]
  exact ⟨_, _, _, hexec.trans (runInstr_ok htaken)⟩

/-! TAS (O49). -/

/-- Settles O49: in a register as any operand, in memory by the two halves of one cycle. -/
theorem tasResults : Obligations.TasResults := by
  intro ea s p loc b cc hl hcc
  have hsr : p.sr = s.sr := State.sr_of_resolve (s := s.beginInstr) hl
  rw [← moveFlags_setWidth (sz := .byte) (w := 8) rfl, ← hsr] at hcc
  subst hcc
  rw [exec, execTas]
  refine ⟨fun n hn hb => runInstr_ok ?reg, fun sp a ha hrmw hb => runInstr_ok ?mem⟩
  case reg =>
    subst hn hb
    rw [run_bind_ok (resolveEa_run ..), hl, BitVec.setWidth_or]
    rfl
  case mem =>
    subst ha hb
    obtain ⟨v, hwrite⟩ := rmwCycle_write hrmw (p.byteAt (p.code .data) a ||| 0x80)
    rw [run_bind_ok (resolveEa_run ..), hl]
    exact (run_bind_ok (rmwCycle_read hrmw 0)).trans ((run_bind_ok hwrite).trans (run_modify _ _))

end Sys2Proof.Machine
end

section
/-! PROOFS. The family of spec 44, numbers: the closed forms of the eight shifts and rotates (O28). -/

namespace Sys2Proof.Machine

open Sys2Proof

/-! A number below `2^n` turned by some of its places, and by one place again and again (R288 to R291). -/

theorem two_parts_lt {j m hi lo : Nat} (hhi : hi < 2 ^ j) (hlo : lo < 2 ^ m) : hi * 2 ^ m + lo < 2 ^ (j + m) := by
  calc hi * 2 ^ m + lo < (hi + 1) * 2 ^ m := by rw [Nat.add_one_mul]; exact Nat.add_lt_add_left hlo _
    _ ≤ 2 ^ j * 2 ^ m := Nat.mul_le_mul_right _ hhi
    _ = 2 ^ (j + m) := (pow_add ..).symm

theorem exists_two_parts {j m v : Nat} (hv : v < 2 ^ (j + m)) :
    ∃ hi < 2 ^ j, ∃ lo < 2 ^ m, v = hi * 2 ^ m + lo :=
  ⟨v / 2 ^ m, Nat.div_lt_of_lt_mul (by rwa [Nat.mul_comm, ← pow_add]), v % 2 ^ m, Nat.mod_lt _ (Nat.two_pow_pos m),
    (Nat.div_add_mod' ..).symm⟩

/-- Cut after its highest `j` of `j + m` places, a number turned left by `j` has its two parts exchanged. -/
theorem turnLeft_two_parts {j m hi lo : Nat} (hlo : lo < 2 ^ m) :
    turnLeft (j + m) j (hi * 2 ^ m + lo) = lo * 2 ^ j + hi := by
  have hlow : (hi * 2 ^ m + lo) * 2 ^ j % 2 ^ (j + m) = lo * 2 ^ j := by
    rw [Nat.add_comm j m, pow_add, Nat.mul_mod_mul_right, Nat.mul_add_mod_self_right, Nat.mod_eq_of_lt hlo]
  have hhigh : (hi * 2 ^ m + lo) / 2 ^ m = hi := by
    rw [Nat.mul_comm, Nat.mul_add_div (Nat.two_pow_pos m), Nat.div_eq_of_lt hlo, Nat.add_zero]
  rw [turnLeft, Nat.add_sub_cancel_left, hlow, hhigh]

theorem turnLeft_zero {n v : Nat} (hv : v < 2 ^ n) : turnLeft n 0 v = v := by
  simp [turnLeft, Nat.mod_eq_of_lt hv, Nat.div_eq_of_lt hv]

theorem turnLeft_all (n v : Nat) : turnLeft n n v = v := by simp [turnLeft]

theorem turnLeft_lt {n j v : Nat} (hj : j ≤ n) (hv : v < 2 ^ n) : turnLeft n j v < 2 ^ n := by
  obtain ⟨m, rfl⟩ := Nat.exists_eq_add_of_le hj
  obtain ⟨hi, hhi, lo, hlo, rfl⟩ := exists_two_parts hv
  rw [turnLeft_two_parts hlo, Nat.add_comm j m]
  exact two_parts_lt hlo hhi

/-- Two turns by together at most the width are one: of three parts, the lowest comes to the top. -/
theorem turnLeft_turnLeft {n i j v : Nat} (hij : i + j ≤ n) (hv : v < 2 ^ n) :
    turnLeft n i (turnLeft n j v) = turnLeft n (i + j) v := by
  obtain ⟨m, rfl⟩ := Nat.exists_eq_add_of_le hij
  have hn : i + j + m = j + (i + m) := by omega
  obtain ⟨hi, hhi, rest, hrest, rfl⟩ := exists_two_parts (hn ▸ hv)
  obtain ⟨mid, hmid, lo, hlo, rfl⟩ := exists_two_parts hrest
  have hfirst : turnLeft (i + j + m) j (hi * 2 ^ (i + m) + (mid * 2 ^ m + lo)) =
      mid * 2 ^ (m + j) + (lo * 2 ^ j + hi) := by
    rw [hn, turnLeft_two_parts hrest]
    ring
  have hboth : hi * 2 ^ (i + m) + (mid * 2 ^ m + lo) = (hi * 2 ^ i + mid) * 2 ^ m + lo := by ring
  rw [hfirst, Nat.add_assoc, Nat.add_comm j m, turnLeft_two_parts (two_parts_lt hlo hhi), ← Nat.add_comm j m,
    ← Nat.add_assoc, hboth, turnLeft_two_parts hlo]
  ring

/-- Turning by all places is turning by none. -/
theorem turnLeft_mod {n j v : Nat} (hj : j ≤ n) (hv : v < 2 ^ n) : turnLeft n (j % n) v = turnLeft n j v := by
  obtain rfl | hlt := Nat.eq_or_lt_of_le hj
  · rw [Nat.mod_self, turnLeft_zero hv, turnLeft_all]
  · rw [Nat.mod_eq_of_lt hlt]

theorem turnLeft_sub_mod {n j v : Nat} (hj : j ≤ n) (hv : v < 2 ^ n) :
    turnLeft n (n - j % n) v = turnLeft n (n - j) v := by
  obtain rfl | hlt := Nat.eq_or_lt_of_le hj
  · rw [Nat.mod_self, Nat.sub_self, Nat.sub_zero, turnLeft_zero hv, turnLeft_all]
  · rw [Nat.mod_eq_of_lt hlt]

/-- A turn to the left by one place, repeated. -/
theorem eq_turnLeft_of_left_steps {n v : Nat} (hn : 0 < n) (hv : v < 2 ^ n) {f : Nat → Nat} (hzero : f 0 = v)
    (hstep : ∀ k, f (k + 1) = turnLeft n 1 (f k)) (k : Nat) : f k = turnLeft n (k % n) v := by
  induction k with
  | zero => rw [hzero, Nat.zero_mod, turnLeft_zero hv]
  | succ k ih =>
    have hlt : 1 + k % n ≤ n := by have := Nat.mod_lt k hn; omega
    rw [hstep, ih, turnLeft_turnLeft hlt hv, ← turnLeft_mod hlt hv, Nat.add_comm 1, Nat.mod_add_mod]

/-- A turn to the right by one place, repeated: each undoes one to the left. -/
theorem eq_turnLeft_of_right_steps {n v : Nat} (hn : 0 < n) (hv : v < 2 ^ n) {f : Nat → Nat} (hzero : f 0 = v)
    (hstep : ∀ k, f (k + 1) = turnLeft n (n - 1) (f k)) (k : Nat) : f k = turnLeft n (n - k % n) v := by
  induction k with
  | zero => rw [hzero, Nat.zero_mod, Nat.sub_zero, turnLeft_all]
  | succ k ih =>
    have hlt := Nat.mod_lt k hn
    have hsplit : n - k % n = 1 + (n - (k % n + 1)) := by omega
    have hback : n - 1 + 1 = n := by omega
    rw [hstep, ih, hsplit, ← turnLeft_turnLeft (by omega) hv,
      turnLeft_turnLeft (by omega) (turnLeft_lt (by omega) hv), hback, turnLeft_all, ← turnLeft_sub_mod hlt hv,
      Nat.succ_eq_add_one, Nat.mod_add_mod]

theorem turnLeft_one {n v : Nat} (hv : v < 2 ^ (n + 1)) :
    turnLeft (n + 1) 1 v = if 2 ^ n ≤ v then 2 * v + 1 - 2 * 2 ^ n else 2 * v := by
  rw [pow_succ] at hv
  rw [turnLeft, pow_one, pow_succ, Nat.mul_mod_mul_right, Nat.add_sub_cancel]
  split
  · next hle =>
    have hdiv : v / 2 ^ n = 1 := Nat.div_eq_of_lt_le (by omega) (by omega)
    rw [hdiv, Nat.mod_eq_sub_div_mul, hdiv]
    omega
  · next hlt =>
    rw [Nat.mod_eq_of_lt (by omega), Nat.div_eq_of_lt (by omega)]
    omega

theorem turnLeft_pred (n v : Nat) : turnLeft (n + 1) n v = v % 2 * 2 ^ n + v / 2 := by
  rw [turnLeft, Nat.add_comm n 1, pow_add, Nat.mul_mod_mul_right, Nat.pow_one, Nat.add_sub_cancel, Nat.pow_one]

/-! The two shapes of a step (R283): a bit shifted in at the low or at the high end. -/

theorem sizeBits_bounds (sz : Size) : 0 < sizeBits sz ∧ sizeBits sz ≤ 32 := by cases sz <;> decide

/-- An operand of a size is a number below twice the weight of its sign. -/
theorem trunc_eq_self_iff {sz : Size} {v : Long} : trunc sz v = v ↔ v.toNat < 2 * signWeight sz := by
  refine ⟨toNat_lt_of_trunc, fun hv => BitVec.eq_of_toNat_eq ?_⟩
  rw [toNat_trunc, Nat.mod_eq_of_lt hv]

/-- A value shifted left by one place, with a bit at the low end. -/
def shiftInLow (sz : Size) (v : Long) (b : Bool) : Long := trunc sz (v <<< 1) ||| bitLong b

/-- A value shifted right by one place, with a bit at the high end. -/
def shiftInHigh (sz : Size) (v : Long) (b : Bool) : Long := (v >>> 1) ||| atMsb sz b

theorem trunc_shiftLeft_one (sz : Size) (v : Long) : trunc sz (v <<< 1) = shiftInLow sz v false :=
  (BitVec.or_zero ..).symm

theorem shiftRight_one (sz : Size) (v : Long) : v >>> 1 = shiftInHigh sz v false := by
  simp [shiftInHigh, atMsb, bitLong]

theorem toNat_atMsb (sz : Size) (b : Bool) : (atMsb sz b).toNat = b.toNat * signWeight sz := by
  cases sz <;> cases b <;> rfl

section
variable {sz : Size} {v : Long} (hv : trunc sz v = v) (b : Bool)
include hv

theorem toNat_shiftInLow :
    (shiftInLow sz v b).toNat =
      (if signWeight sz ≤ v.toNat then 2 * v.toNat - 2 * signWeight sz else 2 * v.toNat) + b.toNat := by
  have hlt := toNat_lt_of_trunc hv
  have hdouble : (trunc sz (v <<< 1)).toNat = 2 * (v.toNat % signWeight sz) := by
    rw [toNat_trunc, BitVec.toNat_shiftLeft, Nat.shiftLeft_eq, Nat.pow_one, Nat.mul_comm v.toNat,
      Nat.mod_mod_of_dvd _ (by cases sz <;> decide), Nat.mul_mod_mul_left]
  rw [shiftInLow, BitVec.toNat_or, hdouble, toNat_bitLong,
    ← Nat.two_pow_add_eq_or_of_lt (i := 1) (Nat.lt_succ_of_le b.toNat_le)]
  split
  · next hle => rw [Nat.mod_eq_sub_mod hle, Nat.mod_eq_of_lt (by omega)]; omega
  · next hgt => rw [Nat.mod_eq_of_lt (by omega)]

theorem toNat_shiftInHigh : (shiftInHigh sz v b).toNat = b.toNat * signWeight sz + v.toNat / 2 := by
  have hlt : v.toNat / 2 < signWeight sz := by have := toNat_lt_of_trunc hv; omega
  rw [shiftInHigh, BitVec.toNat_or, BitVec.toNat_ushiftRight, toNat_atMsb, Nat.or_comm, Nat.shiftRight_eq_div_pow,
    Nat.pow_one, Nat.mul_comm, signWeight, ← Nat.two_pow_add_eq_or_of_lt hlt]

theorem trunc_shiftInLow : trunc sz (shiftInLow sz v b) = shiftInLow sz v b := by
  have hlt := toNat_lt_of_trunc hv
  have hb := b.toNat_le
  rw [trunc_eq_self_iff, toNat_shiftInLow hv]
  split <;> omega

theorem trunc_shiftInHigh : trunc sz (shiftInHigh sz v b) = shiftInHigh sz v b := by
  have hlt := toNat_lt_of_trunc hv
  rw [trunc_eq_self_iff, toNat_shiftInHigh hv]
  cases b <;> simp only [Bool.toNat_true, Bool.toNat_false] <;> omega

end

/-! Runs of steps (R282): the last step is made from the run before it. -/

/-- A shift of a value before its first step. -/
def shiftStart (kind : ShiftKind) (old : Ccr) (v : Long) : ShiftRun :=
  { v := v, x := old.x, c := zeroCountCarry kind old, changed := false }

/-- A shift of a value after some steps. -/
def shiftRun (kind : ShiftKind) (sz : Size) (old : Ccr) (v : Long) (k : Nat) : ShiftRun :=
  shiftSteps kind sz k (shiftStart kind old v)

theorem shiftAlu_eq (kind : ShiftKind) (sz : Size) (k : Nat) (old : Ccr) (v : Long) :
    shiftAlu kind sz k old v = ((shiftRun kind sz old v k).v,
      { x := (shiftRun kind sz old v k).x, n := msbOf sz (shiftRun kind sz old v k).v,
        z := decide ((shiftRun kind sz old v k).v = 0), v := (shiftRun kind sz old v k).changed,
        c := (shiftRun kind sz old v k).c }) := rfl

theorem shiftSteps_succ (kind : ShiftKind) (sz : Size) (k : Nat) (st : ShiftRun) :
    shiftSteps kind sz (k + 1) st = shiftStep kind sz (shiftSteps kind sz k st) := by
  induction k generalizing st with
  | zero => rfl
  | succ k ih => exact ih (shiftStep kind sz st)

@[simp] theorem shiftRun_zero (kind : ShiftKind) (sz : Size) (old : Ccr) (v : Long) :
    shiftRun kind sz old v 0 = shiftStart kind old v := rfl

theorem shiftRun_succ (kind : ShiftKind) (sz : Size) (old : Ccr) (v : Long) (k : Nat) :
    shiftRun kind sz old v (k + 1) = shiftStep kind sz (shiftRun kind sz old v k) := shiftSteps_succ ..

/-- A step keeps the bits above the size clear. -/
theorem trunc_shiftStep (kind : ShiftKind) {sz : Size} {st : ShiftRun} (hst : trunc sz st.v = st.v) :
    trunc sz (shiftStep kind sz st).v = (shiftStep kind sz st).v := by
  cases kind with
  | asl | lsl => exact trunc_trunc ..
  | rol | roxl => exact trunc_shiftInLow hst _
  | asr | ror | roxr => exact trunc_shiftInHigh hst _
  | lsr =>
    have hv : (shiftStep .lsr sz st).v = shiftInHigh sz st.v false := shiftRight_one ..
    rw [hv, trunc_shiftInHigh hst]

theorem trunc_shiftRun (kind : ShiftKind) {sz : Size} (old : Ccr) {v : Long} (hv : trunc sz v = v) (k : Nat) :
    trunc sz (shiftRun kind sz old v k).v = (shiftRun kind sz old v k).v := by
  induction k with
  | zero => exact hv
  | succ k ih => rw [shiftRun_succ, trunc_shiftStep kind ih]

/-! What every shift or every rotate does with X, C and V (R282). -/

section
variable {kind : ShiftKind} (sz : Size) (old : Ccr) (v : Long) (k : Nat)

/-- A step of a shift moves the bit out into X and C. -/
theorem shiftRun_x_of_shift (hkind : kind ∈ [ShiftKind.asl, .asr, .lsl, .lsr]) :
    (shiftRun kind sz old v k).x = if k = 0 then old.x else (shiftRun kind sz old v k).c := by
  simp only [List.mem_cons, List.not_mem_nil, or_false] at hkind
  cases k with
  | zero => rfl
  | succ k =>
    rw [shiftRun_succ, if_neg k.succ_ne_zero]
    obtain rfl | rfl | rfl | rfl := hkind <;> rfl

/-- The rotates with extend keep X and C equal, for the count 0 too. -/
theorem shiftRun_c_of_roxl_roxr (hkind : kind ∈ [ShiftKind.roxl, .roxr]) :
    (shiftRun kind sz old v k).c = (shiftRun kind sz old v k).x := by
  simp only [List.mem_cons, List.not_mem_nil, or_false] at hkind
  cases k with
  | zero => obtain rfl | rfl := hkind <;> rfl
  | succ k =>
    rw [shiftRun_succ]
    obtain rfl | rfl := hkind <;> rfl

theorem shiftRun_x_of_rol_ror (hkind : kind ∈ [ShiftKind.rol, .ror]) : (shiftRun kind sz old v k).x = old.x := by
  simp only [List.mem_cons, List.not_mem_nil, or_false] at hkind
  induction k with
  | zero => rfl
  | succ k ih =>
    rw [shiftRun_succ, ← ih]
    obtain rfl | rfl := hkind <;> rfl

/-- Only ASL notes a change of the sign. -/
theorem shiftRun_changed_of_ne_asl (hkind : kind ≠ .asl) : (shiftRun kind sz old v k).changed = false := by
  induction k with
  | zero => rfl
  | succ k ih =>
    rw [shiftRun_succ, ← ih]
    cases kind with
    | asl => exact absurd rfl hkind
    | _ => rfl

end

/-! Shifts to the left (R284, R286). -/

theorem getLsbD_trunc (sz : Size) (v : Long) (i : Nat) :
    (trunc sz v).getLsbD i = (decide (i < sizeBits sz) && v.getLsbD i) := by
  cases sz with
  | byte | word => simp only [trunc, sizeBits, BitVec.getLsbD_setWidth]; grind
  | long =>
    by_cases hi : i < 32
    · simp [trunc, sizeBits, hi]
    · simp [trunc, sizeBits, hi, BitVec.getLsbD_of_ge v i (Nat.le_of_not_lt hi)]

/-- ASL and LSL make the same step, but for V. -/
theorem shiftStep_of_left {kind : ShiftKind} (hkind : kind ∈ [ShiftKind.asl, .lsl]) (sz : Size) (st : ShiftRun) :
    (shiftStep kind sz st).v = trunc sz (st.v <<< 1) ∧ (shiftStep kind sz st).c = msbOf sz st.v := by
  simp only [List.mem_cons, List.not_mem_nil, or_false] at hkind
  obtain rfl | rfl := hkind <;> exact ⟨rfl, rfl⟩

theorem shiftRun_v_of_left {kind : ShiftKind} (hkind : kind ∈ [ShiftKind.asl, .lsl]) {sz : Size} (old : Ccr) {v : Long}
    (hv : trunc sz v = v) (k : Nat) : (shiftRun kind sz old v k).v = trunc sz (v <<< k) := by
  induction k with
  | zero => exact hv.symm.trans (by rw [BitVec.shiftLeft_zero])
  | succ k ih =>
    rw [shiftRun_succ, (shiftStep_of_left hkind sz _).1, ih, BitVec.shiftLeft_add]
    refine BitVec.eq_of_getLsbD_eq fun i hi => ?_
    simp only [getLsbD_trunc, BitVec.getLsbD_shiftLeft]
    grind

theorem shiftRun_c_of_left {kind : ShiftKind} (hkind : kind ∈ [ShiftKind.asl, .lsl]) {sz : Size} (old : Ccr) {v : Long}
    (hv : trunc sz v = v) (k : Nat) :
    (shiftRun kind sz old v k).c = (decide (0 < k) && decide (k ≤ sizeBits sz) && v.getLsbD (sizeBits sz - k)) := by
  cases k with
  | zero =>
    simp only [List.mem_cons, List.not_mem_nil, or_false] at hkind
    obtain rfl | rfl := hkind <;> rfl
  | succ k =>
    rw [shiftRun_succ, (shiftStep_of_left hkind sz _).2, shiftRun_v_of_left hkind old hv, msbOf, getLsbD_trunc,
      BitVec.getLsbD_shiftLeft]
    have hn := sizeBits_bounds sz
    grind

/-- A number that fits a size as a signed one. -/
def fitsSigned (sz : Size) (a : Int) : Prop := -(signWeight sz : Int) ≤ a ∧ a < signWeight sz

/-- One place to the left doubles the signed number; the sign changes if that does not fit. -/
theorem asl_step_signed {sz : Size} {v : Long} (hv : trunc sz v = v) {a : Int} (ha : (signExtend sz v).toInt = a) :
    (msbOf sz (trunc sz (v <<< 1)) ≠ msbOf sz v ↔ ¬ fitsSigned sz (a * 2)) ∧
      (fitsSigned sz (a * 2) → (signExtend sz (trunc sz (v <<< 1))).toInt = a * 2) := by
  have hlt := toNat_lt_of_trunc hv
  have hdouble := toNat_shiftInLow hv false
  rw [← trunc_shiftLeft_one, Bool.toNat_false, Nat.add_zero] at hdouble
  rw [toInt_signExtend hv] at ha
  rw [toInt_signExtend (trunc_trunc ..), msbOf_eq_decide hv, msbOf_eq_decide (trunc_trunc ..), fitsSigned, ne_eq,
    decide_eq_decide]
  split at hdouble <;> split at ha <;> split <;> omega

/-- V of ASL: the sign has changed on the way just if the signed result does not fit. -/
theorem asl_run_signed {sz : Size} (old : Ccr) {v : Long} (hv : trunc sz v = v) (k : Nat) :
    ((shiftRun .asl sz old v k).changed = true ↔ ¬ fitsSigned sz ((signExtend sz v).toInt * 2 ^ k)) ∧
      (fitsSigned sz ((signExtend sz v).toInt * 2 ^ k) →
        (signExtend sz (shiftRun .asl sz old v k).v).toInt = (signExtend sz v).toInt * 2 ^ k) := by
  induction k with
  | zero =>
    have hfits : fitsSigned sz (signExtend sz v).toInt := by
      have hlt := toNat_lt_of_trunc hv
      rw [toInt_signExtend hv, fitsSigned]
      split <;> omega
    simp [shiftStart, hfits]
  | succ k ih =>
    obtain ⟨hchanged, hvalue⟩ := ih
    have hnext : (shiftRun .asl sz old v (k + 1)).changed = true ↔
        (shiftRun .asl sz old v k).changed = true ∨
          msbOf sz (trunc sz ((shiftRun .asl sz old v k).v <<< 1)) ≠ msbOf sz (shiftRun .asl sz old v k).v := by
      rw [shiftRun_succ, ← decide_eq_true_iff (p := _ ≠ _), ← Bool.or_eq_true]
      rfl
    rw [hnext, hchanged, pow_succ, ← mul_assoc]
    by_cases hfits : fitsSigned sz ((signExtend sz v).toInt * 2 ^ k)
    · obtain ⟨hsign, hdouble⟩ := asl_step_signed (trunc_shiftRun .asl old hv k) (hvalue hfits)
      rw [hsign, shiftRun_succ]
      exact ⟨or_iff_right (not_not.mpr hfits), hdouble⟩
    · have hnot : ¬ fitsSigned sz ((signExtend sz v).toInt * 2 ^ k * 2) := by
        simp only [fitsSigned] at hfits ⊢
        omega
      exact ⟨iff_of_true (.inl hfits) hnot, fun h => absurd h hnot⟩

/-! Shifts to the right (R285, R287). -/

theorem shiftRun_v_lsr (sz : Size) (old : Ccr) (v : Long) (k : Nat) : (shiftRun .lsr sz old v k).v = v >>> k := by
  induction k with
  | zero => exact (BitVec.ushiftRight_zero v).symm
  | succ k ih => rw [shiftRun_succ, BitVec.shiftRight_add, ← ih]; rfl

theorem shiftRun_c_lsr (sz : Size) (old : Ccr) (v : Long) (k : Nat) :
    (shiftRun .lsr sz old v k).c = (decide (0 < k) && v.getLsbD (k - 1)) := by
  cases k with
  | zero => rfl
  | succ k =>
    have hlow : (shiftRun .lsr sz old v (k + 1)).c = (shiftRun .lsr sz old v k).v.getLsbD 0 := by
      rw [shiftRun_succ]; rfl
    simp [hlow, shiftRun_v_lsr]

/-- One place to the right halves the signed number. -/
theorem signExtend_asr_step {sz : Size} {v : Long} (hv : trunc sz v = v) :
    signExtend sz (shiftInHigh sz v (msbOf sz v)) = (signExtend sz v).sshiftRight 1 := by
  have hlt := toNat_lt_of_trunc hv
  rw [← BitVec.toInt_inj, BitVec.toInt_sshiftRight, toInt_signExtend (trunc_shiftInHigh hv _), toNat_shiftInHigh hv,
    toInt_signExtend hv, msbOf_eq_decide hv, Int.shiftRight_eq_div_pow]
  by_cases hneg : signWeight sz ≤ v.toNat
  · simp only [hneg, decide_true, Bool.toNat_true, if_true]
    split <;> omega
  · simp only [hneg, decide_false, Bool.toNat_false, if_false]
    split <;> omega

theorem signExtend_shiftRun_asr {sz : Size} (old : Ccr) {v : Long} (hv : trunc sz v = v) (k : Nat) :
    signExtend sz (shiftRun .asr sz old v k).v = (signExtend sz v).sshiftRight k := by
  induction k with
  | zero => exact BitVec.sshiftRight_zero.symm
  | succ k ih =>
    rw [shiftRun_succ, BitVec.sshiftRight_add, ← ih]
    exact signExtend_asr_step (trunc_shiftRun .asr old hv k)

theorem getLsbD_signExtend (sz : Size) (v : Long) {i : Nat} (hi : i < 32) :
    (signExtend sz v).getLsbD i = if i < sizeBits sz then v.getLsbD i else msbOf sz v := by
  cases sz <;> simp [signExtend, sizeBits, msbOf, BitVec.getElem_signExtend, hi, BitVec.msb_eq_getLsbD_last]

theorem trunc_signExtend (sz : Size) (v : Long) : trunc sz (signExtend sz v) = trunc sz v := by
  refine BitVec.eq_of_getLsbD_eq fun i hi => ?_
  rw [getLsbD_trunc, getLsbD_trunc, getLsbD_signExtend sz v hi]
  grind

theorem shiftRun_v_asr {sz : Size} (old : Ccr) {v : Long} (hv : trunc sz v = v) (k : Nat) :
    (shiftRun .asr sz old v k).v = trunc sz ((signExtend sz v).sshiftRight k) := by
  rw [← signExtend_shiftRun_asr old hv, trunc_signExtend, trunc_shiftRun .asr old hv]

theorem shiftRun_c_asr {sz : Size} (old : Ccr) {v : Long} (hv : trunc sz v = v) (k : Nat) :
    (shiftRun .asr sz old v k).c =
      (decide (0 < k) && (if k < sizeBits sz then v.getLsbD (k - 1) else msbOf sz v)) := by
  cases k with
  | zero => rfl
  | succ k =>
    have hlow : (shiftRun .asr sz old v (k + 1)).c = (shiftRun .asr sz old v k).v.getLsbD 0 := by
      rw [shiftRun_succ]; rfl
    have hn := sizeBits_bounds sz
    have hmsb : (signExtend sz v).msb = msbOf sz v := by
      rw [BitVec.msb_eq_getLsbD_last, getLsbD_signExtend sz v (by decide)]
      split
      · next hlast => rw [msbOf]; congr 1; omega
      · rfl
    rw [hlow, shiftRun_v_asr old hv, getLsbD_trunc, BitVec.getLsbD_sshiftRight, hmsb, Nat.add_zero, Nat.add_sub_cancel]
    have hsign (hk : k < 32) := getLsbD_signExtend sz v hk
    rw [msbOf] at hsign ⊢
    grind

/-! Rotates (R288, R289). -/

theorem sizeBits_eq_succ (sz : Size) : sizeBits sz = sizeBits sz - 1 + 1 :=
  (Nat.sub_add_cancel (sizeBits_bounds sz).1).symm

/-- The lowest bit of a number. -/
theorem toNat_low_bit (v : Long) : (v.getLsbD 0).toNat = v.toNat % 2 := by
  rw [BitVec.getLsbD, Nat.toNat_testBit, pow_zero, Nat.div_one]

theorem getLsbD_zero_shiftInLow (sz : Size) (v : Long) (b : Bool) : (shiftInLow sz v b).getLsbD 0 = b := by
  rw [shiftInLow, BitVec.getLsbD_or, getLsbD_trunc]
  cases b <;> simp [bitLong]

section
variable {sz : Size} {v : Long} (hv : trunc sz v = v)
include hv

theorem msbOf_shiftInHigh (b : Bool) : msbOf sz (shiftInHigh sz v b) = b := by
  have hlt := toNat_lt_of_trunc hv
  rw [msbOf_eq_decide (trunc_shiftInHigh hv b), toNat_shiftInHigh hv]
  cases b with
  | false => simp only [Bool.toNat_false, decide_eq_false_iff_not]; omega
  | true => simp

theorem toNat_rol_step : (shiftInLow sz v (msbOf sz v)).toNat = turnLeft (sizeBits sz) 1 v.toNat := by
  have hlt := toNat_lt_of_trunc hv
  rw [sizeBits_eq_succ, turnLeft_one (by rwa [← sizeBits_eq_succ, two_pow_sizeBits]), toNat_shiftInLow hv,
    msbOf_eq_decide hv, ← signWeight]
  split
  · next hle => simp only [hle, decide_true, Bool.toNat_true]; omega
  · next hgt => simp [hgt]

theorem toNat_ror_step :
    (shiftInHigh sz v (v.getLsbD 0)).toNat = turnLeft (sizeBits sz) (sizeBits sz - 1) v.toNat := by
  have hturn := turnLeft_pred (sizeBits sz - 1) v.toNat
  rw [← sizeBits_eq_succ] at hturn
  rw [toNat_shiftInHigh hv, toNat_low_bit, hturn, signWeight]

end

theorem toNat_shiftRun_rol {sz : Size} (old : Ccr) {v : Long} (hv : trunc sz v = v) (k : Nat) :
    (shiftRun .rol sz old v k).v.toNat = turnLeft (sizeBits sz) (k % sizeBits sz) v.toNat := by
  refine eq_turnLeft_of_left_steps (f := fun k => (shiftRun .rol sz old v k).v.toNat) (sizeBits_bounds sz).1
    (by rw [two_pow_sizeBits]; exact toNat_lt_of_trunc hv) rfl (fun k => ?_) k
  rw [shiftRun_succ]
  exact toNat_rol_step (trunc_shiftRun .rol old hv k)

theorem toNat_shiftRun_ror {sz : Size} (old : Ccr) {v : Long} (hv : trunc sz v = v) (k : Nat) :
    (shiftRun .ror sz old v k).v.toNat = turnLeft (sizeBits sz) (sizeBits sz - k % sizeBits sz) v.toNat := by
  refine eq_turnLeft_of_right_steps (f := fun k => (shiftRun .ror sz old v k).v.toNat) (sizeBits_bounds sz).1
    (by rw [two_pow_sizeBits]; exact toNat_lt_of_trunc hv) rfl (fun k => ?_) k
  rw [shiftRun_succ]
  exact toNat_ror_step (trunc_shiftRun .ror old hv k)

theorem shiftRun_c_rol (sz : Size) (old : Ccr) (v : Long) (k : Nat) :
    (shiftRun .rol sz old v k).c = (decide (0 < k) && (shiftRun .rol sz old v k).v.getLsbD 0) := by
  cases k with
  | zero => rfl
  | succ k =>
    rw [shiftRun_succ, decide_eq_true k.succ_pos, Bool.true_and]
    exact (getLsbD_zero_shiftInLow ..).symm

theorem shiftRun_c_ror {sz : Size} (old : Ccr) {v : Long} (hv : trunc sz v = v) (k : Nat) :
    (shiftRun .ror sz old v k).c = (decide (0 < k) && msbOf sz (shiftRun .ror sz old v k).v) := by
  cases k with
  | zero => rfl
  | succ k =>
    rw [shiftRun_succ, decide_eq_true k.succ_pos, Bool.true_and]
    exact (msbOf_shiftInHigh (trunc_shiftRun .ror old hv k) _).symm

/-! Rotates with extend (R290, R291): X stands above the operand. -/

/-- X and the operand as one number. -/
def ShiftRun.wide (sz : Size) (st : ShiftRun) : Nat := st.x.toNat * 2 ^ sizeBits sz + st.v.toNat

section
variable {sz : Size} {st : ShiftRun} (hst : trunc sz st.v = st.v)
include hst

theorem ShiftRun.wide_lt : st.wide sz < 2 ^ (sizeBits sz + 1) := by
  have hlt := toNat_lt_of_trunc hst
  rw [wide, pow_succ, two_pow_sizeBits]
  cases st.x <;> simp only [Bool.toNat_true, Bool.toNat_false] <;> omega

/-- The number gives back its two parts. -/
theorem ShiftRun.parts_of_wide {w : Nat} (hw : st.wide sz = w) :
    st.v.toNat = w % 2 ^ sizeBits sz ∧ st.x = decide (2 ^ sizeBits sz ≤ w) := by
  subst hw
  have hlt := toNat_lt_of_trunc hst
  rw [← two_pow_sizeBits] at hlt
  refine ⟨by rw [wide, Nat.mul_add_mod_self_right, Nat.mod_eq_of_lt hlt], ?_⟩
  rw [wide]
  cases st.x <;> simp [hlt]

theorem wide_roxl_step : (shiftStep .roxl sz st).wide sz = turnLeft (sizeBits sz + 1) 1 (st.wide sz) := by
  have hlt := toNat_lt_of_trunc hst
  have hv : (shiftStep .roxl sz st).v = shiftInLow sz st.v st.x := rfl
  have hx : (shiftStep .roxl sz st).x = msbOf sz st.v := rfl
  rw [turnLeft_one (ShiftRun.wide_lt hst), ShiftRun.wide, hv, hx, toNat_shiftInLow hst, msbOf_eq_decide hst,
    ShiftRun.wide, two_pow_sizeBits]
  by_cases hneg : signWeight sz ≤ st.v.toNat <;> cases st.x <;> simp [hneg] <;> omega

theorem wide_roxr_step :
    (shiftStep .roxr sz st).wide sz = turnLeft (sizeBits sz + 1) (sizeBits sz) (st.wide sz) := by
  have hv : (shiftStep .roxr sz st).v = shiftInHigh sz st.v st.x := rfl
  have hx : (shiftStep .roxr sz st).x = st.v.getLsbD 0 := rfl
  rw [turnLeft_pred, ShiftRun.wide, hv, hx, toNat_shiftInHigh hst, toNat_low_bit, ShiftRun.wide, two_pow_sizeBits,
    Nat.mul_left_comm st.x.toNat, Nat.mul_add_mod, Nat.mul_add_div two_pos]

end

/-- The bit turned out of the number is the new X, and C with it. -/
theorem shiftRun_roxl {sz : Size} (old : Ccr) {v : Long} (hv : trunc sz v = v) (k : Nat) :
    (shiftRun .roxl sz old v k).wide sz =
      turnLeft (sizeBits sz + 1) (k % (sizeBits sz + 1)) (old.x.toNat * 2 ^ sizeBits sz + v.toNat) := by
  refine eq_turnLeft_of_left_steps (f := fun k => (shiftRun .roxl sz old v k).wide sz) (Nat.succ_pos _)
    (ShiftRun.wide_lt (st := shiftStart .roxl old v) hv) rfl (fun k => ?_) k
  rw [shiftRun_succ]
  exact wide_roxl_step (trunc_shiftRun .roxl old hv k)

theorem shiftRun_roxr {sz : Size} (old : Ccr) {v : Long} (hv : trunc sz v = v) (k : Nat) :
    (shiftRun .roxr sz old v k).wide sz =
      turnLeft (sizeBits sz + 1) (sizeBits sz + 1 - k % (sizeBits sz + 1))
        (old.x.toNat * 2 ^ sizeBits sz + v.toNat) := by
  refine eq_turnLeft_of_right_steps (f := fun k => (shiftRun .roxr sz old v k).wide sz) (Nat.succ_pos _)
    (ShiftRun.wide_lt (st := shiftStart .roxr old v) hv) rfl (fun k => ?_) k
  rw [shiftRun_succ]
  exact wide_roxr_step (trunc_shiftRun .roxr old hv k)

/-- Settles O28, clause by clause from the run of steps: values and bits out of the shifts, turns of the rotates. -/
theorem shiftClosedForms : Obligations.ShiftClosedForms := by
  intro sz old v k n hv hn
  subst hn
  simp only [shiftAlu_eq]
  have hasl : ShiftKind.asl ∈ [ShiftKind.asl, .lsl] := by decide
  have hlsl : ShiftKind.lsl ∈ [ShiftKind.asl, .lsl] := by decide
  refine ⟨⟨shiftRun_v_of_left hasl old hv k, shiftRun_v_of_left hlsl old hv k, shiftRun_v_lsr sz old v k,
      shiftRun_v_asr old hv k⟩, fun _ hkind => shiftRun_c_of_left hkind old hv k, shiftRun_c_lsr sz old v k,
    shiftRun_c_asr old hv k, ?overflow, fun _ hkind => shiftRun_x_of_shift sz old v k hkind,
    ⟨toNat_shiftRun_rol old hv k, shiftRun_c_rol sz old v k⟩, ⟨toNat_shiftRun_ror old hv k, shiftRun_c_ror old hv k⟩,
    ShiftRun.parts_of_wide (trunc_shiftRun .roxl old hv k) (shiftRun_roxl old hv k),
    ShiftRun.parts_of_wide (trunc_shiftRun .roxr old hv k) (shiftRun_roxr old hv k),
    fun _ hkind => shiftRun_c_of_roxl_roxr sz old v k hkind, fun _ hkind => shiftRun_x_of_rol_ror sz old v k hkind,
    fun _ => ⟨fun hkind => shiftRun_changed_of_ne_asl sz old v k hkind, trivial, rfl⟩⟩
  case overflow =>
    rw [cast_signWeight]
    exact (asl_run_signed old hv k).1

end Sys2Proof.Machine
end

section
/-! PROOFS. The family of spec 44, results: the register and memory forms of the shifts and rotates (O48), and the frame of
the instructions that change an operand in memory (O58). -/

namespace Sys2Proof.Machine

open Sys2Proof

/-! The shifts and rotates (O48). -/

/-- The register forms have one meaning. -/
theorem exec_shiftReg {sz : Size} {count : ShiftCount} {dn : Reg} {p : Instr × ShiftKind}
    (hp : p ∈ [(Instr.aslReg sz count dn, ShiftKind.asl), (.asrReg sz count dn, .asr), (.lslReg sz count dn, .lsl),
      (.lsrReg sz count dn, .lsr), (.rolReg sz count dn, .rol), (.rorReg sz count dn, .ror),
      (.roxlReg sz count dn, .roxl), (.roxrReg sz count dn, .roxr)]) (s : State) :
    exec p.1 s = runInstr (shiftReg p.2 sz count dn) s := by
  simp only [List.mem_cons, List.not_mem_nil, or_false] at hp
  obtain rfl | rfl | rfl | rfl | rfl | rfl | rfl | rfl := hp <;> rfl

/-- The memory forms have one meaning. -/
theorem exec_shiftMem {ea : Ea} {p : Instr × ShiftKind}
    (hp : p ∈ [(Instr.aslMem ea, ShiftKind.asl), (.asrMem ea, .asr), (.lslMem ea, .lsl), (.lsrMem ea, .lsr),
      (.rolMem ea, .rol), (.rorMem ea, .ror), (.roxlMem ea, .roxl), (.roxrMem ea, .roxr)]) (s : State) :
    exec p.1 s = runInstr (shiftMem p.2 ea) s := by
  simp only [List.mem_cons, List.not_mem_nil, or_false] at hp
  obtain rfl | rfl | rfl | rfl | rfl | rfl | rfl | rfl := hp <;> rfl

/-- Settles O48: the register form is one change of the state, the memory form reads its word and stores at the same
place. -/
theorem shiftResults : Obligations.ShiftResults := by
  refine ⟨fun sz count dn s k v hk hv p hp => ?register, fun ea s q loc v hl hr hw hv p hp => ?memory⟩
  case register =>
    obtain rfl : k = s.shiftCount count := by rw [hk]; cases count <;> rfl
    subst hv
    rw [exec_shiftReg hp, shiftReg, runInstr_modify]
    cases count <;> rfl
  case memory =>
    subst hv
    rw [exec_shiftMem hp]
    exact runInstr_ok (unaryOnEa_ok hl hr hw)

/-! Instructions that change an operand in memory (O58). -/

/-- ADDQ and SUBQ on an operand in memory (R215). -/
theorem quickBody_mem_ok {alu : Alu} {f : Long → Long → Long} {q : Fin 8} {sz : Size} {ea : Ea} {s p : State} {sp : Space}
    {a : Long} (hl : s.resolve ea sz = (.mem sp a, p)) (hr : p.canAccess sp .read a sz = true)
    (hw : p.canAccess .data .write a sz = true) :
    quickBody alu f q sz ea s =
      .ok () ((p.storeMem a sz (alu sz s.sr.ccr (quickValue q) (p.loadMem (p.code sp) a sz)).1).setCcr
        (alu sz s.sr.ccr (quickValue q) (p.loadMem (p.code sp) a sz)).2) := by
  have hea : ea.isAddrReg = false := by
    cases ea with
    | areg n => cases hl
    | _ => rfl
  rw [quickBody_of_not_addrReg hea]
  exact aluOnEa_ok hl hr hw

/-- A decimal operation draws, and changes nothing else (R312). -/
theorem bcdResult_ok (f : Nat → Nat → Bool → Byte × Bool) (src dst : Long) (s : State) :
    ∃ r k, bcdResult f src dst s = .ok r { s with drawCount := k } := by
  unfold bcdResult
  cases decOf (src.setWidth 8) <;> cases decOf (dst.setWidth 8) <;> exact ⟨_, _, rfl⟩

/-- A decimal operation on an operand that can be accessed. -/
theorem bcdOnEa_ok (f : Nat → Nat → Bool → Byte × Bool) (src : Long) {ea : Ea} {s p : State} {sp : Space} {a : Long}
    (hl : s.resolve ea .byte = (.mem sp a, p)) (hr : p.canAccess sp .read a .byte = true)
    (hw : p.canAccess .data .write a .byte = true) :
    ∃ k v cc, bcdOnEa f src ea s = .ok () (({ p with drawCount := k }.storeMem a .byte v).setCcr cc) := by
  obtain ⟨⟨r, cc⟩, k, hresult⟩ := bcdResult_ok f src (p.loadMem (p.code sp) a .byte) p
  have hw' : { p with drawCount := k }.canAccess .data .write a .byte = true :=
    (State.canAccess_congr ⟨⟨rfl, rfl, rfl⟩, rfl⟩ ..).trans hw
  have hread : rd (.mem sp a) .byte p = .ok (p.loadMem (p.code sp) a .byte) p := readMem_ok hr
  refine ⟨k, r.setWidth 32, cc, ?_⟩
  unfold bcdOnEa
  rw [run_bind_ok (resolveEa_run ea .byte s), hl, run_bind_ok hread]
  exact (run_bind_ok hresult).trans (wrFlagged_ok (loc := .mem sp a) hw')

/-- A bit operation that stores, on an operand in memory: only Z is written (R301, R303). -/
theorem bitBody_ok {op : BitOp} (hop : op ≠ .test) (b : Byte) {ea : Ea} {s p : State} {sp : Space} {a : Long}
    (hl : s.resolve ea .byte = (.mem sp a, p)) (hr : p.canAccess sp .read a .byte = true)
    (hw : p.canAccess .data .write a .byte = true) :
    ∃ v z, bitBody op b ea s = .ok () ((p.storeMem a .byte v).setCcr { s.sr.ccr with z := z }) := by
  have hmodulus : bitModulus ea = (8, .byte) := by
    cases ea with
    | dreg n => cases hl
    | _ => rfl
  have hread : rd (.mem sp a) .byte p = .ok (p.loadMem (p.code sp) a .byte) p := readMem_ok hr
  have hsr : p.sr = s.sr := State.sr_of_resolve hl
  rw [← hsr]
  unfold bitBody
  rw [hmodulus]
  dsimp only
  rw [run_bind_ok (resolveEa_run ea .byte s), hl, run_bind_ok hread, run_bind_ok (run_get p)]
  cases op with
  | test => exact absurd rfl hop
  | change | clear | set => exact ⟨_, _, wrFlagged_ok (loc := .mem sp a) hw⟩

/-- After an operand is resolved it is stored, and flags of a kind are written. -/
def State.StoresOperand (p : State) (a : Long) (sz : Size) (flags : Ccr → Prop) (t : State) : Prop :=
  ∃ k v cc, flags cc ∧ t = ({ p with drawCount := k }.storeMem a sz v).setCcr cc

namespace State.StoresOperand

variable {s p t : State} {a : Long} {sz : Size} {flags : Ccr → Prop}

theorem of_run {body : Exec Unit} {v : Long} {cc : Ccr} (h : runInstr body s = .next t)
    (hbody : body s.beginInstr = .ok () ((p.storeMem a sz v).setCcr cc)) (hcc : flags cc) :
    p.StoresOperand a sz flags t := ⟨p.drawCount, v, cc, hcc, eq_of_runInstr hbody h⟩

/-- What changed up to the store is changed after it, and the bytes of the operand. -/
theorem frame (h : p.StoresOperand a sz flags t) (hwf : s.mem.wf = true) {as : List Reg}
    (hp : State.Changes [] as (s.span (s.code .data) a (sizeBytes sz)) s p) :
    (State.sameButRegs [] as s t ∧ State.sameMemoryBut (s.code .data) a (sizeBytes sz) s t) ∧ flags t.sr.ccr := by
  obtain ⟨k, v, cc, hcc, rfl⟩ := h
  have ht := (((hp.draw k).storeMem hwf fun j hj => ⟨j, hj, rfl⟩) v).setCcr cc
  exact ⟨⟨ht.regs, ht.sameMemoryBut⟩, hcc⟩

end State.StoresOperand

/-- The status register is the same where the flags are. -/
theorem State.sr_of_sameButRegs {ds as : List Reg} {s t : State} (h : State.sameButRegs ds as s t)
    (hccr : t.sr.ccr = s.sr.ccr) : t.sr = s.sr := by
  obtain ⟨-, -, -, -, htrace, hsup, hmask, -⟩ := h
  cases hs : s.sr
  cases ht : t.sr
  simp_all

section
variable {i : Instr} {sz : Size} {imm : Long} {b : Byte} {q : Fin 8} {ea : Ea} {dm dn : Reg} {c : Cond}
  {s u p t : State} {sp : Space} {a : Long} (hl : u.resolve ea sz = (.mem sp a, p))
  (hr : p.canAccess sp .read a sz = true) (hw : p.canAccess .data .write a sz = true) (h : exec i s = .next t)
include hl hr hw h

/-- Arithmetic and the shifts write every flag. -/
theorem arithmetic_storesOperand
    (hi : (u = s.beginInstr ∧ i ∈ [Instr.addToMem sz dn ea, .subToMem sz dn ea, .neg sz ea, .negx sz ea, .addq q sz ea,
          .subq q sz ea]) ∨
        (u = s.beginInstr.advance (immBytes sz) ∧ i ∈ [Instr.addi sz imm ea, .subi sz imm ea]) ∨
        (u = s.beginInstr ∧ sz = .byte ∧ i = .nbcd ea) ∨
        (u = s.beginInstr ∧ sz = .word ∧ i ∈ [Instr.aslMem ea, .asrMem ea, .lslMem ea, .lsrMem ea, .roxlMem ea,
          .roxrMem ea])) :
    p.StoresOperand a sz (fun _ => True) t := by
  simp only [List.mem_cons, List.not_mem_nil, or_false] at hi
  obtain ⟨rfl, rfl | rfl | rfl | rfl | rfl | rfl⟩ | ⟨rfl, rfl | rfl⟩ | ⟨rfl, rfl, rfl⟩ | ⟨rfl, rfl, hi⟩ := hi
  · exact .of_run h (aluToMem_ok hl hr hw) trivial
  · exact .of_run h (aluToMem_ok hl hr hw) trivial
  · exact .of_run h (unaryOnEa_ok hl hr hw) trivial
  · exact .of_run h (unaryOnEa_ok hl hr hw) trivial
  · exact .of_run h (quickBody_mem_ok hl hr hw) trivial
  · exact .of_run h (quickBody_mem_ok hl hr hw) trivial
  · exact .of_run h (aluImm_ok hl hr hw) trivial
  · exact .of_run h (aluImm_ok hl hr hw) trivial
  · obtain ⟨k, v, cc, hbody⟩ := bcdOnEa_ok (fun _ d x => bcdSub d 0 x) 0 hl hr hw
    exact ⟨k, v, cc, trivial, eq_of_runInstr hbody h⟩
  · obtain rfl | rfl | rfl | rfl | rfl | rfl := hi <;> exact .of_run h (unaryOnEa_ok hl hr hw) trivial

/-- Logic and the rotates without extend leave X. -/
theorem logic_storesOperand
    (hi : (u = s.beginInstr ∧ i ∈ [Instr.andToMem sz dn ea, .orToMem sz dn ea, .eorToEa sz dn ea, .notEa sz ea,
          .clr sz ea]) ∨
        (u = s.beginInstr.advance (immBytes sz) ∧ i ∈ [Instr.andi sz imm ea, .ori sz imm ea, .eori sz imm ea]) ∨
        (u = s.beginInstr ∧ sz = .word ∧ i ∈ [Instr.rolMem ea, .rorMem ea])) :
    p.StoresOperand a sz (fun cc => cc.x = s.sr.ccr.x) t := by
  simp only [List.mem_cons, List.not_mem_nil, or_false] at hi
  obtain ⟨rfl, rfl | rfl | rfl | rfl | rfl⟩ | ⟨rfl, rfl | rfl | rfl⟩ | ⟨rfl, rfl, rfl | rfl⟩ := hi
  · exact .of_run h (aluToMem_ok hl hr hw) rfl
  · exact .of_run h (aluToMem_ok hl hr hw) rfl
  · exact .of_run h (aluToMem_ok hl hr hw) rfl
  · exact .of_run h (unaryOnEa_ok hl hr hw) rfl
  · exact .of_run h (unaryOnEa_ok hl hr hw) rfl
  · exact .of_run h (aluImm_ok hl hr hw) rfl
  · exact .of_run h (aluImm_ok hl hr hw) rfl
  · exact .of_run h (aluImm_ok hl hr hw) rfl
  · exact .of_run h (unaryOnEa_ok hl hr hw) rfl
  · exact .of_run h (unaryOnEa_ok hl hr hw) rfl

/-- The bit instructions that store write Z only. -/
theorem bit_storesOperand (hsz : sz = .byte)
    (hi : (u = s.beginInstr ∧ i ∈ [Instr.bsetDynamic dn ea, .bclrDynamic dn ea, .bchgDynamic dn ea]) ∨
      (u = s.beginInstr.advance 2 ∧ i ∈ [Instr.bsetStatic b ea, .bclrStatic b ea, .bchgStatic b ea])) :
    p.StoresOperand a sz (fun cc => ∃ z, cc = { s.sr.ccr with z := z }) t := by
  subst hsz
  have hstores {op : BitOp} (hop : op ≠ .test) {number : Byte} {body : Exec Unit} (hrun : runInstr body s = .next t)
      (hbody : body s.beginInstr = bitBody op number ea u) (hsr : u.sr = s.sr) :
      p.StoresOperand a .byte (fun cc => ∃ z, cc = { s.sr.ccr with z := z }) t := by
    obtain ⟨v, z, hbit⟩ := bitBody_ok hop number hl hr hw
    exact .of_run hrun (hbody.trans hbit) ⟨z, by rw [hsr]⟩
  simp only [List.mem_cons, List.not_mem_nil, or_false] at hi
  obtain ⟨rfl, rfl | rfl | rfl⟩ | ⟨rfl, rfl | rfl | rfl⟩ := hi
  · exact hstores (op := .set) (by decide) h rfl rfl
  · exact hstores (op := .clear) (by decide) h rfl rfl
  · exact hstores (op := .change) (by decide) h rfl rfl
  · exact hstores (op := .set) (by decide) h rfl rfl
  · exact hstores (op := .clear) (by decide) h rfl rfl
  · exact hstores (op := .change) (by decide) h rfl rfl

/-- Scc and MOVE from SR write no flag. -/
theorem status_storesOperand
    (hi : u = s.beginInstr ∧ ((sz = .byte ∧ i = .scc c ea) ∨ (sz = .word ∧ i = .moveFromSr ea))) :
    p.StoresOperand a sz (fun cc => cc = s.sr.ccr) t := by
  obtain ⟨rfl, ⟨rfl, rfl⟩ | ⟨rfl, rfl⟩⟩ := hi
  · exact .of_run h (unaryOnEa_ok hl hr hw) rfl
  · have hsr : p.sr = s.sr := State.sr_of_resolve (s := s.beginInstr) hl
    have hread : rd (.mem sp a) .word p = .ok (p.loadMem (p.code sp) a .word) p := readMem_ok hr
    have hflags (v : Long) : (p.storeMem a .word v).setCcr s.sr.ccr = p.storeMem a .word v :=
      State.setCcr_self (congrArg StatusRegister.ccr hsr)
    have hwrite (v : Long) : wr (.mem sp a) .word v p = .ok () ((p.storeMem a .word v).setCcr s.sr.ccr) :=
      (writeMem_ok hw).trans (by rw [hflags])
    rw [exec, execMoveFromSr] at h
    refine .of_run (v := p.sr.toWord.setWidth 32) h ?_ rfl
    rw [run_bind_ok (resolveEa_run ea .word s.beginInstr), hl, run_bind_ok hread, run_bind_ok (run_get p)]
    exact hwrite _

/-- The memory forms of the extended and decimal operations. -/
theorem extended_storesOperand (hea : ea = .preDec dn) (hu : u = s.beginInstr.setA dm (s.areg dm - eaStep sz dm))
    (hread : s.canAccess .data .read (s.areg dm - eaStep sz dm) sz = true)
    (hi : i ∈ [Instr.addx sz true dm dn, .subx sz true dm dn] ∨
      (sz = .byte ∧ i ∈ [Instr.abcd true dm dn, .sbcd true dm dn])) :
    p.StoresOperand a sz (fun _ => True) t := by
  subst hea
  obtain ⟨src, hsource⟩ : ∃ v, readEa (.preDec dm) sz s.beginInstr = .ok v u :=
    ⟨_, hu ▸ readEa_preDec_ok s.sameOperands_beginInstr rfl hread⟩
  simp only [List.mem_cons, List.not_mem_nil, or_false] at hi
  obtain (rfl | rfl) | ⟨rfl, rfl | rfl⟩ := hi
  · exact .of_run h ((run_bind_ok hsource).trans (aluOnEa_ok hl hr hw)) trivial
  · exact .of_run h ((run_bind_ok hsource).trans (aluOnEa_ok hl hr hw)) trivial
  · obtain ⟨k, v, cc, hbody⟩ := bcdOnEa_ok bcdAdd _ hl hr hw
    exact ⟨k, v, cc, trivial, eq_of_runInstr ((run_bind_ok hsource).trans hbody) h⟩
  · obtain ⟨k, v, cc, hbody⟩ := bcdOnEa_ok bcdSub _ hl hr hw
    exact ⟨k, v, cc, trivial, eq_of_runInstr ((run_bind_ok hsource).trans hbody) h⟩

end

/-- TAS stores by the second half of its one cycle, and leaves X. -/
theorem tas_storesOperand {ea : Ea} {s p t : State} {sp : Space} {a : Long}
    (hl : s.beginInstr.resolve ea .byte = (.mem sp a, p)) (hrmw : p.canRmw a = true)
    (h : exec (.tas ea) s = .next t) : p.StoresOperand a .byte (fun cc => cc.x = s.sr.ccr.x) t := by
  have hexec := (tasResults ea s p _ (p.byteAt (p.code .data) a) _ hl rfl).2 sp a rfl hrmw rfl
  refine ⟨p.drawCount, _, _, ?_, Host.Outcome.next.inj (h.symm.trans hexec)⟩
  rfl

/-- Settles O58: each instruction resolves its operand, which changes the register of the mode, and then stores there. -/
theorem storeFrame : Obligations.StoreFrame := by
  intro i sz imm b q ea dm dn c s u p t sp a hwf hl hr hw h
  have hbegin : u = s.beginInstr → State.Changes [] (eaChanges ea) (s.span (s.code .data) a (sizeBytes sz)) s p :=
    fun hu => State.Changes.operand (hu ▸ hl) fun _ hn => hn
  have hwords {k : Long} (hu : u = s.beginInstr.advance k) :
      State.Changes [] (eaChanges ea) (s.span (s.code .data) a (sizeBytes sz)) s p :=
    ((State.Changes.beginInstr s).advance k).resolve (hu ▸ hl) fun _ hn => hn
  refine ⟨fun hi => ?arithmetic, fun hi => ?logic, fun hi => ?tas, fun hi => ?bit, fun hi => ?status,
    fun hea hu hread hi => ?extended⟩
  case arithmetic =>
    refine ((arithmetic_storesOperand hl hr hw h hi).frame hwf ?_).1
    obtain ⟨hu, -⟩ | ⟨hu, -⟩ | ⟨hu, -⟩ | ⟨hu, -⟩ := hi
    exacts [hbegin hu, hwords hu, hbegin hu, hbegin hu]
  case logic =>
    rw [← and_assoc]
    refine (logic_storesOperand hl hr hw h hi).frame hwf ?_
    obtain ⟨hu, -⟩ | ⟨hu, -⟩ | ⟨hu, -⟩ := hi
    exacts [hbegin hu, hwords hu, hbegin hu]
  case tas =>
    obtain ⟨rfl, rfl, hrmw, rfl⟩ := hi
    rw [← and_assoc]
    exact (tas_storesOperand hl hrmw h).frame hwf (hbegin rfl)
  case bit =>
    obtain ⟨rfl, hi⟩ := hi
    rw [← and_assoc]
    refine (bit_storesOperand hl hr hw h rfl hi).frame hwf ?_
    obtain ⟨hu, -⟩ | ⟨hu, -⟩ := hi
    exacts [hbegin hu, hwords hu]
  case status =>
    obtain ⟨hframe, hccr⟩ := (status_storesOperand hl hr hw h hi).frame hwf (hbegin hi.1)
    exact ⟨hframe.1, hframe.2, State.sr_of_sameButRegs hframe.1 hccr⟩
  case extended =>
    have hp : State.Changes [] [dm, dn] (s.span (s.code .data) a (sizeBytes sz)) s p := by
      subst hea hu
      exact ((State.Changes.beginInstr s).setA List.mem_cons_self _).resolve hl (by simp [eaChanges])
    exact ((extended_storesOperand hl hr hw h hea hu hread hi).frame hwf hp).1

end Sys2Proof.Machine
end

section
/-! PROOFS. The family of spec 45: the bit instructions (O47). -/

namespace Sys2Proof.Machine

open Sys2Proof

/-! One bit of a value written (R303). -/

@[simp] theorem withBit_false (v : Long) (k : Nat) : withBit v k false = v &&& ~~~((1 : Long) <<< k) := rfl

@[simp] theorem withBit_true (v : Long) (k : Nat) : withBit v k true = v ||| ((1 : Long) <<< k) := rfl

theorem getLsbD_one_shiftLeft {i : Nat} (hi : i < 32) (k : Nat) : ((1 : Long) <<< k).getLsbD i = decide (k = i) := by
  have hplace : (1 : Long) <<< k = BitVec.twoPow 32 k := rfl
  rw [hplace, BitVec.getLsbD_twoPow, ← Bool.decide_and, decide_eq_decide]
  exact and_iff_right_of_imp fun hki => hki ▸ hi

/-- The bit written is the one given, every other bit is as before. -/
theorem getLsbD_withBit {i : Nat} (hi : i < 32) (v : Long) (k : Nat) (b : Bool) :
    (withBit v k b).getLsbD i = if k = i then b else v.getLsbD i := by
  cases b with
  | false =>
    rw [withBit_false, BitVec.getLsbD_and, BitVec.getLsbD_not, getLsbD_one_shiftLeft hi]
    split <;> simp [*]
  | true =>
    rw [withBit_true, BitVec.getLsbD_or, getLsbD_one_shiftLeft hi]
    split <;> simp [*]

/-- Complementing one bit is an exclusive or with its place. -/
theorem withBit_not_getLsbD (v : Long) (k : Nat) : withBit v k (!v.getLsbD k) = v ^^^ ((1 : Long) <<< k) := by
  refine BitVec.eq_of_getLsbD_eq fun i hi => ?_
  rw [getLsbD_withBit hi, BitVec.getLsbD_xor, getLsbD_one_shiftLeft hi]
  split <;> simp [*]

/-! The modulus of the bit number (R300). -/

theorem bitModulus_of_ne_dreg {ea : Ea} (hea : ∀ n, ea ≠ .dreg n) : bitModulus ea = (8, .byte) := by
  cases ea with
  | dreg n => exact absurd rfl (hea n)
  | _ => rfl

theorem exists_bitModulus {ea : Ea} {sz : Size} {b : Byte} {k : Nat}
    (hk : ((∃ n, ea = .dreg n) ∧ sz = .long ∧ k = b.toNat % 32) ∨
      ((∀ n, ea ≠ .dreg n) ∧ sz = .byte ∧ k = b.toNat % 8)) :
    ∃ modulus, bitModulus ea = (modulus, sz) ∧ b.toNat % modulus = k := by
  obtain ⟨⟨n, rfl⟩, rfl, rfl⟩ | ⟨hea, rfl, rfl⟩ := hk
  · exact ⟨32, rfl, rfl⟩
  · exact ⟨8, bitModulus_of_ne_dreg hea, rfl⟩

/-! The common execution, where the operand can be accessed (R303). -/

section
variable {b : Byte} {ea : Ea} {sz : Size} {modulus k : Nat} {s p : State} {loc : Loc}
  (hmodulus : bitModulus ea = (modulus, sz)) (hk : b.toNat % modulus = k)
  (hl : s.resolve ea sz = (loc, p)) (hr : loc.readable sz p = true)
include hmodulus hk hl hr

/-- The operand is read; then the test writes the flags, the others the operand and the flags. -/
theorem bitBody_eq (op : BitOp) :
    bitBody op b ea s =
      (if op = .test then modify (State.setCcr (bitFlags s.sr.ccr ((loc.load sz p).getLsbD k)))
      else wrFlagged loc sz (withBit (loc.load sz p) k (op.apply ((loc.load sz p).getLsbD k)))
        (bitFlags s.sr.ccr ((loc.load sz p).getLsbD k))) p := by
  have hsr : p.sr = s.sr := State.sr_of_resolve hl
  subst hk
  unfold bitBody
  rw [hmodulus]
  dsimp only
  rw [run_bind_ok (resolveEa_run ea sz s), hl, run_bind_ok (rd_ok hr), run_bind_ok (run_get p), hsr]
  cases op <;> rfl

theorem bitBody_test_ok :
    bitBody .test b ea s = .ok () (p.setCcr (bitFlags s.sr.ccr ((loc.load sz p).getLsbD k))) := by
  rw [bitBody_eq hmodulus hk hl hr, if_pos rfl, run_modify]

theorem bitBody_store_ok {op : BitOp} (hop : op ≠ .test) (hw : loc.writable sz p = true) :
    bitBody op b ea s =
      .ok () ((loc.store sz (withBit (loc.load sz p) k (op.apply ((loc.load sz p).getLsbD k))) p).setCcr
        (bitFlags s.sr.ccr ((loc.load sz p).getLsbD k))) := by
  rw [bitBody_eq hmodulus hk hl hr, if_neg hop, wrFlagged_ok hw]

end

/-- Settles O47: the two forms of each instruction run the same body, after the word of the bit number or at once. -/
theorem bitResults : Obligations.BitResults := by
  intro ea s u p loc b dn sz k v test change clear set hi hsize hl hr hv
  obtain ⟨modulus, hmodulus, hk⟩ := exists_bitModulus hsize
  have hccr : u.sr.ccr = s.sr.ccr := by
    obtain ⟨-, -, -, -, rfl⟩ | ⟨-, -, -, -, rfl, -⟩ := hi <;> rfl
  have htest := bitBody_test_ok hmodulus hk hl hr
  have hstore {op : BitOp} (hop : op ≠ .test) := bitBody_store_ok hmodulus hk hl hr hop
  have hchange := hstore (op := .change) (by decide)
  have hclear := hstore (op := .clear) (by decide)
  have hset := hstore (op := .set) (by decide)
  rw [BitOp.apply, withBit_not_getLsbD] at hchange
  rw [BitOp.apply, withBit_false] at hclear
  rw [BitOp.apply, withBit_true] at hset
  rw [hccr, ← hv] at htest hchange hclear hset
  obtain ⟨rfl, rfl, rfl, rfl, rfl⟩ | ⟨rfl, rfl, rfl, rfl, rfl, rfl⟩ := hi <;>
    exact ⟨runInstr_ok htest, fun hw =>
      ⟨runInstr_ok (hchange hw), runInstr_ok (hclear hw), runInstr_ok (hset hw)⟩⟩

end Sys2Proof.Machine
end

section
/-! PROOFS. The family of spec 46: decimal arithmetic (O27), ABCD, SBCD and NBCD on decimal operands (O41). -/

namespace Sys2Proof.Machine

open Sys2Proof

/-! Decimal arithmetic (R311, R313, R314). -/

/-- A number of two decimal digits and its byte stand for each other (R311). -/
theorem decOf_bcdOf {k : Nat} (hk : k < 100) : decOf (bcdOf k) = some k := by
  have hbyte : (bcdOf k).toNat = k / 10 * 16 + k % 10 := by
    rw [bcdOf, BitVec.toNat_ofNat]
    omega
  have hdigits : (bcdOf k).toNat / 16 = k / 10 ∧ (bcdOf k).toNat % 16 = k % 10 := by omega
  obtain ⟨htens, hones⟩ := hdigits
  rw [decOf, htens, hones, if_pos (by omega), Nat.div_add_mod]

theorem decOf_bcdAdd (s d : Nat) (x : Bool) : decOf (bcdAdd s d x).1 = some ((d + s + x.toNat) % 100) :=
  decOf_bcdOf (Nat.mod_lt _ (by decide))

theorem bcdAdd_carry_iff (s d : Nat) (x : Bool) : (bcdAdd s d x).2 = true ↔ 99 < d + s + x.toNat :=
  decide_eq_true_iff

/-- The 200 added before the subtraction, so that it stays a number, do not count modulo 100. -/
theorem decOf_bcdSub {s : Nat} (hs : s < 100) (d : Nat) (x : Bool) :
    decOf (bcdSub s d x).1 = some (((d : Int) - s - x.toNat) % 100).toNat := by
  have hx := x.toNat_le
  have hmod : (((d : Int) - s - x.toNat) % 100).toNat = (d + 200 - s - x.toNat) % 100 := by omega
  rw [hmod]
  exact decOf_bcdOf (Nat.mod_lt _ (by decide))

theorem bcdSub_borrow_iff (s d : Nat) (x : Bool) : (bcdSub s d x).2 = true ↔ (d : Int) - s - x.toNat < 0 := by
  have hborrow : (bcdSub s d x).2 = true ↔ d < s + x.toNat := decide_eq_true_iff
  rw [hborrow]
  omega

/-- Settles O27: the digits of a byte are those of the number, and sum and difference are taken modulo 100. -/
theorem decimalArithmetic : Obligations.DecimalArithmetic := fun s d x hs _ =>
  ⟨decOf_bcdOf hs, decOf_bcdAdd s d x, bcdAdd_carry_iff s d x, decOf_bcdSub hs d x, bcdSub_borrow_iff s d x⟩

/-! A decimal operation on decimal operands (R312). -/

/-- An operand is writable after a change that the bus does not see. -/
theorem Loc.writable_congr {s t : State} (h : s.sameBus t) (loc : Loc) (sz : Size) :
    loc.writable sz t = loc.writable sz s := by
  cases loc with
  | mem sp a => exact State.canAccess_congr h ..
  | _ => rfl

/-- The low byte of a byte extended with zeros. -/
theorem setWidth_setWidth_byte (b : Byte) : (b.setWidth 32).setWidth 8 = b := by
  rw [BitVec.setWidth_setWidth_of_le b (by decide), BitVec.setWidth_eq]

/-- The flags of a decimal operation (R312) whose draws of N and V are those from `k` on (log 10). -/
def bcdFlags (old : Ccr) (k : Nat) (r : Byte) (c : Bool) : Ccr :=
  { x := c, n := Config.freeBit k, z := old.z && decide (r = 0), v := Config.freeBit (k + 1), c := c }

section
variable {f : Nat → Nat → Bool → Byte × Bool} {sd dd : Nat} {r : Byte} {c : Bool} {s : State}
  (hf : (r, c) = f sd dd s.sr.ccr.x)
include hf

/-- Two draws are made, for N and V. -/
theorem bcdResult_decimal {src dst : Long} (hsrc : decOf (src.setWidth 8) = some sd)
    (hdst : decOf (dst.setWidth 8) = some dd) :
    bcdResult f src dst s =
      .ok (r, bcdFlags s.sr.ccr s.drawCount r c) { s with drawCount := s.drawCount + 2 } := by
  have hrun : bcdResult f src dst s =
      .ok ((f sd dd s.sr.ccr.x).1, bcdFlags s.sr.ccr s.drawCount (f sd dd s.sr.ccr.x).1 (f sd dd s.sr.ccr.x).2)
        { s with drawCount := s.drawCount + 2 } := by
    rw [bcdResult, hsrc, hdst]
    rfl
  rw [hrun, ← hf]

/-- The result is stored where the destination operand was read. -/
theorem bcdOnEa_decimal {src : Long} {ea : Ea} {p : State} {loc : Loc} (hl : s.resolve ea .byte = (loc, p))
    (hr : loc.readable .byte p = true) (hw : loc.writable .byte p = true) (hsrc : decOf (src.setWidth 8) = some sd)
    (hdst : decOf ((loc.load .byte p).setWidth 8) = some dd) :
    bcdOnEa f src ea s =
      .ok () ((loc.store .byte (r.setWidth 32) { p with drawCount := p.drawCount + 2 }).setCcr
        (bcdFlags s.sr.ccr p.drawCount r c)) := by
  have hsr : p.sr = s.sr := State.sr_of_resolve hl
  rw [← hsr] at hf ⊢
  have hbus : p.sameBus { p with drawCount := p.drawCount + 2 } := ⟨⟨rfl, rfl, rfl⟩, rfl⟩
  rw [bcdOnEa, run_bind_ok (resolveEa_run ea .byte s), hl, run_bind_ok (rd_ok hr)]
  exact (run_bind_ok (bcdResult_decimal hf hsrc hdst)).trans
    (wrFlagged_ok ((Loc.writable_congr hbus loc .byte).trans hw))

/-- `Dy, Dx`. -/
theorem runInstr_bcdBody_reg {ry rx : Reg} (hsrc : decOf ((s.dreg ry).setWidth 8) = some sd)
    (hdst : decOf ((s.dreg rx).setWidth 8) = some dd) :
    runInstr (bcdBody f false ry rx) s =
      .next ((State.setD .byte rx (r.setWidth 32) { s.beginInstr with drawCount := s.drawCount + 2 }).setCcr
        (bcdFlags s.sr.ccr s.drawCount r c)) := by
  rw [← setWidth_setWidth_byte ((s.dreg ry).setWidth 8)] at hsrc
  rw [← setWidth_setWidth_byte ((s.dreg rx).setWidth 8)] at hdst
  have hsource : readEa (.dreg ry) .byte s.beginInstr = .ok (trunc .byte (s.dreg ry)) s.beginInstr :=
    readEa_at (p := s.beginInstr) (loc := .dreg ry) rfl rfl
  have hdest := bcdOnEa_decimal (s := s.beginInstr) (ea := .dreg rx) (loc := .dreg rx) hf rfl rfl rfl hsrc hdst
  exact runInstr_ok ((run_bind_ok hsource).trans hdest)

/-- `Ay@-, Ax@-`: both operands are in the memory of the start of the instruction; the address of the second is that
after the first decrement (R313). -/
theorem runInstr_bcdBody_mem {ry rx : Reg} {q : State} {ay ax : Long} (hay : ay = s.areg ry - eaStep .byte ry)
    (hq : q = s.beginInstr.setA ry ay) (hax : ax = q.areg rx - eaStep .byte rx)
    (hry : s.canAccess .data .read ay .byte = true) (hrx : s.canAccess .data .read ax .byte = true)
    (hwx : s.canAccess .data .write ax .byte = true) (hsrc : decOf (s.byteAt (s.code .data) ay) = some sd)
    (hdst : decOf (s.byteAt (s.code .data) ax) = some dd) :
    runInstr (bcdBody f true ry rx) s =
      .next ((State.storeMem ax .byte (r.setWidth 32) { q.setA rx ax with drawCount := s.drawCount + 2 }).setCcr
        (bcdFlags s.sr.ccr s.drawCount r c)) := by
  subst hq
  have hstart := s.sameOperands_beginInstr
  have hlast := State.sameOperands_setA (State.sameOperands_setA hstart ry ay) rx ax
  have hload (a : Long) : (s.loadMem (s.code .data) a .byte).setWidth 8 = s.byteAt (s.code .data) a :=
    setWidth_setWidth_byte _
  rw [← hload] at hsrc hdst
  rw [← State.loadMem_of_sameOperands hlast] at hdst
  have hsource := readEa_preDec_ok (n := ry) hstart hay hry
  have hl : (s.beginInstr.setA ry ay).resolve (.preDec rx) .byte =
      (.mem .data ax, (s.beginInstr.setA ry ay).setA rx ax) := by
    rw [hax]
    rfl
  have hdest := bcdOnEa_decimal (s := s.beginInstr.setA ry ay) hf hl
    ((State.canAccess_of_sameOperands hlast ..).trans hrx) ((State.canAccess_of_sameOperands hlast ..).trans hwx)
    hsrc hdst
  exact runInstr_ok ((run_bind_ok hsource).trans hdest)

end

/-- Settles O41: the forms run one body with two operations, NBCD that of its destination with the source 0. -/
theorem decimalResults : Obligations.DecimalResults := by
  refine ⟨fun ry rx s p sd dd hsrc hdst hp => ?reg,
    fun ry rx s q p ay ax sd dd hay hq hax hp hry hrx hwx hsrc hdst => ?mem,
    fun ea s p loc dd hl hr hw hdst => ?nbcd⟩
  case reg =>
    subst hp
    refine ⟨Config.freeBit s.drawCount, Config.freeBit (s.drawCount + 1), fun r c => ?_⟩
    exact ⟨fun hrc => runInstr_bcdBody_reg hrc hsrc hdst, fun hrc => runInstr_bcdBody_reg hrc hsrc hdst⟩
  case mem =>
    subst hp
    refine ⟨Config.freeBit s.drawCount, Config.freeBit (s.drawCount + 1), fun r c => ?_⟩
    exact ⟨fun hrc => runInstr_bcdBody_mem hrc hay hq hax hry hrx hwx hsrc hdst,
      fun hrc => runInstr_bcdBody_mem hrc hay hq hax hry hrx hwx hsrc hdst⟩
  case nbcd =>
    refine ⟨Config.freeBit p.drawCount, Config.freeBit (p.drawCount + 1), fun r c hrc => ?_⟩
    have hzero : decOf ((0 : Long).setWidth 8) = some 0 := rfl
    exact runInstr_ok (bcdOnEa_decimal (s := s.beginInstr) (f := fun _ d x => bcdSub d 0 x) hrc hl hr hw hzero hdst)

end Sys2Proof.Machine
end

section
/-! PROOFS. The family of spec 47: the conditions after a compare (O25), BSR and JSR (O51), RTS, RTR and RTE cut short
(O52), BRA, Bcc, DBcc, JMP and NOP (O50). -/

namespace Sys2Proof.Machine

open Sys2Proof

/-! The conditions (R320) that speak of N and V together. -/

section
variable (cc : Ccr)

theorem condHolds_lt_iff : condHolds cc .lt = true ↔ cc.n ≠ cc.v := by
  cases hn : cc.n <;> cases hv : cc.v <;> simp [condHolds, hn, hv]

theorem condHolds_ge_iff : condHolds cc .ge = true ↔ cc.n = cc.v := by
  cases hn : cc.n <;> cases hv : cc.v <;> simp [condHolds, hn, hv]

theorem condHolds_le_iff : condHolds cc .le = true ↔ cc.z = true ∨ cc.n ≠ cc.v := by
  rw [← condHolds_lt_iff, ← Bool.or_eq_true]
  rfl

theorem condHolds_gt_iff : condHolds cc .gt = true ↔ ¬ cc.z = true ∧ cc.n = cc.v := by
  rw [← condHolds_ge_iff, Bool.not_eq_true, ← Bool.not_eq_true', ← Bool.and_eq_true]
  rfl

end

/-! The flags of a compare (R218) as comparisons. -/

section
variable {sz : Size} {s d : Long} (hs : trunc sz s = s) (hd : trunc sz d = d) (old : Ccr)
include hs hd

theorem cmpFlags_c_iff : (cmpFlags sz old s d).c = true ↔ d.toNat < s.toNat := by
  have hborrow := subBorrow_eq hs hd false
  rw [sub_bitLong_false] at hborrow
  show subBorrow sz s d (trunc sz (d - s)) = true ↔ _
  rw [hborrow, decide_eq_true_eq, Bool.toNat_false, Nat.add_zero]

theorem cmpFlags_z_iff : (cmpFlags sz old s d).z = true ↔ d = s := by
  have hnumbers := toNat_difference_cases hs hd false rfl
  rw [sub_bitLong_false, Bool.toNat_false] at hnumbers
  show decide (trunc sz (d - s) = 0#32) = true ↔ _
  rw [decide_eq_true_eq, ← BitVec.toNat_inj, ← BitVec.toNat_inj, BitVec.toNat_zero]
  omega

/-- N is the sign of the difference cut to the size, and V says that the difference itself has the other sign. -/
theorem cmpFlags_n_ne_v_iff :
    (cmpFlags sz old s d).n ≠ (cmpFlags sz old s d).v ↔ (signExtend sz d).toInt < (signExtend sz s).toInt := by
  have hnumbers := toNat_difference_cases hs hd false rfl
  rw [sub_bitLong_false, Bool.toNat_false] at hnumbers
  have hn : (cmpFlags sz old s d).n = true ↔ signWeight sz ≤ (trunc sz (d - s)).toNat := by
    show msbOf sz (trunc sz (d - s)) = true ↔ _
    rw [msbOf_eq_decide (trunc_trunc ..), decide_eq_true_eq]
  have hoverflow := subOverflow_iff hs hd false
  rw [sub_bitLong_false, cast_signWeight] at hoverflow
  have hv : (cmpFlags sz old s d).v = true ↔ _ := hoverflow
  rw [Ne, Bool.eq_iff_iff, hn, hv, toInt_signExtend hs, toInt_signExtend hd]
  simp only [Bool.toNat_false]
  omega

/-- Operands of a size are the same if their signed values are. -/
theorem toInt_signExtend_inj : (signExtend sz d).toInt = (signExtend sz s).toInt ↔ d = s := by
  have hs' := toNat_lt_of_trunc hs
  have hd' := toNat_lt_of_trunc hd
  rw [toInt_signExtend hs, toInt_signExtend hd, ← BitVec.toNat_inj]
  omega

end

/-- Settles O25: C is the unsigned comparison, Z equality, and N differs from V for the signed comparison; each
condition is made of these. -/
theorem conditionsAfterCompare : Obligations.ConditionsAfterCompare := by
  intro sz old s d hs hd cc ss sd
  have hc : cc.c = true ↔ d.toNat < s.toNat := cmpFlags_c_iff hs hd old
  have hz : cc.z = true ↔ d = s := cmpFlags_z_iff hs hd old
  have hlt : cc.n ≠ cc.v ↔ sd < ss := cmpFlags_n_ne_v_iff hs hd old
  have hge : cc.n = cc.v ↔ ss ≤ sd := by rw [← not_lt, ← hlt, not_not]
  have hunsigned : d = s ↔ d.toNat = s.toNat := BitVec.toNat_inj.symm
  have hsigned : d = s ↔ sd = ss := (toInt_signExtend_inj hs hd).symm
  refine ⟨?hi, ?ls, ?cc, hc, ?gt, ?le, (condHolds_ge_iff cc).trans hge, (condHolds_lt_iff cc).trans hlt, hz, ?ne,
    rfl⟩
  case hi =>
    simp only [condHolds, Bool.and_eq_true, Bool.not_eq_true', ← Bool.not_eq_true, hc, hz, hunsigned]
    omega
  case ls =>
    simp only [condHolds, Bool.or_eq_true, hc, hz, hunsigned]
    omega
  case cc =>
    simp only [condHolds, Bool.not_eq_true', ← Bool.not_eq_true, hc]
    omega
  case gt =>
    rw [condHolds_gt_iff, hz, hge, hsigned]
    omega
  case le =>
    rw [condHolds_le_iff, hz, hlt, hsigned]
    omega
  case ne =>
    simp only [condHolds, Bool.not_eq_true', ← Bool.not_eq_true, hz, ne_eq]

/-! BSR and JSR (R325, R329). -/

section
variable {p : State} (ret : Long) {target : Long}

/-- To an even target the return address is pushed. -/
theorem callBody_even (heven : target.getLsbD 0 = false) (hw : p.canAccess .data .write (p.sp - 4) .long = true) :
    callBody ret target p = .ok () (((p.storeMem (p.sp - 4) .long ret).setSp (p.sp - 4)).jump target) := by
  rw [callBody, heven, if_neg Bool.false_ne_true]
  exact run_bind_ok (push32_ok hw)

/-- To an odd target it is pushed or not (U15). -/
theorem callBody_odd {q : State} (hodd : target.getLsbD 0 = true)
    (hw : p.canAccess .data .write (p.sp - 4) .long = true) (hq : q = { p with drawCount := p.drawCount + 1 }) :
    callBody ret target p = .ok () (q.jump target) ∨
      callBody ret target p = .ok () (((q.storeMem (p.sp - 4) .long ret).setSp (p.sp - 4)).jump target) := by
  have hdraw : drawBit p = .ok (Config.freeBit p.drawCount) q := by rw [hq]; rfl
  have hsp : q.sp = p.sp := by rw [hq]; rfl
  have hbus : p.sameBus q := by rw [hq]; exact ⟨⟨rfl, rfl, rfl⟩, rfl⟩
  have hpush : push32 ret q = .ok () ((q.storeMem (p.sp - 4) .long ret).setSp (p.sp - 4)) := by
    rw [push32_ok (by rw [hsp, State.canAccess_congr hbus, hw]), hsp]
  rw [callBody, if_pos hodd, run_bind_ok hdraw]
  cases Config.freeBit p.drawCount with
  | false => exact .inl rfl
  | true => exact .inr (run_bind_ok hpush)

end

/-- The address of the instruction after a branch. -/
theorem pc_add_branchBytes (d : BranchDisp) (s : State) :
    s.pc + 2 + branchBytes d = match d with | .short _ => s.pc + 2 | .long _ => s.pc + 4 := by
  cases d with
  | short _ => exact BitVec.add_zero _
  | long _ => exact BitVec.add_assoc s.pc 2 2

/-- The target of a branch: the base is the address of the operation word plus two (R323). -/
theorem pc_add_branchOffset (d : BranchDisp) (s : State) :
    s.pc + 2 + branchOffset d =
      match d with | .short b => s.pc + 2 + b.signExtend 32 | .long w => s.pc + 2 + w.signExtend 32 := by
  cases d <;> rfl

/-- BSR that goes through is its call. -/
theorem exec_bsr {d : BranchDisp} {s t : State} {ret target : Long} (hret : ret = s.pc + 2 + branchBytes d)
    (htarget : target = s.pc + 2 + branchOffset d) (hcall : callBody ret target s.beginInstr = .ok () t) :
    exec (.bsr d) s = .next t := by
  subst hret htarget
  rw [exec, execBsr]
  exact runInstr_ok ((run_bind_ok (run_get _)).trans hcall)

/-- JSR that goes through is its call, after its target is computed. -/
theorem exec_jsr {ea : Ea} {s p t : State} {loc : Loc} (hl : s.beginInstr.resolve ea .long = (loc, p))
    (hcall : callBody p.pc loc.address p = .ok () t) : exec (.jsr ea) s = .next t := by
  rw [exec, execJsr]
  exact runInstr_ok ((run_bind_ok (eaAddress_ok hl)).trans ((run_bind_ok (run_get p)).trans hcall))

/-- Settles O51: both are one call, which for BSR starts where the operation word has been passed and for JSR where the
operand has been resolved. -/
theorem callResults : Obligations.CallResults := by
  refine ⟨fun d s ret target hret htarget heven hw => ?bsrEven, fun ea s p loc hl heven hw => ?jsrEven,
    fun d s p ret target hret htarget hodd hw hp => ?bsrOdd, fun ea s p q loc hl hodd hw hq => ?jsrOdd⟩
  case bsrEven =>
    have hcall := callBody_even ret heven ((State.canAccess_congr s.sameBus_beginInstr ..).trans hw)
    exact exec_bsr (hret.trans (pc_add_branchBytes d s).symm) (htarget.trans (pc_add_branchOffset d s).symm) hcall
  case jsrEven => exact exec_jsr hl (callBody_even _ heven hw)
  case bsrOdd =>
    have hret := hret.trans (pc_add_branchBytes d s).symm
    have htarget := htarget.trans (pc_add_branchOffset d s).symm
    have hcall := callBody_odd ret hodd ((State.canAccess_congr s.sameBus_beginInstr ..).trans hw) hp
    exact hcall.imp (exec_bsr hret htarget) (exec_bsr hret htarget)
  case jsrOdd => exact (callBody_odd _ hodd hw hq).imp (exec_jsr hl) (exec_jsr hl)

/-! RTS, RTR and RTE (R331, R330, R343). -/

/-- Of two writes of A7 the second stays. -/
theorem State.setSp_setSp (s : State) (v w : Long) : (s.setSp v).setSp w = s.setSp w := by
  cases h : s.sr.s <;> simp [State.setSp, h]

/-- RTS pops PC. -/
theorem exec_rts {s : State} (hr : s.canAccess .data .read s.sp .long = true) :
    exec .rts s = .next ((s.beginInstr.setSp (s.sp + 4)).jump (s.longAt (s.code .data) s.sp)) := by
  have hpop := pop32_ok ((State.canAccess_congr s.sameBus_beginInstr ..).trans hr)
  rw [exec, execRts]
  exact runInstr_ok (run_bind_ok hpop)

/-- RTR pops the flags, then PC. -/
theorem exec_rtr {s : State} (hword : s.canAccess .data .read s.sp .word = true)
    (hlong : s.canAccess .data .read (s.sp + 2) .long = true) :
    exec .rtr s =
      .next (((s.beginInstr.setSp (s.sp + 6)).setCcr (Ccr.ofWord (s.wordAt (s.code .data) s.sp))).jump
        (s.longAt (s.code .data) (s.sp + 2))) := by
  have hsp : (s.beginInstr.setSp (s.sp + 2)).sp = s.sp + 2 := State.setSp_sp _ _
  have hbus : s.sameBus (s.beginInstr.setSp (s.sp + 2)) := ⟨⟨rfl, rfl, rfl⟩, rfl⟩
  have hpop16 := pop16_ok ((State.canAccess_congr s.sameBus_beginInstr ..).trans hword)
  have hpop32 := pop32_ok (s := s.beginInstr.setSp (s.sp + 2)) (by rw [hsp, State.canAccess_congr hbus, hlong])
  have hsix : s.sp + 2 + 4 = s.sp + 6 := BitVec.add_assoc s.sp 2 4
  rw [State.setSp_setSp, hsp, hsix] at hpop32
  rw [exec, execRtr]
  exact runInstr_ok ((run_bind_ok hpop16).trans (run_bind_ok hpop32))

/-- A sequence cut short is cut short in its first part or in the rest. -/
theorem run_bind_error_cases {α β : Type} {m : Exec α} {f : α → Exec β} {s t : State} {e : Abort}
    (h : (m >>= f) s = .error e t) : m s = .error e t ∨ ∃ a u, m s = .ok a u ∧ f a u = .error e t := by
  cases hm : m s with
  | ok a u => exact .inr ⟨a, u, rfl, (run_bind_ok hm).symm.trans h⟩
  | error x u =>
    have hsame := (run_bind_error (f := f) hm).symm.trans h
    cases hsame
    exact .inl rfl

/-- A read whose abort leaves SSP open keeps the status register. -/
theorem readFrame_sr (sp : Space) (a b : Long) (sz : Size) (r : StatusRegister) :
    Keeps (fun t => t.sr = r) (onAbort (readMem sp a sz) (State.maybe fun s => { s with ssp := b })) := by
  refine keeps_onAbort ((accesses_readMem sp a sz).keeps_sr r) fun t ht => (State.maybe_sr _ ?_ t).trans ht
  exact fun _ => rfl

/-- A return from exception cut short has not written the status register: what writes it cannot be cut short (R502). -/
theorem returnFromException_error_sr {s t : State} {e : Abort} (h : returnFromException s = .error e t) :
    t.sr = s.sr := by
  rw [returnFromException, run_bind_ok (run_get s)] at h
  obtain hword | ⟨w, u, hword, h⟩ := run_bind_error_cases h
  · exact (readFrame_sr _ _ _ _ s.sr s rfl).2 e t hword
  · have hu := (readFrame_sr _ _ _ _ s.sr s rfl).1 w u hword
    obtain hlong | ⟨target, v, -, hlast⟩ := run_bind_error_cases h
    · exact (readFrame_sr _ _ _ _ s.sr u hu).2 e t hlong
    · cases hlast

/-- Settles O52: RTS and RTR by their pops; RTE cut short has not come to its last part, which writes SR. -/
theorem returnResults : Obligations.ReturnResults := by
  refine ⟨fun s hr => exec_rts hr, fun s w hword hlong hw => ?rtr, fun s t e hs h => ⟨?outcome, ?sr⟩⟩
  case rtr => rw [exec_rtr hword hlong, ← hw]; rfl
  case outcome => rw [exec, execRte, runPrivileged_supervisor hs, h, finish_error]
  case sr => exact returnFromException_error_sr (s := s.beginInstr) h

/-! BRA, Bcc, DBcc, JMP and NOP (R323, R324, R326, R328, R332). -/

theorem exec_bra (d : BranchDisp) (s : State) :
    exec (.bra d) s = .next (s.beginInstr.jump (s.pc + 2 + branchOffset d)) := by
  rw [exec, execBra, runInstr_modify]
  rfl

section
variable {s : State} {c : Cond} (n : Reg) (w : Word)

theorem exec_bcc_taken (hc : condHolds s.sr.ccr c = true) (d : BranchDisp) :
    exec (.bcc c d) s = .next (s.beginInstr.jump (s.pc + 2 + branchOffset d)) := by
  rw [exec, execBcc, runInstr_modify]
  exact congrArg Host.Outcome.next (if_pos hc)

theorem exec_bcc_passed (hc : condHolds s.sr.ccr c = false) (d : BranchDisp) :
    exec (.bcc c d) s = .next (s.beginInstr.advance (branchBytes d)) := by
  rw [exec, execBcc, runInstr_modify]
  exact congrArg Host.Outcome.next (if_neg (ne_true_of_eq_false hc))

theorem exec_dbcc_passed (hc : condHolds s.sr.ccr c = true) :
    exec (.dbcc c n w) s = .next (s.beginInstr.advance 2) := by
  rw [exec, execDbcc, runInstr_modify]
  exact congrArg Host.Outcome.next (if_pos hc)

/-- DBcc where the condition fails counts, and branches unless the counter has become -1. -/
theorem exec_dbcc_counted (hc : condHolds s.sr.ccr c = false) {k : Word} (hk : k = lowWord (s.dreg n) - 1) :
    exec (.dbcc c n w) s =
      .next (if k = 0xFFFF then (s.beginInstr.setD .word n (k.setWidth 32)).advance 2
        else (s.beginInstr.setD .word n (k.setWidth 32)).jump (s.pc + 2 + sextWord w)) := by
  subst hk
  rw [exec, execDbcc, runInstr_modify]
  exact congrArg Host.Outcome.next (if_neg (ne_true_of_eq_false hc))

end

/-- No words of its own to pass. -/
theorem State.advance_zero (s : State) : s.advance 0 = s := by simp [State.advance]

/-- JMP goes to the address of its operand. -/
theorem exec_jmp (ea : Ea) (s : State) :
    exec (.jmp ea) s =
      .next ((s.beginInstr.resolve ea .long).2.jump (s.beginInstr.resolve ea .long).1.address) := by
  rw [exec, execJmp]
  exact runInstr_ok (run_bind_ok (eaAddress_ok rfl))

/-- Settles O50: each is one change of the state, by whether the condition holds and, for DBcc, whether the counter was
zero. -/
theorem branchResults : Obligations.BranchResults := by
  intro s c dn d d8 ea count
  refine ⟨exec_bra _ s, exec_bra _ s, fun hc => ?holds,
    fun hc => ⟨?short, exec_bcc_passed hc _, fun hcount => ?counted⟩, exec_jmp ea s, runInstr_ok rfl⟩
  case holds => exact ⟨exec_bcc_taken hc _, exec_bcc_taken hc _, exec_dbcc_passed dn d hc⟩
  case short => exact (exec_bcc_passed hc _).trans (congrArg Host.Outcome.next s.beginInstr.advance_zero)
  case counted =>
    have hcounted := exec_dbcc_counted dn d hc (k := count - 1) (congrArg (· - 1) hcount)
    refine ⟨fun hzero => ?zero, fun hne => ?nonzero⟩
    case zero =>
      subst hzero
      exact hcounted
    case nonzero =>
      have hk : count - 1 ≠ 0xFFFF := by bv_omega
      rw [hcounted, if_neg hk]
      rfl

end Sys2Proof.Machine
end

section
/-! PROOFS. The family of spec 48: TRAP and TRAPV (O16), CHK (O17), the moves and immediate forms on CCR and MOVE from SR
(O53), the privileged instructions in supervisor state (O54), and the frame of the instructions on one register (O57). -/

namespace Sys2Proof.Machine

open Sys2Proof

/-! Exceptions that an instruction takes on purpose (R356 to R358). -/

/-- An exception of group 2 that goes through keeps the mask and the pending trace (R441), whatever was done to the flags
and the draws since its conditions were checked. -/
theorem takeException_group2_at (p : State) {s : State} {k : ExcKind} {n : Nat} {pc : Long}
    (hr : p.exceptionReady n = true) (hk : k.group = .group2) (hv : s.vectorOf k = some n) (hp : p.samePlatform s)
    (hssp : s.ssp = p.ssp) : takeException k pc s = .ok () (s.afterException n s.sr.mask pc s.traceAtStart) := by
  have hmask : k.mask s.sr.mask = s.sr.mask := by
    cases k with
    | interrupt level => cases hk
    | _ => rfl
  rw [takeException_at p hr hv hp hssp, hmask, hk, decide_eq_true rfl, Bool.and_true]

/-- The same at the start of an instruction. -/
theorem takeException_beginInstr {s : State} {k : ExcKind} {n : Nat} (hr : s.exceptionReady n = true)
    (hk : k.group = .group2) (hv : s.vectorOf k = some n) :
    takeException k (s.pc + 2) s.beginInstr =
      .ok () (s.beginInstr.afterException n s.sr.mask (s.pc + 2) s.traceAtStart) := by
  have hv' : s.beginInstr.vectorOf k = some n := by cases k <;> exact hv
  exact takeException_group2_at s hr hk hv' ⟨rfl, rfl, rfl⟩ rfl

/-- Settles O16: each exception starts where the operation word has been passed. -/
theorem trapResults : Obligations.TrapResults := by
  refine fun v s => ⟨fun hr => ?trap, fun hv hr => ?taken, fun hv => ?passed⟩
  case trap =>
    rw [exec, execTrap]
    exact runInstr_ok ((run_bind_ok (run_get _)).trans (takeException_beginInstr hr rfl rfl))
  case taken =>
    rw [exec, execTrapv]
    exact runInstr_ok ((run_bind_ok (run_get _)).trans
      ((run_ite ..).trans ((if_pos hv).trans (takeException_beginInstr hr rfl rfl))))
  case passed =>
    rw [exec, execTrapv]
    exact runInstr_ok ((run_bind_ok (run_get _)).trans ((run_ite ..).trans (if_neg (ne_true_of_eq_false hv))))

/-! CHK (R358). -/

/-- A free bit is the next one, and is not drawn again. -/
theorem drawBit_run (s : State) : drawBit s = .ok (Config.freeBit s.drawCount) { s with drawCount := s.drawCount + 1 } := rfl

section
variable {ea : Ea} {dn : Reg} {s p : State} {loc : Loc} {bound v : Word}
  (hl : s.beginInstr.resolve ea .word = (loc, p)) (hr : loc.readable .word p = true)
  (hbound : bound = lowWord (loc.load .word p)) (hv : v = lowWord (p.dreg dn))
include hl hr hbound hv

/-- Within bounds four flags are drawn, N the last. -/
theorem exec_chk_within (hlow : 0 ≤ v.toInt) (hhigh : v.toInt ≤ bound.toInt) :
    exec (.chk ea dn) s =
      .next (State.setCcr { x := s.sr.ccr.x, n := Config.freeBit (p.drawCount + 3), z := Config.freeBit p.drawCount,
                            v := Config.freeBit (p.drawCount + 1), c := Config.freeBit (p.drawCount + 2) }
        { p with drawCount := p.drawCount + 4 }) := by
  have hsr : p.sr = s.sr := State.sr_of_resolve (s := s.beginInstr) hl
  subst hbound hv
  rw [exec, execChk, ← hsr]
  refine runInstr_ok ?_
  rw [run_bind_ok (readEa_at hl hr), run_bind_ok (run_get p), run_bind_ok (drawBit_run _), run_bind_ok (drawBit_run _),
    run_bind_ok (drawBit_run _), run_ite, if_neg (not_lt.mpr hlow), run_ite, if_neg (not_lt.mpr hhigh)]
  rfl

/-- Out of bounds three flags are drawn, N says on which side, and then the exception is processed. -/
theorem exec_chk_outside (hout : v.toInt < 0 ∨ bound.toInt < v.toInt) (hready : p.exceptionReady 6 = true) :
    exec (.chk ea dn) s =
      .next ((State.setCcr { x := s.sr.ccr.x, n := decide (v.toInt < 0), z := Config.freeBit p.drawCount,
                             v := Config.freeBit (p.drawCount + 1), c := Config.freeBit (p.drawCount + 2) }
        { p with drawCount := p.drawCount + 3 }).afterException 6 s.sr.mask p.pc s.traceAtStart) := by
  have hsr : p.sr = s.sr := State.sr_of_resolve (s := s.beginInstr) hl
  have htrace : p.traceAtStart = s.traceAtStart := by
    have hresolve := State.resolve_traceAtStart s.beginInstr ea .word
    rwa [hl] at hresolve
  have htaken (cc : Ccr) := takeException_group2_at p (s := State.setCcr cc { p with drawCount := p.drawCount + 3 })
    (k := .chk) (pc := p.pc) hready rfl rfl ⟨rfl, rfl, rfl⟩ rfl
  subst hbound hv
  rw [exec, execChk, ← hsr, ← htrace]
  refine runInstr_ok ?_
  rw [run_bind_ok (readEa_at hl hr), run_bind_ok (run_get p), run_bind_ok (drawBit_run _), run_bind_ok (drawBit_run _),
    run_bind_ok (drawBit_run _), run_ite]
  by_cases hneg : (lowWord (p.dreg dn)).toInt < 0
  · rw [if_pos hneg, decide_eq_true hneg]
    exact (run_bind_ok (run_modify _ _)).trans (htaken _)
  · rw [if_neg hneg, decide_eq_false hneg, run_ite, if_pos (hout.resolve_left hneg)]
    exact (run_bind_ok (run_modify _ _)).trans (htaken _)

end

/-- Settles O17: the flags that are free are those drawn. -/
theorem chkResults : Obligations.ChkResults := fun _ _ _ _ _ _ _ hl hr hbound hv =>
  ⟨fun hlow hhigh => ⟨_, _, _, _, exec_chk_within hl hr hbound hv hlow hhigh⟩,
    fun hout hready => ⟨_, _, _, exec_chk_outside hl hr hbound hv hout hready⟩⟩

/-! The condition codes as a byte (R350, R352, R354). -/

/-- Reading the user byte back gives the flags. -/
theorem Ccr.ofWord_ofNat_toNat (cc : Ccr) : Ccr.ofWord (BitVec.ofNat 16 cc.toNat) = cc := by
  have hlt := cc.toNat_lt
  exact Ccr.ofWord_of_mod (by rw [BitVec.toNat_ofNat]; omega)

/-- An operation on words that goes bit by bit combines each flag with its bit of the byte. -/
theorem Ccr.ofWord_bitwise {op : Word → Word → Word} {f : Bool → Bool → Bool}
    (hop : ∀ a b i, (op a b).getLsbD i = f (a.getLsbD i) (b.getLsbD i)) (cc : Ccr) (b : Byte) :
    Ccr.ofWord (op (BitVec.ofNat 16 cc.toNat) (b.setWidth 16)) =
      { x := f cc.x (b.getLsbD 4), n := f cc.n (b.getLsbD 3), z := f cc.z (b.getLsbD 2), v := f cc.v (b.getLsbD 1),
        c := f cc.c (b.getLsbD 0) } := by
  obtain ⟨hx, hn, hz, hv, hc⟩ := Ccr.mk.inj cc.ofWord_ofNat_toNat
  simp only [Ccr.ofWord, hop, hx, hn, hz, hv, hc, BitVec.getLsbD_setWidth, Nat.reduceLT, decide_true, Bool.true_and]

/-- The immediate word is passed, then the flags are written. -/
theorem runInstr_ccrLogic {op : Word → Word → Word} {f : Bool → Bool → Bool}
    (hop : ∀ a b i, (op a b).getLsbD i = f (a.getLsbD i) (b.getLsbD i)) (b : Byte) (s : State) :
    runInstr (ccrLogic op b) s =
      .next ((s.beginInstr.advance 2).setCcr
        { x := f s.sr.ccr.x (b.getLsbD 4), n := f s.sr.ccr.n (b.getLsbD 3), z := f s.sr.ccr.z (b.getLsbD 2),
          v := f s.sr.ccr.v (b.getLsbD 1), c := f s.sr.ccr.c (b.getLsbD 0) }) := by
  rw [ccrLogic, runInstr_modify, ← Ccr.ofWord_bitwise hop]
  rfl

/-- MOVE from SR reads its operand, then stores SR there (R345). -/
theorem exec_moveFromSr {ea : Ea} {s p : State} {loc : Loc} (hl : s.beginInstr.resolve ea .word = (loc, p))
    (hr : loc.readable .word p = true) (hw : loc.writable .word p = true) :
    exec (.moveFromSr ea) s = .next (loc.store .word (s.sr.toWord.setWidth 32) p) := by
  have hsr : p.sr = s.sr := State.sr_of_resolve (s := s.beginInstr) hl
  rw [exec, execMoveFromSr, ← hsr]
  refine runInstr_ok ?_
  rw [run_bind_ok (resolveEa_run ..), hl, run_bind_ok (rd_ok hr), run_bind_ok (run_get p), wr_ok hw]

/-- Settles O53: the immediate forms are one, for the three operations that go bit by bit. -/
theorem conditionCodeMoves : Obligations.ConditionCodeMoves := by
  refine ⟨fun ea s p loc hl hr hw => exec_moveFromSr hl hr hw,
    fun ea s p loc hl hr => runInstr_readEa hl hr fun v => State.setCcr (Ccr.ofWord (lowWord v)),
    fun b s p f i hi hp => ?immediate⟩
  subst hp
  obtain ⟨rfl, rfl⟩ | ⟨rfl, rfl⟩ | ⟨rfl, rfl⟩ := hi
  · exact runInstr_ccrLogic (fun _ _ _ => BitVec.getLsbD_and) b s
  · exact runInstr_ccrLogic (fun _ _ _ => BitVec.getLsbD_or) b s
  · exact runInstr_ccrLogic (fun _ _ _ => BitVec.getLsbD_xor) b s

/-! The privileged instructions in supervisor state. -/

section
variable {s : State} (hs : s.sr.s = true)
include hs

/-- A privileged instruction that only changes the state. -/
theorem runPrivileged_modify (g : State → State) : runPrivileged (modify g) s = .next (g s.beginInstr) :=
  runPrivileged_ok hs rfl

/-- MOVE to SR reads its operand, then writes SR (R346). -/
theorem exec_moveToSr {ea : Ea} {p : State} {loc : Loc} (hl : s.beginInstr.resolve ea .word = (loc, p))
    (hr : loc.readable .word p = true) :
    exec (.moveToSr ea) s = .next (p.setSr (StatusRegister.ofWord (lowWord (loc.load .word p)))) := by
  rw [exec, execMoveToSr]
  exact runPrivileged_ok hs (flagsOldOrNew_ok (run_bind_ok (readEa_at hl hr)))

/-- A return from exception reads the frame at SSP, SR below PC (R343). -/
theorem returnFromException_ok (hword : s.canAccess .data .read s.ssp .word = true)
    (hlong : s.canAccess .data .read (s.ssp + 2) .long = true) :
    returnFromException s =
      .ok () { s.jump (s.longAt .supervisorData (s.ssp + 2)) with
               ssp := s.ssp + 6, sr := StatusRegister.ofWord (s.wordAt .supervisorData s.ssp) } := by
  have hcode : s.code .data = .supervisorData := by rw [State.code, if_pos hs]
  have hw : lowWord (s.loadMem .supervisorData s.ssp .word) = s.wordAt .supervisorData s.ssp := by
    simp [State.loadMem, lowWord]
  rw [returnFromException, run_bind_ok (run_get s), run_bind_ok (onAbort_ok (readMem_ok hword)),
    run_bind_ok (onAbort_ok (readMem_ok hlong)), run_modify, hcode, hw]
  rfl

end

/-- Settles O54: all but MOVE to SR and RTE are one change of the state. -/
theorem supervisorResults : Obligations.SupervisorResults := by
  intro s hs
  refine ⟨fun ea p loc hl hr => exec_moveToSr hs hl hr, fun w => ⟨?andi, ?ori, ?eori, ?stop⟩,
    fun an => ⟨?toUsp, ?fromUsp⟩, ?reset, fun hword hlong => ?rte⟩
  case rte =>
    have hbegin := s.sameBus_beginInstr
    exact runPrivileged_ok hs (returnFromException_ok hs ((State.canAccess_congr hbegin ..).trans hword)
      ((State.canAccess_congr hbegin ..).trans hlong))
  all_goals exact runPrivileged_modify hs _

/-! Instructions on one register (O57). -/

/-- An instruction goes through; of registers and memory it changes one data register alone, and it writes flags of a
kind. -/
def State.SetsRegister (s : State) (n : Reg) (flags : Ccr → Prop) (i : Instr) : Prop :=
  ∃ t, exec i s = .next t ∧ State.Changes [n] [] (fun _ => False) s t ∧ flags t.sr.ccr

namespace State.SetsRegister

variable {s p t : State} {n : Reg} {flags : Ccr → Prop} {i : Instr} {sz : Size} {v : Long} {cc : Ccr}

theorem of_exec (hexec : exec i s = .next ((p.setD sz n v).setCcr cc)) (hp : State.Changes [n] [] (fun _ => False) s p)
    (hcc : flags cc) : s.SetsRegister n flags i :=
  ⟨_, hexec, (hp.setD List.mem_cons_self sz v).setCcr cc, hcc⟩

/-- An instruction without immediate words. -/
theorem of_start (hexec : exec i s = .next ((s.beginInstr.setD sz n v).setCcr cc)) (hcc : flags cc) :
    s.SetsRegister n flags i := of_exec hexec (State.Changes.beginInstr s) hcc

/-- An instruction whose immediate words are passed first. -/
theorem of_words {k : Long} (hexec : exec i s = .next (((s.beginInstr.advance k).setD sz n v).setCcr cc))
    (hcc : flags cc) : s.SetsRegister n flags i := of_exec hexec ((State.Changes.beginInstr s).advance k) hcc

theorem frame (hi : s.SetsRegister n flags i) (h : exec i s = .next t) :
    (State.sameButRegs [n] [] s t ∧ State.sameMemory s t) ∧ flags t.sr.ccr := by
  obtain ⟨u, hexec, hu, hflags⟩ := hi
  obtain rfl := Host.Outcome.next.inj (hexec.symm.trans h)
  exact ⟨hu.frame, hflags⟩

end State.SetsRegister

/-- A decimal operation on a data register, after its draws. -/
theorem bcdOnEa_dreg (f : Nat → Nat → Bool → Byte × Bool) (src : Long) (n : Reg) (s : State) :
    ∃ k v cc, bcdOnEa f src (.dreg n) s = .ok () ((State.setD .byte n v { s with drawCount := k }).setCcr cc) := by
  obtain ⟨⟨r, cc⟩, k, hresult⟩ := bcdResult_ok f src (trunc .byte (s.dreg n)) s
  exact ⟨k, r.setWidth 32, cc, run_bind_ok hresult⟩

/-- `Dy, Dx` of a decimal operation. -/
theorem bcdBody_dreg (f : Nat → Nat → Bool → Byte × Bool) (m n : Reg) (s : State) :
    ∃ k v cc, bcdBody f false m n s = .ok () ((State.setD .byte n v { s with drawCount := k }).setCcr cc) := by
  have hsource : readEa (.dreg m) .byte s = .ok (trunc .byte (s.dreg m)) s := readEa_at (loc := .dreg m) rfl rfl
  obtain ⟨k, v, cc, hdest⟩ := bcdOnEa_dreg f (trunc .byte (s.dreg m)) n s
  exact ⟨k, v, cc, (run_bind_ok hsource).trans hdest⟩

section
variable {i : Instr} {sz : Size} {asz : AddrSize} {count : ShiftCount} {imm : Long} {b : Byte} {q : Fin 8}
  {dm dn : Reg} {c : Cond} (s : State)

/-- The shifts and the rotates with extend. -/
theorem shift_setsRegister
    (hi : i ∈ [Instr.aslReg sz count dn, .asrReg sz count dn, .lslReg sz count dn, .lsrReg sz count dn,
      .roxlReg sz count dn, .roxrReg sz count dn]) : s.SetsRegister dn (fun _ => True) i := by
  obtain ⟨k, hp⟩ : ∃ k, (i, k) ∈ [(Instr.aslReg sz count dn, ShiftKind.asl), (.asrReg sz count dn, .asr),
      (.lslReg sz count dn, .lsl), (.lsrReg sz count dn, .lsr), (.rolReg sz count dn, .rol), (.rorReg sz count dn, .ror),
      (.roxlReg sz count dn, .roxl), (.roxrReg sz count dn, .roxr)] := by
    simp only [List.mem_cons, List.not_mem_nil, or_false] at hi
    obtain rfl | rfl | rfl | rfl | rfl | rfl := hi
    exacts [⟨.asl, by simp⟩, ⟨.asr, by simp⟩, ⟨.lsl, by simp⟩, ⟨.lsr, by simp⟩, ⟨.roxl, by simp⟩, ⟨.roxr, by simp⟩]
  exact .of_start (shiftResults.1 sz count dn s _ _ rfl rfl (i, k) hp) trivial

/-- The rotates without extend leave X. -/
theorem rotate_setsRegister (hi : i ∈ [Instr.rolReg sz count dn, .rorReg sz count dn]) :
    s.SetsRegister dn (fun cc => cc.x = s.sr.ccr.x) i := by
  have hshift := shiftResults.1 sz count dn s _ _ rfl rfl
  simp only [List.mem_cons, List.not_mem_nil, or_false] at hi
  obtain rfl | rfl := hi
  · exact .of_start (hshift (.rolReg sz count dn, .rol) (by simp)) (shiftRun_x_of_rol_ror _ _ _ _ (by simp))
  · exact .of_start (hshift (.rorReg sz count dn, .ror) (by simp)) (shiftRun_x_of_rol_ror _ _ _ _ (by simp))

/-- Binary arithmetic writes every flag. -/
theorem arithmetic_setsRegister
    (hi : i ∈ [Instr.neg sz (.dreg dn), .negx sz (.dreg dn), .addx sz false dm dn, .subx sz false dm dn,
      .addi sz imm (.dreg dn), .subi sz imm (.dreg dn), .addq q sz (.dreg dn), .subq q sz (.dreg dn)]) :
    s.SetsRegister dn (fun _ => True) i := by
  obtain ⟨hneg, hnegx, -⟩ := unaryResults sz .t (.dreg dn) s s.beginInstr (.dreg dn) _ rfl rfl rfl rfl
  obtain ⟨haddx, hsubx⟩ := extendedArithmetic.1 sz dm dn s _ _ rfl rfl
  obtain ⟨haddi, hsubi, -⟩ := immediateArithmetic sz imm (.dreg dn) s (s.beginInstr.advance (immBytes sz)) (.dreg dn) _ _
    rfl rfl rfl rfl rfl
  obtain ⟨-, hquick⟩ := quickArithmetic q sz (.dreg dn) s s.beginInstr (.dreg dn) _ _ rfl
  obtain ⟨haddq, hsubq⟩ := hquick rfl rfl rfl rfl rfl
  simp only [List.mem_cons, List.not_mem_nil, or_false] at hi
  obtain rfl | rfl | rfl | rfl | rfl | rfl | rfl | rfl := hi
  exacts [.of_start hneg trivial, .of_start hnegx trivial, .of_start haddx trivial, .of_start hsubx trivial,
    .of_words haddi trivial, .of_words hsubi trivial, .of_start haddq trivial, .of_start hsubq trivial]

/-- Decimal operations draw, and write every flag. -/
theorem decimal_setsRegister (hi : i ∈ [Instr.nbcd (.dreg dn), .abcd false dm dn, .sbcd false dm dn]) :
    s.SetsRegister dn (fun _ => True) i := by
  obtain ⟨k, v, cc, hexec⟩ : ∃ k v cc,
      exec i s = .next ((State.setD .byte dn v { s.beginInstr with drawCount := k }).setCcr cc) := by
    simp only [List.mem_cons, List.not_mem_nil, or_false] at hi
    obtain rfl | rfl | rfl := hi
    · obtain ⟨k, v, cc, hbody⟩ := bcdOnEa_dreg (fun _ d x => bcdSub d 0 x) 0 dn s.beginInstr
      exact ⟨k, v, cc, runInstr_ok hbody⟩
    · obtain ⟨k, v, cc, hbody⟩ := bcdBody_dreg bcdAdd dm dn s.beginInstr
      exact ⟨k, v, cc, runInstr_ok hbody⟩
    · obtain ⟨k, v, cc, hbody⟩ := bcdBody_dreg bcdSub dm dn s.beginInstr
      exact ⟨k, v, cc, runInstr_ok hbody⟩
  exact .of_exec hexec ((State.Changes.beginInstr s).draw k) trivial

/-- Logic leaves X. -/
theorem logic_setsRegister
    (hi : i ∈ [Instr.notEa sz (.dreg dn), .clr sz (.dreg dn), .tas (.dreg dn), .andi sz imm (.dreg dn),
      .ori sz imm (.dreg dn), .eori sz imm (.dreg dn), .eorToEa sz dm (.dreg dn)]) :
    s.SetsRegister dn (fun cc => cc.x = s.sr.ccr.x) i := by
  obtain ⟨-, -, hnot, hclr, -⟩ := unaryResults sz .t (.dreg dn) s s.beginInstr (.dreg dn) _ rfl rfl rfl rfl
  have htas := (tasResults (.dreg dn) s s.beginInstr (.dreg dn) _ _ rfl rfl).1 dn rfl rfl
  obtain ⟨-, -, handi, hori, heori⟩ := immediateArithmetic sz imm (.dreg dn) s (s.beginInstr.advance (immBytes sz))
    (.dreg dn) _ _ rfl rfl rfl rfl rfl
  obtain ⟨-, -, -, -, heor⟩ := memoryArithmetic sz (.dreg dn) dm s s.beginInstr (.dreg dn) _ _ rfl rfl rfl rfl rfl
  simp only [List.mem_cons, List.not_mem_nil, or_false] at hi
  obtain rfl | rfl | rfl | rfl | rfl | rfl | rfl := hi
  exacts [.of_start hnot rfl, .of_start hclr rfl, .of_start htas rfl, .of_words handi rfl,
    .of_words hori rfl, .of_words heori rfl, .of_start heor rfl]

/-- SWAP, EXT and MOVEQ leave X. -/
theorem move_setsRegister (hi : i ∈ [Instr.swap dn, .extReg asz dn, .moveq dn b]) :
    s.SetsRegister dn (fun cc => cc.x = s.sr.ccr.x) i := by
  obtain ⟨hmoveq, hswap, hextWord, hextLong, -⟩ := registerMoves s dn dn b (.dreg dn)
  simp only [List.mem_cons, List.not_mem_nil, or_false] at hi
  obtain rfl | rfl | rfl := hi
  · exact .of_start hswap rfl
  · cases asz with
    | word => exact .of_start hextWord rfl
    | long => exact .of_start hextLong rfl
  · exact .of_start hmoveq rfl

/-- The bit instructions that store write Z only. -/
theorem bit_setsRegister
    (hi : i ∈ [Instr.bchgStatic b (.dreg dn), .bclrStatic b (.dreg dn), .bsetStatic b (.dreg dn), .bchgDynamic dm (.dreg dn),
      .bclrDynamic dm (.dreg dn), .bsetDynamic dm (.dreg dn)]) :
    s.SetsRegister dn (fun cc => ∃ z, cc = { s.sr.ccr with z := z }) i := by
  obtain ⟨-, hstatic⟩ := bitResults (.dreg dn) s (s.beginInstr.advance 2) (s.beginInstr.advance 2) (.dreg dn) b dm .long
    _ _ _ _ _ _ (.inl ⟨rfl, rfl, rfl, rfl, rfl⟩) (.inl ⟨⟨dn, rfl⟩, rfl, rfl⟩) rfl rfl rfl
  obtain ⟨-, hdynamic⟩ := bitResults (.dreg dn) s s.beginInstr s.beginInstr (.dreg dn) _ dm .long
    _ _ _ _ _ _ (.inr ⟨rfl, rfl, rfl, rfl, rfl, rfl⟩) (.inl ⟨⟨dn, rfl⟩, rfl, rfl⟩) rfl rfl rfl
  obtain ⟨hchange, hclear, hset⟩ := hstatic rfl
  obtain ⟨hchange', hclear', hset'⟩ := hdynamic rfl
  simp only [List.mem_cons, List.not_mem_nil, or_false] at hi
  obtain rfl | rfl | rfl | rfl | rfl | rfl := hi
  exacts [.of_words hchange ⟨_, rfl⟩, .of_words hclear ⟨_, rfl⟩, .of_words hset ⟨_, rfl⟩,
    .of_start hchange' ⟨_, rfl⟩, .of_start hclear' ⟨_, rfl⟩, .of_start hset' ⟨_, rfl⟩]

/-- Scc and MOVE from SR write no flag. -/
theorem status_setsRegister (hi : i ∈ [Instr.scc c (.dreg dn), .moveFromSr (.dreg dn)]) :
    s.SetsRegister dn (fun cc => cc = s.sr.ccr) i := by
  obtain ⟨size, v, hexec⟩ : ∃ size v, exec i s = .next (s.beginInstr.setD size dn v) := by
    obtain ⟨-, -, -, -, hscc⟩ := unaryResults .byte c (.dreg dn) s s.beginInstr (.dreg dn) _ rfl rfl rfl rfl
    simp only [List.mem_cons, List.not_mem_nil, or_false] at hi
    obtain rfl | rfl := hi
    exacts [⟨_, _, hscc rfl⟩, ⟨_, _, exec_moveFromSr (loc := .dreg dn) rfl rfl rfl⟩]
  exact ⟨_, hexec, (State.Changes.beginInstr s).setD List.mem_cons_self size v, rfl⟩

end

/-- Settles O57: the groups are those of the results of each kind of instruction; MOVE from USP is one change of the
state. -/
theorem oneRegisterFrame : Obligations.OneRegisterFrame := by
  intro i sz asz count imm b q dm dn an c s t h
  refine ⟨fun hi => ?allFlags, fun hi => ?allButX, fun hi => ?bit, fun hi => ?status, fun hi hs => ?usp⟩
  case allFlags =>
    have hsets : s.SetsRegister dn (fun _ => True) i := by
      have hcases : i ∈ [Instr.aslReg sz count dn, .asrReg sz count dn, .lslReg sz count dn, .lsrReg sz count dn,
            .roxlReg sz count dn, .roxrReg sz count dn] ∨
          i ∈ [Instr.neg sz (.dreg dn), .negx sz (.dreg dn), .addx sz false dm dn, .subx sz false dm dn,
            .addi sz imm (.dreg dn), .subi sz imm (.dreg dn), .addq q sz (.dreg dn), .subq q sz (.dreg dn)] ∨
          i ∈ [Instr.nbcd (.dreg dn), .abcd false dm dn, .sbcd false dm dn] := by
        simp only [List.mem_cons] at hi ⊢
        tauto
      obtain hi | hi | hi := hcases
      exacts [shift_setsRegister s hi, arithmetic_setsRegister s hi, decimal_setsRegister s hi]
    exact (hsets.frame h).1
  case allButX =>
    have hsets : s.SetsRegister dn (fun cc => cc.x = s.sr.ccr.x) i := by
      have hcases : i ∈ [Instr.rolReg sz count dn, .rorReg sz count dn] ∨
          i ∈ [Instr.swap dn, .extReg asz dn, .moveq dn b] ∨
          i ∈ [Instr.notEa sz (.dreg dn), .clr sz (.dreg dn), .tas (.dreg dn), .andi sz imm (.dreg dn),
            .ori sz imm (.dreg dn), .eori sz imm (.dreg dn), .eorToEa sz dm (.dreg dn)] := by
        simp only [List.mem_cons] at hi ⊢
        tauto
      obtain hi | hi | hi := hcases
      exacts [rotate_setsRegister s hi, move_setsRegister s hi, logic_setsRegister s hi]
    rw [← and_assoc]
    exact hsets.frame h
  case bit =>
    rw [← and_assoc]
    exact (bit_setsRegister s hi).frame h
  case status =>
    obtain ⟨⟨hregs, hmem⟩, hccr⟩ := (status_setsRegister s hi).frame h
    exact ⟨hregs, hmem, State.sr_of_sameButRegs hregs hccr⟩
  case usp =>
    subst hi
    obtain rfl := Host.Outcome.next.inj ((runPrivileged_modify hs _).symm.trans h)
    obtain ⟨hregs, hmem⟩ := ((State.Changes.beginInstr s).setA List.mem_cons_self s.usp).frame
    exact ⟨hregs, hmem, rfl⟩

end Sys2Proof.Machine
end

section
/-! PROOFS. The family of spec 60, processing states: the halted processor (O8), interrupts (O9, O10), the stopped processor
(O11), the trace exception (O12), privilege violations (O15) and words that are no instruction (O13). -/

namespace Sys2Proof.Machine

open Sys2Proof

/-! The halted processor (R485, R399). -/

theorem State.drivesHalt_iff (s : State) : s.drivesHalt = true ↔ s.procState = .halted := by
  simp [State.drivesHalt]

/-- Under any input but an external reset a halted processor keeps its processing state and its registers, and memory too
unless another master writes. -/
theorem stepInput_halted {s t : State} {x : PlatformInput} (hhalted : s.procState = .halted)
    (hnoReset : ∀ level, x ≠ .externalReset level) (hstep : stepInput x s = .next t) :
    t.procState = .halted ∧ t.drivesHalt = true ∧
      t.d = s.d ∧ t.a = s.a ∧ t.usp = s.usp ∧ t.ssp = s.ssp ∧ t.pc = s.pc ∧ t.sr = s.sr ∧
      ((∀ w, x ≠ .busWrite w) → t.mem = s.mem) := by
  have hsame : ∀ u : State, u.procState = .halted → u.drivesHalt = true := fun u => u.drivesHalt_iff.mpr
  cases x with
  | externalReset level => exact absurd rfl (hnoReset level)
  | resetLine => cases hstep
  | run level =>
    rw [stepInput, runProcessor_halted hhalted] at hstep
    cases hstep
    exact ⟨hhalted, hsame _ hhalted, rfl, rfl, rfl, rfl, rfl, rfl, fun _ => rfl⟩
  | busWrite w =>
    rw [stepInput] at hstep
    split at hstep
    all_goals
      cases hstep
      exact ⟨hhalted, hsame _ hhalted, rfl, rfl, rfl, rfl, rfl, rfl, fun h => absurd rfl (h w)⟩
  | _ =>
    cases hstep
    exact ⟨hhalted, hsame _ hhalted, rfl, rfl, rfl, rfl, rfl, rfl, fun _ => rfl⟩

/-- Settles O8: taking the input changes the list of inputs only, so it is `stepInput_halted`. -/
theorem haltedStays : Obligations.HaltedStays := by
  refine ⟨State.drivesHalt_iff, fun s t hhalted hnoReset hstep => ?_⟩
  obtain ⟨inputs, hinputs⟩ := s.takeInput_snd
  have h := stepInput_halted (s := s.takeInput.2) (by rw [hinputs]; exact hhalted) hnoReset hstep
  rw [hinputs] at h
  exact h

/-! Interrupts (R460, R462). -/

theorem State.interruptLevel_eq_some {s : State} (h : s.sr.mask < s.pendingIrq ∨ s.nmi = true) :
    s.interruptLevel = some s.pendingIrq := if_pos h

theorem State.interruptLevel_eq_none {s : State} (hmask : s.pendingIrq ≤ s.sr.mask) (hnmi : s.nmi = false) :
    s.interruptLevel = none :=
  if_neg fun h => h.elim (Fin.not_lt.mpr hmask) (by simp [hnmi])

/-- A transition to level 7 is latched when it is sampled (R462). -/
theorem State.sample_nmi_iff (level : Fin 8) (s : State) :
    (s.sample level).nmi = true ↔ s.nmi = true ∨ (level = 7 ∧ s.prevIrqLevel ≠ 7) := by
  simp only [State.sample, Bool.or_eq_true, decide_eq_true_eq]

theorem State.sample_nmi_eq_false {level : Fin 8} {s : State} (hnmi : s.nmi = false)
    (hedge : ¬ (level = 7 ∧ s.prevIrqLevel ≠ 7)) : (s.sample level).nmi = false :=
  Bool.eq_false_iff.mpr fun h => ((s.sample_nmi_iff level).mp h).elim (by simp [hnmi]) hedge

/-- Settles O9: the interrupt taken is the one of `runProcessor_interrupt`, whose exception goes through. -/
theorem interruptTaken : Obligations.InterruptTaken := by
  intro s level n hin hproc hbus hlevel hvector hready
  rw [step_of_input hin, stepInput]
  obtain ⟨inputs, hinputs⟩ := s.takeInput_snd
  generalize s.takeInput.2 = u at hinputs
  subst hinputs
  have hcause : (s.sample level).sr.mask < (s.sample level).pendingIrq ∨ (s.sample level).nmi = true := by
    rw [s.sample_nmi_iff level]
    exact hlevel
  refine (runProcessor_interrupt (s := { s with inputs := inputs }) (l := level) hproc hbus (State.interruptLevel_eq_some hcause)).trans ?_
  rw [takeException_at s (n := n) hready ?vector ?platform ?ssp]
  case vector => exact hvector
  case platform => exact ⟨rfl, rfl, rfl⟩
  case ssp => rfl
  show settled (.next (State.afterException _ n level s.pc (s.traceAtStart && false))) = _
  rw [Bool.and_false]
  rfl

/-- Settles O10: the edge is latched by the sample that shows it, and a level held is no edge. -/
theorem levelSevenEdge : Obligations.LevelSevenEdge := by
  refine ⟨fun s hedge => ?_, fun s hheld hnmi hmask => ?_⟩
  · exact State.interruptLevel_eq_some (.inr ((s.sample_nmi_iff 7).mpr (.inr ⟨rfl, hedge⟩)))
  · refine State.interruptLevel_eq_none (show 7 ≤ s.sr.mask from hmask ▸ Fin.le_refl _) ?_
    exact State.sample_nmi_eq_false hnmi fun h => h.2 hheld

/-- Settles O11: with no interrupt to take, a stopped processor only samples. -/
theorem stoppedWaits : Obligations.StoppedWaits := by
  intro s level hin hstopped hbus hnmi hmask hedge
  obtain ⟨inputs, hinputs⟩ := s.takeInput_snd
  rw [step_of_input hin, hinputs]
  exact runProcessor_stopped hstopped hbus
    (State.interruptLevel_eq_none hmask (State.sample_nmi_eq_false hnmi hedge))

/-! Exceptions of group 1, after which no trace exception follows (R470). -/

/-- An exception of group 1 that goes through, its conditions checked in an earlier state. -/
theorem takeException_group1_at (p : State) {s : State} {k : ExcKind} {n : Nat} (pc : Long) (hk : k.group = .group1)
    (hmask : k.mask s.sr.mask = s.sr.mask) (hready : p.exceptionReady n = true) (hv : s.vectorOf k = some n)
    (hplatform : p.samePlatform s) (hssp : s.ssp = p.ssp) :
    takeException k pc s = .ok () (s.afterException n s.sr.mask pc false) := by
  rw [takeException_at p hready hv hplatform hssp, hmask, hk]
  simp

/-- Settles O12: the trace exception is what `traceAfter` does in the state that has settled. -/
theorem traceTaken : Obligations.TraceTaken := by
  intro t u ht hsettle hu hready
  have htrace : takeException .trace u.pc u = .ok () (u.afterException 9 u.sr.mask u.pc false) :=
    takeException_group1_at u u.pc rfl rfl hready rfl ⟨rfl, rfl, rfl⟩ rfl
  simp only [afterInstr, ht, if_true, hsettle, traceAfter, hu, htrace, finish_ok]

/-- A privileged instruction in user state is the exception with vector 8 and nothing else (R341). -/
theorem runPrivileged_user {s : State} (hs : s.sr.s = false) (body : Exec Unit) :
    runPrivileged body s = finish (takeException .privilege s.pc { s with instrAddr := s.pc }) := by
  simp [runPrivileged, hs]

/-- Settles O15: the meaning of a privileged instruction checks S before its body runs. -/
theorem privilegeViolation : Obligations.PrivilegeViolation := by
  intro i s hi hs hready
  obtain ⟨body, hbody⟩ := exec_privileged hi
  have hexception := takeException_group1_at (k := .privilege) s (s := { s with instrAddr := s.pc }) s.pc rfl rfl hready rfl
    ⟨rfl, rfl, rfl⟩ rfl
  rw [hbody, runPrivileged_user hs, hexception, finish_ok]

/-! Words that are no instruction (R442, R443). -/

theorem decodeException_group (e : DecodeError) : (decodeException e).group = .group1 := by cases e <;> rfl

theorem decodeException_mask (e : DecodeError) (old : Fin 8) : (decodeException e).mask old = old := by cases e <;> rfl

theorem vectorOf_decodeException (e : DecodeError) (s : State) :
    s.vectorOf (decodeException e) = some (match e with | .line1010 => 10 | .line1111 => 11 | _ => 4) := by
  cases e <;> rfl

/-- The next instruction with its operation word read by the maps alone (R429). -/
theorem runNext_eq_runOperation {s : State} (hfresh : s.prefetchFresh = true)
    (hread : s.canAccess .program .read s.pc .word = true) :
    runNext s =
      runOperation s.instrReg (s.wordAt (s.code .program) s.pc)
        (({ s with traceAtStart := s.sr.t } : State).withOperation (s.wordAt (s.code .program) s.pc)) := by
  have hword : onAbort (fetchWord s.pc) (fun t => t.openInstrReg t.unknownWord) { s with traceAtStart := s.sr.t } =
      .ok (s.wordAt (s.code .program) s.pc) { s with traceAtStart := s.sr.t } :=
    onAbort_ok (fetchWord_ok (s := { s with traceAtStart := s.sr.t }) hfresh hread)
  unfold runNext
  simp only [hword]

/-- A word that is no instruction: the words after it are read ahead, then its exception is taken, which discards them. -/
theorem runNext_illegal {s : State} {op : Word} {e : DecodeError} {n : Nat} (hfetches : s.fetches 1 s.windowWords = true)
    (hop : op = s.wordAt (s.code .program) s.pc) (herror : decodeOp op = .error e)
    (hn : s.vectorOf (decodeException e) = some n) (hready : s.exceptionReady n = true) :
    runNext s = .next (({ s with instrReg := op, instrAddr := s.pc } : State).afterException n s.sr.mask s.pc false) := by
  simp only [State.fetches, Bool.and_eq_true, Nat.add_comm 1, State.canAccessList] at hfetches
  obtain ⟨hfresh, hread, hwindow⟩ := hfetches
  rw [runNext_eq_runOperation hfresh hread, ← hop]
  generalize hu : State.withOperation op { s with traceAtStart := s.sr.t } = u
  have hbus : s.sameBus u := by rw [← hu]; exact ⟨⟨rfl, rfl, rfl⟩, rfl⟩
  have hahead : u.readAhead u.windowWords (u.pc + 2) = _ := readAhead_ok
    (by rw [← hu]; exact hfresh) (by rw [← hu]; exact State.quiet_of_canAccess (s := s) hread)
    (by rw [State.canAccessList_congr hbus, ← hu]; exact hwindow)
  unfold runOperation runUnexecuted
  simp only [herror, hahead]
  rw [takeException_group1_at s _ (decodeException_group e) (decodeException_mask e _) hready
    (by subst hu; exact hn) (by subst hu; exact ⟨rfl, rfl, rfl⟩) (by subst hu; rfl), finish_ok]
  subst hu
  rfl

/-- Settles O13: the step is `runNext_illegal`, and what decodes depends on the first word only (`decode_like`). -/
theorem illegalWordTaken : Obligations.IllegalWordTaken := by
  refine ⟨fun s level e op n hin hruns hfetches hop herror hn hready => ?_, fun op ws i rest hdecode hlen => ?_⟩
  · rw [step_of_input hin, stepInput, runProcessor_runs hruns]
    obtain ⟨inputs, hinputs⟩ := s.takeInput_snd
    generalize s.takeInput.2 = u at hinputs hfetches
    subst hinputs
    rw [runNext_illegal hfetches hop herror (hn ▸ vectorOf_decodeException e _) hready]
    rfl
  · obtain ⟨j, rest', hj, -⟩ := decode_like (ws' := ws) hdecode hlen
    exact ⟨j, rest', hj⟩

end Sys2Proof.Machine
end

section
/-! PROOFS. What an instruction changes as long as it takes no exception: the frame that the invariant and the confinement of
user state share, operation by operation. -/

namespace Sys2Proof.Machine

open Sys2Proof

/-- From one state to another with nothing of the supervisor's changed but, in supervisor state, its stack pointer: neither
the system byte of SR, nor the processing state, nor the RESET line; the window of a double fault, the platform's maps and
PREFETCH_WINDOW are as they were, memory stays canonical, words read ahead are kept or discarded, and the platform gets
nothing new in store. A bus error of an instruction word may have been raised. -/
structure State.Cut (s t : State) : Prop where
  canonical : s.mem.wf = true → t.mem.wf = true
  trace : t.sr.t = s.sr.t
  supervisor : t.sr.s = s.sr.s
  mask : t.sr.mask = s.sr.mask
  ssp : s.sr.s = false → t.ssp = s.ssp
  resetPulses : t.resetPulses = s.resetPulses
  procState : t.procState = s.procState
  traceAtStart : t.traceAtStart = s.traceAtStart
  inGroup0 : t.inGroup0 = s.inGroup0
  supposed : t.supposed = s.supposed
  prefetchWindow : t.prefetchWindow = s.prefetchWindow
  busMap : t.busMap = s.busMap
  prefetch : t.prefetch = s.prefetch ∨ t.prefetch = []
  cycles : s.cycles = [] → t.cycles = []
  fetchError : s.fetchError = none → t.fetchError = none

/-- The same, a bus error of an instruction word still pending where one was. -/
structure State.Ordinary (s t : State) : Prop extends State.Cut s t where
  pending : t.fetchError = none → s.fetchError = none

namespace State.Cut

variable {s t u : State}

theorem trans (h : s.Cut t) (h' : t.Cut u) : s.Cut u where
  canonical := h'.canonical ∘ h.canonical
  trace := h'.trace.trans h.trace
  supervisor := h'.supervisor.trans h.supervisor
  mask := h'.mask.trans h.mask
  ssp := fun hs => (h'.ssp (h.supervisor.trans hs)).trans (h.ssp hs)
  resetPulses := h'.resetPulses.trans h.resetPulses
  procState := h'.procState.trans h.procState
  traceAtStart := h'.traceAtStart.trans h.traceAtStart
  inGroup0 := h'.inGroup0.trans h.inGroup0
  supposed := h'.supposed.trans h.supposed
  prefetchWindow := h'.prefetchWindow.trans h.prefetchWindow
  busMap := h'.busMap.trans h.busMap
  prefetch := h'.prefetch.elim (fun e => e ▸ h.prefetch) .inr
  cycles := h'.cycles ∘ h.cycles
  fetchError := h'.fetchError ∘ h.fetchError

theorem quiet (h : s.Cut t) (hs : s.quiet = true) : t.quiet = true := by
  obtain ⟨hcycles, herror⟩ := (State.quiet_iff s).mp hs
  exact (State.quiet_iff t).mpr ⟨h.cycles hcycles, h.fetchError herror⟩

theorem plain (h : s.Cut t) (hs : s.plain = true) : t.plain = true := by
  obtain ⟨hquiet, hsupposed, hdevice⟩ := s.plain_iff.mp hs
  exact t.plain_iff.mpr ⟨h.quiet hquiet, h.supposed.trans hsupposed, h.busMap ▸ hdevice⟩

theorem windowWords (h : s.Cut t) : t.windowWords = s.windowWords := by
  rw [State.windowWords, h.prefetchWindow, State.windowWords]

end State.Cut

namespace State.Ordinary

variable {s t u : State}

theorem trans (h : s.Ordinary t) (h' : t.Ordinary u) : s.Ordinary u := ⟨h.toCut.trans h'.toCut, h.pending ∘ h'.pending⟩

/-- Registers, flags, the program counter, the instruction register and the count of draws may change. -/
theorem registers {d : Vector Long 8} {a : Vector Long 7} {usp ssp pc : Long} {cc : Ccr} {w : Word} {k : Nat}
    {p : List AheadWord} (hssp : s.sr.s = false → ssp = s.ssp) (hp : p = s.prefetch ∨ p = []) :
    s.Ordinary { s with
      d := d, a := a, usp := usp, ssp := ssp, pc := pc, sr := { s.sr with ccr := cc }, instrReg := w, drawCount := k
      prefetch := p } :=
  ⟨⟨id, rfl, rfl, rfl, hssp, rfl, rfl, rfl, rfl, rfl, rfl, rfl, hp, id, id⟩, id⟩

/-- Memory may change as long as it stays canonical. -/
theorem memory {m : Memory} (hm : s.mem.wf = true → m.wf = true) : s.Ordinary { s with mem := m } :=
  ⟨⟨hm, rfl, rfl, rfl, fun _ => rfl, rfl, rfl, rfl, rfl, rfl, rfl, rfl, .inl rfl, id, id⟩, id⟩

theorem refl (s : State) : s.Ordinary s := registers (fun _ => rfl) (.inl rfl)

/-! The changes that an instruction makes to registers and to the count of draws. -/

theorem setD (sz : Size) (n : Reg) (v : Long) (s : State) : s.Ordinary (s.setD sz n v) :=
  registers (fun _ => rfl) (.inl rfl)

theorem setSp (v : Long) (s : State) : s.Ordinary (s.setSp v) :=
  registers (fun hs => by simp [hs]) (.inl rfl)

theorem setA (n : Reg) (v : Long) (s : State) : s.Ordinary (s.setA n v) :=
  registers (fun hs => by simp [State.setSp, hs]) (.inl rfl)

theorem setGpr (r : Fin 16) (v : Long) (s : State) : s.Ordinary (s.setGpr r v) := by
  unfold State.setGpr
  split
  · exact setD _ _ _ s
  · exact setA _ _ s

theorem setCcr (cc : Ccr) (s : State) : s.Ordinary (s.setCcr cc) :=
  registers (fun _ => rfl) (.inl rfl)

theorem advance (v : Long) (s : State) : s.Ordinary (s.advance v) :=
  registers (fun _ => rfl) (.inl rfl)

theorem jump (v : Long) (s : State) : s.Ordinary (s.jump v) :=
  registers (fun _ => rfl) (.inr rfl)

theorem draw (k : Nat) (s : State) : s.Ordinary { s with drawCount := k } :=
  registers (fun _ => rfl) (.inl rfl)

theorem openInstrReg (w : Word) (s : State) : s.Ordinary (s.openInstrReg w) := by
  unfold State.openInstrReg State.maybe
  dsimp only
  split
  all_goals exact registers (fun _ => rfl) (.inl rfl)

theorem maybe {g : State → State} (hg : ∀ t : State, t.Ordinary (g t)) (s : State) : s.Ordinary (State.maybe g s) := by
  unfold State.maybe
  dsimp only
  split
  · exact (draw _ s).trans (hg _)
  · exact draw _ s

theorem openFlags (done s : State) : s.Ordinary (s.openFlags done) := by
  obtain ⟨cc, k, -, h⟩ := State.openFlags_cases s done
  rw [h]
  exact (setCcr cc s).trans (draw k _)

theorem storeMem (a : Long) (sz : Size) (v : Long) (s : State) : s.Ordinary (s.storeMem a sz v) :=
  memory fun h => State.storeMem_wf h a sz v

theorem resolve (ea : Ea) (sz : Size) (s : State) : s.Ordinary (s.resolve ea sz).2 := by
  cases ea with
  | dreg n => exact refl s
  | areg n => exact refl s
  | ind n => exact refl s
  | postInc n => exact setA n _ s
  | preDec n => exact setA n _ s
  | disp n d => exact advance 2 s
  | index n x => exact advance 2 s
  | absShort a => exact advance 2 s
  | absLong a => exact advance 4 s
  | pcDisp d => exact advance 2 s
  | pcIndex x => exact advance 2 s
  | imm v => exact advance _ s

end State.Ordinary

/-! Computations, by the operations they are made of. -/

/-- What a computation from a state ends in differs by such changes only, whether it goes through or is cut short; and
where the platform has nothing in store, no reset cuts it short. -/
def State.OrdinaryResult {α : Type} (s : State) : EStateM.Result Abort State α → Prop
  | .ok _ t => s.Ordinary t
  | .error e t => s.Cut t ∧ (s.cycles = [] → ∀ level, e ≠ .reset level)

/-- A computation that makes such changes only, from every state. -/
def Ordinarily {α : Type} (m : Exec α) : Prop := ∀ s : State, s.OrdinaryResult (m s)

namespace State.OrdinaryResult

variable {α β : Type} {m : Exec α} {s t : State}

theorem ok {a : α} (h : s.OrdinaryResult (m t)) {u : State} (hm : m t = .ok a u) : s.Ordinary u := by
  rw [hm] at h
  exact h

theorem error {e : Abort} (h : s.OrdinaryResult (m t)) {u : State} (hm : m t = .error e u) : s.Cut u := by
  rw [hm] at h
  exact h.1

theorem noReset {e : Abort} (h : s.OrdinaryResult (m t)) {u : State} (hm : m t = .error e u) (hs : s.cycles = [])
    (level : Fin 8) : e ≠ .reset level := by
  rw [hm] at h
  exact h.2 hs level

/-- Changes made before. -/
theorem after {r : EStateM.Result Abort State α} (h : s.Ordinary t) (hr : t.OrdinaryResult r) : s.OrdinaryResult r := by
  cases r with
  | ok a u => exact h.trans hr
  | error e u => exact ⟨h.toCut.trans hr.1, fun hs => hr.2 (h.cycles hs)⟩

theorem bind {f : α → Exec β} (hm : s.OrdinaryResult (m t)) (hf : ∀ a u, s.Ordinary u → u.OrdinaryResult (f a u)) :
    s.OrdinaryResult ((m >>= f) t) := by
  rw [run_bind]
  cases h : m t with
  | ok a u => exact after (hm.ok h) (hf a u (hm.ok h))
  | error e u => exact ⟨hm.error h, hm.noReset h⟩

theorem onAbort {g : State → State} (hm : s.OrdinaryResult (m t)) (hg : ∀ u : State, s.Cut u → u.Cut (g u)) :
    s.OrdinaryResult (Machine.onAbort m g t) := by
  cases h : m t with
  | ok a u => rw [onAbort_ok h]; exact hm.ok h
  | error e u => rw [onAbort_error h]; exact ⟨(hm.error h).trans (hg u (hm.error h)), hm.noReset h⟩

end State.OrdinaryResult

section
variable {α β : Type} {m n : Exec α}

theorem ordinarily_pure (a : α) : Ordinarily (pure a : Exec α) := State.Ordinary.refl

theorem ordinarily_get : Ordinarily (get : Exec State) := State.Ordinary.refl

theorem ordinarily_modify {g : State → State} (hg : ∀ s : State, s.Ordinary (g s)) : Ordinarily (modify g : Exec Unit) := hg

theorem ordinarily_bind {f : α → Exec β} (hm : Ordinarily m) (hf : ∀ a, Ordinarily (f a)) : Ordinarily (m >>= f) :=
  fun s => (hm s).bind fun a t _ => hf a t

theorem ordinarily_ite {c : Prop} [Decidable c] (hm : Ordinarily m) (hn : Ordinarily n) :
    Ordinarily (if c then m else n) := by
  split
  · exact hm
  · exact hn

theorem ordinarily_onAbort {g : State → State} (hm : Ordinarily m) (hg : ∀ s : State, s.Ordinary (g s)) :
    Ordinarily (onAbort m g) := fun s => (hm s).onAbort fun t _ => (hg t).toCut

end

theorem ordinarily_drawBit : Ordinarily drawBit := fun s => State.Ordinary.draw (s.drawCount + 1) s

theorem ordinarily_drawByte : Ordinarily drawByte := fun s => State.Ordinary.draw (s.drawCount + 1) s

theorem ordinarily_drawWord : Ordinarily drawWord := fun s => State.Ordinary.draw (s.drawCount + 1) s

theorem ordinarily_drawBelow (n : Nat) : Ordinarily (drawBelow n) := fun s => State.Ordinary.draw (s.drawCount + 1) s

/-! Bus cycles: what an access leaves alone is known (`Accesses`), so is that memory stays canonical; here, that the platform
gets nothing new in store and no bus error of an instruction word comes up. -/

section
variable {P : State → Prop}

section
variable (hP : ∀ (s : State) (m : Memory) (k : Nat), P s → P { s with mem := m, drawCount := k })
include hP

theorem keeps_drawLane (c : BusCycle) : Keeps P (do let d ← drawWord; pure (c.lane d) : Exec Word) := fun s hs =>
  ⟨fun _ _ e => (by cases e; exact hP s s.mem _ hs), fun _ _ e => (by cases e)⟩

/-- Taking data from the bus keeps what does not depend on memory and the count of draws. -/
theorem keeps_readData (c : BusCycle) (data : Option Word) : Keeps P (readData c data) := by
  intro s hs
  unfold readData
  split
  · exact ⟨fun _ _ e => (by cases e; exact hs), fun _ _ e => (by cases e)⟩
  · split
    · exact keeps_drawLane hP c s hs
    · exact ⟨fun _ _ e => (by cases e; exact hs), fun _ _ e => (by cases e)⟩

/-- So does the end of a bus cycle. -/
theorem keeps_endCycle (c : BusCycle) (w : Word) (e : CycleEnd) (data : Option Word) (stores : Option Bool) :
    Keeps P (endCycle c w e data stores) := by
  intro s hs
  have hstored : P (if c.dir = .write ∧ stores.getD (s.stores c e) = true then { s with mem := s.written c w s.mem } else s) := by
    split
    · exact hP s _ s.drawCount hs
    · exact hs
  unfold endCycle
  dsimp only
  split
  · exact keeps_readData hP c data _ hstored
  · split
    · exact keeps_drawLane hP c _ hstored
    · exact ⟨fun _ _ e => (by cases e), fun _ _ e => (by cases e; exact hstored)⟩

end

/-- A bus cycle keeps what does not depend on what it can change. -/
theorem keeps_platformCycle
    (hP : ∀ (s : State) (m : Memory) (es : List CycleInput) (k : Nat), P s → P { s with mem := m, cycles := es, drawCount := k })
    (rmw : Bool) (c : BusCycle) (w : Word) (es : List CycleInput) : Keeps P (platformCycle rmw c w es) := by
  have hend := keeps_endCycle (P := P) fun s m k => hP s m s.cycles k
  induction es with
  | nil => exact fun s hs => hend c w _ none none s hs
  | cons e es ih =>
    intro s hs
    have hwrites : P (s.masterWrites (if secondHalf rmw c then [] else e.before)) := by
      obtain ⟨m, hm⟩ := s.masterWrites_eq (if secondHalf rmw c then [] else e.before)
      rw [hm]
      exact hP s m s.cycles s.drawCount hs
    unfold platformCycle
    dsimp only
    generalize s.masterWrites (if secondHalf rmw c then [] else e.before) = u at hwrites ⊢
    have hentry := hP u u.mem es u.drawCount hwrites
    split
    · exact ⟨fun _ _ e => (by cases e), fun _ _ e => (by cases e; exact hentry)⟩
    · split
      · refine ih _ ?_
        split
        · exact hP u _ es u.drawCount hwrites
        · exact hentry
      · exact hend _ _ _ _ _ _ hentry

end

/-- With no bus error of an instruction word pending, a cycle begins at once. -/
theorem beginCycle_ok {s : State} (h : s.fetchError = none) (locked : Bool) : beginCycle locked s = .ok () s := by
  simp [beginCycle, h]

theorem keeps_raiseFetchError_fetchError : Keeps (fun s => s.fetchError = none) raiseFetchError := fun s hs => by
  rw [raiseFetchError_ok hs]
  exact ⟨fun _ _ e => (by cases e; exact hs), fun _ _ e => (by cases e)⟩

theorem keeps_raiseFetchError_cycles : Keeps (fun s => s.cycles = []) raiseFetchError := fun s hs => by
  unfold raiseFetchError
  split
  · split
    · exact ⟨fun _ _ e => (by cases e), fun _ _ e => (by cases e; exact hs)⟩
    · exact ⟨fun _ _ e => (by cases e; exact hs), fun _ _ e => (by cases e)⟩
  · exact ⟨fun _ _ e => (by cases e; exact hs), fun _ _ e => (by cases e)⟩

theorem keeps_busCycle_fetchError (rmw : Bool) (c : BusCycle) (w : Word) :
    Keeps (fun s => s.fetchError = none) (busCycle rmw c w) := by
  refine keeps_bind (fun s hs => ?_) fun _ => keeps_bind keeps_get fun s => keeps_platformCycle (fun _ _ _ _ h => h) _ _ _ _
  rw [beginCycle_ok hs]
  exact ⟨fun _ _ e => (by cases e; exact hs), fun _ _ e => (by cases e)⟩

theorem keeps_beginCycle_cycles (locked : Bool) : Keeps (fun s => s.cycles = []) (beginCycle locked) := fun s hs => by
  unfold beginCycle
  split
  · exact ⟨fun _ _ e => (by cases e; exact hs), fun _ _ e => (by cases e)⟩
  · split
    · exact keeps_raiseFetchError_cycles s hs
    · exact ⟨fun _ _ e => (by cases e; exact hs), fun _ _ e => (by cases e)⟩

theorem keeps_busCycle_cycles (rmw : Bool) (c : BusCycle) (w : Word) : Keeps (fun s => s.cycles = []) (busCycle rmw c w) := by
  refine keeps_bind (keeps_beginCycle_cycles _) fun _ s hs => ?_
  rw [run_bind_ok (run_get s), hs]
  exact keeps_endCycle (P := fun s => s.cycles = []) (fun _ _ _ h => h) c w _ none none s hs

/-! No reset comes from the maps (R505). -/

theorem cycleAbort_ne_reset (e : CycleEnd) (c : BusCycle) (level : Fin 8) : cycleAbort e c ≠ .reset level := by
  cases e <;> exact fun h => nomatch h

/-- Data are always there for a cycle that completes. -/
theorem readData_ne_error {c : BusCycle} {data : Option Word} {s t : State} {e : Abort} : readData c data s ≠ .error e t := by
  unfold readData
  split
  · exact fun h => nomatch h
  · split
    all_goals exact fun h => nomatch h

theorem endCycle_ne_reset {c : BusCycle} {w : Word} {x : CycleEnd} {data : Option Word} {stores : Option Bool} {s t : State}
    {e : Abort} (h : endCycle c w x data stores s = .error e t) (level : Fin 8) : e ≠ .reset level := by
  unfold endCycle at h
  dsimp only at h
  split at h
  · exact absurd h readData_ne_error
  · split at h
    · exact nomatch h
    · cases h
      exact cycleAbort_ne_reset x c level

theorem raiseFetchError_ne_reset {s t : State} {e : Abort} (h : raiseFetchError s = .error e t) (level : Fin 8) :
    e ≠ .reset level := by
  unfold raiseFetchError at h
  split at h
  · split at h
    · cases h
      exact fun h => nomatch h
    · cases h
  · cases h

theorem beginCycle_ne_reset {locked : Bool} {s t : State} {e : Abort} (h : beginCycle locked s = .error e t) (level : Fin 8) :
    e ≠ .reset level := by
  unfold beginCycle at h
  split at h
  · cases h
  · split at h
    · exact raiseFetchError_ne_reset h level
    · cases h

theorem busCycle_ne_reset {rmw : Bool} {c : BusCycle} {w : Word} {s t : State} {e : Abort} (hs : s.cycles = [])
    (h : busCycle rmw c w s = .error e t) (level : Fin 8) : e ≠ .reset level := by
  unfold busCycle at h
  rw [run_bind] at h
  cases hb : beginCycle (secondHalf rmw c) s with
  | ok a u =>
    have hu : u.cycles = [] := (keeps_beginCycle_cycles _ s hs).1 a u hb
    simp only [hb] at h
    rw [run_bind_ok (run_get u), hu] at h
    exact endCycle_ne_reset (s := u) h level
  | error x u =>
    simp only [hb] at h
    cases h
    exact beginCycle_ne_reset hb level

/-- What an access leaves alone, with memory canonical and nothing new in store, is what an instruction leaves alone. -/
theorem ordinarily_of_accesses {α : Type} {m : Exec α} (hm : Accesses m) (hcanonical : Keeps State.canonical m)
    (hcycles : Keeps (fun s => s.cycles = []) m) (herror : Keeps (fun s => s.fetchError = none) m)
    (hpending : ∀ s a t, m s = .ok a t → t.fetchError = none → s.fetchError = none)
    (hreset : ∀ s t e, s.cycles = [] → m s = .error e t → ∀ level, e ≠ .reset level) : Ordinarily m := by
  have key : ∀ s t : State, s.sameButBus t → (s.mem.wf = true → t.mem.wf = true) → (s.cycles = [] → t.cycles = []) →
      (s.fetchError = none → t.fetchError = none) → s.Cut t := by
    intro s t h h1 h2 h3
    unfold State.sameButBus at h
    refine ⟨h1, ?_, ?_, ?_, fun _ => ?_, ?_, ?_, ?_, ?_, ?_, ?_, ?_, .inl ?_, h2, h3⟩ <;> rw [h]
  intro s
  cases h : m s with
  | ok a t =>
    exact ⟨key s t ((hm s s s.sameButBus_refl).1 a t h) (fun h' => (hcanonical s h').1 a t h)
      (fun h' => (hcycles s h').1 a t h) fun h' => (herror s h').1 a t h, hpending s a t h⟩
  | error e t =>
    exact ⟨key s t ((hm s s s.sameButBus_refl).2 e t h) (fun h' => (hcanonical s h').2 e t h)
      (fun h' => (hcycles s h').2 e t h) fun h' => (herror s h').2 e t h, fun hs => hreset s t e hs h⟩

theorem raiseFetchError_pending {s t : State} (h : raiseFetchError s = .ok () t) : t = s := by
  unfold raiseFetchError at h
  split at h
  · split at h
    · cases h
    · cases h; rfl
  · cases h; rfl

theorem beginCycle_pending {locked : Bool} {s t : State} (h : beginCycle locked s = .ok () t) (ht : t.fetchError = none) :
    s.fetchError = none := by
  unfold beginCycle at h
  split at h
  · assumption
  · split at h
    · rwa [← raiseFetchError_pending h]
    · cases h; cases ht

theorem busCycle_pending {rmw : Bool} {c : BusCycle} {w v : Word} {s t : State} (h : busCycle rmw c w s = .ok v t)
    (ht : t.fetchError = none) : s.fetchError = none := by
  unfold busCycle at h
  rw [run_bind] at h
  cases hb : beginCycle (secondHalf rmw c) s with
  | error e u => rw [hb] at h; cases h
  | ok a u =>
    simp only [hb] at h
    rw [run_bind_ok (run_get u)] at h
    have hkeeps := keeps_platformCycle (P := fun s => s.fetchError = u.fetchError) (fun _ _ _ _ h => h) rmw c w u.cycles u rfl
    exact beginCycle_pending hb ((hkeeps.1 v t h).symm.trans ht)

theorem ordinarily_raiseFetchError : Ordinarily raiseFetchError :=
  ordinarily_of_accesses accesses_raiseFetchError raiseFetchError_canonical keeps_raiseFetchError_cycles
    keeps_raiseFetchError_fetchError (fun _ _ _ h ht => raiseFetchError_pending h ▸ ht) fun _ _ _ _ h => raiseFetchError_ne_reset h

theorem ordinarily_busCycle (rmw : Bool) (c : BusCycle) (w : Word) : Ordinarily (busCycle rmw c w) :=
  ordinarily_of_accesses (accesses_busCycle rmw c w) (busCycle_canonical rmw c w) (keeps_busCycle_cycles rmw c w)
    (keeps_busCycle_fetchError rmw c w) (fun _ _ _ h => busCycle_pending h) fun _ _ _ hs h => busCycle_ne_reset hs h

theorem ordinarily_readData (c : BusCycle) (data : Option Word) : Ordinarily (readData c data) :=
  ordinarily_of_accesses (accesses_readData c data) (readData_canonical c data) (keeps_readData (fun _ _ _ h => h) c data)
    (keeps_readData (fun _ _ _ h => h) c data)
    (fun s v t h ht => ((keeps_readData (P := fun u => u.fetchError = s.fetchError) (fun _ _ _ h => h) c data s rfl).1 v t h).symm.trans ht)
    fun _ _ _ _ h => absurd h readData_ne_error

/-! Accesses. -/

theorem ordinarily_throw_access {α : Type} (f : AccessFault) : Ordinarily (throw (.access f) : Exec α) :=
  fun s => ⟨(State.Ordinary.refl s).toCut, fun _ _ h => nomatch h⟩

theorem ordinarily_longCycles (lowFirst : Bool) (code : FunctionCode) (dir : Direction) (a v : Long) :
    Ordinarily (longCycles lowFirst code dir a v) :=
  ordinarily_ite
    (ordinarily_bind (ordinarily_busCycle _ _ _) fun _ => ordinarily_bind (ordinarily_busCycle _ _ _) fun _ => ordinarily_pure _)
    (ordinarily_bind (ordinarily_busCycle _ _ _) fun _ => ordinarily_bind (ordinarily_busCycle _ _ _) fun _ => ordinarily_pure _)

theorem ordinarily_accessCycles (sp : Space) (dir : Direction) (a : Long) (sz : Size) (v : Long) :
    Ordinarily (accessCycles sp dir a sz v) := by
  refine ordinarily_bind ordinarily_get fun s => ordinarily_bind ordinarily_raiseFetchError fun _ =>
    ordinarily_ite ?_ (ordinarily_ite
      (ordinarily_bind ordinarily_drawWord fun _ => ordinarily_bind ordinarily_drawWord fun _ => ordinarily_pure _)
      (ordinarily_throw_access _))
  cases sz
  · exact ordinarily_bind (ordinarily_busCycle _ _ _) fun _ => ordinarily_pure _
  · exact ordinarily_bind (ordinarily_busCycle _ _ _) fun _ => ordinarily_pure _
  · exact ordinarily_bind ordinarily_drawBit fun _ => ordinarily_longCycles _ _ _ _ _

theorem ordinarily_readMem (sp : Space) (a : Long) (sz : Size) : Ordinarily (readMem sp a sz) := by
  intro s
  unfold readMem
  split
  · exact State.Ordinary.refl s
  · exact ordinarily_accessCycles sp .read a sz 0 s

theorem ordinarily_writeMem (a : Long) (sz : Size) (v : Long) : Ordinarily (writeMem a sz v) := by
  intro s
  unfold writeMem
  split
  · exact State.Ordinary.storeMem a sz v s
  · exact ordinarily_bind (ordinarily_accessCycles .data .write a sz v) (fun _ => ordinarily_pure _) s

theorem ordinarily_rmwCycle (dir : Direction) (a : Long) (b : Byte) : Ordinarily (rmwCycle dir a b) :=
  ordinarily_bind ordinarily_get fun _ => ordinarily_bind (ordinarily_busCycle _ _ _) fun _ => ordinarily_pure _

theorem ordinarily_push32 (v : Long) : Ordinarily (push32 v) :=
  ordinarily_bind ordinarily_get fun _ => ordinarily_bind
    (ordinarily_onAbort (ordinarily_writeMem _ _ _) (.maybe (.setSp _))) fun _ => ordinarily_modify (.setSp _)

theorem ordinarily_pop16 : Ordinarily pop16 :=
  ordinarily_bind ordinarily_get fun _ => ordinarily_bind
    (ordinarily_onAbort (ordinarily_readMem _ _ _) (.maybe (.setSp _)))
    fun _ => ordinarily_bind (ordinarily_modify (.setSp _)) fun _ => ordinarily_pure _

theorem ordinarily_pop32 : Ordinarily pop32 :=
  ordinarily_bind ordinarily_get fun _ => ordinarily_bind
    (ordinarily_onAbort (ordinarily_readMem _ _ _) (.maybe (.setSp _)))
    fun _ => ordinarily_bind (ordinarily_modify (.setSp _)) fun _ => ordinarily_pure _

/-! Operands. -/

theorem ordinarily_resolveEa (ea : Ea) (sz : Size) : Ordinarily (resolveEa ea sz) :=
  State.Ordinary.resolve ea sz

theorem ordinarily_rd (loc : Loc) (sz : Size) : Ordinarily (rd loc sz) := by
  cases loc with
  | mem sp a => exact ordinarily_readMem sp a sz
  | _ => exact State.Ordinary.refl

theorem ordinarily_wr (loc : Loc) (sz : Size) (v : Long) : Ordinarily (wr loc sz v) := by
  cases loc with
  | mem sp a => exact ordinarily_writeMem a sz v
  | dreg n => exact ordinarily_modify (.setD sz n v)
  | areg n => exact ordinarily_modify (.setA n _)
  | imm v => exact ordinarily_pure ()

theorem ordinarily_readEa (ea : Ea) (sz : Size) : Ordinarily (readEa ea sz) :=
  ordinarily_bind (ordinarily_resolveEa ea sz) fun loc => ordinarily_rd loc sz

theorem ordinarily_eaAddress (ea : Ea) : Ordinarily (eaAddress ea) :=
  ordinarily_bind (ordinarily_resolveEa ea .long) fun _ => ordinarily_pure _

theorem ordinarily_wrFlagged (loc : Loc) (sz : Size) (r : Long) (cc : Ccr) : Ordinarily (wrFlagged loc sz r cc) :=
  ordinarily_bind (ordinarily_wr loc sz r) fun _ => ordinarily_modify (.setCcr cc)

/-! The shapes that instructions share. -/

/-- The body of an instruction as a sequence of ordinary operations. -/
theorem ordinarily_setDCcr (f : State → Long × Ccr) (sz : Size) (n : Reg) :
    Ordinarily (modify fun s => (s.setD sz n (f s).1).setCcr (f s).2 : Exec Unit) :=
  ordinarily_modify fun s => (State.Ordinary.setD sz n _ s).trans (.setCcr _ _)

theorem ordinarily_aluToReg (alu : Alu) (sz : Size) (ea : Ea) (dn : Reg) : Ordinarily (aluToReg alu sz ea dn) :=
  ordinarily_bind (ordinarily_readEa ea sz) fun src =>
    ordinarily_setDCcr (fun s => alu sz s.sr.ccr src (trunc sz (s.dreg dn))) sz dn

theorem ordinarily_aluOnEa (alu : Alu) (sz : Size) (src : Long) (ea : Ea) : Ordinarily (aluOnEa alu sz src ea) :=
  ordinarily_bind (ordinarily_resolveEa ea sz) fun loc => ordinarily_bind (ordinarily_rd loc sz) fun _ =>
    ordinarily_bind ordinarily_get fun _ => ordinarily_wrFlagged loc sz _ _

theorem ordinarily_aluToMem (alu : Alu) (sz : Size) (dn : Reg) (ea : Ea) : Ordinarily (aluToMem alu sz dn ea) :=
  ordinarily_bind (ordinarily_resolveEa ea sz) fun loc => ordinarily_bind (ordinarily_rd loc sz) fun _ =>
    ordinarily_bind ordinarily_get fun _ => ordinarily_wrFlagged loc sz _ _

theorem ordinarily_aluImm (alu : Alu) (sz : Size) (imm : Long) (ea : Ea) : Ordinarily (aluImm alu sz imm ea) :=
  ordinarily_bind (ordinarily_modify (.advance _)) fun _ => ordinarily_aluOnEa alu sz _ ea

theorem ordinarily_unaryOnEa (alu : Size → Ccr → Long → Long × Ccr) (sz : Size) (ea : Ea) :
    Ordinarily (unaryOnEa alu sz ea) :=
  ordinarily_bind (ordinarily_resolveEa ea sz) fun loc => ordinarily_bind (ordinarily_rd loc sz) fun _ =>
    ordinarily_bind ordinarily_get fun _ => ordinarily_wrFlagged loc sz _ _

theorem ordinarily_addrArith (f : Long → Long → Long) (sz : AddrSize) (ea : Ea) (an : Reg) :
    Ordinarily (addrArith f sz ea an) :=
  ordinarily_bind (ordinarily_readEa ea _) fun _ => ordinarily_modify fun s => .setA an _ s

theorem ordinarily_aluExtended (alu : Alu) (sz : Size) (mem : Bool) (ry rx : Reg) :
    Ordinarily (aluExtended alu sz mem ry rx) :=
  ordinarily_ite (ordinarily_bind (ordinarily_readEa _ _) fun src => ordinarily_aluOnEa alu sz src _)
    (ordinarily_aluToReg alu sz _ rx)

theorem ordinarily_quickBody (alu : Alu) (f : Long → Long → Long) (q : Fin 8) (sz : Size) (ea : Ea) :
    Ordinarily (quickBody alu f q sz ea) := by
  unfold quickBody
  split
  · exact ordinarily_modify fun s => .setA _ _ s
  · exact ordinarily_aluOnEa alu sz _ ea

theorem ordinarily_readThenIncrement (sz : Size) (n : Reg) : Ordinarily (readThenIncrement sz n) :=
  ordinarily_bind ordinarily_get fun _ => ordinarily_bind
    (ordinarily_onAbort (ordinarily_readMem _ _ _) (.maybe (.setA n _)))
    fun _ => ordinarily_bind (ordinarily_modify (.setA n _)) fun _ => ordinarily_pure _

/-- Flags computed from the state. -/
theorem ordinarily_setCcr (f : State → Ccr) : Ordinarily (modify fun s => s.setCcr (f s) : Exec Unit) :=
  ordinarily_modify fun s => .setCcr _ s

theorem ordinarily_mulBody (f : Word → Word → Long) (ea : Ea) (dn : Reg) : Ordinarily (mulBody f ea dn) :=
  ordinarily_bind (ordinarily_readEa ea .word) fun src =>
    ordinarily_setDCcr (fun s => (f (lowWord (s.dreg dn)) (lowWord src), moveFlags .long s.sr.ccr _)) .long dn

theorem ordinarily_bcdResult (f : Nat → Nat → Bool → Byte × Bool) (src dst : Long) : Ordinarily (bcdResult f src dst) := by
  refine ordinarily_bind ordinarily_get fun _ => ordinarily_bind ordinarily_drawBit fun _ =>
    ordinarily_bind ordinarily_drawBit fun _ => ?_
  split
  · exact ordinarily_pure _
  · exact ordinarily_bind ordinarily_drawByte fun _ => ordinarily_bind ordinarily_drawBit fun _ =>
      ordinarily_bind ordinarily_drawBit fun _ => ordinarily_bind ordinarily_drawBit fun _ => ordinarily_pure _

theorem ordinarily_bcdOnEa (f : Nat → Nat → Bool → Byte × Bool) (src : Long) (ea : Ea) : Ordinarily (bcdOnEa f src ea) :=
  ordinarily_bind (ordinarily_resolveEa ea .byte) fun loc => ordinarily_bind (ordinarily_rd loc .byte) fun _ =>
    ordinarily_bind (ordinarily_bcdResult f src _) fun _ => ordinarily_wrFlagged loc .byte _ _

theorem ordinarily_bcdBody (f : Nat → Nat → Bool → Byte × Bool) (mem : Bool) (ry rx : Reg) :
    Ordinarily (bcdBody f mem ry rx) := by
  unfold bcdBody
  split
  exact ordinarily_bind (ordinarily_readEa _ .byte) fun src => ordinarily_bcdOnEa f src _

theorem ordinarily_bitBody (op : BitOp) (b : Byte) (ea : Ea) : Ordinarily (bitBody op b ea) := by
  refine ordinarily_bind (ordinarily_resolveEa ea _) fun loc => ordinarily_bind (ordinarily_rd loc _) fun _ =>
    ordinarily_bind ordinarily_get fun _ => ?_
  cases op with
  | test => exact ordinarily_modify (.setCcr _)
  | _ => exact ordinarily_wrFlagged loc _ _ _

theorem ordinarily_bitStatic (op : BitOp) (b : Byte) (ea : Ea) : Ordinarily (bitStatic op b ea) :=
  ordinarily_bind (ordinarily_modify (.advance 2)) fun _ => ordinarily_bitBody op b ea

theorem ordinarily_bitDynamic (op : BitOp) (dn : Reg) (ea : Ea) : Ordinarily (bitDynamic op dn ea) :=
  ordinarily_bind ordinarily_get fun _ => ordinarily_bitBody op _ ea

theorem ordinarily_callBody (ret target : Long) : Ordinarily (callBody ret target) :=
  ordinarily_ite
    (ordinarily_bind ordinarily_drawBit fun _ =>
      ordinarily_ite (ordinarily_bind (ordinarily_push32 ret) fun _ => ordinarily_modify (.jump target))
        (ordinarily_modify (.jump target)))
    (ordinarily_bind (ordinarily_push32 ret) fun _ => ordinarily_modify (.jump target))

theorem ordinarily_moveStore (sz : Size) (v : Long) (dst : Ea) : Ordinarily (moveStore sz v dst) :=
  ordinarily_bind (ordinarily_resolveEa dst sz) fun loc => ordinarily_bind ordinarily_get fun _ =>
    ordinarily_wrFlagged loc sz v _

theorem ordinarily_moveBody (sz : Size) (src dst : Ea) : Ordinarily (moveBody sz src dst) :=
  ordinarily_bind (ordinarily_readEa src sz) fun v => ordinarily_moveStore sz v dst

theorem ordinarily_moveaBody (sz : Size) (src : Ea) (an : Reg) : Ordinarily (moveaBody sz src an) :=
  ordinarily_bind (ordinarily_readEa src sz) fun _ => ordinarily_modify (.setA an _)

theorem ordinarily_storeUp (sz : Size) (rs : List (Fin 16)) (a : Long) : Ordinarily (storeUp sz rs a) := by
  induction rs generalizing a with
  | nil => exact ordinarily_pure ()
  | cons r rs ih => exact ordinarily_bind ordinarily_get fun _ => ordinarily_bind (ordinarily_writeMem _ _ _) fun _ => ih _

theorem ordinarily_storeDown (sz : Size) (rs : List (Fin 16)) (a : Long) : Ordinarily (storeDown sz rs a) := by
  induction rs generalizing a with
  | nil => exact ordinarily_pure ()
  | cons r rs ih => exact ordinarily_bind ordinarily_get fun _ => ordinarily_bind (ordinarily_writeMem _ _ _) fun _ => ih _

theorem ordinarily_loadUp (sz : Size) (sp : Space) (rs : List (Fin 16)) (a : Long) : Ordinarily (loadUp sz sp rs a) := by
  induction rs generalizing a with
  | nil => exact ordinarily_pure ()
  | cons r rs ih =>
    exact ordinarily_bind (ordinarily_readMem _ _ _) fun _ => ordinarily_bind (ordinarily_modify (.setGpr r _)) fun _ => ih _

theorem ordinarily_storeAlternate (bs : List Byte) (a : Long) : Ordinarily (storeAlternate bs a) := by
  induction bs generalizing a with
  | nil => exact ordinarily_pure ()
  | cons b bs ih => exact ordinarily_bind (ordinarily_writeMem _ _ _) fun _ => ih _

theorem ordinarily_loadAlternate (k : Nat) (a acc : Long) : Ordinarily (loadAlternate k a acc) := by
  induction k generalizing a acc with
  | zero => exact ordinarily_pure _
  | succ k ih => exact ordinarily_bind (ordinarily_readMem _ _ _) fun _ => ih _ _

theorem ordinarily_movepStore (sz : AddrSize) (dn an : Reg) (d : Word) : Ordinarily (movepStore sz dn an d) :=
  ordinarily_bind (ordinarily_modify (.advance 2)) fun _ => ordinarily_bind ordinarily_get fun _ =>
    ordinarily_storeAlternate _ _

theorem ordinarily_movepLoad (sz : AddrSize) (dn an : Reg) (d : Word) : Ordinarily (movepLoad sz dn an d) :=
  ordinarily_bind (ordinarily_modify (.advance 2)) fun _ => ordinarily_bind ordinarily_get fun _ =>
    ordinarily_bind (ordinarily_loadAlternate _ _ _) fun _ => ordinarily_modify (.setD _ dn _)

theorem ordinarily_shiftReg (k : ShiftKind) (sz : Size) (count : ShiftCount) (dn : Reg) :
    Ordinarily (shiftReg k sz count dn) :=
  ordinarily_setDCcr (fun s => shiftAlu k sz (s.shiftCount count) s.sr.ccr (trunc sz (s.dreg dn))) sz dn

theorem ordinarily_shiftMem (k : ShiftKind) (ea : Ea) : Ordinarily (shiftMem k ea) := ordinarily_unaryOnEa _ _ ea

theorem ordinarily_ccrLogic (f : Word → Word → Word) (imm : Byte) : Ordinarily (ccrLogic f imm) :=
  ordinarily_modify fun s => (State.Ordinary.advance 2 s).trans (.setCcr _ _)

end Sys2Proof.Machine
end

section
/-! PROOFS. Exception processing (R430, R450) as a whole: from the state that enters it only ordinary changes are made until
the program counter is loaded from one of the 256 vectors, or it is cut short. -/

namespace Sys2Proof.Machine

open Sys2Proof

/-! Stacking: in supervisor state SSP may change. -/

theorem State.Ordinary.setSsp {s : State} (hs : s.sr.s = true) (v : Long) (k : Nat) :
    s.Ordinary { s with ssp := v, drawCount := k } := registers (fun h => nomatch hs.symm.trans h) (.inl rfl)

theorem State.Ordinary.storeFrame (a : Long) (ws : List Word) (s : State) : s.Ordinary (s.storeFrame a ws) :=
  memory fun h => State.storeFrame_wf h a ws

theorem ordinarily_stackInAnyOrder (k : Nat) (cells : List (Long × Word)) : Ordinarily (stackInAnyOrder k cells) := by
  induction k generalizing cells with
  | zero => exact ordinarily_pure ()
  | succ k ih =>
    refine ordinarily_bind (ordinarily_drawBelow _) fun i => ?_
    split
    · exact ordinarily_pure ()
    · exact ordinarily_bind (ordinarily_busCycle _ _ _) fun _ => ih _

/-- Stacking a frame in supervisor state changes memory and SSP (R424). -/
theorem stackFrame_ordinary {s : State} (hs : s.sr.s = true) (ws : List Word) : s.OrdinaryResult (stackFrame ws s) := by
  unfold stackFrame
  dsimp only
  split
  · split
    · exact (State.Ordinary.storeFrame _ ws s).trans (.setSsp (s := s.storeFrame _ ws) hs _ s.drawCount)
    · refine ((ordinarily_stackInAnyOrder _ _ s).onAbort fun u hu => ?_).bind fun _ u hu => ?_
      · exact (State.Ordinary.setSsp (hu.supervisor.trans hs) _ _).toCut
      · exact State.Ordinary.setSsp (hu.supervisor.trans hs) _ u.drawCount
  · exact ⟨(State.Ordinary.setSsp hs _ s.drawCount).toCut, fun _ _ h => nomatch h⟩

/-! The vector number (R425): one of 256. -/

theorem ordinarily_vectorNumber (level : Fin 8) (data : Option Word) : Ordinarily (vectorNumber level data) := by
  intro s
  unfold vectorNumber
  dsimp only
  split
  · exact ordinarily_bind (ordinarily_readData _ data) (fun _ => ordinarily_pure _) s
  · split
    · exact State.Ordinary.refl s
    · exact ordinarily_bind ordinarily_drawByte (fun _ => ordinarily_pure _) s

theorem ordinarily_throw_unanswered {α : Type} : Ordinarily (throw .unanswered : Exec α) :=
  fun s => ⟨(State.Ordinary.refl s).toCut, fun _ _ h => nomatch h⟩

theorem ordinarily_endAcknowledge (level : Fin 8) (answer : Option BusAnswer) (data : Option Word) :
    Ordinarily (endAcknowledge level answer data) := by
  refine ordinarily_bind ordinarily_get fun s => ?_
  split
  · exact ordinarily_vectorNumber level data
  · exact ordinarily_vectorNumber level data
  · exact ordinarily_pure _
  · exact ordinarily_pure _
  · exact ordinarily_throw_unanswered

theorem State.Ordinary.masterWrites (ws : List MasterWrite) (s : State) : s.Ordinary (s.masterWrites ws) := by
  have hwf := fun h => State.masterWrites_wf (s := s) h ws
  obtain ⟨m, hm⟩ := s.masterWrites_eq ws
  rw [hm] at hwf ⊢
  exact memory hwf

/-- The acknowledge cycle uses up what the platform has in store. -/
theorem acknowledge_ordinary (level : Fin 8) {s t : State} {es : List CycleInput} (h : s.Ordinary t)
    (hes : s.cycles = [] → es = []) : s.OrdinaryResult (acknowledge level es t) := by
  induction es generalizing t with
  | nil => exact .after h (ordinarily_endAcknowledge level none none t)
  | cons e es ih =>
    have hstore : s.cycles ≠ [] := fun h0 => nomatch hes h0
    have hentry : s.Ordinary { t.masterWrites e.before with cycles := es } :=
      { h.trans (.masterWrites e.before t) with cycles := fun h0 => absurd h0 hstore }
    unfold acknowledge
    dsimp only
    split
    · exact ⟨hentry.toCut, fun h0 => absurd h0 hstore⟩
    · split
      · exact ih hentry fun h0 => absurd h0 hstore
      · exact .after hentry (ordinarily_endAcknowledge level _ _ _)

theorem ordinarily_fetchVector (k : ExcKind) : Ordinarily (fetchVector k) := by
  intro s
  cases k with
  | interrupt level => exact acknowledge_ordinary level (.refl s) id
  | _ => exact State.Ordinary.refl s

theorem lane_toNat_lt {c : BusCycle} (hc : c.width = .byte) (w : Word) : (c.lane w).toNat < 256 := by
  unfold BusCycle.lane
  rw [hc]
  dsimp only
  split
  all_goals
    rw [BitVec.toNat_setWidth]
    exact Nat.lt_of_le_of_lt (Nat.mod_le _ _) (BitVec.isLt _)

/-- What a byte cycle reads is a byte. -/
theorem readData_lt {c : BusCycle} (hc : c.width = .byte) {data : Option Word} {s t : State} {w : Word}
    (h : readData c data s = .ok w t) : w.toNat < 256 := by
  unfold readData at h
  split at h
  · cases h; exact lane_toNat_lt hc _
  · split at h
    · cases h; exact lane_toNat_lt hc _
    · cases h
      rw [State.memData, hc]
      dsimp only
      rw [BitVec.toNat_setWidth]
      exact Nat.lt_of_le_of_lt (Nat.mod_le _ _) (BitVec.isLt _)

theorem vectorNumber_lt {level : Fin 8} {data : Option Word} {s t : State} {n : Nat}
    (h : vectorNumber level data s = .ok n t) : n < 256 := by
  unfold vectorNumber at h
  dsimp only at h
  split at h
  · rw [run_bind] at h
    cases hw : readData (iackCycle level) data s with
    | ok w u => rw [hw] at h; cases h; exact readData_lt rfl hw
    | error e u => rw [hw] at h; cases h
  · split at h
    · cases h; exact lane_toNat_lt rfl _
    · cases h; exact BitVec.isLt _

theorem endAcknowledge_lt {level : Fin 8} {answer : Option BusAnswer} {data : Option Word} {s t : State} {n : Nat}
    (h : endAcknowledge level answer data s = .ok n t) : n < 256 := by
  unfold endAcknowledge at h
  rw [run_bind_ok (run_get s)] at h
  cases ha : answer.getD (s.iackAnswer level) <;> simp only [ha] at h
  case dtack => exact vectorNumber_lt h
  case rerun => exact vectorNumber_lt h
  case vpa => cases h; omega
  case berr => cases h; omega
  case none => cases h

theorem acknowledge_lt {level : Fin 8} {es : List CycleInput} {s t : State} {n : Nat}
    (h : acknowledge level es s = .ok n t) : n < 256 := by
  induction es generalizing s with
  | nil => exact endAcknowledge_lt h
  | cons e es ih =>
    unfold acknowledge at h
    dsimp only at h
    split at h
    · cases h
    · split at h
      · exact ih h
      · exact endAcknowledge_lt h

theorem fetchVector_lt {k : ExcKind} {s t : State} {n : Nat} (h : fetchVector k s = .ok n t) : n < 256 := by
  cases k with
  | interrupt level => exact acknowledge_lt h
  | trap v => cases h; omega
  | _ => cases h; decide

/-! From the state that enters exception processing to its end. -/

/-- A state that has gone from another, ordinary changes apart, through a vector (R430 step 4). -/
def State.Vectored (s : State) (n : Nat) (t : State) : Prop :=
  ∃ u v w, s.Ordinary u ∧ readMem .data (vectorAddress n) .long u = .ok v w ∧
    t = { w.jump v with procState := .normal }

/-- Exception processing from the state that enters it: through one of the 256 vectors, or cut short. -/
def State.ExceptionResult (s : State) : EStateM.Result Abort State Unit → Prop
  | .ok _ t => ∃ n < 256, s.Vectored n t
  | .error e t => s.Cut t ∧ (s.cycles = [] → ∀ level, e ≠ .reset level)

namespace State.ExceptionResult

variable {α : Type} {m : Exec α} {s t : State}

theorem bind {f : α → Exec Unit} (hm : s.OrdinaryResult (m t))
    (hf : ∀ a u, m t = .ok a u → s.Ordinary u → s.ExceptionResult (f a u)) : s.ExceptionResult ((m >>= f) t) := by
  rw [run_bind]
  cases h : m t with
  | ok a u => exact hf a u h (hm.ok h)
  | error e u => exact ⟨hm.error h, hm.noReset h⟩

end State.ExceptionResult

theorem loadVector_result {s t : State} (h : s.Ordinary t) {n : Nat} (hn : n < 256) :
    s.ExceptionResult (loadVector n t) := by
  unfold loadVector
  rw [run_bind]
  have hread := ordinarily_readMem .data (vectorAddress n) .long t
  cases hr : readMem .data (vectorAddress n) .long t with
  | ok v w => exact ⟨n, hn, t, v, w, h, hr, rfl⟩
  | error e w => exact ⟨h.toCut.trans (hread.error hr), fun hs => hread.noReset hr (h.cycles hs)⟩

/-- The frame stacked and the vector read (R430 steps 3 and 4), in supervisor state. -/
theorem stackFrame_loadVector_result {s t : State} (hs : s.sr.s = true) (h : s.Ordinary t) (ws : List Word) {n : Nat}
    (hn : n < 256) : s.ExceptionResult ((stackFrame ws >>= fun _ => loadVector n) t) :=
  .bind (.after h (stackFrame_ordinary (h.supervisor.trans hs) ws)) fun _ _ _ hu => loadVector_result hu hn

/-- Every exception but reset, bus error and address error enters by its first step (R430). -/
theorem takeException_result (k : ExcKind) (pc : Long) (s : State) :
    (s.beginException k).ExceptionResult (takeException k pc s) := by
  unfold takeException
  rw [run_bind_ok (run_modify _ s)]
  refine .bind (ordinarily_fetchVector k _) fun n u hn hu => ?_
  rw [run_bind_ok (run_get u)]
  exact stackFrame_loadVector_result rfl hu _ (fetchVector_lt hn)

/-- The state that enters bus and address error processing (R430 step 1, R452). -/
def State.enterGroup0 (s : State) : State := { s.enterException .group0 with traceAtStart := false }

theorem AccessKind.vector_lt (k : AccessKind) : k.vector < 256 := by cases k <;> decide

theorem takeGroup0_result (f : AccessFault) (s : State) : s.enterGroup0.ExceptionResult (takeGroup0 f s) := by
  unfold takeGroup0
  rw [run_bind_ok (run_get s), run_bind_ok (run_modify _ s)]
  refine .bind (ordinarily_drawWord _) fun top u _ hu => .bind (.after hu (ordinarily_drawBelow 5 u)) fun k u _ hu => ?_
  rw [run_bind_ok (run_get u)]
  exact stackFrame_loadVector_result rfl hu _ f.kind.vector_lt

/-! The reset sequence (R491). -/

/-- The state that enters the reset sequence. -/
def State.enterReset (level : Fin 8) (s : State) : State :=
  { s with
    procState := .exception .group0, inGroup0 := true, nmi := false, prefetch := [], traceAtStart := false
    pendingIrq := level, prevIrqLevel := level, busOwner := .processor, fetchError := none
    sr := { s.sr with s := true, t := false, mask := 7 } }

theorem ordinarily_readResetVector (a : Long) : Ordinarily (readResetVector a) := by
  intro s
  unfold readResetVector
  split
  · exact State.Ordinary.refl s
  · exact ordinarily_longCycles _ _ _ _ _ s

/-- The reset sequence ends at the program counter read, or is cut short. -/
theorem resetException_cases (level : Fin 8) (s : State) :
    (∀ a t, resetException level s = .ok a t →
      ∃ u pc, (s.enterReset level).Ordinary u ∧ t = { u with pc := pc, procState := .normal }) ∧
    (∀ e t, resetException level s = .error e t → (s.enterReset level).Cut t) := by
  have hssp := ordinarily_readResetVector 0 (s.enterReset level)
  unfold resetException
  rw [run_bind_ok (run_modify _ s)]
  show (∀ a t, (readResetVector 0 >>= _ : Exec Unit) (s.enterReset level) = _ → _) ∧
    (∀ e t, (readResetVector 0 >>= _ : Exec Unit) (s.enterReset level) = _ → _)
  rw [run_bind]
  cases h0 : readResetVector 0 (s.enterReset level) with
  | error e u => exact ⟨fun _ _ h => (nomatch h), fun _ _ h => (by cases h; exact hssp.error h0)⟩
  | ok v u =>
    have hu : (s.enterReset level).Ordinary { u with ssp := v } :=
      (hssp.ok h0).trans (.setSsp ((hssp.ok h0).supervisor.trans rfl) v u.drawCount)
    have hpc := ordinarily_readResetVector 4 { u with ssp := v }
    dsimp only
    rw [run_bind_ok (run_modify _ u), run_bind]
    cases h4 : readResetVector 4 { u with ssp := v } with
    | error e w => exact ⟨fun _ _ h => (nomatch h), fun _ _ h => (by cases h; exact hu.toCut.trans (hpc.error h4))⟩
    | ok v' w => exact ⟨fun _ _ h => (by cases h; exact ⟨w, v', hu.trans (hpc.ok h4), rfl⟩), fun _ _ h => (nomatch h)⟩

/-- The reset sequence ends at the program counter it reads, or halts the processor, or another reset begins it anew (R491,
R492). -/
theorem runReset_cases {fuel : Nat} {level : Fin 8} {s t : State} (h : runReset fuel level s = .next t) :
    ∃ v, (s.enterReset level).Cut v ∧ ((t = v.halt ∨ ∃ pc, t = { v with pc := pc, procState := .normal }) ∨
      ∃ n l, fuel = n + 1 ∧ runReset n l v = .next t) := by
  obtain ⟨hok, herror⟩ := resetException_cases level s
  unfold runReset at h
  cases hr : resetException level s with
  | ok a w =>
    obtain ⟨v, pc, hv, rfl⟩ := hok _ _ hr
    rw [hr] at h
    cases h
    exact ⟨v, hv.toCut, .inl (.inr ⟨pc, rfl⟩)⟩
  | error e w =>
    rw [hr] at h
    refine ⟨w, herror _ _ hr, ?_⟩
    cases e with
    | unanswered => cases h
    | access f => cases h; exact .inl (.inl rfl)
    | reset l =>
      cases fuel with
      | zero => cases h; exact .inl (.inl rfl)
      | succ n => exact .inr ⟨n, l, rfl, h⟩

/-- Where the reset sequence ends, from a state with what ordinary changes and its beginning keep. -/
theorem runReset_ends {P : State → Prop} (henter : ∀ level s, P s → P (s.enterReset level))
    (hcut : ∀ s t : State, s.Cut t → P s → P t) {fuel : Nat} {level : Fin 8} {s t : State} (hs : P s)
    (h : runReset fuel level s = .next t) :
    ∃ l u v, P u ∧ (u.enterReset l).Cut v ∧ (t = v.halt ∨ ∃ pc, t = { v with pc := pc, procState := .normal }) := by
  induction fuel generalizing level s with
  | zero =>
    obtain ⟨v, hv, hend | ⟨n, l, hn, -⟩⟩ := runReset_cases h
    · exact ⟨level, s, v, hs, hv, hend⟩
    · cases hn
  | succ fuel ih =>
    obtain ⟨v, hv, hend | ⟨n, l, hn, hagain⟩⟩ := runReset_cases h
    · exact ⟨level, s, v, hs, hv, hend⟩
    · cases hn
      exact ih (hcut _ _ hv (henter _ _ hs)) hagain

end Sys2Proof.Machine
end

section
/-! PROOFS. The family of spec 60, the confinement of user state (O22): the body of an instruction makes ordinary changes and
may end in exception processing, the only way to supervisor state but a reset (R423). -/

namespace Sys2Proof.Machine

open Sys2Proof

/-! The bodies of the instructions. -/

/-- What the body of an instruction that is not privileged ends in, from the state in which it begins: ordinary changes, or
exception processing after them (R222, R356 to R358). -/
def State.BodyResult (s : State) (r : EStateM.Result Abort State Unit) : Prop :=
  s.OrdinaryResult r ∨ ∃ u k, s.Ordinary u ∧ (u.beginException k).ExceptionResult r

/-- A computation that is such a body. -/
def IsBody (body : Exec Unit) : Prop := ∀ s : State, s.BodyResult (body s)

theorem Ordinarily.isBody {body : Exec Unit} (h : Ordinarily body) : IsBody body := fun s => .inl (h s)

theorem isBody_takeException (k : ExcKind) (pc : Long) : IsBody (takeException k pc) :=
  fun s => .inr ⟨s, k, .refl s, takeException_result k pc s⟩

theorem State.BodyResult.after {s t : State} {r : EStateM.Result Abort State Unit} (h : s.Ordinary t)
    (hr : t.BodyResult r) : s.BodyResult r :=
  hr.imp (.after h) fun ⟨u, k, hu, hr⟩ => ⟨u, k, h.trans hu, hr⟩

theorem isBody_bind {α : Type} {m : Exec α} {f : α → Exec Unit} (hm : Ordinarily m) (hf : ∀ a, IsBody (f a)) :
    IsBody (m >>= f) := by
  intro s
  cases h : m s with
  | ok a t =>
    rw [run_bind_ok h]
    exact .after ((hm s).ok h) (hf a t)
  | error e t =>
    rw [run_bind_error h]
    exact .inl ⟨(hm s).error h, (hm s).noReset h⟩

/-- The flags of a body cut short are old or new (U3), which is an ordinary change too. -/
theorem IsBody.flagsOldOrNew {body : Exec Unit} (h : IsBody body) : IsBody (flagsOldOrNew body) := by
  intro s
  have hs := h s
  cases hr : body s with
  | ok a t => rwa [flagsOldOrNew_ok hr, ← hr]
  | error e t =>
    rw [flagsOldOrNew_error hr]
    rw [hr] at hs
    have hflags := State.Ordinary.openFlags (s.afterSupposed body) t
    exact hs.imp (fun h => ⟨h.1.trans hflags.toCut, h.2⟩) fun ⟨u, k, hu, h⟩ => ⟨u, k, hu, h.1.trans hflags.toCut, h.2⟩

theorem isBody_ite {c : Prop} [Decidable c] {m n : Exec Unit} (hm : IsBody m) (hn : IsBody n) :
    IsBody (if c then m else n) := by
  split
  · exact hm
  · exact hn

theorem isBody_divBody (div : Divider) (ea : Ea) (dn : Reg) : IsBody (divBody div ea dn) := by
  refine isBody_bind (ordinarily_readEa ea .word) fun src => isBody_ite ?zero ?nonzero
  case zero =>
    exact isBody_bind ordinarily_drawBit fun _ => isBody_bind ordinarily_drawBit fun _ => isBody_bind ordinarily_drawBit fun _ =>
      isBody_bind (ordinarily_setCcr _) fun _ => isBody_bind ordinarily_get fun _ => isBody_takeException _ _
  case nonzero =>
    refine isBody_bind ordinarily_get fun s => ?_
    split
    · exact isBody_bind ordinarily_drawBit fun _ => isBody_bind ordinarily_drawBit fun _ => (ordinarily_setCcr _).isBody
    · next q r _ =>
      exact (ordinarily_setDCcr (fun s => (joinWords r q, moveFlags .word s.sr.ccr (q.setWidth 32))) .long dn).isBody

/-- CHK (R358). -/
theorem exec_chk_body (ea : Ea) (dn : Reg) : ∃ body, IsBody body ∧ ∀ s, exec (.chk ea dn) s = runInstr body s := by
  refine ⟨_, ?_, fun _ => rfl⟩
  refine isBody_bind (ordinarily_readEa ea .word) fun bound => isBody_bind ordinarily_get fun s =>
    isBody_bind ordinarily_drawBit fun _ => isBody_bind ordinarily_drawBit fun _ => isBody_bind ordinarily_drawBit fun _ =>
    isBody_ite ?below (isBody_ite ?above ?within)
  case below => exact isBody_bind (ordinarily_setCcr _) fun _ => isBody_takeException _ _
  case above => exact isBody_bind (ordinarily_setCcr _) fun _ => isBody_takeException _ _
  case within => exact isBody_bind ordinarily_drawBit fun _ => (ordinarily_setCcr _).isBody

/-- MOVEM and MOVEP, LINK and UNLK: transfers, and a register that is old or new where one of them is cut short. -/
theorem exec_transfer_ordinarily (sz : AddrSize) (mask d : Word) (ea : Ea) (an : Reg) {i : Instr}
    (hi : i ∈ [Instr.movemStore sz mask ea, .movemLoad sz mask ea, .link an d, .unlk an]) :
    ∃ body, Ordinarily body ∧ ∀ s, exec i s = runInstr body s := by
  simp only [List.mem_cons, List.not_mem_nil, or_false] at hi
  obtain rfl | rfl | rfl | rfl := hi
  · refine ⟨_, ?_, fun _ => rfl⟩
    refine ordinarily_bind (ordinarily_modify (.advance 2)) fun _ => ?_
    split
    · exact ordinarily_bind ordinarily_get fun _ => ordinarily_bind
        (ordinarily_onAbort (ordinarily_storeDown _ _ _) (.maybe (.setA _ _))) fun _ => ordinarily_modify (.setA _ _)
    · exact ordinarily_bind (ordinarily_eaAddress ea) fun _ => ordinarily_storeUp _ _ _
  · refine ⟨_, ?_, fun _ => rfl⟩
    refine ordinarily_bind (ordinarily_modify (.advance 2)) fun _ => ?_
    dsimp only
    split
    · exact ordinarily_bind ordinarily_get fun _ => ordinarily_bind
        (ordinarily_onAbort (ordinarily_bind (ordinarily_loadUp _ _ _ _) fun _ =>
          ordinarily_bind (ordinarily_readMem _ _ _) fun _ => ordinarily_pure _) (.maybe (.setA _ _)))
        fun _ => ordinarily_modify (.setA _ _)
    · exact ordinarily_bind (ordinarily_resolveEa ea _) fun _ => ordinarily_bind (ordinarily_loadUp _ _ _ _) fun _ =>
        ordinarily_bind (ordinarily_readMem _ _ _) fun _ => ordinarily_pure _
  · refine ⟨_, ?_, fun _ => rfl⟩
    exact ordinarily_bind (ordinarily_modify (.advance 2)) fun _ => ordinarily_bind ordinarily_get fun _ =>
      ordinarily_bind (ordinarily_onAbort (ordinarily_writeMem _ _ _)
        fun s => (State.Ordinary.maybe (.setSp _) s).trans
          ((State.Ordinary.maybe (.setA an _) _).trans (.maybe (.setSp _) _)))
        fun _ => ordinarily_modify fun s => (State.Ordinary.setSp _ s).trans ((State.Ordinary.setA an _ _).trans (.setSp _ _))
  · refine ⟨_, ?_, fun _ => rfl⟩
    refine ordinarily_bind ordinarily_get fun _ => ordinarily_bind (ordinarily_onAbort (ordinarily_readMem _ _ _)
      fun s => (State.Ordinary.maybe (.setSp _) s).trans (.maybe (.setSp _) _)) fun _ => ordinarily_modify fun s => ?_
    unfold unlkFinish
    split
    · exact .setSp _ s
    · exact (State.Ordinary.setA an _ s).trans (.setSp _ _)

/-- EXG: two registers (R181). -/
theorem exec_exg_ordinarily (rx ry : Reg) {i : Instr} (hi : i ∈ [Instr.exgData rx ry, .exgAddr rx ry, .exgDataAddr rx ry]) :
    ∃ body, Ordinarily body ∧ ∀ s, exec i s = runInstr body s := by
  simp only [List.mem_cons, List.not_mem_nil, or_false] at hi
  obtain rfl | rfl | rfl := hi
  · refine ⟨modify fun s => (s.setD .long rx (s.dreg ry)).setD .long ry (s.dreg rx), ?_, fun _ => rfl⟩
    exact ordinarily_modify fun s => (State.Ordinary.setD .long rx _ s).trans (.setD .long ry _ _)
  · refine ⟨modify fun s => (s.setA rx (s.areg ry)).setA ry (s.areg rx), ?_, fun _ => rfl⟩
    exact ordinarily_modify fun s => (State.Ordinary.setA rx _ s).trans (.setA ry _ _)
  · refine ⟨modify fun s => (s.setD .long rx (s.areg ry)).setA ry (s.dreg rx), ?_, fun _ => rfl⟩
    exact ordinarily_modify fun s => (State.Ordinary.setD .long rx _ s).trans (.setA ry _ _)

/-- SWAP, EXT and MOVEQ: one data register and the flags (R191, R224, R189). -/
theorem exec_setDCcr_ordinarily (dn : Reg) (sz : AddrSize) (d : Byte) {i : Instr}
    (hi : i ∈ [Instr.swap dn, .extReg sz dn, .moveq dn d]) :
    ∃ body, Ordinarily body ∧ ∀ s, exec i s = runInstr body s := by
  have body (size : Size) (v : State → Long) :
      Ordinarily (modify fun s => (s.setD size dn (v s)).setCcr (moveFlags size s.sr.ccr (v s)) : Exec Unit) :=
    ordinarily_setDCcr (fun s => (v s, moveFlags size s.sr.ccr (v s))) size dn
  simp only [List.mem_cons, List.not_mem_nil, or_false] at hi
  obtain rfl | rfl | rfl := hi
  · exact ⟨_, body .long fun s => joinWords (lowWord (s.dreg dn)) (highWord (s.dreg dn)), fun _ => rfl⟩
  · exact ⟨_, body sz.toSize fun s => match sz with
      | .word => trunc .word (signExtend .byte (s.dreg dn))
      | .long => signExtend .word (s.dreg dn), fun _ => by cases sz <;> rfl⟩
  · exact ⟨_, body .long fun _ => sextByte d, fun _ => rfl⟩

/-- BRA, Bcc and DBcc: the program counter, and a counter (R323, R324, R326). -/
theorem exec_branch_ordinarily (cond : Cond) (disp : BranchDisp) (dn : Reg) (d : Word) {i : Instr}
    (hi : i ∈ [Instr.bra disp, .bcc cond disp, .dbcc cond dn d]) :
    ∃ body, Ordinarily body ∧ ∀ s, exec i s = runInstr body s := by
  simp only [List.mem_cons, List.not_mem_nil, or_false] at hi
  obtain rfl | rfl | rfl := hi
  · exact ⟨modify fun s => s.jump (s.pc + branchOffset disp), ordinarily_modify fun s => .jump _ s, fun _ => rfl⟩
  · refine ⟨modify fun s => if condHolds s.sr.ccr cond then s.jump (s.pc + branchOffset disp) else s.advance (branchBytes disp),
      ordinarily_modify fun s => ?_, fun _ => rfl⟩
    split
    · exact .jump _ s
    · exact .advance _ s
  · refine ⟨modify fun s => if condHolds s.sr.ccr cond then s.advance 2 else
        let s' := s.setD .word dn ((lowWord (s.dreg dn) - 1).setWidth 32)
        if lowWord (s.dreg dn) - 1 = 0xFFFF then s'.advance 2 else s'.jump (s.pc + sextWord d),
      ordinarily_modify fun s => ?_, fun _ => rfl⟩
    dsimp only
    split
    · exact .advance _ s
    · split
      · exact (State.Ordinary.setD .word dn _ s).trans (.advance _ _)
      · exact (State.Ordinary.setD .word dn _ s).trans (.jump _ _)

/-- The meaning of an instruction that is not privileged is a body (R429). -/
theorem exec_body {i : Instr} (hi : isPrivileged i = false) : ∃ body, IsBody body ∧ ∀ s, exec i s = runInstr body s := by
  have ordinary : (∃ body, Ordinarily body ∧ ∀ s, exec i s = runInstr body s) →
      ∃ body, IsBody body ∧ ∀ s, exec i s = runInstr body s := fun ⟨body, h, he⟩ => ⟨body, h.isBody, he⟩
  cases i with
  | stop | resetDevices | rte | moveToSr | andiToSr | eoriToSr | oriToSr | moveToUsp | moveFromUsp => cases hi
  | trap => exact ⟨_, isBody_bind ordinarily_get fun _ => isBody_takeException _ _, fun _ => rfl⟩
  | trapv =>
    exact ⟨_, isBody_bind ordinarily_get fun _ => isBody_ite (isBody_takeException _ _) (ordinarily_pure ()).isBody,
      fun _ => rfl⟩
  | chk ea dn => exact exec_chk_body ea dn
  | divs | divu => exact ⟨_, isBody_divBody _ _ _, fun _ => rfl⟩
  | ori | andi | eori | addi | subi => exact ordinary ⟨_, ordinarily_aluImm _ _ _ _, fun _ => rfl⟩
  | cmpi =>
    exact ordinary ⟨_, ordinarily_bind (ordinarily_modify (.advance _)) fun _ => ordinarily_bind (ordinarily_readEa _ _) fun _ =>
      ordinarily_setCcr _, fun _ => rfl⟩
  | oriToCcr | andiToCcr | eoriToCcr => exact ordinary ⟨_, ordinarily_ccrLogic _ _, fun _ => rfl⟩
  | btstStatic | bchgStatic | bclrStatic | bsetStatic => exact ordinary ⟨_, ordinarily_bitStatic _ _ _, fun _ => rfl⟩
  | btstDynamic | bchgDynamic | bclrDynamic | bsetDynamic => exact ordinary ⟨_, ordinarily_bitDynamic _ _ _, fun _ => rfl⟩
  | movepLoadWord | movepLoadLong => exact ordinary ⟨_, ordinarily_movepLoad _ _ _ _, fun _ => rfl⟩
  | movepStoreWord | movepStoreLong => exact ordinary ⟨_, ordinarily_movepStore _ _ _ _, fun _ => rfl⟩
  | moveByte | moveWord | moveLong => exact ordinary ⟨_, ordinarily_moveBody _ _ _, fun _ => rfl⟩
  | moveaWord | moveaLong => exact ordinary ⟨_, ordinarily_moveaBody _ _ _, fun _ => rfl⟩
  | negx | clr | neg | notEa | scc => exact ordinary ⟨_, ordinarily_unaryOnEa _ _ _, fun _ => rfl⟩
  | asrMem | aslMem | lsrMem | lslMem | roxrMem | roxlMem | rorMem | rolMem =>
    exact ordinary ⟨_, ordinarily_shiftMem _ _, fun _ => rfl⟩
  | asrReg | aslReg | lsrReg | lslReg | roxrReg | roxlReg | rorReg | rolReg =>
    exact ordinary ⟨_, ordinarily_shiftReg _ _ _ _, fun _ => rfl⟩
  | moveFromSr =>
    exact ordinary ⟨_, ordinarily_bind (ordinarily_resolveEa _ _) fun _ => ordinarily_bind (ordinarily_rd _ _) fun _ =>
      ordinarily_bind ordinarily_get fun _ => ordinarily_wr _ _ _, fun _ => rfl⟩
  | lea =>
    exact ordinary ⟨_, ordinarily_bind (ordinarily_eaAddress _) fun a => ordinarily_modify (.setA _ a), fun _ => rfl⟩
  | moveToCcr | tst | cmp | cmpa =>
    exact ordinary ⟨_, ordinarily_bind (ordinarily_readEa _ _) fun _ => ordinarily_setCcr _, fun _ => rfl⟩
  | nbcd => exact ordinary ⟨_, ordinarily_bcdOnEa _ _ _, fun _ => rfl⟩
  | abcd | sbcd => exact ordinary ⟨_, ordinarily_bcdBody _ _ _ _, fun _ => rfl⟩
  | swap dn => exact ordinary (exec_setDCcr_ordinarily dn .word 0 (by simp))
  | extReg sz dn => exact ordinary (exec_setDCcr_ordinarily dn sz 0 (by simp))
  | moveq dn d => exact ordinary (exec_setDCcr_ordinarily dn .word d (by simp))
  | pea => exact ordinary ⟨_, ordinarily_bind (ordinarily_eaAddress _) fun a => ordinarily_push32 a, fun _ => rfl⟩
  | movemStore sz mask ea => exact ordinary (exec_transfer_ordinarily sz mask 0 ea 0 (by simp))
  | movemLoad sz mask ea => exact ordinary (exec_transfer_ordinarily sz mask 0 ea 0 (by simp))
  | link an d => exact ordinary (exec_transfer_ordinarily .word 0 d (.dreg 0) an (by simp))
  | unlk an => exact ordinary (exec_transfer_ordinarily .word 0 0 (.dreg 0) an (by simp))
  | tas =>
    refine ordinary ⟨_, ordinarily_bind (ordinarily_resolveEa _ _) fun loc => ?_, fun _ => rfl⟩
    cases loc with
    | mem =>
      exact ordinarily_bind (ordinarily_rmwCycle _ _ _) fun _ => ordinarily_bind (ordinarily_rmwCycle _ _ _) fun _ =>
        ordinarily_setCcr _
    | _ => exact ordinarily_bind (ordinarily_rd _ _) fun _ => ordinarily_bind ordinarily_get fun _ => ordinarily_wrFlagged _ _ _ _
  | nop => exact ordinary ⟨_, ordinarily_pure (), fun _ => rfl⟩
  | rts => exact ordinary ⟨_, ordinarily_bind ordinarily_pop32 fun a => ordinarily_modify (.jump a), fun _ => rfl⟩
  | rtr =>
    exact ordinary ⟨_, ordinarily_bind ordinarily_pop16 fun _ => ordinarily_bind ordinarily_pop32 fun _ =>
      ordinarily_modify fun s => (State.Ordinary.setCcr _ s).trans (.jump _ _), fun _ => rfl⟩
  | jsr =>
    exact ordinary ⟨_, ordinarily_bind (ordinarily_eaAddress _) fun _ => ordinarily_bind ordinarily_get fun _ =>
      ordinarily_callBody _ _, fun _ => rfl⟩
  | bsr => exact ordinary ⟨_, ordinarily_bind ordinarily_get fun _ => ordinarily_callBody _ _, fun _ => rfl⟩
  | jmp => exact ordinary ⟨_, ordinarily_bind (ordinarily_eaAddress _) fun a => ordinarily_modify (.jump a), fun _ => rfl⟩
  | bra disp => exact ordinary (exec_branch_ordinarily .t disp 0 0 (by simp))
  | bcc cond disp => exact ordinary (exec_branch_ordinarily cond disp 0 0 (by simp))
  | dbcc cond dn d => exact ordinary (exec_branch_ordinarily cond (.short 0) dn d (by simp))
  | addq | subq => exact ordinary ⟨_, ordinarily_quickBody _ _ _ _ _, fun _ => rfl⟩
  | orToReg | andToReg | addToReg | subToReg => exact ordinary ⟨_, ordinarily_aluToReg _ _ _ _, fun _ => rfl⟩
  | orToMem | andToMem | addToMem | subToMem | eorToEa => exact ordinary ⟨_, ordinarily_aluToMem _ _ _ _, fun _ => rfl⟩
  | adda | suba => exact ordinary ⟨_, ordinarily_addrArith _ _ _ _, fun _ => rfl⟩
  | addx | subx => exact ordinary ⟨_, ordinarily_aluExtended _ _ _ _ _, fun _ => rfl⟩
  | cmpm =>
    exact ordinary ⟨_, ordinarily_bind (ordinarily_readThenIncrement _ _) fun _ =>
      ordinarily_bind (ordinarily_readThenIncrement _ _) fun _ => ordinarily_setCcr _, fun _ => rfl⟩
  | mulu | muls => exact ordinary ⟨_, ordinarily_mulBody _ _ _, fun _ => rfl⟩
  | exgData rx ry => exact ordinary (exec_exg_ordinarily rx ry (by simp))
  | exgAddr rx ry => exact ordinary (exec_exg_ordinarily rx ry (by simp))
  | exgDataAddr rx ry => exact ordinary (exec_exg_ordinarily rx ry (by simp))

/-! Where only the map of answers speaks, a long word is read only by an access that completes. -/

/-- A read that does not complete there is cut short, in either order of its cycles (R73). -/
theorem longCycles_read_fails {s : State} (hs : s.plain = true) {code : FunctionCode} {a : Long}
    (hc : s.completes (wordRead code a) = false ∨ s.completes (wordRead code (a + 2)) = false) (lowFirst : Bool) (v : Long) :
    ∃ e, longCycles lowFirst code .read a v s = .error e s := by
  have pair (c d : BusCycle) (x y : Word) (f : Word → Word → Long) (hcd : c.dir = .read ∧ d.dir = .read)
      (h : s.completes c = false ∨ s.completes d = false) :
      ∃ e, (do let p ← busCycle false c x; let q ← busCycle false d y; pure (f p q) : Exec Long) s = .error e s := by
    cases hfirst : s.completes c with
    | false =>
      obtain ⟨e, he⟩ := busCycle_read_fails hs hcd.1 hfirst x
      exact ⟨e, run_bind_error he⟩
    | true =>
      obtain ⟨e, he⟩ := busCycle_read_fails hs hcd.2 (h.resolve_left (by simp [hfirst])) y
      exact ⟨e, (run_bind_ok (busCycle_read_ok hfirst hcd.1 x)).trans (run_bind_error he)⟩
  unfold longCycles
  cases lowFirst with
  | false => exact pair (wordRead code a) (wordRead code (a + 2)) _ _ (fun hi lo => hi ++ lo) ⟨rfl, rfl⟩ hc
  | true => exact pair (wordRead code (a + 2)) (wordRead code a) _ _ (fun lo hi => hi ++ lo) ⟨rfl, rfl⟩ hc.symm

/-- A long word that is read there is the one in memory. -/
theorem readMem_long_inv {s t : State} {sp : Space} {a v : Long} (hs : s.plain = true) (ha : aligned a .long = true)
    (h : readMem sp a .long s = .ok v t) : v = s.longAt (s.code sp) a ∧ t = s := by
  obtain ⟨hquiet, -, -⟩ := s.plain_iff.mp hs
  by_cases hcan : s.canAccess sp .read a .long = true
  · rw [readMem_ok hcan] at h
    cases h
    exact ⟨rfl, rfl⟩
  · exfalso
    have hstops : s.completes (wordRead (s.code sp) a) = false ∨ s.completes (wordRead (s.code sp) (a + 2)) = false := by
      rw [State.canAccess, ha, Bool.true_and, Bool.and_eq_true, not_and_or, Bool.not_eq_true, Bool.not_eq_true,
        Bool.or_eq_false_iff] at hcan
      exact hcan.imp_right And.right
    obtain ⟨e, he⟩ := longCycles_read_fails (s := { s with drawCount := s.drawCount + 1 }) hs hstops (Config.freeBit s.drawCount) 0
    have hcut : accessCycles sp .read a .long 0 s = .error e { s with drawCount := s.drawCount + 1 } := by
      unfold accessCycles
      rw [run_bind_ok (run_get _)]
      show (raiseFetchError >>= _ : Exec Long) s = _
      rw [run_bind_ok (raiseFetchError_ok ((State.quiet_iff s).mp hquiet).2), if_pos ha]
      exact (run_bind_ok rfl).trans he
    rw [readMem, if_neg hcan, hcut] at h
    cases h

/-! What is left once exception processing has begun (R423). -/

/-- The processor is in supervisor state; and if the maps alone spoke from a state on, it has halted, or its program counter
is what one of the 256 vectors holds. -/
def State.InSupervisor (maps : Prop) (t : State) : Prop :=
  t.sr.s = true ∧ (maps → t.procState = .halted ∨ ∃ n < 256, t.pc = t.longAt .supervisorData (vectorAddress n))

theorem State.Vectored.inSupervisor {s t : State} {n : Nat} (h : s.Vectored n t) (hn : n < 256) (hs : s.sr.s = true) :
    t.InSupervisor (s.plain = true) := by
  obtain ⟨u, v, w, hu, hread, rfl⟩ := h
  have hw := (ordinarily_readMem _ _ _ u).ok hread
  refine ⟨(hw.supervisor.trans hu.supervisor).trans hs, fun hplain => .inr ⟨n, hn, ?_⟩⟩
  obtain ⟨hv, hwu⟩ := readMem_long_inv (hu.plain hplain) (aligned_vectorAddress n) hread
  subst hwu hv
  show w.longAt (w.code .data) (vectorAddress n) = w.longAt .supervisorData (vectorAddress n)
  rw [State.code, hu.supervisor.trans hs, if_pos rfl]

/-- The reset sequence ends in supervisor state (R491, R492). -/
theorem runReset_supervisor {fuel : Nat} {level : Fin 8} {s t : State} (h : runReset fuel level s = .next t) :
    t.sr.s = true := by
  obtain ⟨l, u, v, -, hv, rfl | ⟨pc, rfl⟩⟩ := runReset_ends (P := fun _ => True) (fun _ _ _ => trivial) (fun _ _ _ _ => trivial)
    trivial h
  all_goals exact hv.supervisor

/-- A computation cut short ends in supervisor state: by the exception, halted, or by a reset, which needs one in store. -/
theorem abortOutcome_inSupervisor {e : Abort} {s t : State} (hwindow : s.inGroup0 = true → s.sr.s = true)
    (h : abortOutcome e s = .next t) : t.InSupervisor (s.plain = true ∧ ∀ level, e ≠ .reset level) := by
  cases e with
  | unanswered => cases h
  | reset level => exact ⟨runReset_supervisor h, fun hmaps => absurd rfl (hmaps.2 level)⟩
  | access f =>
    unfold abortOutcome at h
    dsimp only at h
    split at h
    · next hopen => cases h; exact ⟨hwindow hopen, fun _ => .inl rfl⟩
    · have hresult := takeGroup0_result f { s with inGroup0 := true, fetchError := none }
      have hplain : s.plain = true → ({ s with inGroup0 := true, fetchError := none } : State).enterGroup0.plain = true := by
        intro hs
        obtain ⟨hquiet, hsupposed, hdevice⟩ := s.plain_iff.mp hs
        refine (State.plain_iff _).mpr ⟨?_, hsupposed, hdevice⟩
        exact (State.quiet_iff _).mpr ⟨((State.quiet_iff s).mp hquiet).1, rfl⟩
      split at h
      · next hr =>
        cases h
        rw [hr] at hresult
        obtain ⟨n, hn, hv⟩ := hresult
        obtain ⟨hsup, hpc⟩ := hv.inSupervisor hn rfl
        exact ⟨hsup, fun hmaps => hpc (hplain hmaps.1)⟩
      · cases h
      · next hr =>
        cases h
        rw [hr] at hresult
        exact ⟨hresult.1.supervisor, fun _ => .inl rfl⟩
      · next level u hr =>
        rw [hr] at hresult
        refine ⟨runReset_supervisor h, fun hmaps => absurd rfl (hresult.2 ?_ level)⟩
        exact ((State.quiet_iff _).mp ((State.plain_iff _).mp (hplain hmaps.1)).1).1

/-- Exception processing, to its end or cut short. -/
theorem State.ExceptionResult.finish_inSupervisor {s t : State} {r : EStateM.Result Abort State Unit} (hs : s.sr.s = true)
    (hr : s.ExceptionResult r) (h : finish r = .next t) : t.InSupervisor (s.plain = true) := by
  cases r with
  | ok a u =>
    cases h
    obtain ⟨n, hn, hv⟩ := hr
    exact hv.inSupervisor hn hs
  | error e u =>
    obtain ⟨hu, hreset⟩ := hr
    obtain ⟨hsup, hpc⟩ := abortOutcome_inSupervisor (fun _ => hu.supervisor.trans hs) h
    refine ⟨hsup, fun hplain => hpc ⟨hu.plain hplain, hreset ?_⟩⟩
    exact ((State.quiet_iff s).mp ((State.plain_iff s).mp hplain).1).1

/-- An instruction that begins in user state and is not privileged makes ordinary changes, or leaves user state by an
exception, a halt or a reset. -/
theorem runInstr_user {body : Exec Unit} (hbody : IsBody body) {s t : State} (h : runInstr body s = .next t) :
    s.beginInstr.Ordinary t ∨ t.InSupervisor (s.plain = true) := by
  have hresult := hbody.flagsOldOrNew s.beginInstr
  unfold runInstr at h
  obtain hresult | ⟨u, k, hu, hresult⟩ := hresult
  · cases hr : flagsOldOrNew body s.beginInstr with
    | ok a u =>
      rw [hr] at h hresult
      cases h
      exact .inl hresult
    | error e u =>
      rw [hr] at h hresult
      obtain ⟨hu, hreset⟩ := hresult
      obtain ⟨hsup, hpc⟩ := abortOutcome_inSupervisor (fun hopen => nomatch hu.inGroup0.symm.trans hopen) h
      refine .inr ⟨hsup, fun hplain => hpc ⟨hu.plain hplain, hreset ?_⟩⟩
      exact ((State.quiet_iff s).mp ((State.plain_iff s).mp hplain).1).1
  · obtain ⟨hsup, hpc⟩ := hresult.finish_inSupervisor rfl h
    exact .inr ⟨hsup, fun hplain => hpc (hu.plain hplain)⟩

/-- An instruction in user state: ordinary changes, or by exception processing, a halt or a reset to supervisor state. -/
theorem exec_user {i : Instr} {s t : State} (hs : s.sr.s = false) (h : exec i s = .next t) :
    s.beginInstr.Ordinary t ∨ t.InSupervisor (s.plain = true) := by
  cases hi : isPrivileged i with
  | true =>
    obtain ⟨body, hbody⟩ := exec_privileged hi
    rw [hbody, runPrivileged_user hs] at h
    have hresult := takeException_result .privilege s.pc { s with instrAddr := s.pc }
    obtain ⟨hsup, hpc⟩ := hresult.finish_inSupervisor rfl h
    exact .inr ⟨hsup, hpc⟩
  | false =>
    obtain ⟨body, hbody, hexec⟩ := exec_body hi
    rw [hexec] at h
    exact runInstr_user hbody h

/-- Settles O22: ordinary changes keep S and, in user state, all that the statement lists; what leaves user state has gone
through exception processing. -/
theorem userStateConfined : Obligations.UserStateConfined := by
  intro i s t hs h
  refine ⟨fun huser => ?_, fun hsupervisor hplain => ?_⟩
  · obtain hordinary | ⟨hsup, -⟩ := exec_user hs h
    · exact ⟨hordinary.ssp hs, hordinary.trace, hordinary.mask, hordinary.resetPulses, hordinary.procState⟩
    · exact nomatch hsup.symm.trans huser
  · obtain hordinary | ⟨-, hpc⟩ := exec_user hs h
    · exact nomatch (hordinary.supervisor.trans hs).symm.trans hsupervisor
    · exact hpc hplain

end Sys2Proof.Machine
end

section
/-! PROOFS. The family of spec 60, the invariant (O5), first part: what holds in the middle of a step, and that exception
processing, a reset and a computation cut short end in it. -/

namespace Sys2Proof.Machine

open Sys2Proof

/-! What holds at every moment, and what holds again when an instruction or an exception is done. -/

/-- The part of the invariant that holds at every moment of a step. -/
structure State.Sane (s : State) : Prop where
  canonical : s.mem.wf = true
  supposed : s.supposed = false
  length : s.prefetch.length ≤ s.windowWords
  even : ∀ e ∈ s.prefetch, aligned e.addr .word = true
  window : s.inGroup0 = true → s.sr.s = true

/-- The invariant but for a trace exception and a bus error of an instruction word still to come; such an error cuts short an
instruction, which has closed the window of a double fault. -/
structure State.Executed (s : State) : Prop extends State.Sane s where
  noException : ∀ g, s.procState ≠ .exception g
  running : s.inGroup0 = true → s.procState ≠ .stopped
  halted : s.procState = .halted → s.inGroup0 = true
  pending : s.fetchError ≠ none → s.inGroup0 = false

theorem inv_iff (s : State) : Inv s ↔ s.Executed ∧ s.fetchError = none ∧ s.traceAtStart = false := by
  refine ⟨fun ⟨hmem, hexception, htrace, herror, hsupposed, hlength, heven, hwindow, hhalted⟩ => ?_, fun ⟨h, herror, htrace⟩ => ?_⟩
  · exact ⟨⟨⟨hmem, hsupposed, hlength, heven, fun hw => (hwindow hw).1⟩, hexception, fun hw => (hwindow hw).2, hhalted,
      fun h => absurd herror h⟩, herror, htrace⟩
  · exact ⟨h.canonical, h.noException, htrace, herror, h.supposed, h.length, h.even,
      fun hw => ⟨h.window hw, h.running hw⟩, h.halted⟩

section
variable {s t : State}

/-- Changes of an instruction keep what holds at every moment. -/
theorem State.Sane.cut (hs : s.Sane) (h : s.Cut t) : t.Sane where
  canonical := h.canonical hs.canonical
  supposed := h.supposed.trans hs.supposed
  length := by
    rw [h.windowWords]
    obtain e | e := h.prefetch
    · exact e ▸ hs.length
    · exact e ▸ Nat.zero_le _
  even := by
    obtain e | e := h.prefetch
    · exact e ▸ hs.even
    · rw [e]; exact fun _ he => nomatch he
  window := fun hw => h.supervisor.trans (hs.window (h.inGroup0.symm.trans hw))

theorem State.Sane.executed (hs : s.Sane) (hp : s.procState = .normal) (hpending : s.fetchError ≠ none → s.inGroup0 = false) :
    s.Executed :=
  ⟨hs, fun _ h => (nomatch hp.symm.trans h), fun _ h => (nomatch hp.symm.trans h), fun h => (nomatch hp.symm.trans h), hpending⟩

/-- A processor halted inside the window of a double fault (R455, R485). -/
theorem State.Sane.inv_halt (hs : s.Sane) (hw : s.inGroup0 = true) : Inv s.halt :=
  ⟨hs.canonical, fun _ h => (nomatch h), rfl, rfl, hs.supposed, Nat.zero_le _, fun _ h => (nomatch h),
    fun h => ⟨hs.window h, fun h => (nomatch h)⟩, fun _ => hw⟩

/-! Entering exception processing sets S, so that the window of a double fault may open. -/

theorem State.Sane.beginException (hs : s.Sane) (k : ExcKind) : (s.beginException k).Sane :=
  ⟨hs.canonical, hs.supposed, hs.length, hs.even, fun _ => rfl⟩

theorem State.Sane.enterGroup0 (hs : s.Sane) : ({ s with inGroup0 := true, fetchError := none } : State).enterGroup0.Sane :=
  ⟨hs.canonical, hs.supposed, hs.length, hs.even, fun _ => rfl⟩

theorem State.Sane.enterReset (hs : s.Sane) (level : Fin 8) : (s.enterReset level).Sane :=
  ⟨hs.canonical, hs.supposed, Nat.zero_le _, fun _ h => (nomatch h), fun _ => rfl⟩

/-! The ends of exception processing. -/

/-- Through a vector the processor goes on in the normal state, in the window it was in. -/
theorem State.Vectored.ends {n : Nat} (hs : s.Sane) (h : s.Vectored n t) :
    t.Sane ∧ t.procState = .normal ∧ t.traceAtStart = s.traceAtStart ∧ t.inGroup0 = s.inGroup0 ∧
      (t.fetchError = none ↔ s.fetchError = none) := by
  obtain ⟨u, v, w, hu, hread, rfl⟩ := h
  have hw := hu.trans ((ordinarily_readMem _ _ _ u).ok hread)
  have hjump := hs.cut (hw.trans (.jump v w)).toCut
  exact ⟨⟨hjump.canonical, hjump.supposed, hjump.length, hjump.even, hjump.window⟩, rfl, hw.traceAtStart, hw.inGroup0,
    ⟨hw.pending, hw.fetchError⟩⟩

theorem runReset_inv {fuel : Nat} {level : Fin 8} (hs : s.Sane) (h : runReset fuel level s = .next t) : Inv t := by
  obtain ⟨l, u, v, hu, hv, hend⟩ := runReset_ends (P := State.Sane) (fun l _ h => h.enterReset l) (fun _ _ h h' => h'.cut h) hs h
  have hsane := (hu.enterReset l).cut hv
  have hwindow : v.inGroup0 = true := hv.inGroup0
  obtain rfl | ⟨pc, rfl⟩ := hend
  · exact hsane.inv_halt hwindow
  · exact ⟨hsane.canonical, fun _ h => (nomatch h), hv.traceAtStart, hv.fetchError rfl, hsane.supposed, hsane.length,
      hsane.even, fun h => ⟨hsane.window h, fun h => (nomatch h)⟩, fun h => (nomatch h)⟩

/-- A computation cut short ends between two steps, with no trace exception to come (R440, R455, R470), in the window of a
double fault. -/
theorem abortOutcome_inv {e : Abort} (hs : s.Sane) (h : abortOutcome e s = .next t) : Inv t := by
  cases e with
  | unanswered => cases h
  | reset level => exact runReset_inv hs h
  | access f =>
    unfold abortOutcome at h
    dsimp only at h
    split at h
    · next hopen => cases h; exact hs.inv_halt hopen
    · have hresult := takeGroup0_result f { s with inGroup0 := true, fetchError := none }
      split at h <;> rename_i hr
      · cases h
        rw [hr] at hresult
        obtain ⟨n, -, hv⟩ := hresult
        obtain ⟨hsane, hproc, htrace, hwindow, herror⟩ := hv.ends hs.enterGroup0
        exact (inv_iff t).mpr ⟨hsane.executed hproc fun h => absurd (herror.mpr rfl) h, herror.mpr rfl, htrace⟩
      · cases h
      · cases h
        rw [hr] at hresult
        exact (hs.enterGroup0.cut hresult.1).inv_halt hresult.1.inGroup0
      · rw [hr] at hresult
        exact runReset_inv (hs.enterGroup0.cut hresult.1) h

/-- What an instruction that begins in a state leaves: the invariant, if it was cut short; else a pending bus error of an
instruction word is pending still, and a trace exception may be to come. -/
def State.Leaves (s t : State) : Prop := Inv t ∨ (t.Executed ∧ (t.fetchError = none ↔ s.fetchError = none))

theorem State.Leaves.executed (h : s.Leaves t) : t.Executed := h.elim (fun h => ((inv_iff t).mp h).1) And.left

/-- With no bus error pending, none is pending after. -/
theorem State.Leaves.fetchError (h : s.Leaves t) (hs : s.fetchError = none) : t.fetchError = none :=
  h.elim (fun h => ((inv_iff t).mp h).2.1) fun h => h.2.mpr hs

/-- Exception processing, from the state that enters it. -/
theorem State.ExceptionResult.finish_leaves {r : EStateM.Result Abort State Unit} (hs : s.Sane)
    (hpending : s.fetchError ≠ none → s.inGroup0 = false) (hr : s.ExceptionResult r) (h : finish r = .next t) :
    Inv t ∨ (t.Executed ∧ (t.fetchError = none ↔ s.fetchError = none) ∧ t.traceAtStart = s.traceAtStart) := by
  cases r with
  | error e u => exact .inl (abortOutcome_inv (hs.cut hr.1) h)
  | ok a u =>
    cases h
    obtain ⟨n, -, hv⟩ := hr
    obtain ⟨hsane, hproc, htrace, hwindow, herror⟩ := hv.ends hs
    exact .inr ⟨hsane.executed hproc fun h => hwindow.trans (hpending (herror.not.mp h)), herror, htrace⟩

/-- An exception of group 1 between two instructions or in place of one: no trace exception follows (R470). -/
theorem takeException_group1_inv {k : ExcKind} {pc : Long} (hk : k.group = .group1) (hs : s.Sane) (herror : s.fetchError = none)
    (h : finish (takeException k pc s) = .next t) : Inv t := by
  have hleaves := (takeException_result k pc s).finish_leaves (hs.beginException k) (fun h => absurd herror h) h
  refine hleaves.elim id fun ⟨hexecuted, herror', htrace⟩ => (inv_iff t).mpr ⟨hexecuted, herror'.mpr herror, htrace.trans ?_⟩
  show (s.traceAtStart && decide (k.group = .group2)) = false
  rw [hk]
  exact Bool.and_false _

/-! Instructions. -/

/-- A window that is open keeps the processor in supervisor state, so in user state it is closed. -/
theorem State.Sane.closed (hs : s.Sane) (huser : s.sr.s = false) : s.inGroup0 = false := by
  cases h : s.inGroup0 with
  | false => rfl
  | true => exact nomatch huser.symm.trans (hs.window h)

theorem State.Sane.beginInstr (hs : s.Sane) : s.beginInstr.Sane :=
  ⟨hs.canonical, hs.supposed, hs.length, hs.even, fun h => (nomatch h)⟩

/-- What a body that goes through leaves. -/
theorem State.Sane.leaves (hs : s.Sane) (hp : s.procState = .normal) (h : s.beginInstr.Ordinary t) : s.Leaves t :=
  .inr ⟨(hs.beginInstr.cut h.toCut).executed (h.procState.trans hp) fun _ => h.inGroup0, h.pending, h.fetchError⟩

theorem runInstr_leaves {body : Exec Unit} (hbody : IsBody body) (hs : s.Sane) (hp : s.procState = .normal)
    (h : runInstr body s = .next t) : s.Leaves t := by
  have hresult := hbody.flagsOldOrNew s.beginInstr
  unfold runInstr at h
  obtain hresult | ⟨u, k, hu, hresult⟩ := hresult
  · cases hr : flagsOldOrNew body s.beginInstr with
    | ok a u =>
      rw [hr] at h hresult
      cases h
      exact hs.leaves hp hresult
    | error e u =>
      rw [hr] at h hresult
      exact .inl (abortOutcome_inv (hs.beginInstr.cut hresult.1) h)
  · have hsane := (hs.beginInstr.cut hu.toCut).beginException k
    exact (hresult.finish_leaves hsane (fun _ => hu.inGroup0) h).imp_right fun ⟨hexecuted, herror, _⟩ =>
      ⟨hexecuted, herror.trans ⟨hu.pending, hu.fetchError⟩⟩

/-- What a privileged instruction changes in supervisor state: also the whole of SR, and the processing state where it stops
the processor. -/
structure State.Privileged (s t : State) : Prop where
  canonical : s.mem.wf = true → t.mem.wf = true
  procState : t.procState = s.procState ∨ t.procState = .stopped
  inGroup0 : t.inGroup0 = s.inGroup0
  supposed : t.supposed = s.supposed
  prefetchWindow : t.prefetchWindow = s.prefetchWindow
  prefetch : t.prefetch = s.prefetch ∨ t.prefetch = []
  fetchError : t.fetchError = none ↔ s.fetchError = none

/-- The changes of the privileged instructions (R341) after those that any instruction makes. -/
theorem State.Ordinary.privileged {usp ssp pc : Long} {sr : StatusRegister} {proc : ProcState} {p : List AheadWord} {k : Nat}
    (h : s.Ordinary t) (hproc : proc = t.procState ∨ proc = .stopped) (hp : p = t.prefetch ∨ p = []) :
    s.Privileged { t with usp := usp, ssp := ssp, pc := pc, sr := sr, procState := proc, prefetch := p, resetPulses := k } where
  canonical := h.canonical
  procState := hproc.imp_left (·.trans h.procState)
  inGroup0 := h.inGroup0
  supposed := h.supposed
  prefetchWindow := h.prefetchWindow
  prefetch := hp.elim (fun e => h.prefetch.imp e.trans e.trans) .inr
  fetchError := ⟨h.pending, h.fetchError⟩

/-- What the body of a privileged instruction ends in. -/
def State.PrivilegedResult (s : State) : EStateM.Result Abort State Unit → Prop
  | .ok _ t => s.Privileged t
  | .error _ t => s.Cut t

/-- RTE in supervisor state: SR is written when the frame has been read (R343, R502). -/
theorem returnFromException_result (hs : s.sr.s = true) : s.PrivilegedResult (returnFromException s) := by
  have hmaybe (u : State) (h : s.Cut u) : u.Cut (State.maybe (fun s' => { s' with ssp := s.ssp + 6 }) u) := by
    unfold State.maybe
    dsimp only
    have hu : u.sr.s = true := h.supervisor.trans hs
    split
    · exact (State.Ordinary.setSsp hu _ _).toCut
    · exact (State.Ordinary.draw _ u).toCut
  have hword := (ordinarily_readMem .data s.ssp .word s).onAbort hmaybe
  unfold returnFromException
  rw [run_bind_ok (run_get s), run_bind]
  cases hr : onAbort (readMem .data s.ssp .word) (State.maybe fun s' => { s' with ssp := s.ssp + 6 }) s with
  | error e u => exact hword.error hr
  | ok w u =>
    have hu := hword.ok hr
    have hlong := (State.OrdinaryResult.after hu (ordinarily_readMem .data (s.ssp + 2) .long u)).onAbort hmaybe
    dsimp only
    rw [run_bind]
    cases hr' : onAbort (readMem .data (s.ssp + 2) .long) (State.maybe fun s' => { s' with ssp := s.ssp + 6 }) u with
    | error e v => exact hlong.error hr'
    | ok target v => exact (hlong.ok hr').privileged (.inl rfl) (.inr rfl)

/-- MOVE to SR (R346). -/
theorem moveToSr_result (ea : Ea) (s : State) :
    s.PrivilegedResult (flagsOldOrNew (do
      let w ← readEa ea .word
      modify (State.setSr (StatusRegister.ofWord (lowWord w)))) s) := by
  have hread := ordinarily_readEa ea .word s
  generalize hbody : (do let w ← readEa ea .word; modify (State.setSr (StatusRegister.ofWord (lowWord w))) : Exec Unit) = body
  cases hr : readEa ea .word s with
  | ok w u =>
    have hok : body s = .ok () (u.setSr (StatusRegister.ofWord (lowWord w))) := by rw [← hbody, run_bind_ok hr, run_modify]
    rw [flagsOldOrNew_ok hok]
    exact (hread.ok hr).privileged (.inl rfl) (.inl rfl)
  | error e u =>
    have herror : body s = .error e u := by rw [← hbody, run_bind_error hr]
    rw [flagsOldOrNew_error herror]
    exact (hread.error hr).trans (State.Ordinary.openFlags _ u).toCut

/-- The meaning of a privileged instruction, in supervisor state. -/
theorem exec_privileged_result {i : Instr} (hi : isPrivileged i = true) :
    ∃ body, (∀ s : State, s.sr.s = true → s.PrivilegedResult (body s)) ∧ ∀ s, exec i s = runPrivileged body s := by
  have change {g : State → State} (hg : ∀ s : State, s.Privileged (g s)) (s : State) (_ : s.sr.s = true) :
      s.PrivilegedResult ((modify g : Exec Unit) s) := hg s
  cases i with
  | andiToSr | eoriToSr | oriToSr =>
    exact ⟨srLogic _ _, change fun s => (State.Ordinary.refl s).privileged (.inl rfl) (.inl rfl), fun _ => rfl⟩
  | moveToSr ea => exact ⟨_, fun s _ => moveToSr_result ea s, fun _ => rfl⟩
  | moveToUsp an =>
    exact ⟨modify fun s => { s with usp := s.areg an },
      change fun s => (State.Ordinary.refl s).privileged (.inl rfl) (.inl rfl), fun _ => rfl⟩
  | moveFromUsp an =>
    exact ⟨modify fun s => s.setA an s.usp,
      change fun s => (State.Ordinary.setA an s.usp s).privileged (.inl rfl) (.inl rfl), fun _ => rfl⟩
  | resetDevices =>
    exact ⟨modify fun s => { s with resetPulses := s.resetPulses + 1 },
      change fun s => (State.Ordinary.refl s).privileged (.inl rfl) (.inl rfl), fun _ => rfl⟩
  | stop imm =>
    exact ⟨modify fun s => { (s.advance 2).setSr (StatusRegister.ofWord imm) with procState := .stopped, prefetch := [] },
      change fun s => (State.Ordinary.refl s).privileged (.inr rfl) (.inr rfl), fun _ => rfl⟩
  | rte => exact ⟨_, fun s hs => returnFromException_result hs, fun _ => rfl⟩
  | _ => cases hi

theorem State.Sane.leaves_privileged (hs : s.Sane) (hp : s.procState = .normal) (h : s.beginInstr.Privileged t) :
    s.Leaves t := by
  have hclosed : t.inGroup0 = false := h.inGroup0
  have hproc : t.procState = .normal ∨ t.procState = .stopped := h.procState.imp_left fun e => e.trans hp
  have hwords : t.windowWords = s.windowWords := by rw [State.windowWords, h.prefetchWindow]; rfl
  have hopen : ¬ t.inGroup0 = true := by simp [hclosed]
  have hsane : t.Sane :=
    { canonical := h.canonical hs.canonical
      supposed := h.supposed.trans hs.supposed
      length := by
        rw [hwords]
        obtain e | e := h.prefetch
        · exact e ▸ hs.length
        · exact e ▸ Nat.zero_le _
      even := by
        obtain e | e := h.prefetch
        · exact e ▸ hs.even
        · rw [e]; exact fun _ he => nomatch he
      window := fun hw => absurd hw hopen }
  refine .inr ⟨⟨hsane, fun g h => ?_, fun hw => absurd hw hopen, fun h => ?_, fun _ => hclosed⟩, h.fetchError⟩
  · exact hproc.elim (fun e => nomatch e.symm.trans h) fun e => nomatch e.symm.trans h
  · exact hproc.elim (fun e => nomatch e.symm.trans h) fun e => nomatch e.symm.trans h

/-- Every instruction, in the normal state. -/
theorem exec_leaves {i : Instr} (hs : s.Sane) (hp : s.procState = .normal) (h : exec i s = .next t) : s.Leaves t := by
  cases hi : isPrivileged i with
  | false =>
    obtain ⟨body, hbody, hexec⟩ := exec_body hi
    rw [hexec] at h
    exact runInstr_leaves hbody hs hp h
  | true =>
    obtain ⟨body, hbody, hexec⟩ := exec_privileged_result hi
    rw [hexec] at h
    cases hsup : s.sr.s with
    | true =>
      rw [runPrivileged_supervisor hsup] at h
      have hresult := hbody s.beginInstr hsup
      cases hr : body s.beginInstr with
      | ok a u => rw [hr] at h hresult; cases h; exact hs.leaves_privileged hp hresult
      | error e u => rw [hr] at h hresult; exact .inl (abortOutcome_inv (hs.beginInstr.cut hresult) h)
    | false =>
      rw [runPrivileged_user hsup] at h
      have hsane : ({ s with instrAddr := s.pc } : State).Sane :=
        ⟨hs.canonical, hs.supposed, hs.length, hs.even, hs.window⟩
      have hleaves := (takeException_result .privilege s.pc { s with instrAddr := s.pc }).finish_leaves
        (hsane.beginException .privilege) (fun _ => hs.closed hsup) h
      exact hleaves.imp_right fun ⟨hexecuted, herror, _⟩ => ⟨hexecuted, herror⟩

end

end Sys2Proof.Machine
end

section
/-! PROOFS. The family of spec 60, the invariant (O5), second part: fetching and reading ahead, what follows an instruction,
and the step as a whole. -/

namespace Sys2Proof.Machine

open Sys2Proof

/-! Fetching instruction words (R95): only words at even addresses are fetched. -/

theorem ordinarily_fetchWord (a : Long) : Ordinarily (fetchWord a) := by
  have hread : Ordinarily (do let v ← readMem .program a .word; pure (lowWord v) : Exec Word) :=
    ordinarily_bind (ordinarily_readMem _ _ _) fun _ => ordinarily_pure _
  intro s
  unfold fetchWord
  split
  · exact hread s
  · split
    · exact State.Ordinary.refl s
    · exact ordinarily_bind ordinarily_drawBit (fun _ => ordinarily_ite (ordinarily_pure _) hread) s

/-- A word is read at an even address only (R69), the run not being one only supposed. -/
theorem aligned_of_readMem {s t : State} {sp : Space} {a v : Long} (hs : s.supposed = false)
    (h : readMem sp a .word s = .ok v t) : aligned a .word = true := by
  cases ha : aligned a .word with
  | true => rfl
  | false =>
    exfalso
    simp only [readMem, State.canAccess, ha, Bool.false_and, Bool.false_eq_true, if_false, accessCycles, run_bind, run_get] at h
    cases hr : raiseFetchError s with
    | error e u => rw [hr] at h; cases h
    | ok a u => simp [hr, hs] at h

theorem aligned_of_fetchWord {s t : State} {a : Long} {w : Word} (hs : s.supposed = false)
    (h : fetchWord a s = .ok w t) : aligned a .word = true := by
  obtain ⟨n, ⟨hahead, -⟩ | ⟨v, hv, -⟩⟩ := fetchWord_cases h
  · rw [State.readAheadAt, Option.map_eq_some_iff] at hahead
    obtain ⟨e, he, -⟩ := hahead
    have hfound := List.find?_some he
    simp only [Bool.and_eq_true] at hfound
    exact hfound.2
  · exact aligned_of_readMem (s := { s with drawCount := n }) hs hv

/-- Words fetched: the state they leave, their number, and that they are at even addresses. -/
theorem fetchWords_cut (k : Nat) (a : Long) (s : State) : s.Cut (fetchWords k a s).state := by
  induction k generalizing a s with
  | zero => exact (State.Ordinary.refl s).toCut
  | succ k ih =>
    have hword := ordinarily_fetchWord a s
    unfold fetchWords
    split
    · next h => exact hword.error h
    · next h => exact (hword.ok h).toCut.trans (ih _ _)

theorem fetchWords_length_le (k : Nat) (a : Long) (s : State) : (fetchWords k a s).words.length ≤ k := by
  induction k generalizing a s with
  | zero => exact Nat.le_refl 0
  | succ k ih =>
    unfold fetchWords
    split
    · exact Nat.zero_le _
    · exact Nat.succ_le_succ (ih _ _)

theorem aligned_of_fetchWords {k : Nat} {a : Long} {s : State} (hs : s.supposed = false)
    (h : (fetchWords k a s).words ≠ []) : aligned a .word = true := by
  cases k with
  | zero => exact absurd rfl h
  | succ k =>
    unfold fetchWords at h
    split at h
    · exact absurd rfl h
    · next hw => exact aligned_of_fetchWord hs hw

theorem aheadWords_length (read : Long → Bool) (a : Long) (ws : List Word) : (aheadWords read a ws).length = ws.length := by
  induction ws generalizing a with
  | nil => rfl
  | cons w ws ih => rw [aheadWords, List.length_cons, List.length_cons, ih]

theorem aligned_add_two (a : Long) : aligned (a + 2) .word = aligned a .word := by
  have hbit : (a + 2).getLsbD 0 = a.getLsbD 0 := by
    simp only [BitVec.getLsbD, BitVec.toNat_add, Nat.testBit_zero]
    have : (2 : Long).toNat = 2 := rfl
    exact decide_eq_decide.mpr (by omega)
  show (!(a + 2).getLsbD 0) = !a.getLsbD 0
  rw [hbit]

theorem aligned_of_mem_aheadWords {read : Long → Bool} {a : Long} {ws : List Word} (ha : aligned a .word = true) {e : AheadWord}
    (he : e ∈ aheadWords read a ws) : aligned e.addr .word = true := by
  induction ws generalizing a with
  | nil => cases he
  | cons w ws ih =>
    obtain rfl | he := List.mem_cons.mp he
    · exact ha
    · exact ih ((aligned_add_two a).trans ha) he

/-! What the fetch of instruction words leaves, from the words read before to those read ahead now. -/

/-- After words were fetched or read ahead. -/
structure State.Ahead (s t : State) : Prop where
  sane : t.Sane
  procState : t.procState = s.procState
  inGroup0 : t.inGroup0 = s.inGroup0
  supervisor : t.sr.s = s.sr.s
  traceAtStart : t.traceAtStart = s.traceAtStart
  prefetchWindow : t.prefetchWindow = s.prefetchWindow
  fetchError : s.fetchError = none → t.fetchError = none

section
variable {s t u : State}

theorem State.Cut.ahead (h : s.Cut t) (hs : s.Sane) : s.Ahead t :=
  ⟨hs.cut h, h.procState, h.inGroup0, h.supervisor, h.traceAtStart, h.prefetchWindow, h.fetchError⟩

theorem State.Ahead.trans (h : s.Ahead t) (h' : t.Ahead u) : s.Ahead u :=
  ⟨h'.sane, h'.procState.trans h.procState, h'.inGroup0.trans h.inGroup0, h'.supervisor.trans h.supervisor,
    h'.traceAtStart.trans h.traceAtStart, h'.prefetchWindow.trans h.prefetchWindow, h'.fetchError ∘ h.fetchError⟩

/-- Words of the window kept as read ahead. -/
theorem State.Ahead.keep (h : s.Ahead t) {read : Long → Bool} {a : Long} {ws : List Word} (hlength : ws.length ≤ s.windowWords)
    (ha : ws ≠ [] → aligned a .word = true) : s.Ahead { t with prefetch := aheadWords read a ws } :=
  { h with
    sane :=
      { h.sane with
        length := by
          rw [aheadWords_length]
          exact hlength.trans (Nat.le_of_eq (by rw [State.windowWords, State.windowWords, h.prefetchWindow]))
        even := by
          cases ws with
          | nil => exact fun _ he => nomatch he
          | cons w ws => exact fun _ he => aligned_of_mem_aheadWords (ha (List.cons_ne_nil _ _)) he } }

theorem fetchWords_ahead (hs : s.Sane) (k : Nat) (a : Long) : s.Ahead (fetchWords k a s).state := (fetchWords_cut k a s).ahead hs

/-- Words fetched and kept as read ahead. -/
theorem fetchWords_keep (hs : s.Sane) {k : Nat} (hk : k ≤ s.windowWords) (a : Long) (read : Long → Bool) :
    s.Ahead { (fetchWords k a s).state with prefetch := aheadWords read a (fetchWords k a s).words } :=
  (fetchWords_ahead hs k a).keep ((fetchWords_length_le k a s).trans hk) (aligned_of_fetchWords hs.supposed)

theorem State.Sane.readAhead (hs : s.Sane) {window : Nat} (hw : window ≤ s.windowWords) (a : Long) :
    s.Ahead (s.readAhead window a).state := by
  unfold State.readAhead
  dsimp only
  split
  · exact fetchWords_keep hs hw a _
  · have hdraw : s.Cut { s with drawCount := s.drawCount + 1 } := (State.Ordinary.draw _ s).toCut
    have hcount : s.surelyAhead window a + Config.freeChoice s.drawCount % (window - s.surelyAhead window a + 1) ≤ s.windowWords := by
      have hleast := s.surelyAhead_le window a
      have hfree := Nat.mod_lt (Config.freeChoice s.drawCount) (show 0 < window - s.surelyAhead window a + 1 by omega)
      omega
    exact (hdraw.ahead hs).trans (fetchWords_keep (hs.cut hdraw) hcount a _)

/-! After an instruction or an exception: the words at the program counter (R503 b), then the trace exception (R470). -/

/-- What holds after an instruction, but that a trace exception may be to come. -/
def State.Between (s : State) : Prop := s.Executed ∧ s.fetchError = none

theorem inv_iff_between (s : State) : Inv s ↔ s.Between ∧ s.traceAtStart = false := by
  rw [inv_iff, State.Between, and_assoc]

theorem State.Sane.withTarget (hs : s.Sane) : s.withTarget.Sane where
  canonical := hs.canonical
  supposed := hs.supposed
  length := by
    unfold State.withTarget
    dsimp only
    split
    · rw [aheadWords_length, State.wordsAt_length]; exact Nat.le_refl _
    · exact Nat.zero_le _
  even := by
    unfold State.withTarget
    dsimp only
    split
    · next ha => exact fun _ he => aligned_of_mem_aheadWords ha he
    · exact fun _ he => nomatch he
  window := hs.window

/-- What the words at the program counter being read, or not, leaves. -/
theorem readTarget_between {fuel : Nat} (hs : s.Between) (h : readTarget fuel s = .next t) :
    t.Between ∧ (s.traceAtStart = false → t.traceAtStart = false) := by
  induction fuel generalizing s with
  | zero => cases h; exact ⟨hs, id⟩
  | succ fuel ih =>
    obtain ⟨hexecuted, herror⟩ := hs
    have hnone (h : s.fetchError ≠ none) : s.inGroup0 = false := absurd herror h
    unfold readTarget at h
    split at h
    · next hnormal =>
      split at h
      · cases h
        exact ⟨⟨hexecuted.toSane.withTarget.executed hnormal.1 hnone, herror⟩, id⟩
      · split at h
        · have hahead := hexecuted.toSane.readAhead (Nat.le_refl s.windowWords) s.pc
          dsimp only at h
          split at h
          · cases h
            have herror' := hahead.fetchError herror
            exact ⟨⟨hahead.sane.executed (hahead.procState.trans hnormal.1) fun h => absurd herror' h, herror'⟩,
              fun htrace => hahead.traceAtStart.trans htrace⟩
          · split at h
            · next hcut =>
              have hinv := abortOutcome_inv (hahead.sane.cut (State.Ordinary.openInstrReg _ _).toCut) hcut
              obtain ⟨hexecuted', herror', htrace'⟩ := (inv_iff _).mp hinv
              obtain ⟨hbetween, htrace⟩ := ih ⟨hexecuted', herror'⟩ h
              exact ⟨hbetween, fun _ => htrace htrace'⟩
            · next hnext => exact absurd h (hnext t)
        · cases h; exact ⟨⟨hexecuted, herror⟩, id⟩
    · cases h; exact ⟨⟨hexecuted, herror⟩, id⟩

theorem settled_inv {o : Host.Outcome State Fault Refusal} (ho : ∀ s, o = .next s → Inv s) (h : settled o = .next t) :
    Inv t := by
  cases o with
  | next s =>
    obtain ⟨hbetween, htrace⟩ := (inv_iff_between s).mp (ho s rfl)
    obtain ⟨hbetween', htrace'⟩ := readTarget_between hbetween h
    exact (inv_iff_between t).mpr ⟨hbetween', htrace' htrace⟩
  | fault r => cases h
  | refused r => cases h

theorem afterInstr_inv {o : Host.Outcome State Fault Refusal} (ho : ∀ s, o = .next s → s.Between)
    (h : afterInstr o = .next t) : Inv t := by
  cases o with
  | fault r => cases h
  | refused r => cases h
  | next s =>
    unfold afterInstr at h
    dsimp only at h
    split at h
    · cases hsettle : s.settle with
      | fault r => rw [hsettle] at h; cases h
      | refused r => rw [hsettle] at h; cases h
      | next u =>
        obtain ⟨hbetween, -⟩ := readTarget_between (ho s rfl) hsettle
        rw [hsettle] at h
        unfold traceAfter at h
        dsimp only at h
        split at h
        · exact takeException_group1_inv rfl hbetween.1.toSane hbetween.2 h
        · next htrace => cases h; exact (inv_iff_between _).mpr ⟨hbetween, by simpa using htrace⟩
    · next htrace => cases h; exact (inv_iff_between _).mpr ⟨ho _ rfl, by simpa using htrace⟩

/-! A bus error of an instruction word (R96, R451). -/

theorem State.Sane.mix (hs : t.Sane) (hclosed : t.inGroup0 = false) (r : Registers) (w : Word) :
    ({ State.mix r t with instrReg := w } : State).Sane :=
  ⟨hs.canonical, hs.supposed, hs.length, hs.even, fun h => nomatch hclosed.symm.trans h⟩

/-- An instruction done, a bus error of an instruction word pending or not. -/
theorem fetchErrorOutcome_cases {o : Host.Outcome State Fault Refusal} (ho : ∀ s, o = .next s → s.Executed)
    (h : fetchErrorOutcome o = .next t) : Inv t ∨ (o = .next t ∧ t.fetchError = none) := by
  cases o with
  | fault r => cases h
  | refused r => cases h
  | next s =>
    have hs := ho s rfl
    unfold fetchErrorOutcome at h
    dsimp only at h
    split at h
    · next herror => cases h; exact .inr ⟨rfl, herror⟩
    · next e herror =>
      exact .inl (abortOutcome_inv (hs.toSane.mix (hs.pending (by simp [herror])) e.regs e.instr) h)

/-- An instruction during which one of its words or of those after it cannot be fetched is cut short, or abandoned. -/
theorem fetchFault_inv {e : Abort} {other : Word} {run : State → Host.Outcome State Fault Refusal} (hs : s.Sane)
    (hp : s.procState = .normal)
    (hrun : ∀ u v : State, u.Sane → u.procState = .normal → run u = .next v → u.Leaves v)
    (h : fetchFault e other run s = .next t) : Inv t := by
  cases e with
  | unanswered => cases h
  | reset level => exact abortOutcome_inv (e := .reset level) hs h
  | access f =>
    have hdraw : s.Cut { s with drawCount := s.drawCount + 2 } := (State.Ordinary.draw _ s).toCut
    unfold fetchFault at h
    dsimp only at h
    split at h
    · have hopen := hs.cut (hdraw.trans (State.Ordinary.openInstrReg other _).toCut)
      have hS : (State.openInstrReg other { s with drawCount := s.drawCount + 2 }).sr.s = s.sr.s :=
        (State.Ordinary.openInstrReg other _).supervisor
      have hsane : ({ State.openInstrReg other { s with drawCount := s.drawCount + 2 } with
          inGroup0 := s.inGroup0 && Config.freeBit (s.drawCount + 1) } : State).Sane :=
        ⟨hopen.canonical, hopen.supposed, hopen.length, hopen.even,
          fun hw => hS.trans (hs.window ((Bool.and_eq_true _ _).mp hw).1)⟩
      exact abortOutcome_inv hsane h
    · have hpending : (State.pendingError f other { s with drawCount := s.drawCount + 2 }).Sane :=
        ⟨hs.canonical, hs.supposed, hs.length, hs.even, hs.window⟩
      have hleaves := fun v hv => hrun _ v hpending hp hv
      obtain hinv | ⟨hnext, hnone⟩ := fetchErrorOutcome_cases (fun v hv => (hleaves v hv).executed) h
      · exact hinv
      · exact (hleaves t hnext).elim id fun h => nomatch h.2.mp hnone

/-! An instruction whose words cannot all be fetched (R451). -/

theorem ordinarily_moveBefore (sz : Size) (src : Ea) : Ordinarily (moveBefore sz src) :=
  ordinarily_bind (ordinarily_readEa src sz) fun _ => ordinarily_setCcr _

theorem ordinarily_linkBefore (an : Reg) : Ordinarily (linkBefore an) :=
  ordinarily_bind ordinarily_get fun _ => ordinarily_bind
    (ordinarily_onAbort (ordinarily_writeMem _ _ _)
      fun s => (State.Ordinary.maybe (.setSp _) s).trans (.maybe (.setA an _) _))
    fun _ => ordinarily_modify fun s => (State.Ordinary.setSp _ s).trans (.setA an _ _)

theorem ordinarily_bodyBefore (i : Instr) (words : List Word) : Ordinarily (bodyBefore i words) := by
  have hflags : Ordinarily (modify fun s => s.openFlags (s.afterUnknown words) : Exec Unit) :=
    ordinarily_modify fun s => .openFlags _ s
  unfold bodyBefore
  split
  · exact ordinarily_ite (ordinarily_moveBefore _ _) hflags
  · exact ordinarily_ite (ordinarily_moveBefore _ _) hflags
  · exact ordinarily_ite (ordinarily_moveBefore _ _) hflags
  · refine ordinarily_modify fun s => ?_
    split
    · exact .refl s
    · exact .setD _ _ _ s
  · exact ordinarily_linkBefore _
  · exact ordinarily_bind ordinarily_get fun _ => ordinarily_push32 _
  · exact hflags

theorem runBefore_leaves {op : Word} {ws : List Word} {r : Instr × List Word} (hop : decodeOp op = .ok r) (hs : s.Sane)
    (hp : s.procState = .normal) (h : runBefore (op :: ws) s = .next t) : s.Leaves t := by
  obtain ⟨j, rest, hj, -⟩ := decode_like (ws' := ws ++ [0, 0, 0, 0]) hop (by simp)
  have hdecode : decode (op :: ws ++ [0, 0, 0, 0]) = .ok (j, rest) := hj
  unfold runBefore at h
  rw [hdecode] at h
  exact runInstr_leaves (ordinarily_bodyBefore j (op :: ws)).isBody hs hp h

end

end Sys2Proof.Machine
end

section
/-! PROOFS. The family of spec 60, the invariant (O5), third part: the instructions in all the ways in which their words are
fetched, and the step. -/

namespace Sys2Proof.Machine

open Sys2Proof

/-! Fetching changes no more than bus cycles can, so the target of a call stays where it is. -/

theorem accesses_fetchWord (a : Long) : Accesses (fetchWord a) := by
  have hread : Accesses (do let v ← readMem .program a .word; pure (lowWord v) : Exec Word) :=
    accesses_bind (accesses_readMem _ _ _) fun _ => accesses_pure _
  intro s0 s hs
  unfold fetchWord
  split
  · exact hread s0 s hs
  · split
    · exact accesses_pure _ s0 s hs
    · exact accesses_bind accesses_drawBit (fun _ => accesses_ite (accesses_pure _) hread) s0 s hs

theorem fetchWords_sameButBus (k : Nat) (a : Long) {s0 s : State} (hs : s0.sameButBus s) :
    s0.sameButBus (fetchWords k a s).state := by
  induction k generalizing a s with
  | zero => exact hs
  | succ k ih =>
    have hword := accesses_fetchWord a s0 s hs
    unfold fetchWords
    split
    · next h => exact hword.2 _ _ h
    · next h => exact ih _ (hword.1 _ _ h)

section
variable {s t : State}

/-- Two states with the same registers, memory map and PREFETCH_WINDOW. -/
def State.sameRegisters (s t : State) : Prop :=
  t = { t with
    d := s.d, a := s.a, usp := s.usp, ssp := s.ssp, pc := s.pc, sr := s.sr, memMap := s.memMap
    prefetchWindow := s.prefetchWindow }

theorem State.callTarget_congr (h : s.sameRegisters t) (i : Instr) : t.callTarget i = s.callTarget i := by
  rw [h]
  cases i with
  | jsr ea => cases ea <;> rfl
  | _ => rfl

theorem State.targetHit_congr (h : s.sameRegisters t) (i : Instr) : t.targetHit i = s.targetHit i := by
  rw [State.targetHit, State.targetHit, State.callTarget_congr h, h]
  rfl

theorem State.sameRegisters_of_sameButBus (h : s.sameButBus t) : s.sameRegisters t := by
  rw [h]
  rfl

theorem State.aligned_of_callTarget {i : Instr} {a : Long} (h : s.callTarget i = some a) : aligned a .word = true :=
  (Option.filter_eq_some_iff.mp h).2

/-! A computation cut short ends inside the window of a double fault (R455), so a call that ends outside it went through. -/

theorem runReset_window {fuel : Nat} {level : Fin 8} (h : runReset fuel level s = .next t) : t.inGroup0 = true := by
  obtain ⟨l, u, v, -, hv, rfl | ⟨pc, rfl⟩⟩ := runReset_ends (P := fun _ => True) (fun _ _ _ => trivial)
    (fun _ _ _ _ => trivial) trivial h
  all_goals exact hv.inGroup0

theorem abortOutcome_window {e : Abort} (h : abortOutcome e s = .next t) : t.inGroup0 = true := by
  cases e with
  | unanswered => cases h
  | reset level => exact runReset_window h
  | access f =>
    unfold abortOutcome at h
    dsimp only at h
    split at h
    · next hopen => cases h; exact hopen
    · have hresult := takeGroup0_result f { s with inGroup0 := true, fetchError := none }
      split at h <;> rename_i hr
      · cases h
        rw [hr] at hresult
        obtain ⟨n, -, u, v, w, hu, hread, rfl⟩ := hresult
        exact ((ordinarily_readMem _ _ _ u).ok hread).inGroup0.trans hu.inGroup0
      · cases h
      · cases h
        rw [hr] at hresult
        exact hresult.1.inGroup0
      · exact runReset_window h

theorem runInstr_closed {body : Exec Unit} (h : runInstr body s = .next t) (hclosed : t.inGroup0 = false) :
    body s.beginInstr = .ok () t := by
  cases hr : body s.beginInstr with
  | ok a u =>
    rw [runInstr_ok hr] at h
    cases h
    rfl
  | error e u =>
    rw [runInstr_error hr] at h
    exact nomatch hclosed.symm.trans (abortOutcome_window h)

theorem callBody_pc {ret target : Long} (h : callBody ret target s = .ok () t) : t.pc = target := by
  have hpush (u : State) (h : (push32 ret >>= fun _ => modify (State.jump target) : Exec Unit) u = .ok () t) :
      t.pc = target := by
    rw [run_bind] at h
    cases hr : push32 ret u with
    | error e v => rw [hr] at h; cases h
    | ok a v => rw [hr] at h; cases h; rfl
  unfold callBody at h
  split at h
  · have hdraw : drawBit s = .ok (Config.freeBit s.drawCount) { s with drawCount := s.drawCount + 1 } := rfl
    rw [run_bind_ok hdraw] at h
    cases hbit : Config.freeBit s.drawCount with
    | true => rw [hbit] at h; exact hpush _ h
    | false => rw [hbit] at h; cases h; rfl
  · exact hpush _ h

theorem pc_of_callTarget {i : Instr} {a : Long} (htarget : s.callTarget i = some a) (h : exec i s = .next t)
    (hclosed : t.inGroup0 = false) : t.pc = a := by
  have hsome := (Option.filter_eq_some_iff.mp htarget).1
  cases i with
  | bsr d =>
    cases hsome
    exact callBody_pc (runInstr_closed h hclosed)
  | jsr ea =>
    cases hsome
    have hbody := runInstr_closed h hclosed
    rw [run_bind_ok (eaAddress_ok rfl), run_bind_ok (run_get _)] at hbody
    exact callBody_pc hbody
  | _ => cases hsome

/-! The words at the target of a call read before its push (R95). -/

/-- Some words at the target of a call, or none, and the state they leave. -/
theorem State.targetAhead_cases (s : State) (i : Instr) :
    s.targetAhead i = { words := [], state := s, error := none } ∨
      ∃ a k, s.callTarget i = some a ∧ k ≤ s.windowWords ∧
        s.targetAhead i =
          let f := fetchWords k a { s with prefetch := [], drawCount := s.drawCount + 1 }
          { f with state := { f.state with prefetch := s.prefetch } } := by
  unfold State.targetAhead
  cases htarget : s.callTarget i with
  | none => exact .inl rfl
  | some a =>
    dsimp only
    split
    · exact .inl rfl
    · exact .inr ⟨a, _, rfl, Nat.le_of_lt_succ (Nat.mod_lt _ (Nat.succ_pos _)), rfl⟩

theorem State.Sane.targetAhead (hs : s.Sane) (i : Instr) : s.Ahead (s.targetAhead i).state := by
  obtain h | ⟨a, k, -, -, h⟩ := s.targetAhead_cases i
  · rw [h]
    exact (State.Ordinary.refl s).toCut.ahead hs
  · rw [h]
    have hcut : ({ s with prefetch := [], drawCount := s.drawCount + 1 } : State).Cut _ := fetchWords_cut k a _
    have hahead : s.Ahead { (fetchWords k a { s with prefetch := [], drawCount := s.drawCount + 1 }).state with
        prefetch := s.prefetch } := by
      refine ⟨⟨hcut.canonical hs.canonical, hcut.supposed.trans hs.supposed, ?_, hs.even, fun hw => ?_⟩, hcut.procState,
        hcut.inGroup0, hcut.supervisor, hcut.traceAtStart, hcut.prefetchWindow, hcut.fetchError⟩
      · exact hs.length.trans (Nat.le_of_eq hcut.windowWords.symm)
      · exact hcut.supervisor.trans (hs.window (hcut.inGroup0.symm.trans hw))
    exact hahead

/-- The words kept as read ahead at the target after the call. -/
theorem State.Between.keepTarget {ws : List Word} {o : Host.Outcome State Fault Refusal} (ho : ∀ v, o = .next v → v.Between)
    (hws : ws ≠ [] → ∀ v, o = .next v → v.inGroup0 = false →
      v.procState = .normal ∧ ws.length ≤ v.windowWords ∧ aligned v.pc .word = true)
    (h : Machine.keepTarget ws o = .next t) : t.Between := by
  cases o with
  | fault r => cases ws <;> cases h
  | refused r => cases ws <;> cases h
  | next v =>
    cases ws with
    | nil => cases h; exact ho _ rfl
    | cons w ws =>
      unfold Machine.keepTarget at h
      dsimp only at h
      split at h
      · cases h; exact ho _ rfl
      · next hopen =>
        cases h
        obtain ⟨hproc, hlength, heven⟩ := hws (List.cons_ne_nil _ _) v rfl (by simpa using hopen)
        obtain ⟨hexecuted, herror⟩ := ho v rfl
        have hsane : ({ v with prefetch := aheadWords (fun _ => true) v.pc (w :: ws) } : State).Sane :=
          { hexecuted.toSane with
            length := (aheadWords_length _ _ _).symm ▸ hlength
            even := fun _ he => aligned_of_mem_aheadWords heven he }
        exact ⟨hsane.executed hproc hexecuted.pending, herror⟩

theorem State.windowAfter_le (s : State) (i : Instr) : s.windowAfter i ≤ s.windowWords := by
  unfold State.windowAfter
  split
  · exact Nat.zero_le _
  · exact Nat.le_refl _

/-- BSR and JSR make ordinary changes, as long as they are not cut short. -/
theorem exec_call_ordinary {i : Instr} {a : Long} (htarget : s.callTarget i = some a) (h : exec i s = .next t)
    (hclosed : t.inGroup0 = false) : s.beginInstr.Ordinary t := by
  have hsome := (Option.filter_eq_some_iff.mp htarget).1
  cases i with
  | bsr d =>
    have hbody := ordinarily_bind ordinarily_get fun s => ordinarily_callBody (s.pc + branchBytes d) (s.pc + branchOffset d)
    exact (hbody _).ok (runInstr_closed h hclosed)
  | jsr ea =>
    have hbody := ordinarily_bind (ordinarily_eaAddress ea) fun target => ordinarily_bind ordinarily_get fun s =>
      ordinarily_callBody s.pc target
    exact (hbody _).ok (runInstr_closed h hclosed)
  | _ => cases hsome

/-! An instruction all of whose words were fetched before it. -/

theorem runFetched_inv {i : Instr} (hs : s.Sane) (hp : s.procState = .normal) (herror : s.fetchError = none)
    (h : runFetched i s = .next t) : Inv t := by
  have hexec (u v : State) (hu : u.Sane) (hp : u.procState = .normal) (h : exec i u = .next v) : u.Leaves v :=
    exec_leaves hu hp h
  have hahead := hs.readAhead (s.windowAfter_le i) (s.nextPc i)
  unfold runFetched at h
  dsimp only at h
  generalize s.readAhead (s.windowAfter i) (s.nextPc i) = ahead at h hahead
  split at h
  · exact fetchFault_inv hahead.sane (hahead.procState.trans hp) hexec h
  · have hfirst := hahead.trans (hahead.sane.targetAhead i)
    have hfirstp := hfirst.procState.trans hp
    split at h
    · exact fetchFault_inv hfirst.sane hfirstp hexec h
    · refine afterInstr_inv (fun v hv => State.Between.keepTarget (fun w hw => ?between) (fun hws w hw hclosed => ?words) hv) h
      case between =>
        have hleaves := exec_leaves hfirst.sane hfirstp hw
        exact ⟨hleaves.executed, hleaves.fetchError (hfirst.fetchError herror)⟩
      case words =>
        obtain hnone | ⟨a, k, htarget, hk, hsome⟩ := ahead.state.targetAhead_cases i
        · rw [hnone] at hws
          exact absurd rfl hws
        · have hsame : ahead.state.sameButBus (ahead.state.targetAhead i).state := by
            have hwords := fetchWords_sameButBus k a
              (State.sameButBus_refl { ahead.state with prefetch := [], drawCount := ahead.state.drawCount + 1 })
            rw [hsome]
            dsimp only
            rw [hwords]
            rfl
          have htarget' := (State.callTarget_congr (State.sameRegisters_of_sameButBus hsame) i).trans htarget
          have hordinary := exec_call_ordinary htarget' hw hclosed
          have hwindow : w.windowWords = ahead.state.windowWords := by
            rw [hordinary.windowWords]
            exact congrArg (· / 2) (hahead.sane.targetAhead i).prefetchWindow
          refine ⟨hordinary.procState.trans hfirstp, ?_, ?_⟩
          · rw [hwindow, hsome]
            exact (fetchWords_length_le k a _).trans hk
          · rw [pc_of_callTarget htarget' hw hclosed]
            exact State.aligned_of_callTarget htarget

/-! An instruction whose last words are fetched in the middle of it (R503 d). -/

/-- What holds while an instruction is executed. -/
def State.Running (s : State) : Prop := s.Sane ∧ s.procState = .normal ∧ s.inGroup0 = false

theorem State.Running.cut (hs : s.Running) (h : s.Cut t) : t.Running :=
  ⟨hs.1.cut h, h.procState.trans hs.2.1, h.inGroup0.trans hs.2.2⟩

theorem State.Running.ahead (hs : s.Running) (h : s.Ahead t) : t.Running :=
  ⟨h.sane, h.procState.trans hs.2.1, h.inGroup0.trans hs.2.2⟩

theorem Ordinarily.keeps_running {α : Type} {m : Exec α} (h : Ordinarily m) : Keeps State.Running m :=
  fun s hs => ⟨fun _ _ hm => hs.cut ((h s).ok hm).toCut, fun _ _ hm => hs.cut ((h s).error hm)⟩

theorem keeps_running_fetchRest (before op : Word) (first : List Word) (i : Instr) :
    Keeps State.Running (fetchRest before op first i) := by
  intro s hs
  have hwords (k : Nat) (a : Long) : (fetchWords k a s).state.Running := hs.cut (fetchWords_cut k a s)
  have hwindow (k : Nat) (a : Long) : s.windowWords ≤ (fetchWords k a s).state.windowWords :=
    Nat.le_of_eq (fetchWords_cut k a s).windowWords.symm
  unfold fetchRest
  dsimp only
  generalize i.words - 1 - first.length = k
  generalize s.pc + BitVec.ofNat 32 (2 * (first.length - neededFirst i)) = next
  split
  · exact ⟨fun _ _ h => (nomatch h), fun _ _ h => (by cases h; exact (hwords k next).cut (State.Ordinary.openInstrReg _ _).toCut)⟩
  · have hahead := (hwords k next).ahead ((hwords k next).1.readAhead (hwindow k next)
      (next + BitVec.ofNat 32 (2 * (fetchWords k next s).words.length)))
    split
    · exact ⟨fun _ _ h => (by cases h; exact hahead), fun _ _ h => (nomatch h)⟩
    · refine ⟨fun _ _ h => ?_, fun _ _ h => (nomatch h)⟩
      cases h
      obtain ⟨hsane, hrest⟩ := hahead
      exact ⟨⟨hsane.canonical, hsane.supposed, hsane.length, hsane.even, hsane.window⟩, hrest⟩
    · exact ⟨fun _ _ h => (nomatch h), fun _ _ h => (by cases h; exact hahead)⟩

theorem keeps_running_bodyLate (i : Instr) {rest : Exec Instr} (hrest : Keeps State.Running rest) :
    Keeps State.Running (bodyLate i rest) := by
  have hmove (sz : Size) (src : Ea) : Keeps State.Running (moveLate sz src rest) :=
    keeps_bind (ordinarily_readEa src sz).keeps_running fun v => keeps_bind hrest fun i =>
      (ordinarily_moveStore sz v (moveDestination i)).keeps_running
  cases i with
  | moveByte src dst => exact hmove .byte src
  | moveWord src dst => exact hmove .word src
  | moveLong src dst => exact hmove .long src
  | link an d =>
    refine keeps_bind keeps_get fun old => keeps_bind (ordinarily_linkBefore an).keeps_running fun _ =>
      keeps_bind (keeps_onAbort hrest fun u hu => ?_) fun whole => keeps_modify fun u hu =>
        hu.cut ((State.Ordinary.setSp _ u).trans (.advance 2 _)).toCut
    split
    · exact hu
    · exact hu.cut (State.Ordinary.maybe (.setA an _) u).toCut
  | bsr d =>
    exact keeps_bind keeps_get fun s => keeps_bind (ordinarily_push32 _).keeps_running fun _ => keeps_bind hrest fun whole =>
      keeps_modify fun u hu => hu.cut (State.Ordinary.jump _ u).toCut
  | _ => exact keeps_pure ()

/-- An instruction of whose body nothing is known but that it keeps what holds while an instruction is executed. -/
theorem runInstr_executed {body : Exec Unit} (hbody : Keeps State.Running body) (hs : s.Sane) (hp : s.procState = .normal)
    (h : runInstr body s = .next t) : t.Executed := by
  have hbegin : s.beginInstr.Running := ⟨hs.beginInstr, hp, rfl⟩
  obtain ⟨hok, herror⟩ := hbody _ hbegin
  cases hr : body s.beginInstr with
  | ok a u =>
    rw [runInstr_ok hr] at h
    cases h
    obtain ⟨hsane, hproc, hclosed⟩ := hok a _ hr
    exact hsane.executed hproc fun _ => hclosed
  | error e u =>
    rw [runInstr_error hr] at h
    exact ((inv_iff t).mp (abortOutcome_inv ((herror e u hr).1.cut (State.Ordinary.openFlags _ u).toCut) h)).1

theorem runLate_inv {before op : Word} {first : List Word} {i : Instr} (hs : s.Sane) (hp : s.procState = .normal)
    (h : runLate before op first i s = .next t) : Inv t := by
  refine afterInstr_inv (fun v hv => ?_) h
  have hbody := keeps_running_bodyLate i (keeps_running_fetchRest before op first i)
  obtain hinv | ⟨hrun, hnone⟩ := fetchErrorOutcome_cases (fun w hw => runInstr_executed hbody hs hp hw) hv
  · exact ((inv_iff_between v).mp hinv).1
  · exact ⟨runInstr_executed hbody hs hp hrun, hnone⟩

/-! The operation word, and the step. -/

theorem runUnexecuted_inv {run : State → Host.Outcome State Fault Refusal} (hs : s.Sane) (herror : s.fetchError = none)
    (hrun : ∀ u v : State, u.Sane → u.fetchError = none → u.sr.s = s.sr.s → run u = .next v → Inv v)
    (h : runUnexecuted run s = .next t) : Inv t := by
  have hahead := hs.readAhead (Nat.le_refl s.windowWords) (s.pc + 2)
  unfold runUnexecuted at h
  dsimp only at h
  split at h
  · exact hrun _ _ hahead.sane (hahead.fetchError herror) hahead.supervisor h
  · exact abortOutcome_inv (hahead.sane.cut (State.Ordinary.openInstrReg _ _).toCut) h

theorem State.Sane.fetchEarly (hs : s.Sane) (i : Instr) : s.Ahead (s.fetchEarly i).state := by
  have hdraw : s.Cut { s with drawCount := s.drawCount + 1 } := (State.Ordinary.draw _ s).toCut
  unfold State.fetchEarly
  dsimp only
  split
  · exact fetchWords_ahead hs _ _
  · exact (hdraw.ahead hs).trans (fetchWords_ahead (hs.cut hdraw) _ _)

theorem runOperation_inv {before op : Word} (hs : s.Sane) (hp : s.procState = .normal) (herror : s.fetchError = none)
    (h : runOperation before op s = .next t) : Inv t := by
  unfold runOperation at h
  cases hop : decodeOp op with
  | error e =>
    rw [hop] at h
    exact runUnexecuted_inv hs herror (fun u v hu herror _ hv => takeException_group1_inv (decodeException_group e) hu herror hv) h
  | ok r =>
    obtain ⟨i, rest⟩ := r
    rw [hop] at h
    dsimp only at h
    split at h
    · next hpriv =>
      obtain ⟨hi, huser⟩ := (Bool.and_eq_true _ _).mp hpriv
      obtain ⟨body, hbody⟩ := exec_privileged hi
      refine runUnexecuted_inv hs herror (fun u v hu herror hsup hv => ?_) h
      rw [hbody, runPrivileged_user (hsup.trans (by simpa using huser))] at hv
      have hsane : ({ u with instrAddr := u.pc } : State).Sane := ⟨hu.canonical, hu.supposed, hu.length, hu.even, hu.window⟩
      exact takeException_group1_inv rfl hsane herror hv
    · have hearly := hs.fetchEarly i
      have hearlyp := hearly.procState.trans hp
      have herror' := hearly.fetchError herror
      split at h
      · exact fetchFault_inv hearly.sane hearlyp (fun u v hu hp hv => runBefore_leaves hop hu hp hv) h
      · split at h
        · exact takeException_group1_inv (decodeException_group _) hearly.sane herror' h
        · split at h
          · exact runLate_inv hearly.sane hearlyp h
          · exact runFetched_inv hearly.sane hearlyp herror' h

theorem runNext_inv (hs : s.Sane) (hp : s.procState = .normal) (herror : s.fetchError = none) (h : runNext s = .next t) :
    Inv t := by
  have hstart : ({ s with traceAtStart := s.sr.t } : State).Sane := ⟨hs.canonical, hs.supposed, hs.length, hs.even, hs.window⟩
  have hfetch := (ordinarily_onAbort (ordinarily_fetchWord s.pc) fun u => State.Ordinary.openInstrReg u.unknownWord u)
    { s with traceAtStart := s.sr.t }
  unfold runNext at h
  split at h
  · next hr => exact abortOutcome_inv (hstart.cut (hfetch.error hr)) h
  · next op u hr =>
    have hword := hfetch.ok hr
    have hsane := hstart.cut hword.toCut
    have hoperation : (u.withOperation op).Sane :=
      ⟨hsane.canonical, hsane.supposed, hsane.length, hsane.even, hsane.window⟩
    exact runOperation_inv hoperation (hword.procState.trans hp) (hword.fetchError herror) h

theorem runProcessor_inv {level : Fin 8} (hs : Inv s) (h : runProcessor level s = .next t) : Inv t := by
  obtain ⟨hexecuted, herror, htrace⟩ := (inv_iff s).mp hs
  have hsample : (s.sample level).Sane :=
    ⟨hexecuted.canonical, hexecuted.supposed, hexecuted.length, hexecuted.even, hexecuted.window⟩
  have hsampled : Inv (s.sample level) := hs
  unfold runProcessor at h
  split at h
  · cases h; exact hs
  · next hrunning =>
    dsimp only at h
    split at h
    · cases h; exact hsampled
    · split at h
      · refine settled_inv (fun v hv => ?_) h
        have hsane : ({ s.sample level with nmi := false } : State).Sane :=
          ⟨hsample.canonical, hsample.supposed, hsample.length, hsample.even, hsample.window⟩
        exact takeException_group1_inv rfl hsane herror hv
      · split at h
        · cases h; exact hsampled
        · next hstopped =>
          have hp : s.procState = .normal := by
            cases hproc : s.procState with
            | normal => rfl
            | halted => exact absurd hproc hrunning
            | stopped => exact absurd hproc hstopped
            | exception g => exact absurd hproc (hexecuted.noException g)
          exact settled_inv (fun v hv => runNext_inv hsample hp herror hv) h

theorem stepInput_inv {input : PlatformInput} (hs : Inv s) (h : stepInput input s = .next t) : Inv t := by
  cases input with
  | run level => exact runProcessor_inv hs h
  | externalReset level => exact settled_inv (fun v hv => runReset_inv ((inv_iff s).mp hs).1.toSane hv) h
  | haltLine => cases h; exact hs
  | resetLine => cases h
  | busAcquire => cases h; exact hs
  | busRelease => cases h; exact hs
  | busWrite w =>
    unfold stepInput at h
    dsimp only at h
    split at h
    · cases h
      obtain ⟨hmem, hrest⟩ := hs
      exact ⟨State.masterWrites_wf hmem [w], hrest⟩
    · cases h; exact hs

/-- Settles O5: what holds at every moment of a step (`State.Sane`) is kept by all that fetches, reads ahead and executes, and
wherever a step can end the rest of the invariant holds again. -/
theorem invKeptByStep : Obligations.InvKeptByStep := by
  intro s t hs h
  obtain ⟨inputs, hinputs⟩ := s.takeInput_snd
  have htaken : Inv s.takeInput.2 := by rw [hinputs]; exact hs
  exact stepInput_inv htaken h

end

end Sys2Proof.Machine
end

section
/-! PROOFS. The family of spec 60, the second bus or address error (O21), and what the words read at a handler can do while the
maps alone speak. -/

namespace Sys2Proof.Machine

open Sys2Proof

/-! A second bus or address error (R455). -/

/-- An odd SSP stops exception processing before any cycle of the frame. -/
theorem stackFrame_odd {s : State} (h : s.ssp.getLsbD 0 = true) (ws : List Word) :
    stackFrame ws s =
      .error (.access { kind := .addressError, addr := s.ssp - 4, dir := .write, code := .supervisorData })
        { s with ssp := s.ssp - 4 } := by
  have hodd : aligned s.ssp .word = false := by
    show (!s.ssp.getLsbD 0) = false
    rw [h]
    rfl
  unfold stackFrame
  dsimp only
  rw [if_neg (by simp [hodd])]

theorem takeGroup0_odd (f : AccessFault) {s : State} (h : s.ssp.getLsbD 0 = true) :
    ∃ e t, takeGroup0 f s = .error (.access e) t ∧ t.mem = s.mem := by
  have stops (u : State) (hssp : u.ssp = s.ssp) (hmem : u.mem = s.mem) (ws : List Word) (m : Exec Unit) :
      ∃ e t, (stackFrame ws >>= fun _ => m) u = .error (.access e) t ∧ t.mem = s.mem :=
    ⟨_, _, run_bind_error (stackFrame_odd (hssp ▸ h) ws), hmem⟩
  unfold takeGroup0
  rw [run_bind_ok (run_get s), run_bind_ok (run_modify _ s), run_bind_ok (show drawWord _ = _ from rfl),
    run_bind_ok (show drawBelow 5 _ = _ from rfl), run_bind_ok (run_get _)]
  refine stops _ ?_ ?_ _ _
  all_goals rfl

theorem abortOutcome_odd (f : AccessFault) {s : State} (hclosed : s.inGroup0 = false) (h : s.ssp.getLsbD 0 = true) :
    ∃ t, abortOutcome (.access f) s = .next t ∧ t.procState = .halted ∧ t.mem = s.mem := by
  obtain ⟨e, t, ht, hmem⟩ := takeGroup0_odd f (s := { s with inGroup0 := true, fetchError := none }) h
  refine ⟨t.halt, ?_, rfl, hmem⟩
  unfold abortOutcome
  dsimp only
  rw [if_neg (by simp [hclosed]), ht]

/-! The words at the program counter (R503 b) inside the window of a double fault. -/

theorem readTarget_halt (fuel : Nat) (s : State) : readTarget fuel s.halt = .next s.halt := by
  cases fuel with
  | zero => rfl
  | succ fuel =>
    unfold readTarget
    rw [if_neg fun h => nomatch h.1]

theorem State.openInstrReg_eq (w : Word) (s : State) :
    ∃ k r, s.openInstrReg w = { s with drawCount := k, instrReg := r } := by
  unfold State.openInstrReg State.maybe
  dsimp only
  split
  · exact ⟨_, w, rfl⟩
  · exact ⟨_, s.instrReg, rfl⟩

/-- Inside the window, while the maps alone speak, the words at the program counter are read ahead or not, or a word that
cannot be read halts the processor, or nobody answers; one look is enough. -/
theorem readTarget_window {s : State} (hw : s.inGroup0 = true) (hq : s.quiet = true) :
    ∃ o, (∀ fuel, readTarget (fuel + 1) s = o) ∧
      ((∃ k p, o = .next { s with drawCount := k, prefetch := p }) ∨
        (∃ k p r, o = .next { s with drawCount := k, prefetch := p, instrReg := r }.halt) ∨ ∃ e, o = .fault e) := by
  obtain ⟨⟨n, p, hstate⟩, hreset⟩ := readAhead_quiet s.windowWords s.pc hq
  have same : ∀ o : Host.Outcome State Fault Refusal, o = .next s →
      ∃ k p, o = .next { s with drawCount := k, prefetch := p } := fun o h => ⟨s.drawCount, s.prefetch, h⟩
  unfold readTarget
  by_cases hnormal : s.procState = .normal ∧ s.prefetch = []
  · simp only [if_pos hnormal]
    by_cases hempty : (s.quiet && s.busMap.isEmpty) = true
    · simp only [if_pos hempty]
      exact ⟨_, fun _ => rfl, .inl ⟨s.drawCount, _, rfl⟩⟩
    · simp only [if_neg hempty]
      by_cases heven : aligned s.pc .word = true
      · simp only [if_pos heven]
        cases herror : (s.readAhead s.windowWords s.pc).error with
        | none => exact ⟨_, fun _ => rfl, .inl ⟨n, p, by rw [hstate]⟩⟩
        | some e =>
          dsimp only
          cases e with
          | unanswered => exact ⟨_, fun _ => rfl, .inr (.inr ⟨_, rfl⟩)⟩
          | reset level => exact absurd herror (hreset level)
          | access f =>
            have hopen : ∃ k r, (s.readAhead s.windowWords s.pc).state.openInstrReg
                (s.readAhead s.windowWords s.pc).state.unknownWord =
                  { s with drawCount := k, prefetch := p, instrReg := r } := by
              rw [hstate]
              exact State.openInstrReg_eq _ _
            obtain ⟨k, r, hopen⟩ := hopen
            have hhalt : abortOutcome (.access f) { s with drawCount := k, prefetch := p, instrReg := r } = _ :=
              abortOutcome_inGroup0 hw
            simp only [hopen, hhalt]
            exact ⟨_, fun fuel => readTarget_halt fuel _, .inr (.inl ⟨k, p, r, rfl⟩)⟩
      · simp only [if_neg heven]
        exact ⟨_, fun _ => rfl, .inl (same _ rfl)⟩
  · simp only [if_neg hnormal]
    exact ⟨_, fun _ => rfl, .inl (same _ rfl)⟩

/-- Settles O21: the window decides in `abortOutcome`; an odd SSP stops exception processing itself; and the words at a handler
are looked at once. -/
theorem doubleFaultHalts : Obligations.DoubleFaultHalts := by
  refine ⟨fun f s h => abortOutcome_inGroup0 h, fun f s hclosed hodd => abortOutcome_odd f hclosed hodd,
    fun s t hw hplain h => ?_⟩
  obtain ⟨hquiet, -, -⟩ := s.plain_iff.mp hplain
  obtain ⟨o, ho, hcases⟩ := readTarget_window hw hquiet
  have hnext : o = .next t := (ho (s.cycles.length + 1)).symm.trans h
  subst hnext
  obtain ⟨k, p, hsame⟩ | ⟨k, p, r, hhalt⟩ | ⟨e, hfault⟩ := hcases
  · cases hsame; exact .inl ⟨k, p, rfl⟩
  · cases hhalt; exact .inr ⟨rfl, rfl⟩
  · cases hfault

end Sys2Proof.Machine
end

section
/-! PROOFS. The family of spec 60, a step that executes an instruction (O6). -/

namespace Sys2Proof.Machine

open Sys2Proof

section
variable {r s : State} {i : Instr}

/-- The words after an instruction read ahead from memory, those marked that a bus cycle had read before. -/
def State.wordsAfter (r : State) (i : Instr) : List AheadWord :=
  aheadWords r.surelyRead (r.nextPc i) (r.wordsAt (r.windowAfter i) (r.nextPc i))

/-- An instruction executed with the window after it read ahead from memory, some words of its target read before it. -/
def State.executes (r : State) (i : Instr) (k : Nat) (words : List Word) : Host.Outcome State Fault Refusal :=
  afterInstr (keepTarget words (exec i { r with prefetch := r.wordsAfter i, drawCount := k }))

/-- Words that may have been read at the target of a call before its push: none, or, where the push overlaps them, the first
words of the window there. -/
def State.TargetWords (r : State) (i : Instr) (words : List Word) : Prop :=
  words = [] ∨ ∃ a n, r.targetHit i = true ∧ r.callTarget i = some a ∧ n ≤ r.windowWords ∧ words = r.wordsAt n a

/-- The window at the target of a call can be read, where its push overlaps it. -/
def State.TargetReadable (r : State) (i : Instr) : Prop :=
  r.targetHit i = true → ∀ a, r.callTarget i = some a →
    r.canAccessList .program .read .word 2 r.windowWords a = true

/-! What they depend on. -/

section
variable (hregs : s.sameRegisters r) (hmem : r.mem = s.mem)
include hregs

theorem State.windowWords_congr : r.windowWords = s.windowWords := by rw [hregs]; rfl

theorem State.TargetReadable.congr (hbus : s.sameBus r) (h : s.TargetReadable i) : r.TargetReadable i := by
  intro hhit a ha
  rw [State.canAccessList_congr hbus, State.windowWords_congr hregs]
  exact h ((State.targetHit_congr hregs i).symm.trans hhit) a ((State.callTarget_congr hregs i).symm.trans ha)

include hmem

theorem State.wordsAt_same (k : Nat) (a : Long) : r.wordsAt k a = s.wordsAt k a := by
  have hmap : r.memMap = s.memMap := by rw [hregs]
  have hsupervisor : r.sr.s = s.sr.s := by rw [hregs]
  exact State.wordsAt_congr hmap hmem hsupervisor k a

theorem State.TargetWords.congr {words : List Word} (h : r.TargetWords i words) : s.TargetWords i words := by
  obtain h | ⟨a, n, hhit, ha, hn, hwords⟩ := h
  · exact .inl h
  · refine .inr ⟨a, n, (State.targetHit_congr hregs i).symm.trans hhit, (State.callTarget_congr hregs i).symm.trans ha, ?_, ?_⟩
    · rwa [State.windowWords_congr hregs] at hn
    · rw [hwords, State.wordsAt_same hregs hmem]

theorem State.wordsAfter_congr (hprefetch : r.prefetch = s.prefetch) : r.wordsAfter i = s.wordsAfter i := by
  have hwindow : r.windowAfter i = s.windowAfter i := by rw [hregs]; rfl
  have hnext : r.nextPc i = s.nextPc i := by rw [hregs]; rfl
  rw [State.wordsAfter, State.wordsAt_same hregs hmem, State.surelyRead_congr hprefetch, hwindow, hnext, State.wordsAfter]

end

theorem State.canAccessList_le {sp : Space} {dir : Direction} {sz : Size} {stride a : Long} {k n : Nat} (hk : k ≤ n)
    (h : s.canAccessList sp dir sz stride n a = true) : s.canAccessList sp dir sz stride k a = true := by
  obtain ⟨m, rfl⟩ := Nat.exists_eq_add_of_le hk
  exact (State.canAccessList_append k m a h).1

section
variable (hfresh : r.prefetchFresh = true) (hquiet : r.quiet = true)
  (hwindow : r.canAccessList .program .read .word 2 (r.windowAfter i) (r.nextPc i) = true)
include hfresh hquiet hwindow

theorem readAhead_after :
    r.readAhead (r.windowAfter i) (r.nextPc i) =
      { words := r.wordsAt (r.windowAfter i) (r.nextPc i), state := { r with prefetch := r.wordsAfter i }, error := none } :=
  readAhead_ok hfresh hquiet hwindow

theorem runFetched_executes_same (hhit : r.targetHit i = false) : runFetched i r = r.executes i r.drawCount [] := by
  unfold runFetched
  simp only [readAhead_after hfresh hquiet hwindow]
  generalize hahead : ({ r with prefetch := r.wordsAfter i } : State) = u
  have hsame : r.sameRegisters u := by rw [← hahead]; rfl
  have hquiet' : u.quiet = true := by rw [← hahead]; exact hquiet
  simp only [targetAhead_ok hquiet' ((State.targetHit_congr hsame i).trans hhit)]
  rw [← hahead]
  rfl

theorem runFetched_executes (hreadable : r.TargetReadable i) :
    ∃ k words, r.TargetWords i words ∧ runFetched i r = r.executes i k words := by
  cases hhit : r.targetHit i with
  | false => exact ⟨_, [], .inl rfl, runFetched_executes_same hfresh hquiet hwindow hhit⟩
  | true =>
    unfold runFetched
    simp only [readAhead_after hfresh hquiet hwindow]
    generalize hahead : ({ r with prefetch := r.wordsAfter i } : State) = u
    have hsame : r.sameRegisters u := by rw [← hahead]; rfl
    obtain hnone | ⟨a, k, htarget, hk, hsome⟩ := u.targetAhead_cases i
    · refine ⟨r.drawCount, [], .inl rfl, ?_⟩
      simp only [hnone]
      rw [← hahead]
      rfl
    · have htarget' := (State.callTarget_congr hsame i).symm.trans htarget
      have hk' : k ≤ r.windowWords := by rw [← hahead] at hk; exact hk
      generalize hstart : ({ u with prefetch := [], drawCount := u.drawCount + 1 } : State) = v at hsome
      have hbus : r.sameBus v := by rw [← hstart, ← hahead]; exact ⟨⟨rfl, rfl, rfl⟩, rfl⟩
      have hmem : v.wordsAt k a = r.wordsAt k a := by
        subst hstart hahead
        exact State.wordsAt_congr (s := r) (t := { r with prefetch := [], drawCount := r.drawCount + 1 }) rfl rfl rfl k a
      have hread : v.canAccessList .program .read .word 2 k a = true :=
        (State.canAccessList_congr hbus ..).trans (State.canAccessList_le hk' (hreadable hhit a htarget'))
      have hwords := fetchWords_ok (State.prefetchFresh_nil (by rw [← hstart])) hread
      refine ⟨r.drawCount + 1, r.wordsAt k a, .inr ⟨a, k, hhit, htarget', hk', rfl⟩, ?_⟩
      simp only [hsome, hwords, hmem]
      subst hstart hahead
      rfl

end

/-! LINK and BSR, whose push may overlap their own displacement word. -/

theorem words_of_pushesFirst (h : pushesFirst i = true) : i.words = 2 ∧ neededFirst i = 0 := by
  cases i with
  | link an d => exact ⟨rfl, rfl⟩
  | bsr d =>
    cases d with
    | short b => cases h
    | long w => exact ⟨rfl, rfl⟩
  | _ => cases h

theorem State.earlyBound_le (s : State) (i : Instr) : s.earlyBound i ≤ i.words - 1 - neededFirst i := by
  unfold State.earlyBound
  dsimp only
  split
  · exact Nat.le_refl _
  · exact Nat.min_le_left _ _

/-- The displacement word of a LINK or BSR whose push overlaps it is fetched before the push or after it. -/
theorem runOperation_overlap {before : Word} (hfresh : r.prefetchFresh = true)
    (hread : r.canAccessList .program .read .word 2 i.words r.pc = true)
    (hdecode : decode (r.wordsAt i.words r.pc) = .ok (i, [])) (hpriv : isPrivileged i = true → r.sr.s = true)
    (hoverlap : r.pushOverlaps i = true) {op : Word} (hop : op = r.wordAt (r.code .program) r.pc) :
    ∃ k, runOperation before op r = runFetched i { r with drawCount := k } ∨
      ∃ j rest, decode [op, 0] = .ok (j, rest) ∧ runOperation before op r = runLate before op [] j { r with drawCount := k } := by
  obtain ⟨hwords, -⟩ := words_of_pushesFirst ((Bool.and_eq_true _ _).mp hoverlap).1
  rw [hwords] at hdecode hread
  simp only [State.wordsAt, ← hop] at hdecode
  generalize hw : r.wordAt (r.code .program) (r.pc + 2) = w at hdecode
  obtain ⟨j, rest, hj, hlike⟩ := decode_like (ws' := [0, 0, 0, 0]) hdecode (by simp)
  obtain ⟨j', rest', hj', hlike'⟩ := decode_like (ws' := [0]) hdecode (Nat.le_refl _)
  have hoverlapj : r.pushOverlaps j = true := by rw [State.pushOverlaps, hlike.pushes]; exact hoverlap
  obtain ⟨hjwords, hneeded⟩ := words_of_pushesFirst ((Bool.and_eq_true _ _).mp hoverlapj).1
  have hjpriv : (isPrivileged j && !r.sr.s) = false := by
    rw [hlike.privileged]
    cases h : isPrivileged i with
    | false => rfl
    | true => rw [hpriv h]; rfl
  have hbound : r.earlyBound j ≤ 1 := by
    have h := r.earlyBound_le j
    rwa [hjwords, hneeded] at h
  refine ⟨r.drawCount + 1, ?_⟩
  have hearly : r.fetchEarly j =
      fetchWords (Config.freeChoice r.drawCount % (r.earlyBound j + 1)) (r.pc + 2) { r with drawCount := r.drawCount + 1 } := by
    unfold State.fetchEarly
    rw [hoverlapj, hneeded, Nat.zero_add]
    simp
  generalize hv : ({ r with drawCount := r.drawCount + 1 } : State) = v at hearly ⊢
  unfold runOperation
  simp only [show decodeOp op = .ok (j, rest) from hj, hjpriv, Bool.false_eq_true, if_false, hearly, hjwords]
  obtain hnone | hone : Config.freeChoice r.drawCount % (r.earlyBound j + 1) = 0 ∨
      Config.freeChoice r.drawCount % (r.earlyBound j + 1) = 1 := by
    have h := Nat.mod_lt (Config.freeChoice r.drawCount) (show 0 < r.earlyBound j + 1 by omega)
    omega
  · right
    refine ⟨j', rest', hj', ?_⟩
    have hj'words : j'.words = 2 := hlike'.words.trans hwords
    simp only [hnone, fetchWords, List.length_nil, Nat.sub_zero, Nat.add_one_sub_one, List.replicate, List.nil_append,
      hj', hj'words, Nat.zero_lt_one, if_true]
  · left
    have hbus : r.sameBus v := by rw [← hv]; exact ⟨⟨rfl, rfl, rfl⟩, rfl⟩
    have hread1 : v.canAccessList .program .read .word 2 1 (r.pc + 2) = true := by
      rw [State.canAccessList_congr hbus]
      simp only [State.canAccessList, Bool.and_eq_true] at hread ⊢
      exact hread.2
    have hone1 : v.wordsAt 1 (r.pc + 2) = [w] := by rw [← hw, ← hv]; rfl
    simp only [hone, fetchWords_ok (s := v) (by rw [← hv]; exact hfresh) hread1, hone1, List.length_singleton, Nat.add_one_sub_one,
      Nat.sub_self, List.replicate_zero, List.append_nil, hdecode, hwords, Nat.lt_irrefl, if_false]

/-- What an operation word that begins a decoded instruction does, by whether the push of a call overlaps words of the
program. -/
theorem runOperation_executes {before op : Word} (hfresh : r.prefetchFresh = true)
    (hread : r.canAccessList .program .read .word 2 (i.words + r.windowAfter i) r.pc = true)
    (hdecode : decode (r.wordsAt i.words r.pc) = .ok (i, [])) (hpriv : isPrivileged i = true → r.sr.s = true)
    (hop : op = r.wordAt (r.code .program) r.pc) :
    (r.pushOverlaps i = false → r.targetHit i = false → runOperation before op r = r.executes i r.drawCount []) ∧
      (r.TargetReadable i → ∃ k words, r.TargetWords i words ∧ (runOperation before op r = r.executes i k words ∨
        ∃ j rest, r.pushOverlaps i = true ∧ decode [op, 0] = .ok (j, rest) ∧
          runOperation before op r = runLate before op [] j { r with drawCount := k })) := by
  obtain ⟨hwords, hwindow⟩ := State.canAccessList_append i.words (r.windowAfter i) r.pc hread
  have hnext : r.pc + BitVec.ofNat 32 i.words * 2 = r.nextPc i := by
    rw [State.nextPc, Nat.mul_comm, BitVec.ofNat_mul]
    rfl
  rw [hnext] at hwindow
  have hquiet : r.quiet = true := by
    obtain ⟨n, hn⟩ : ∃ n, i.words = n + 1 := ⟨i.words - 1, by have := words_bounds i; omega⟩
    rw [hn, State.canAccessList, Bool.and_eq_true] at hwords
    exact State.quiet_of_canAccess hwords.1
  have hfetched (ho : r.pushOverlaps i = false) : runOperation before op r = runFetched i r := by
    rw [hop]
    exact runOperation_ok hfresh ho hwords hdecode hpriv
  refine ⟨fun ho hhit => (hfetched ho).trans (runFetched_executes_same hfresh hquiet hwindow hhit), fun hreadable => ?_⟩
  cases ho : r.pushOverlaps i with
  | false =>
    obtain ⟨k, words, htarget, hrun⟩ := runFetched_executes hfresh hquiet hwindow hreadable
    exact ⟨k, words, htarget, .inl ((hfetched ho).trans hrun)⟩
  | true =>
    obtain ⟨k, hrun | ⟨j, rest, hj, hrun⟩⟩ := runOperation_overlap (before := before) hfresh hwords hdecode hpriv ho hop
    · generalize hv : ({ r with drawCount := k } : State) = v at hrun
      have hregs : r.sameRegisters v := by rw [← hv]; rfl
      have hbus : r.sameBus v := by rw [← hv]; exact ⟨⟨rfl, rfl, rfl⟩, rfl⟩
      have hmem : v.mem = r.mem := by rw [← hv]
      have hprefetch : v.prefetch = r.prefetch := by rw [← hv]
      obtain ⟨k', words, htarget, hexec⟩ := runFetched_executes (r := v) (i := i) (by rw [← hv]; exact hfresh)
        (by rw [← hv]; exact hquiet) (by rw [State.canAccessList_congr hbus, ← hv]; exact hwindow) (hreadable.congr hregs hbus)
      refine ⟨k', words, htarget.congr hregs hmem, .inl (hrun.trans (hexec.trans ?_))⟩
      rw [State.executes, State.wordsAfter_congr hregs hmem hprefetch, ← hv, State.executes]
    · exact ⟨k, [], .inl rfl, .inr ⟨j, rest, rfl, hj, hrun⟩⟩

end

/-- Settles O6: the step reads the operation word, which then runs as `runOperation_executes` says. -/
theorem stepRunsDecoded : Obligations.StepRunsDecoded := by
  intro s r level i op executed hin hruns hfetches hpriv hdecode hop hr hexecuted
  obtain ⟨inputs, hinputs⟩ := s.takeInput_snd
  generalize htaken : s.takeInput.2 = u at hruns hfetches hr hinputs
  simp only [State.fetches, Bool.and_eq_true] at hfetches
  obtain ⟨hfresh, hread⟩ := hfetches
  obtain ⟨n, hn⟩ : ∃ n, i.words + s.windowAfter i = n + 1 :=
    ⟨i.words + s.windowAfter i - 1, by have := words_bounds i; omega⟩
  have hfirst : (u.sample level).canAccess .program .read (u.sample level).pc .word = true := by
    rw [hn, State.canAccessList, Bool.and_eq_true] at hread
    exact hread.1
  have hstep : step s = settled (runOperation s.instrReg op r) := by
    rw [step_of_input hin, htaken, stepInput, runProcessor_runs hruns, runNext_eq_runOperation hfresh hfirst]
    subst hinputs hr hop
    rfl
  rw [hstep]
  have hregs : s.sameRegisters r := by subst hinputs hr; rfl
  have hbus : (u.sample level).sameBus r := by subst hr; exact ⟨⟨rfl, rfl, rfl⟩, rfl⟩
  have hsbus : s.sameBus r := by subst hinputs hr; exact ⟨⟨rfl, rfl, rfl⟩, rfl⟩
  have hmem : r.mem = s.mem := by subst hinputs hr; rfl
  have hprefetch : r.prefetch = s.prefetch := by subst hinputs hr; rfl
  have hexecutes (k : Nat) (words : List Word) : settled (r.executes i k words) = executed k words := by
    rw [State.executes, State.wordsAfter_congr hregs hmem hprefetch, hexecuted]
    rfl
  have hwindow : r.windowAfter i = s.windowAfter i := by rw [hregs]; rfl
  have hoverlaps : r.pushOverlaps i = s.pushOverlaps i := by rw [hregs]; rfl
  have hsupervisor : r.sr.s = s.sr.s := by subst hinputs hr; rfl
  have hpc : r.pc = s.pc := by subst hinputs hr; rfl
  obtain ⟨hplain, hcall⟩ := runOperation_executes (before := s.instrReg) (r := r) (i := i) (op := op)
    (by rw [hr]; exact hfresh)
    (by rw [State.canAccessList_congr hbus, hwindow, hpc]; subst hinputs; exact hread)
    (by rw [hpc, State.wordsAt_same hregs hmem]; exact hdecode)
    (fun h => hsupervisor.trans (hpriv h))
    (by subst hinputs hr; exact hop)
  have hdraw : r.drawCount = s.drawCount := by subst hinputs hr; rfl
  refine ⟨fun ho hhit => ?_, fun _ hreadable => ?_⟩
  · rw [hplain (hoverlaps.trans ho) ((State.targetHit_congr hregs i).trans hhit), hexecutes, hdraw]
  · obtain ⟨k, words, hwords, hrun⟩ := hcall (State.TargetReadable.congr hregs hsbus hreadable)
    refine ⟨k, words, hwords.congr hregs hmem, hrun.imp (fun h => by rw [h, hexecutes]) fun ⟨j, rest, ho, hj, h⟩ => ?_⟩
    exact ⟨j, rest, hoverlaps.symm.trans ho, hj, congrArg settled h⟩

end Sys2Proof.Machine
end

section
/-! PROOFS. The family of spec 60, accesses at odd addresses (O19). -/

namespace Sys2Proof.Machine

open Sys2Proof

/-! The group 0 exception of an instruction cut short. -/

/-- The low five bits of the first word of the frame of an access that is not made in exception processing (R452). -/
theorem group0Word_low (dir : Direction) (code : FunctionCode) :
    BitVec.ofNat 5 ((if dir = .read then 16 else 0) + false.toNat * 8 + code.toNat) =
      (BitVec.ofBool (dir = Direction.read) ++ ((0 : BitVec 1) ++ BitVec.ofNat 3 code.toNat : BitVec 4) : BitVec 5) := by
  cases dir <;> cases code <;> rfl

theorem group0Word_instruction (top : Word) (f : AccessFault) :
    group0Word top f false =
      (top.extractLsb' 0 11 : BitVec 11) ++ BitVec.ofBool (f.dir = Direction.read) ++ (0 : BitVec 1) ++
        BitVec.ofNat 3 f.code.toNat := by
  rw [group0Word, group0Word_low, BitVec.append_assoc, BitVec.append_assoc]
  rfl

theorem State.notInstruction_eq_false {s : State} (h : ∀ g, s.procState ≠ .exception g) :
    s.procState.notInstruction = false := by
  cases hp : s.procState with
  | exception g => exact absurd hp (h g)
  | _ => rfl

section
variable {s t p q : State} {f : AccessFault}

/-- The first bus or address error of an instruction, at whatever count of draws it comes. -/
theorem abortOutcome_takesGroup0 (hclosed : t.inGroup0 = false) (hproc : ∀ g, t.procState ≠ .exception g)
    (hready : t.group0Ready f.kind.vector = true) (k : Nat) :
    t.TakesGroup0 f t.instrAddr (abortOutcome (.access f) { t with drawCount := k }) := by
  have hready' : ({ t with drawCount := k } : State).group0Ready f.kind.vector = true :=
    (State.group0Ready_congr (s := t) ⟨rfl, rfl, rfl⟩ rfl rfl _).trans hready
  refine ⟨Config.freeWord k, Config.freeChoice (k + 1) % 5, k, Nat.mod_lt _ (by decide), ?_⟩
  rw [abortOutcome_ok (s := { t with drawCount := k }) hclosed hready', State.notInstruction_eq_false hproc,
    group0Word_instruction]

theorem State.of_group0Ready {n : Nat} (h : s.group0Ready n = true) :
    s.supposed = false ∧ s.quiet = true ∧ aligned s.ssp .word = true := by
  simp only [State.group0Ready, Bool.and_eq_true, Bool.not_eq_true'] at h
  obtain ⟨⟨⟨hsupposed, heven⟩, -⟩, hvector⟩ := h
  exact ⟨hsupposed, State.quiet_of_vectorReady hvector, heven⟩

/-- Where the state is in the middle of an instruction that began in another. -/
structure State.During (s t : State) : Prop where
  instrAddr : t.instrAddr = s.pc
  closed : t.inGroup0 = false
  procState : t.procState = s.procState
  sr : t.sr = s.sr

theorem State.During.beginInstr (s : State) : s.During s.beginInstr := ⟨rfl, rfl, rfl, rfl⟩

theorem State.During.resolve {ea : Ea} {sz : Size} {loc : Loc} (h : s.During p) (hl : p.resolve ea sz = (loc, q)) :
    s.During q := by
  have hq : q = (p.resolve ea sz).2 := by rw [hl]
  rw [hq]
  exact ⟨(State.resolve_instrAddr ..).trans h.instrAddr, (State.resolve_inGroup0 ..).trans h.closed,
    (State.resolve_procState ..).trans h.procState, (State.resolve_sr ..).trans h.sr⟩

theorem State.During.setSp (h : s.During p) (v : Long) : s.During (p.setSp v) :=
  ⟨h.instrAddr, h.closed, h.procState, h.sr⟩

theorem State.During.code (h : s.During p) (sp : Space) : p.code sp = s.code sp := by
  unfold State.code
  rw [h.sr]

section
variable {body : Exec Unit} (hduring : s.During t) (hproc : ∀ g, s.procState ≠ .exception g)
  (hready : t.group0Ready f.kind.vector = true)
include hduring hproc hready

/-- An instruction cut short by its first bus or address error: each of its flags is old, or that of the supposed run (U3). -/
theorem runInstr_takesGroup0 {k : Nat} (hbody : body s.beginInstr = .error (.access f) { t with drawCount := k }) :
    ∃ cc : Ccr, cc.between s.sr.ccr (s.beginInstr.afterSupposed body).sr.ccr ∧
      (t.setCcr cc).TakesGroup0 f s.pc (runInstr body s) := by
  obtain ⟨cc, n, hcc, hopen⟩ := State.openFlags_cases { t with drawCount := k } (s.beginInstr.afterSupposed body)
  have hbetween : cc.between s.sr.ccr (s.beginInstr.afterSupposed body).sr.ccr := by rw [← hduring.sr]; exact hcc
  have hready' : (t.setCcr cc).group0Ready f.kind.vector = true :=
    (State.group0Ready_congr (s := t) ⟨rfl, rfl, rfl⟩ rfl rfl _).trans hready
  refine ⟨cc, hbetween, ?_⟩
  have htaken := abortOutcome_takesGroup0 (t := t.setCcr cc) hduring.closed (fun g => hduring.procState ▸ hproc g) hready' n
  rw [runInstr_error hbody, hopen, ← hduring.instrAddr]
  exact htaken

/-- The same where the instruction writes no flag. -/
theorem runInstr_takesGroup0_same (hflags : ∀ r, Keeps (fun u => u.sr = r) body) {k : Nat}
    (hbody : body s.beginInstr = .error (.access f) { t with drawCount := k }) :
    t.TakesGroup0 f s.pc (runInstr body s) := by
  have hready' : ({ t with drawCount := k } : State).group0Ready f.kind.vector = true :=
    (State.group0Ready_congr (s := t) ⟨rfl, rfl, rfl⟩ rfl rfl _).trans hready
  obtain ⟨n, hopen⟩ := State.openFlags_same (s := s.beginInstr) (t := { t with drawCount := k }) hflags hduring.sr
  rw [runInstr_error hbody, hopen, ← hduring.instrAddr]
  exact abortOutcome_takesGroup0 hduring.closed (fun g => hduring.procState ▸ hproc g) hready n

end

/-! The read of MOVEA and the write of MOVE (R184, R185). -/

theorem aligned_eq_false {sz : Size} {a : Long} (hsz : sz ≠ .byte) (h : a.getLsbD 0 = true) : aligned a sz = false := by
  cases sz with
  | byte => exact absurd rfl hsz
  | word | long =>
    show (!a.getLsbD 0) = false
    rw [h]
    rfl

theorem moveaBody_sr (sz : Size) (ea : Ea) (an : Reg) (r : StatusRegister) :
    Keeps (fun t => t.sr = r) (moveaBody sz ea an) :=
  keeps_bind (readEa_sr ea sz r) fun _ => keeps_modify fun _ h => h

theorem readEa_misaligned {ea : Ea} {sz : Size} {sp : Space} {a : Long} (hl : s.resolve ea sz = (.mem sp a, p))
    (ha : aligned a sz = false) (herror : p.fetchError = none) (hsupposed : p.supposed = false) :
    readEa ea sz s = .error (.access { kind := .addressError, addr := a, dir := .read, code := p.code sp }) p := by
  rw [readEa, run_bind_ok (resolveEa_run ea sz s), hl]
  exact readMem_misaligned ha herror hsupposed

theorem moveStore_misaligned {sz : Size} {v : Long} {dst : Ea} {sp : Space} {a : Long}
    (hl : p.resolve dst sz = (.mem sp a, q)) (ha : aligned a sz = false) (herror : q.fetchError = none)
    (hsupposed : q.supposed = false) :
    moveStore sz v dst p =
      .error (.access { kind := .addressError, addr := a, dir := .write, code := q.code .data }) q := by
  rw [moveStore, run_bind_ok (resolveEa_run dst sz p), hl, run_bind_ok (run_get q), wrFlagged]
  exact run_bind_error (writeMem_misaligned ha herror hsupposed)

/-- A run only supposed resolves operands alike. -/
theorem State.suppose_resolve (s : State) (ea : Ea) (sz : Size) :
    s.suppose.resolve ea sz = ((s.resolve ea sz).1, (s.resolve ea sz).2.suppose) := by
  cases ea <;> rfl

theorem Loc.load_suppose (loc : Loc) (sz : Size) (s : State) : loc.load sz s.suppose = loc.load sz s := by
  cases loc <;> rfl

theorem Loc.readable_suppose (loc : Loc) (sz : Size) (herror : s.fetchError = none) :
    loc.readable sz s.suppose = loc.readable sz s := by
  have hbus : s.sameBus s.suppose := ⟨⟨rfl, rfl, herror.symm⟩, rfl⟩
  cases loc with
  | mem sp a => exact State.canAccess_congr hbus sp .read a sz
  | _ => rfl

/-- The flags that a MOVE supposed to go through leaves: those of the value, or those there were. -/
theorem afterSupposed_moveBody_flags {sz : Size} {src : Ea} {from_ : Loc} (dst : Ea) (hl : s.resolve src sz = (from_, p))
    (hr : from_.readable sz p = true) (herror : p.fetchError = none) :
    (s.afterSupposed (moveBody sz src dst)).sr.ccr = moveFlags sz s.sr.ccr (from_.load sz p) ∨
      (s.afterSupposed (moveBody sz src dst)).sr.ccr = s.sr.ccr := by
  have hread : readEa src sz s.suppose = .ok (from_.load sz p) p.suppose := by
    rw [← Loc.load_suppose]
    refine readEa_at ?_ ((Loc.readable_suppose from_ sz herror).trans hr)
    rw [State.suppose_resolve, hl]
  have hsr : p.suppose.sr = s.sr := show p.sr = s.sr from State.sr_of_resolve hl
  obtain ⟨hok, hcut⟩ := moveStore_flags sz (from_.load sz p) dst p.suppose
  rw [hsr] at hok hcut
  rw [State.afterSupposed, moveBody, run_bind_ok hread]
  cases hr : moveStore sz (from_.load sz p) dst p.suppose with
  | ok a t => exact .inl (hok a t hr)
  | error e t => exact .inr (hcut e t hr)

theorem Ccr.between.of_new {cc old new x : Ccr} (h : cc.between old new) (hnew : new = x ∨ new = old) : cc.between old x := by
  obtain rfl | rfl := hnew
  · exact h
  · simp only [Ccr.between, or_self] at h
    obtain ⟨hx, hn, hz, hv, hc⟩ := h
    exact ⟨.inl hx, .inl hn, .inl hz, .inl hv, .inl hc⟩

/-! The push of PEA and the pop of RTS (R26, R70). -/

/-- A change made at an abort, or not made. -/
theorem State.maybe_cases (g : State → State) (s : State) :
    ∃ k, State.maybe g s = { s with drawCount := k } ∨ State.maybe g s = g { s with drawCount := k } := by
  unfold State.maybe
  dsimp only
  split
  · exact ⟨_, .inr rfl⟩
  · exact ⟨_, .inl rfl⟩

/-- A stack pointer that is odd where SSP is even is the user's, so that a new one leaves SSP as it is. -/
theorem State.ssp_setSp_of_odd (hodd : s.sp.getLsbD 0 = true) (heven : aligned s.ssp .word = true) (v : Long) :
    (s.setSp v).ssp = s.ssp := by
  have huser : s.sr.s = false := by
    cases h : s.sr.s with
    | false => rfl
    | true =>
      rw [State.sp, if_pos h] at hodd
      exact nomatch heven.symm.trans (aligned_eq_false (sz := .word) (by decide) hodd)
  simp [State.setSp, huser]

/-- An access of the stack that is misaligned leaves its stack pointer old or new. -/
theorem State.During.stack (h : s.During p) (hodd : p.sp.getLsbD 0 = true) {n : Nat} (hready : p.group0Ready n = true)
    (v : Long) (hq : q = p ∨ q = p.setSp v) : s.During q ∧ q.group0Ready n = true := by
  obtain ⟨-, -, heven⟩ := State.of_group0Ready hready
  obtain rfl | rfl := hq
  · exact ⟨h, hready⟩
  · have hssp := State.ssp_setSp_of_odd hodd heven v
    exact ⟨h.setSp v, (State.group0Ready_congr (s := p) (t := p.setSp v) ⟨rfl, rfl, rfl⟩ hssp rfl n).trans hready⟩

theorem push32_misaligned {v : Long} (ha : aligned (p.sp - 4) .long = false) (herror : p.fetchError = none)
    (hsupposed : p.supposed = false) :
    ∃ q k, (q = p ∨ q = p.setSp (p.sp - 4)) ∧ push32 v p =
      .error (.access { kind := .addressError, addr := p.sp - 4, dir := .write, code := p.code .data })
        { q with drawCount := k } := by
  have hwrite := writeMem_misaligned (v := v) ha herror hsupposed
  have hpush : push32 v p = _ := (run_bind_ok (run_get p)).trans (run_bind_error (onAbort_error hwrite))
  obtain ⟨k, hold | hnew⟩ := State.maybe_cases (State.setSp (p.sp - 4)) p
  · exact ⟨p, k, .inl rfl, by rw [hpush, hold]⟩
  · exact ⟨p.setSp (p.sp - 4), k, .inr rfl, by rw [hpush, hnew]; rfl⟩

theorem pop32_misaligned (ha : aligned p.sp .long = false) (herror : p.fetchError = none) (hsupposed : p.supposed = false) :
    ∃ q k, (q = p ∨ q = p.setSp (p.sp + 4)) ∧ pop32 p =
      .error (.access { kind := .addressError, addr := p.sp, dir := .read, code := p.code .data })
        { q with drawCount := k } := by
  have hread := readMem_misaligned (sp := .data) ha herror hsupposed
  have hpop : pop32 p = _ := (run_bind_ok (run_get p)).trans (run_bind_error (onAbort_error hread))
  obtain ⟨k, hold | hnew⟩ := State.maybe_cases (State.setSp (p.sp + 4)) p
  · exact ⟨p, k, .inl rfl, by rw [hpop, hold]⟩
  · exact ⟨p.setSp (p.sp + 4), k, .inr rfl, by rw [hpop, hnew]; rfl⟩

/-- Four below an odd address is an odd one. -/
theorem getLsbD_zero_sub_four (a : Long) : (a - 4).getLsbD 0 = a.getLsbD 0 := by
  simp only [BitVec.getLsbD, BitVec.toNat_sub, Nat.testBit_zero]
  have hfour : (4 : Long).toNat = 4 := rfl
  exact decide_eq_decide.mpr (by omega)

/-! The fetch at an odd program counter (R322). -/

theorem fetchWord_odd {a : Long} (ha : aligned a .word = false) (herror : s.fetchError = none) (hsupposed : s.supposed = false) :
    fetchWord a s = .error (.access { kind := .addressError, addr := a, dir := .read, code := s.code .program }) s := by
  have hnone : s.aheadAt a = none := by
    rw [State.aheadAt, List.find?_eq_none]
    exact fun e _ => by simp [ha]
  unfold fetchWord
  rw [hnone]
  exact run_bind_error (readMem_misaligned ha herror hsupposed)

/-- The next instruction at an odd program counter: the instruction register may hold any word. -/
theorem runNext_odd (hodd : s.pc.getLsbD 0 = true) (hclosed : s.inGroup0 = false) (hproc : ∀ g, s.procState ≠ .exception g)
    (hready : s.group0Ready 3 = true) :
    ∃ w, ({ s with instrReg := w } : State).TakesGroup0
      { kind := .addressError, addr := s.pc, dir := .read, code := s.code .program } s.instrAddr (runNext s) := by
  obtain ⟨hsupposed, hquiet, -⟩ := State.of_group0Ready hready
  have hfetch := fetchWord_odd (s := { s with traceAtStart := s.sr.t }) (aligned_eq_false (sz := .word) (by decide) hodd)
    ((State.quiet_iff s).mp hquiet).2 hsupposed
  have hcut := onAbort_error (g := fun t => t.openInstrReg t.unknownWord) hfetch
  obtain ⟨k, w, hopen⟩ := State.openInstrReg_eq (State.unknownWord { s with traceAtStart := s.sr.t })
    { s with traceAtStart := s.sr.t }
  rw [hopen] at hcut
  have hready' : ({ s with traceAtStart := s.sr.t, instrReg := w } : State).group0Ready AccessKind.addressError.vector = true :=
    (State.group0Ready_congr (s := s) ⟨rfl, rfl, rfl⟩ rfl rfl _).trans hready
  obtain ⟨top, j, n, hj, htaken⟩ := abortOutcome_takesGroup0
    (f := { kind := .addressError, addr := s.pc, dir := .read, code := s.code .program })
    (t := { s with traceAtStart := s.sr.t, instrReg := w }) hclosed hproc hready' k
  refine ⟨w, top, j, n, hj, ?_⟩
  unfold runNext
  rw [hcut]
  exact htaken

section
variable (hproc : ∀ g, s.procState ≠ .exception g)
include hproc

theorem exec_movea_odd {i : Instr} {sz : Size} {ea : Ea} {an : Reg} {sp : Space} {a : Long}
    (hi : (i = .moveaWord ea an ∧ sz = .word) ∨ (i = .moveaLong ea an ∧ sz = .long))
    (hl : s.beginInstr.resolve ea sz = (.mem sp a, p)) (hodd : a.getLsbD 0 = true) (hready : p.group0Ready 3 = true) :
    p.TakesGroup0 { kind := .addressError, addr := a, dir := .read, code := s.code sp } s.pc (exec i s) := by
  have hsz : sz ≠ .byte := by obtain ⟨-, rfl⟩ | ⟨-, rfl⟩ := hi <;> decide
  obtain ⟨hsupposed, hquiet, -⟩ := State.of_group0Ready hready
  have hduring := (State.During.beginInstr s).resolve hl
  have hread := readEa_misaligned hl (aligned_eq_false hsz hodd) ((State.quiet_iff p).mp hquiet).2 hsupposed
  rw [hduring.code] at hread
  rw [exec_movea hi]
  exact runInstr_takesGroup0_same hduring hproc hready (moveaBody_sr sz ea an) (k := p.drawCount) (run_bind_error hread)

theorem exec_move_odd {i : Instr} {sz : Size} {src dst : Ea} {from_ : Loc} {sp : Space} {a : Long}
    (hi : (i = .moveWord src dst ∧ sz = .word) ∨ (i = .moveLong src dst ∧ sz = .long))
    (hl : s.beginInstr.resolve src sz = (from_, p)) (hr : from_.readable sz p = true)
    (hl' : p.resolve dst sz = (.mem sp a, q)) (hodd : a.getLsbD 0 = true) (hready : q.group0Ready 3 = true) :
    ∃ cc : Ccr, cc.between s.sr.ccr (moveFlags sz s.sr.ccr (from_.load sz p)) ∧
      (q.setCcr cc).TakesGroup0 { kind := .addressError, addr := a, dir := .write, code := s.code .data } s.pc
        (exec i s) := by
  have hsz : sz ≠ .byte := by obtain ⟨-, rfl⟩ | ⟨-, rfl⟩ := hi <;> decide
  obtain ⟨hsupposed, hquiet, -⟩ := State.of_group0Ready hready
  have herror := ((State.quiet_iff q).mp hquiet).2
  have hduring := ((State.During.beginInstr s).resolve hl).resolve hl'
  have herrorp : p.fetchError = none := by
    obtain ⟨⟨-, -, hsame⟩, -⟩ := State.sameBus_of_resolve hl'
    exact hsame.symm.trans herror
  have hbody : moveBody sz src dst s.beginInstr = _ :=
    (run_bind_ok (readEa_at hl hr)).trans (moveStore_misaligned hl' (aligned_eq_false hsz hodd) herror hsupposed)
  rw [hduring.code] at hbody
  obtain ⟨cc, hcc, htaken⟩ := runInstr_takesGroup0
    (f := { kind := .addressError, addr := a, dir := .write, code := s.code .data }) hduring hproc hready
    (k := q.drawCount) hbody
  rw [exec_move (.inr hi)]
  exact ⟨cc, hcc.of_new (afterSupposed_moveBody_flags dst hl hr herrorp), htaken⟩

theorem exec_pea_odd {ea : Ea} {loc : Loc} (hl : s.beginInstr.resolve ea .long = (loc, p)) (hodd : p.sp.getLsbD 0 = true)
    (hready : p.group0Ready 3 = true) :
    ∃ q, (q = p ∨ q = p.setSp (p.sp - 4)) ∧
      q.TakesGroup0 { kind := .addressError, addr := p.sp - 4, dir := .write, code := s.code .data } s.pc
        (exec (.pea ea) s) := by
  obtain ⟨hsupposed, hquiet, -⟩ := State.of_group0Ready hready
  have hduring := (State.During.beginInstr s).resolve hl
  have ha : aligned (p.sp - 4) .long = false := aligned_eq_false (by decide) ((getLsbD_zero_sub_four _).trans hodd)
  obtain ⟨q, k, hq, hpush⟩ := push32_misaligned (v := loc.address) ha ((State.quiet_iff p).mp hquiet).2 hsupposed
  obtain ⟨hduringq, hreadyq⟩ := hduring.stack hodd hready _ hq
  rw [hduring.code] at hpush
  have haddress (r : StatusRegister) : Keeps (fun u => u.sr = r) (eaAddress ea) :=
    keeps_bind (resolveEa_sr ea .long r) fun _ => keeps_pure _
  exact ⟨q, hq, runInstr_takesGroup0_same hduringq hproc hreadyq (fun r => keeps_bind (haddress r) fun a => push32_sr a r)
    (k := k) ((run_bind_ok (eaAddress_ok hl)).trans hpush)⟩

theorem exec_rts_odd (hodd : s.sp.getLsbD 0 = true) (hready : s.group0Ready 3 = true) :
    ∃ q, (q = s.beginInstr ∨ q = s.beginInstr.setSp (s.sp + 4)) ∧
      q.TakesGroup0 { kind := .addressError, addr := s.sp, dir := .read, code := s.code .data } s.pc (exec .rts s) := by
  obtain ⟨hsupposed, hquiet, -⟩ := State.of_group0Ready hready
  have hodd' : s.beginInstr.sp.getLsbD 0 = true := hodd
  have hready' : s.beginInstr.group0Ready 3 = true :=
    (State.group0Ready_congr (s := s) ⟨rfl, rfl, rfl⟩ rfl rfl 3).trans hready
  obtain ⟨q, k, hq, hpop⟩ := pop32_misaligned (p := s.beginInstr) (aligned_eq_false (by decide) hodd')
    ((State.quiet_iff s).mp hquiet).2 hsupposed
  obtain ⟨hduringq, hreadyq⟩ := (State.During.beginInstr s).stack hodd' hready' _ hq
  rw [(State.During.beginInstr s).code] at hpop
  exact ⟨q, hq, runInstr_takesGroup0_same hduringq hproc hreadyq
    (fun r => keeps_bind (pop32_sr r) fun a => keeps_modify fun _ h => h) (k := k) (run_bind_error hpop)⟩

end

theorem step_odd {level : Fin 8} (hin : s.takeInput.1 = .run level) (hruns : s.takeInput.2.runs level = true)
    (hodd : s.pc.getLsbD 0 = true) (hclosed : s.inGroup0 = false) (hready : s.group0Ready 3 = true) :
    ∃ (w : Word) (taken : Host.Outcome State Fault Refusal),
      ({ s.takeInput.2.sample level with instrReg := w } : State).TakesGroup0
        { kind := .addressError, addr := s.pc, dir := .read, code := s.code .program } s.instrAddr taken ∧
      step s = settled taken := by
  obtain ⟨inputs, hinputs⟩ := s.takeInput_snd
  generalize htaken : s.takeInput.2 = u at hruns hinputs
  have hnormal : u.procState = .normal := by
    simp only [State.runs, Bool.and_eq_true, decide_eq_true_eq] at hruns
    exact hruns.1.1
  have hstep : step s = settled (runNext (u.sample level)) := by
    rw [step_of_input hin, htaken, stepInput, runProcessor_runs hruns]
  subst hinputs
  have hready' : (State.sample level { s with inputs := inputs }).group0Ready 3 = true :=
    (State.group0Ready_congr (s := s) ⟨rfl, rfl, rfl⟩ rfl rfl 3).trans hready
  obtain ⟨w, htakes⟩ := runNext_odd (s := State.sample level { s with inputs := inputs }) hodd hclosed
    (fun g h => nomatch hnormal.symm.trans h) hready'
  exact ⟨w, _, htakes, hstep⟩

/-- Settles O19: each access is cut short where its operand has been resolved, and the exception goes through there. -/
theorem addressErrorTaken : Obligations.AddressErrorTaken := by
  refine ⟨fun i ea an s p sp a hi hodd hproc hready => ?movea,
    fun i sz src dst s p q from_ sp a v hi hl hr hv hl' hodd hproc hready => hv ▸ exec_move_odd hproc hi hl hr hl' hodd hready,
    fun ea s p loc hl hodd hproc hready => ?pea, fun s hodd hproc hready => ?rts,
    fun s level hin hruns hodd hclosed hready => step_odd hin hruns hodd hclosed hready⟩
  case movea =>
    obtain ⟨hi, hl⟩ | ⟨hi, hl⟩ := hi
    · exact exec_movea_odd hproc (.inl ⟨hi, rfl⟩) hl hodd hready
    · exact exec_movea_odd hproc (.inr ⟨hi, rfl⟩) hl hodd hready
  case pea =>
    obtain ⟨q, hq, htaken⟩ := exec_pea_odd hproc hl hodd hready
    exact ⟨q, by simpa using hq, htaken⟩
  case rts =>
    obtain ⟨q, hq, htaken⟩ := exec_rts_odd hproc hodd hready
    exact ⟨q, by simpa using hq, htaken⟩

end

end Sys2Proof.Machine
end

section
/-! PROOFS. The family of spec 60, bus errors (O20). -/

namespace Sys2Proof.Machine

open Sys2Proof

/-! Bus cycles answered with BERR (R395, R396). -/

/-- The fault of a cycle that BERR ends (R450, R452). -/
def BusCycle.fault (c : BusCycle) : AccessFault := { kind := .busError, addr := c.addr, dir := c.dir, code := c.code }

section
variable {s t p q : State} {c d : BusCycle}

section
variable (hquiet : s.quiet = true) (hsupposed : s.supposed = false)
include hquiet hsupposed

theorem busCycle_read_berr (hdir : c.dir = .read) (hc : s.cycle false c = .berr) (w : Word) :
    busCycle false c w s = .error (.access c.fault) s := by
  rw [busCycle_quiet hquiet, hc]
  simp [endCycle, hdir, hsupposed, cycleAbort, BusCycle.fault]

/-- Memory has what the map says the cycle stores (R396). -/
theorem busCycle_write_berr (hdir : c.dir = .write) (hc : s.cycle false c = .berr) (w : Word) :
    busCycle false c w s = .error (.access c.fault) (s.storeCycle c .berr w) := by
  have hstored : (if c.dir = .write ∧ (none : Option Bool).getD (s.stores c .berr) = true
      then { s with mem := s.written c w s.mem } else s) = s.storeCycle c .berr w := by
    unfold State.storeCycle State.cycleMem
    by_cases h : s.stores c .berr = true
    · rw [if_pos ⟨hdir, h⟩, if_pos h]
    · rw [if_neg fun hw => h hw.2, if_neg h]
  rw [busCycle_quiet hquiet, hc]
  unfold endCycle
  simp only [hstored]
  rw [if_neg (by decide), if_neg (by simp [hsupposed])]
  rfl

omit hsupposed in
/-- A device may give any data (R398). -/
theorem busCycle_read_done (hdir : c.dir = .read) (hc : s.cycle false c = .done) (w : Word) :
    ∃ v k, busCycle false c w s = .ok v { s with drawCount := k } := by
  have hdir' : c.dir ≠ .write := by simp [hdir]
  rw [busCycle_quiet hquiet, hc]
  unfold endCycle readData
  simp only [hdir', false_and, if_false, if_true]
  by_cases hdevice : s.readsDevice c = true
  · simp only [if_pos hdevice]
    exact ⟨_, s.drawCount + 1, rfl⟩
  · simp only [if_neg hdevice]
    exact ⟨_, s.drawCount, rfl⟩

/-- Of two read cycles one after the other, each done or ended by BERR, the first to fail decides. -/
theorem busCycle_pair_berr {α : Type} (f : Word → Word → α) (v w : Word) (hdir : c.dir = .read ∧ d.dir = .read)
    (hc : s.cycle false c = .done ∨ s.cycle false c = .berr) (hberr : s.cycle false c = .berr ∨ s.cycle false d = .berr) :
    ∃ e k, (e = c ∨ e = d) ∧ s.cycle false e = .berr ∧
      (do let x ← busCycle false c v; let y ← busCycle false d w; pure (f x y) : Exec α) s =
        .error (.access e.fault) { s with drawCount := k } := by
  obtain hdone | hfails := hc
  · have hd := hberr.resolve_left (by simp [hdone])
    obtain ⟨x, k, hx⟩ := busCycle_read_done hquiet hdir.1 hdone v
    have hy := busCycle_read_berr (s := { s with drawCount := k }) hquiet hsupposed hdir.2 hd w
    exact ⟨d, k, .inr rfl, hd, (run_bind_ok hx).trans (run_bind_error hy)⟩
  · exact ⟨c, s.drawCount, .inl rfl, hfails, run_bind_error (busCycle_read_berr hquiet hsupposed hdir.1 hfails v)⟩

/-- The cycle of a long access that fails, in either order (R73). -/
theorem longCycles_berr {code : FunctionCode} {a : Long} (lowFirst : Bool) (v : Long)
    (hall : ∀ x ∈ [a, a + 2], s.cycle false (wordRead code x) = .done ∨ s.cycle false (wordRead code x) = .berr)
    (hberr : ∃ x ∈ [a, a + 2], s.cycle false (wordRead code x) = .berr) :
    ∃ x ∈ [a, a + 2], s.cycle false (wordRead code x) = .berr ∧
      ∃ k, longCycles lowFirst code .read a v s = .error (.access (wordRead code x).fault) { s with drawCount := k } := by
  simp only [List.mem_cons, List.not_mem_nil, or_false, exists_eq_or_imp, exists_eq_left, forall_eq_or_imp,
    forall_eq] at hall hberr ⊢
  obtain ⟨hhigh, hlow⟩ := hall
  unfold longCycles
  cases lowFirst with
  | false =>
    obtain ⟨e, k, rfl | rfl, he, hrun⟩ := busCycle_pair_berr hquiet hsupposed (c := wordRead code a) (d := wordRead code (a + 2))
      (fun hi lo => hi ++ lo) (highWord v) (lowWord v) ⟨rfl, rfl⟩ hhigh hberr
    · exact .inl ⟨he, k, hrun⟩
    · exact .inr ⟨he, k, hrun⟩
  | true =>
    obtain ⟨e, k, rfl | rfl, he, hrun⟩ := busCycle_pair_berr hquiet hsupposed (c := wordRead code (a + 2)) (d := wordRead code a)
      (fun lo hi => hi ++ lo) (lowWord v) (highWord v) ⟨rfl, rfl⟩ hlow hberr.symm
    · exact .inr ⟨he, k, hrun⟩
    · exact .inl ⟨he, k, hrun⟩

end

/-- The addresses of the cycles of an access. -/
def cycleAddresses (sz : Size) (a : Long) : List Long := if sz = .long then [a, a + 2] else [a]

/-- One of the cycles of an access. -/
def State.accessCycle (s : State) (sp : Space) (dir : Direction) (sz : Size) (x : Long) : BusCycle :=
  { code := s.code sp, dir := dir, width := widthOf sz, addr := x }

/-- All cycles of an access that the maps alone let through are done. -/
theorem State.cycle_of_canAccess {sp : Space} {dir : Direction} {a x : Long} {sz : Size} (h : s.canAccess sp dir a sz = true)
    (hx : x ∈ cycleAddresses sz a) : s.cycle false (s.accessCycle sp dir sz x) = .done := by
  simp only [State.canAccess, Bool.and_eq_true, Bool.or_eq_true, decide_eq_true_eq] at h
  obtain ⟨⟨-, hfirst⟩, hsecond⟩ := h
  have hdone := (State.cycle_of_completes hfirst).2.1
  cases sz with
  | long =>
    obtain rfl | hx := List.mem_cons.mp hx
    · exact hdone
    · obtain rfl := List.mem_singleton.mp hx
      exact (State.cycle_of_completes (hsecond.resolve_left (by decide))).2.1
  | byte | word =>
    obtain rfl := List.mem_singleton.mp hx
    exact hdone

section
variable {sp : Space} {dir : Direction} {a v : Long} {sz : Size} (hquiet : s.quiet = true)
include hquiet

theorem accessCycles_short (hsz : sz ≠ .long) (ha : aligned a sz = true) :
    accessCycles sp dir a sz v s =
      (do let w ← busCycle false (s.accessCycle sp dir sz a) (lowWord v); pure (w.setWidth 32) : Exec Long) s := by
  rw [accessCycles, run_bind_ok (run_get s)]
  show (raiseFetchError >>= _ : Exec Long) s = _
  rw [run_bind_ok (raiseFetchError_ok ((State.quiet_iff s).mp hquiet).2), if_pos ha]
  cases sz with
  | long => exact absurd rfl hsz
  | byte | word => rfl

theorem accessCycles_long (ha : aligned a .long = true) :
    accessCycles sp dir a .long v s =
      longCycles (Config.freeBit s.drawCount) (s.code sp) dir a v { s with drawCount := s.drawCount + 1 } := by
  rw [accessCycles, run_bind_ok (run_get s)]
  show (raiseFetchError >>= _ : Exec Long) s = _
  rw [run_bind_ok (raiseFetchError_ok ((State.quiet_iff s).mp hquiet).2), if_pos ha]
  rfl

end

/-- A read one of whose cycles BERR ends, the others being done. -/
theorem readMem_berr {sp : Space} {a : Long} {sz : Size} (hquiet : s.quiet = true) (hsupposed : s.supposed = false)
    (ha : aligned a sz = true)
    (hall : ∀ x ∈ cycleAddresses sz a, s.cycle false (s.accessCycle sp .read sz x) = .done ∨
      s.cycle false (s.accessCycle sp .read sz x) = .berr)
    (hberr : ∃ x ∈ cycleAddresses sz a, s.cycle false (s.accessCycle sp .read sz x) = .berr) :
    ∃ x ∈ cycleAddresses sz a, s.cycle false (s.accessCycle sp .read sz x) = .berr ∧
      ∃ k, readMem sp a sz s = .error (.access (s.accessCycle sp .read sz x).fault) { s with drawCount := k } := by
  have hcan : s.canAccess sp .read a sz ≠ true := by
    intro hcan
    obtain ⟨x, hx, hfails⟩ := hberr
    exact nomatch (State.cycle_of_canAccess hcan hx).symm.trans hfails
  have hcycles : readMem sp a sz s = accessCycles sp .read a sz 0 s := if_neg hcan
  rw [hcycles]
  by_cases hsz : sz = .long
  · subst hsz
    obtain ⟨x, hx, hfails, k, hrun⟩ := longCycles_berr (s := { s with drawCount := s.drawCount + 1 }) (code := s.code sp)
      hquiet hsupposed (Config.freeBit s.drawCount) 0 hall hberr
    exact ⟨x, hx, hfails, k, (accessCycles_long hquiet ha).trans hrun⟩
  · obtain ⟨x, hx, hfails⟩ := hberr
    rw [cycleAddresses, if_neg hsz, List.mem_singleton] at hx
    subst hx
    refine ⟨x, by simp [cycleAddresses, hsz], hfails, s.drawCount, ?_⟩
    rw [accessCycles_short hquiet hsz ha]
    exact run_bind_error (busCycle_read_berr hquiet hsupposed rfl hfails _)

/-- A byte or word write that BERR ends. -/
theorem writeMem_berr {a v : Long} {sz : Size} (hquiet : s.quiet = true) (hsupposed : s.supposed = false) (hsz : sz ≠ .long)
    (ha : aligned a sz = true) (hberr : s.cycle false (s.accessCycle .data .write sz a) = .berr) :
    writeMem a sz v s = .error (.access (s.accessCycle .data .write sz a).fault)
      (s.storeCycle (s.accessCycle .data .write sz a) .berr (lowWord v)) := by
  have hmem : a ∈ cycleAddresses sz a := by simp [cycleAddresses, hsz]
  have hcan : s.canAccess .data .write a sz ≠ true := fun hcan =>
    nomatch (State.cycle_of_canAccess hcan hmem).symm.trans hberr
  have hcycle := busCycle_write_berr hquiet hsupposed (c := s.accessCycle .data .write sz a) rfl hberr (lowWord v)
  rw [writeMem, if_neg hcan]
  exact run_bind_error ((accessCycles_short hquiet hsz ha).trans (run_bind_error hcycle))

/-! The two accesses of MOVE (R184). -/

/-- The flags that a MOVE supposed to go through leaves, its source being read or not: those of some value, or those there
were. -/
theorem afterSupposed_moveBody_someFlags (sz : Size) (src dst : Ea) (s : State) :
    ∃ v, (s.afterSupposed (moveBody sz src dst)).sr.ccr = moveFlags sz s.sr.ccr v ∨
      (s.afterSupposed (moveBody sz src dst)).sr.ccr = s.sr.ccr := by
  have hread := readEa_sr src sz s.sr s.suppose rfl
  unfold State.afterSupposed moveBody
  rw [run_bind]
  cases hr : readEa src sz s.suppose with
  | error e u => exact ⟨0, .inr (congrArg StatusRegister.ccr (hread.2 e u hr))⟩
  | ok v u =>
    have hflags := moveStore_flags sz v dst u
    rw [hread.1 v u hr] at hflags
    dsimp only
    cases hs : moveStore sz v dst u with
    | ok a t => exact ⟨v, .inl (hflags.1 a t hs)⟩
    | error e t => exact ⟨v, .inr (hflags.2 e t hs)⟩

theorem State.cycle_congr (h : t.busMap = s.busMap) (rmw : Bool) (c : BusCycle) : t.cycle rmw c = s.cycle rmw c := by
  simp only [State.cycle, State.answer, State.region, h]

theorem exec_move_read_berr {i : Instr} {sz : Size} {src dst : Ea} {sp : Space} {a : Long}
    (hi : (i = .moveByte src dst ∧ sz = .byte) ∨ (i = .moveWord src dst ∧ sz = .word) ∨ (i = .moveLong src dst ∧ sz = .long))
    (hl : s.beginInstr.resolve src sz = (.mem sp a, p)) (ha : aligned a sz = true)
    (hall : ∀ x ∈ cycleAddresses sz a, s.cycle false (s.accessCycle sp .read sz x) = .done ∨
      s.cycle false (s.accessCycle sp .read sz x) = .berr)
    (hberr : ∃ x ∈ cycleAddresses sz a, s.cycle false (s.accessCycle sp .read sz x) = .berr)
    (hproc : ∀ g, s.procState ≠ .exception g) (hready : p.group0Ready 2 = true) :
    ∃ x ∈ cycleAddresses sz a, s.cycle false (s.accessCycle sp .read sz x) = .berr ∧
      ∃ (cc : Ccr) (v : Long), cc.between s.sr.ccr (moveFlags sz s.sr.ccr v) ∧
        (p.setCcr cc).TakesGroup0 (s.accessCycle sp .read sz x).fault s.pc (exec i s) := by
  obtain ⟨hsupposed, hquiet, -⟩ := State.of_group0Ready hready
  have hduring := (State.During.beginInstr s).resolve hl
  obtain ⟨⟨hmap, -, -⟩, -⟩ := State.sameBus_of_resolve hl
  have hcycle (x : Long) : p.cycle false (p.accessCycle sp .read sz x) = s.cycle false (s.accessCycle sp .read sz x) := by
    rw [State.cycle_congr hmap, State.accessCycle, hduring.code]
    rfl
  simp only [← hcycle] at hall hberr ⊢
  obtain ⟨x, hx, hfails, k, hread⟩ := readMem_berr hquiet hsupposed ha hall hberr
  have hbody : moveBody sz src dst s.beginInstr =
      .error (.access (p.accessCycle sp .read sz x).fault) { p with drawCount := k } := by
    refine run_bind_error ?_
    rw [readEa, run_bind_ok (resolveEa_run src sz s.beginInstr), hl]
    exact hread
  rw [State.accessCycle, hduring.code] at hbody
  obtain ⟨cc, hcc, htaken⟩ := runInstr_takesGroup0 (f := (s.accessCycle sp .read sz x).fault) hduring hproc hready hbody
  obtain ⟨v, hv⟩ := afterSupposed_moveBody_someFlags sz src dst s.beginInstr
  rw [exec_move hi]
  exact ⟨x, hx, hfails, cc, v, hcc.of_new hv, htaken⟩

theorem exec_move_write_berr {i : Instr} {sz : Size} {src dst : Ea} {from_ : Loc} {sp : Space} {a : Long}
    (hi : (i = .moveByte src dst ∧ sz = .byte) ∨ (i = .moveWord src dst ∧ sz = .word))
    (hl : s.beginInstr.resolve src sz = (from_, p)) (hr : from_.readable sz p = true)
    (hl' : p.resolve dst sz = (.mem sp a, q)) (ha : aligned a sz = true)
    (hberr : s.cycle false (s.accessCycle .data .write sz a) = .berr)
    (hproc : ∀ g, s.procState ≠ .exception g) (hready : q.group0Ready 2 = true) :
    ∃ cc : Ccr, cc.between s.sr.ccr (moveFlags sz s.sr.ccr (from_.load sz p)) ∧
      ((q.storeCycle (s.accessCycle .data .write sz a) .berr (lowWord (from_.load sz p))).setCcr cc).TakesGroup0
        (s.accessCycle .data .write sz a).fault s.pc (exec i s) := by
  have hsz : sz ≠ .long := by obtain ⟨-, rfl⟩ | ⟨-, rfl⟩ := hi <;> decide
  have hi' : (i = .moveByte src dst ∧ sz = .byte) ∨ (i = .moveWord src dst ∧ sz = .word) ∨
      (i = .moveLong src dst ∧ sz = .long) := hi.imp_right .inl
  obtain ⟨hsupposed, hquiet, -⟩ := State.of_group0Ready hready
  have hduring := ((State.During.beginInstr s).resolve hl).resolve hl'
  obtain ⟨⟨hmap, -, -⟩, -⟩ := State.sameBus_of_resolve hl
  obtain ⟨⟨hmap', -, herror⟩, -⟩ := State.sameBus_of_resolve hl'
  have haccess : q.accessCycle .data .write sz a = s.accessCycle .data .write sz a := by
    rw [State.accessCycle, hduring.code]
    rfl
  have hwrite := writeMem_berr (v := from_.load sz p) hquiet hsupposed hsz ha
    (by rw [haccess, State.cycle_congr (hmap'.trans hmap)]; exact hberr)
  rw [haccess] at hwrite
  generalize hu : q.storeCycle (s.accessCycle .data .write sz a) .berr (lowWord (from_.load sz p)) = u at hwrite ⊢
  have hbody : moveBody sz src dst s.beginInstr = .error (.access (s.accessCycle .data .write sz a).fault) u := by
    refine (run_bind_ok (readEa_at hl hr)).trans ?_
    rw [moveStore, run_bind_ok (resolveEa_run dst sz p), hl', run_bind_ok (run_get q), wrFlagged]
    exact run_bind_error hwrite
  have hduringu : s.During u := by
    rw [← hu]
    exact ⟨hduring.instrAddr, hduring.closed, hduring.procState, hduring.sr⟩
  have hreadyu : u.group0Ready 2 = true := by
    rw [← hu]
    exact (State.group0Ready_congr (s := q) ⟨rfl, rfl, rfl⟩ rfl rfl 2).trans hready
  obtain ⟨cc, hcc, htaken⟩ := runInstr_takesGroup0 (f := (s.accessCycle .data .write sz a).fault) hduringu hproc hreadyu
    (k := u.drawCount) hbody
  rw [exec_move hi']
  exact ⟨cc, hcc.of_new (afterSupposed_moveBody_flags dst hl hr (herror.symm.trans ((State.quiet_iff q).mp hquiet).2)), htaken⟩

/-! The first word at a target (R503 b). -/

theorem fetchWord_berr (hquiet : s.quiet = true) (hsupposed : s.supposed = false) (hprefetch : s.prefetch = []) {a : Long}
    (ha : aligned a .word = true) (hberr : s.cycle false (s.accessCycle .program .read .word a) = .berr) :
    ∃ k, fetchWord a s = .error (.access (s.accessCycle .program .read .word a).fault) { s with drawCount := k } := by
  have hnone : s.aheadAt a = none := by rw [State.aheadAt, hprefetch]; rfl
  have hmem : a ∈ cycleAddresses .word a := List.mem_singleton_self a
  obtain ⟨x, hx, -, k, hread⟩ := readMem_berr (sz := .word) hquiet hsupposed ha
    (fun x hx => .inr (by obtain rfl := List.mem_singleton.mp hx; exact hberr)) ⟨a, hmem, hberr⟩
  obtain rfl := List.mem_singleton.mp hx
  unfold fetchWord
  rw [hnone]
  exact ⟨k, run_bind_error hread⟩

/-- A word at the program counter that BERR ends: nothing is read there, or the fault is met. -/
theorem readAhead_berr (hquiet : s.quiet = true) (hsupposed : s.supposed = false) (hprefetch : s.prefetch = [])
    (ha : aligned s.pc .word = true) (hberr : s.cycle false (s.accessCycle .program .read .word s.pc) = .berr) :
    ∃ k, (s.readAhead s.windowWords s.pc).state = { s with drawCount := k } ∧
      ((s.readAhead s.windowWords s.pc).error = none ∨
        (s.readAhead s.windowWords s.pc).error = some (.access (s.accessCycle .program .read .word s.pc).fault)) := by
  obtain ⟨m, n, read, hahead, -, -, -⟩ := s.readAhead_eq s.windowWords s.pc
  rw [hahead]
  cases m with
  | zero =>
    refine ⟨n, ?_, .inl rfl⟩
    simp only [Fetched.keptAhead, fetchWords, aheadWords]
    rw [← hprefetch]
  | succ m =>
    obtain ⟨k, hfetch⟩ := fetchWord_berr (s := { s with drawCount := n }) hquiet hsupposed hprefetch ha hberr
    refine ⟨k, ?_, .inr ?_⟩
    · simp only [Fetched.keptAhead, fetchWords, hfetch, aheadWords]
      rw [← hprefetch]
    · simp only [Fetched.keptAhead, fetchWords, hfetch]
      rfl

theorem busMap_ne_nil_of_berr (h : s.cycle false c = .berr) : s.busMap.isEmpty = false := by
  cases hmap : s.busMap with
  | nil => simp [State.cycle, State.answer, State.region, hmap, BusAnswer.toEnd] at h
  | cons r rs => rfl

theorem settle_berr (hnormal : s.procState = .normal) (hprefetch : s.prefetch = []) (heven : s.pc.getLsbD 0 = false)
    (hclosed : s.inGroup0 = false) (hberr : s.cycle false (s.accessCycle .program .read .word s.pc) = .berr)
    (hready : s.group0Ready 2 = true) :
    (∃ k, s.settle = .next { s with drawCount := k }) ∨
      ∃ (w : Word) (taken : Host.Outcome State Fault Refusal),
        ({ s with instrReg := w } : State).TakesGroup0 (s.accessCycle .program .read .word s.pc).fault s.instrAddr taken ∧
          s.settle = settled taken := by
  obtain ⟨hsupposed, hquiet, -⟩ := State.of_group0Ready hready
  have ha : aligned s.pc .word = true := by
    show (!s.pc.getLsbD 0) = true
    rw [heven]
    rfl
  have hempty : ¬ (s.quiet && s.busMap.isEmpty) = true := by simp [busMap_ne_nil_of_berr hberr]
  have hcycles := ((State.quiet_iff s).mp hquiet).1
  obtain ⟨k, hstate, hnone | hfault⟩ := readAhead_berr hquiet hsupposed hprefetch ha hberr
  · left
    refine ⟨k, ?_⟩
    unfold State.settle readTarget
    simp only [if_pos (And.intro hnormal hprefetch), if_neg hempty, if_pos ha, hnone, hstate]
  · right
    obtain ⟨n, w, hopen⟩ := State.openInstrReg_eq (State.unknownWord { s with drawCount := k }) { s with drawCount := k }
    have hready' : ({ s with instrReg := w } : State).group0Ready 2 = true :=
      (State.group0Ready_congr (s := s) ⟨rfl, rfl, rfl⟩ rfl rfl 2).trans hready
    have htakes := abortOutcome_takesGroup0 (t := { s with instrReg := w })
      (f := (s.accessCycle .program .read .word s.pc).fault) hclosed (fun g h => nomatch hnormal.symm.trans h) hready' n
    refine ⟨w, _, htakes, ?_⟩
    obtain ⟨top, j, count, -, htaken⟩ := htakes
    generalize hnext : State.afterGroup0 _ _ _ _ = u at htaken
    have hwindow : u.inGroup0 = true := by rw [← hnext]; rfl
    have hquietu : u.quiet = true := by rw [← hnext]; exact hquiet
    obtain ⟨o, ho, -⟩ := readTarget_window hwindow hquietu
    have hsettle : s.settle = o := by
      unfold State.settle
      rw [hcycles]
      unfold readTarget
      simp only [if_pos (And.intro hnormal hprefetch), if_neg hempty, if_pos ha, hfault, hstate, hopen, htaken]
      exact ho 0
    rw [hsettle, htaken]
    exact (ho _).symm

/-- Settles O20: the cycle that fails cuts the instruction short where its operand has been resolved; at a target it is met when
the words there are read. -/
theorem busErrorTaken : Obligations.BusErrorTaken := by
  refine ⟨fun i sz src dst s p sp a read cycles hi hl ha hread hcycles hall hberr hproc hready => ?_,
    fun i sz src dst s p q from_ sp a v c hi hl hr hv hl' ha hc hberr hproc hready => ?_,
    fun s hnormal hprefetch heven hclosed hberr hready => settle_berr hnormal hprefetch heven hclosed hberr hready⟩
  · subst hread hcycles
    exact exec_move_read_berr hi hl ha hall hberr hproc hready
  · subst hv hc
    exact exec_move_write_berr hi hl hr hl' ha hberr hproc hready

end

end Sys2Proof.Machine
end

section
/-! PROOFS. The family of spec 30, words: the written words (O1), and decode of encode (O2). Where decoders are made of
smaller ones, so is the proof: each reads back the words that the encoder writes for its part of an instruction. -/

namespace Sys2Proof

/-! The fields of the operation word and of an extension word (R108, R110). -/

@[simp] theorem toReg_val (n : Reg) : toReg n.val = n := Fin.cast_val_eq_self n

theorem condCode_lt (c : Cond) : condCode c < 16 := by cases c <;> decide

/-- Every field is in its range. -/
structure OpFields.Fits (f : OpFields) : Prop where
  line : f.line < 16
  r : f.r < 8
  o : f.o < 8
  m : f.m < 8
  x : f.x < 8

theorem unpack_pack {f : OpFields} (h : f.Fits) : unpack (pack f) = f := by
  obtain ⟨line, r, o, m, x⟩ := f
  obtain ⟨hline, hr, ho, hm, hx⟩ := h
  dsimp only at hline hr ho hm hx
  simp only [unpack, pack, BitVec.toNat_ofNat, OpFields.mk.injEq]
  omega

@[simp] theorem eaFields_fst_lt (ea : Ea) : (eaFields ea).1 < 8 := by cases ea <;> simp [eaFields]

@[simp] theorem eaFields_snd_lt (ea : Ea) : (eaFields ea).2 < 8 := by cases ea <;> simp [eaFields]

theorem indexExtOfWord_wordOfIndexExt (x : IndexExt) : indexExtOfWord (wordOfIndexExt x) = x := by
  obtain ⟨isAddr, reg, isLong, disp⟩ := x
  have haddr := isAddr.toNat_lt
  have hlong := isLong.toNat_lt
  have hw : (wordOfIndexExt ⟨isAddr, reg, isLong, disp⟩).toNat =
      isAddr.toNat * 32768 + reg.val * 4096 + isLong.toNat * 2048 + disp.toNat := by
    simp only [wordOfIndexExt, BitVec.toNat_ofNat]
    omega
  have hreg : (wordOfIndexExt ⟨isAddr, reg, isLong, disp⟩).toNat / 4096 % 8 = reg.val := by omega
  have hdisp : BitVec.ofNat 8 (wordOfIndexExt ⟨isAddr, reg, isLong, disp⟩).toNat = disp :=
    BitVec.eq_of_toNat_eq (by rw [BitVec.toNat_ofNat]; omega)
  have hbitAddr : decide ((wordOfIndexExt ⟨isAddr, reg, isLong, disp⟩).toNat / 32768 = 1) = isAddr := by
    cases isAddr with
    | false => exact decide_eq_false (by simp only [Bool.toNat_false] at hw; omega)
    | true => exact decide_eq_true (by simp only [Bool.toNat_true] at hw; omega)
  have hbitLong : decide ((wordOfIndexExt ⟨isAddr, reg, isLong, disp⟩).toNat / 2048 % 2 = 1) = isLong := by
    cases isLong with
    | false => exact decide_eq_false (by simp only [Bool.toNat_false] at hw; omega)
    | true => exact decide_eq_true (by simp only [Bool.toNat_true] at hw; omega)
  simp only [indexExtOfWord, hreg, hdisp, hbitAddr, hbitLong, toReg_val]

/-! What a decoder reads back. -/

/-- From the given words, and whatever follows them, a decoder gives the value and leaves what follows. -/
def ReadsBack {α : Type} (p : List Word → Except DecodeError (α × List Word)) (words : List Word) (a : α) : Prop :=
  ∀ ws, p (words ++ ws) = .ok (a, ws)

theorem ReadsBack.ok {α : Type} {a b : α} (h : a = b) : ReadsBack (fun ws => .ok (a, ws)) [] b := by
  intro ws
  rw [h, List.nil_append]

/-- Decoders one after the other read the words of the first and then those of the second. -/
theorem ReadsBack.bind {α β : Type} {p : List Word → Except DecodeError (α × List Word)}
    {q : α → List Word → Except DecodeError (β × List Word)} {u v : List Word} {a : α} {b : β} (hp : ReadsBack p u a)
    (hq : ReadsBack (q a) v b) : ReadsBack (fun ws => p ws >>= fun r => q r.1 r.2) (u ++ v) b := by
  intro ws
  simp only [List.append_assoc, hp (v ++ ws)]
  exact hq ws

/-- What is read is put into a larger term. -/
theorem ReadsBack.map {α β : Type} {p : List Word → Except DecodeError (α × List Word)} {u : List Word} {a : α} (k : α → β)
    {b : β} (hp : ReadsBack p u a) (hk : k a = b) : ReadsBack (fun ws => p ws >>= fun r => .ok (k r.1, r.2)) u b := by
  simpa only [List.append_nil] using hp.bind (q := fun a ws => .ok (k a, ws)) (.ok hk)

theorem readsBack_takeWord (w : Word) : ReadsBack takeWord [w] w := fun _ => rfl

theorem joinWords_highWord_lowWord (v : Long) : joinWords (highWord v) (lowWord v) = v := by
  refine BitVec.eq_of_getLsbD_eq fun i hi => ?_
  show (highWord v ++ lowWord v : BitVec (16 + 16)).getLsbD i = v.getLsbD i
  rw [BitVec.getLsbD_append]
  by_cases hlow : i < 16
  · simp [lowWord, hlow]
  · have hhigh : i - 16 < 16 := by omega
    have hplace : 16 + (i - 16) = i := by omega
    simp [highWord, hlow, hhigh, hplace]

theorem readsBack_takeLong (v : Long) : ReadsBack takeLong [highWord v, lowWord v] v := by
  intro ws
  show Except.ok (joinWords (highWord v) (lowWord v), ws) = _
  rw [joinWords_highWord_lowWord]

@[simp] theorem lowByte_byteWord (b : Byte) : lowByte (byteWord b) = b := by
  simp [lowByte, byteWord]

/-- An immediate that fits its size is read back (R106). -/
theorem readsBack_takeImm {sz : Size} {v : Long} (h : immFits sz v = true) : ReadsBack (takeImm sz) (immWords sz v) v := by
  cases sz with
  | byte =>
    have hv : v.toNat < 2 ^ 8 := of_decide_eq_true h
    refine (readsBack_takeWord _).map (fun w => (lowByte w).setWidth 32) (BitVec.eq_of_toNat_eq ?_)
    simp only [lowByte, BitVec.toNat_setWidth]
    omega
  | word =>
    have hv : v.toNat < 2 ^ 16 := of_decide_eq_true h
    refine (readsBack_takeWord _).map (fun w => w.setWidth 32) (BitVec.eq_of_toNat_eq ?_)
    simp only [lowWord, BitVec.toNat_setWidth]
    omega
  | long => exact readsBack_takeLong v

/-- An effective address is read back from its fields and its extension words (R102, R103). -/
theorem readsBack_takeEa {sz : Size} {ea : Ea} (h : ea.immOk sz = true) :
    ReadsBack (takeEa sz (eaFields ea).1 (eaFields ea).2) (eaWords sz ea) ea := by
  cases ea with
  | dreg n => exact .ok (congrArg Ea.dreg (toReg_val n))
  | areg n => exact .ok (congrArg Ea.areg (toReg_val n))
  | ind n => exact .ok (congrArg Ea.ind (toReg_val n))
  | postInc n => exact .ok (congrArg Ea.postInc (toReg_val n))
  | preDec n => exact .ok (congrArg Ea.preDec (toReg_val n))
  | disp n d => exact (readsBack_takeWord d).map (Ea.disp (toReg n.val)) (by rw [toReg_val])
  | index n x =>
    exact (readsBack_takeWord _).map (fun w => Ea.index (toReg n.val) (indexExtOfWord w))
      (by rw [toReg_val, indexExtOfWord_wordOfIndexExt])
  | absShort a => exact (readsBack_takeWord a).map Ea.absShort rfl
  | absLong a => exact (readsBack_takeLong a).map Ea.absLong rfl
  | pcDisp d => exact (readsBack_takeWord d).map Ea.pcDisp rfl
  | pcIndex x =>
    exact (readsBack_takeWord _).map (fun w => Ea.pcIndex (indexExtOfWord w))
      (by rw [indexExtOfWord_wordOfIndexExt])
  | imm v => exact (readsBack_takeImm h).map Ea.imm rfl

/-! The formats of instructions: the operand words that each one reads back. -/

/-- The fields of an operation word with an effective address in bits 5-0. -/
def eaOpFields (line r o : Nat) (ea : Ea) : OpFields :=
  { line := line, r := r, o := o, m := (eaFields ea).1, x := (eaFields ea).2 }

@[simp] theorem eaOpFields_r (line r o : Nat) (ea : Ea) : (eaOpFields line r o ea).r = r := rfl

section

variable {line r o : Nat} {sz : Size} {ea : Ea} {i : Instr}

theorem readsBack_ok {j : Instr} (h : j = i := by simp) : ReadsBack (fun ws => .ok (j, ws)) [] i := .ok h

theorem readsBack_withEa {k : Ea → Instr} (h : ea.immOk sz = true) (hk : k ea = i := by simp) :
    ReadsBack (fun ws => withEa sz (eaOpFields line r o ea) ws k) (eaWords sz ea) i :=
  (readsBack_takeEa h).map k hk

/-- The register is in bits 11-9. -/
theorem readsBack_withEaReg {k : Ea → Reg → Instr} {n : Reg} (h : ea.immOk sz = true) :
    ReadsBack (fun ws => withEa sz (eaOpFields line n.val o ea) ws fun ea => k ea (toReg n.val)) (eaWords sz ea)
      (k ea n) :=
  readsBack_withEa h (by rw [toReg_val])

theorem readsBack_withWord {k : Word → Instr} {w : Word} (hk : k w = i := by simp) :
    ReadsBack (fun ws => withWord ws k) [w] i :=
  (readsBack_takeWord w).map k hk

/-- One word of its own whose low-order byte alone counts (R106). -/
theorem readsBack_withByte {k : Byte → Instr} {b : Byte} :
    ReadsBack (fun ws => withWord ws fun w => k (lowByte w)) [byteWord b] (k b) :=
  readsBack_withWord (congrArg k (lowByte_byteWord b))

theorem readsBack_withWordEa {k : Word → Ea → Instr} {w : Word} (h : ea.immOk sz = true) (hk : k w ea = i := by simp) :
    ReadsBack (fun ws => withWordEa sz (eaOpFields line r o ea) ws k) (w :: eaWords sz ea) i :=
  (readsBack_takeWord w).bind (q := fun w ws => takeEa sz (eaFields ea).1 (eaFields ea).2 ws >>= fun t => .ok (k w t.1, t.2))
    ((readsBack_takeEa h).map (k w) hk)

theorem readsBack_withByteEa {k : Byte → Ea → Instr} {b : Byte} (h : ea.immOk sz = true) :
    ReadsBack (fun ws => withWordEa sz (eaOpFields line r o ea) ws fun w => k (lowByte w)) (byteWord b :: eaWords sz ea)
      (k b ea) :=
  readsBack_withWordEa h (by rw [lowByte_byteWord])

theorem readsBack_withImmEa {k : Size → Long → Ea → Instr} {v : Long} (hv : immFits sz v = true)
    (h : ea.immOk sz = true) (hk : k sz v ea = i := by simp) :
    ReadsBack (fun ws => withImmEa (eaOpFields line r (sizeField sz) ea) ws k) (immWords sz v ++ eaWords sz ea) i := by
  have hsize : (fun ws => withImmEa (eaOpFields line r (sizeField sz) ea) ws k) = fun ws => takeImm sz ws >>= fun u =>
      takeEa sz (eaFields ea).1 (eaFields ea).2 u.2 >>= fun t => .ok (k sz u.1 t.1, t.2) := by
    cases sz <;> rfl
  rw [hsize]
  exact (readsBack_takeImm hv).bind
    (q := fun v ws => takeEa sz (eaFields ea).1 (eaFields ea).2 ws >>= fun t => .ok (k sz v t.1, t.2))
    ((readsBack_takeEa h).map (k sz v) hk)

/-- The size field is in bits 7-6, whatever bit 8 is. -/
theorem readsBack_withSizeEa {k : Size → Ea → Instr} (hsize : sizeOfField (o % 4) = .ok sz) (h : ea.immOk sz = true)
    (hk : k sz ea = i := by simp) :
    ReadsBack (fun ws => withSizeEa (eaOpFields line r o ea) ws k) (eaWords sz ea) i := by
  have hread : (fun ws => withSizeEa (eaOpFields line r o ea) ws k) = fun ws =>
      takeEa sz (eaFields ea).1 (eaFields ea).2 ws >>= fun t => .ok (k sz t.1, t.2) := by
    funext ws
    simp only [withSizeEa, eaOpFields, hsize]
    rfl
  rw [hread]
  exact (readsBack_takeEa h).map (k sz) hk

/-- The register is in bits 11-9. -/
theorem readsBack_withSizeEaReg {k : Size → Ea → Reg → Instr} {n : Reg} (hsize : sizeOfField (o % 4) = .ok sz)
    (h : ea.immOk sz = true) :
    ReadsBack (fun ws => withSizeEa (eaOpFields line n.val o ea) ws fun sz ea => k sz ea (toReg n.val)) (eaWords sz ea)
      (k sz ea n) :=
  readsBack_withSizeEa hsize h (by rw [toReg_val])

/-- The source's words come before those of the destination (R184). -/
theorem readsBack_withMove {src dst : Ea} {k : Ea → Ea → Instr} (hs : src.immOk sz = true) (hd : dst.immOk sz = true)
    (hk : k src dst = i := by rfl) :
    ReadsBack (fun ws => withMove sz (eaOpFields line (eaFields dst).2 (eaFields dst).1 src) ws k)
      (eaWords sz src ++ eaWords sz dst) i :=
  (readsBack_takeEa hs).bind
    (q := fun src ws => takeEa sz (eaFields dst).1 (eaFields dst).2 ws >>= fun t => .ok (k src t.1, t.2))
    ((readsBack_takeEa hd).map (k src) hk)

theorem readsBack_withExtended {m : Nat} {k : Size → Bool → Reg → Reg → Instr} {mem : Bool} {ry rx : Reg}
    (hsize : sizeOfField (o % 4) = .ok sz) :
    ReadsBack (fun ws => withExtended ⟨line, rx.val, o, m, ry.val⟩ ws k mem) [] (k sz mem ry rx) := by
  intro ws
  simp only [withExtended, hsize, toReg_val]
  rfl

theorem readsBack_withShift {m : Nat} {k : Size → ShiftCount → Reg → Instr} {count : ShiftCount} {dn : Reg}
    (hsize : sizeOfField (o % 4) = .ok sz) (hcount : shiftCountOf ⟨line, r, o, m, dn.val⟩ = count) :
    ReadsBack (fun ws => withShift ⟨line, r, o, m, dn.val⟩ ws k) [] (k sz count dn) := by
  intro ws
  simp only [withShift, hsize, hcount, toReg_val]
  rfl

/-- What the opcode map reads back from the fields of an operation word, the decoder reads back from the word. -/
theorem readsBack_pack {f : OpFields} {words : List Word} (hi : i.wellFormed = true) (hf : f.Fits)
    (h : ReadsBack (parse f) words i) : ReadsBack decode (pack f :: words) i := by
  intro ws
  simp only [List.cons_append, decode, unpack_pack hf, h ws, hi, if_true]

theorem readsBack_opEa {words : List Word} (hi : i.wellFormed = true) (h : ReadsBack (parse (eaOpFields line r o ea)) words i)
    (hl : line < 16 := by decide) (hr : r < 8 := by simp) (ho : o < 8 := by decide) :
    ReadsBack decode (opEa line r o ea :: words) i :=
  readsBack_pack hi ⟨hl, hr, ho, eaFields_fst_lt ea, eaFields_snd_lt ea⟩ h

theorem readsBack_opWord {m x : Nat} {words : List Word} (hi : i.wellFormed = true)
    (h : ReadsBack (parse ⟨line, r, o, m, x⟩) words i) (hl : line < 16 := by decide)
    (hr : r < 8 := by simp) (ho : o < 8 := by decide) (hm : m < 8 := by simp) (hx : x < 8 := by simp) :
    ReadsBack decode (opWord line r o m x :: words) i :=
  readsBack_pack hi ⟨hl, hr, ho, hm, hx⟩ h

end

/-! Operands that are not one field of the operation word. -/

/-- A displacement is read back by the branch that the first code in bits 11-8 selects (R113, R323). -/
theorem readsBack_encodeBranch {code : Nat} {d : BranchDisp} {k : BranchDisp → Instr} (hi : (k d).wellFormed = true)
    (hcode : code < 16) (hd : d.ok = true)
    (hparse : ∀ (f : OpFields) (ws : List Word), f.line = 6 → f.r * 2 + f.o / 4 = code → parse f ws = withBranch f ws k) :
    ReadsBack decode (encodeBranch code d) (k d) := by
  cases d with
  | short d =>
    have hne : d ≠ 0 := of_decide_eq_true hd
    have hpos : d.toNat ≠ 0 := fun h => hne (BitVec.eq_of_toNat_eq h)
    have hfield : (code % 2 * 4 + d.toNat / 64) % 4 * 64 + d.toNat / 8 % 8 * 8 + d.toNat % 8 = d.toNat := by omega
    refine readsBack_opWord hi (fun ws => ?_) (hr := by omega) (ho := by omega) (hm := Nat.mod_lt _ (by decide))
      (hx := Nat.mod_lt _ (by decide))
    rw [hparse _ _ rfl (by dsimp only; omega)]
    simp only [withBranch, hfield, if_neg hpos, BitVec.ofNat_toNat, BitVec.setWidth_eq, List.nil_append]
  | long d =>
    have hfield : code % 2 * 4 % 4 * 64 + 0 * 8 + 0 = 0 := by omega
    refine readsBack_opWord hi (fun ws => ?_) (hr := by omega) (ho := by omega)
    rw [hparse _ _ rfl (by dsimp only; omega)]
    simp only [withBranch, hfield, if_true]
    rfl

theorem parse_bcc {c : Cond} (hc : c.bccOk = true) (f : OpFields) (ws : List Word) (hl : f.line = 6)
    (hcode : f.r * 2 + f.o / 4 = condCode c) : parse f ws = withBranch f ws (.bcc c) := by
  simp only [parse, hl, parseLine6, hcode]
  cases c <;> first | rfl | cases hc

/-- A register shift is read back by the direction and type that bit 8 and bits 4-3 select (R281). -/
theorem readsBack_encodeShift {dr tt : Nat} {sz : Size} {count : ShiftCount} {dn : Reg}
    {k : Size → ShiftCount → Reg → Instr} (hi : (k sz count dn).wellFormed = true) (hdr : dr < 2) (htt : tt < 4)
    (hparse : ∀ (f : OpFields) (ws : List Word), f.line = 14 → f.o ≠ 3 → f.o ≠ 7 → f.o / 4 = dr → f.m % 4 = tt →
      parse f ws = withShift f ws k) :
    ReadsBack decode (encodeShift dr tt sz count dn) (k sz count dn) := by
  have hsz : sizeField sz < 3 := by cases sz <;> decide
  have hsize : sizeOfField ((dr * 4 + sizeField sz) % 4) = .ok sz := by
    rw [show (dr * 4 + sizeField sz) % 4 = sizeField sz by omega]
    cases sz <;> rfl
  have hfields (r m : Nat) (hm : m % 4 = tt) (hcount : shiftCountOf ⟨14, r, dr * 4 + sizeField sz, m, dn.val⟩ = count) :
      ReadsBack (parse ⟨14, r, dr * 4 + sizeField sz, m, dn.val⟩) [] (k sz count dn) := by
    intro ws
    rw [hparse _ _ rfl (by dsimp only; omega) (by dsimp only; omega) (by dsimp only; omega) hm]
    exact readsBack_withShift hsize hcount ws
  cases count with
  | imm n =>
    refine readsBack_opWord hi (hfields n.val tt (by omega) ?_) (ho := by omega) (hm := by omega)
    rw [shiftCountOf, if_pos htt]
    exact congrArg ShiftCount.imm (toReg_val n)
  | reg n =>
    refine readsBack_opWord hi (hfields n.val (4 + tt) (by omega) ?_) (ho := by omega) (hm := by omega)
    rw [shiftCountOf, if_neg (by dsimp only; omega)]
    exact congrArg ShiftCount.reg (toReg_val n)

/-- The vector number is the low-order four bits (R356). -/
theorem readsBack_trap {v : Fin 16} (hi : (Instr.trap v).wellFormed = true) :
    ReadsBack decode (encode (.trap v)) (.trap v) := by
  show ReadsBack decode [opWord 4 7 1 (v.val / 8) (v.val % 8)] (.trap v)
  obtain hlow | hhigh : v.val / 8 = 0 ∨ v.val / 8 = 1 := by omega
  · rw [hlow]
    refine readsBack_opWord hi (.ok (congrArg Instr.trap (Fin.ext ?_))) (hx := Nat.mod_lt _ (by decide))
    show v.val % 8 % 16 = v.val
    omega
  · rw [hhigh]
    refine readsBack_opWord hi (.ok (congrArg Instr.trap (Fin.ext ?_))) (hx := Nat.mod_lt _ (by decide))
    show (8 + v.val % 8) % 16 = v.val
    omega

/-- The data of MOVEQ are bits 7-0, so that bit 8 is clear (R189). -/
theorem readsBack_moveq {dn : Reg} {d : Byte} (hi : (Instr.moveq dn d).wellFormed = true) :
    ReadsBack decode (encode (.moveq dn d)) (.moveq dn d) := by
  have hlt : d.toNat / 64 < 4 := by omega
  have hdata : BitVec.ofNat 8 (d.toNat / 64 * 64 + d.toNat / 8 % 8 * 8 + d.toNat % 8) = d :=
    BitVec.eq_of_toNat_eq (by rw [BitVec.toNat_ofNat]; omega)
  refine readsBack_opWord hi (fun ws => ?_) (ho := hlt.trans (by decide)) (hm := Nat.mod_lt _ (by decide))
    (hx := Nat.mod_lt _ (by decide))
  simp only [parse, parseLine7, if_pos hlt, hdata, toReg_val, List.nil_append]

/-! Which operands are read back: all but an immediate that does not fit (R106, R171). -/

namespace Ea

section

variable {ea : Ea}

theorem immOk_of_isImm (h : ea.isImm = false) (sz : Size) : ea.immOk sz = true := by
  cases ea <;> first | rfl | cases h

theorem immOk_of_isAlterable (h : ea.isAlterable = true) (sz : Size) : ea.immOk sz = true := by
  cases ea <;> first | rfl | cases h

theorem immOk_of_isControl (h : ea.isControl = true) (sz : Size) : ea.immOk sz = true := by
  cases ea <;> first | rfl | cases h

theorem immOk_of_dataAlterable (h : ea.dataAlterable = true) (sz : Size) : ea.immOk sz = true :=
  immOk_of_isAlterable ((Bool.and_eq_true _ _).mp h).2 sz

theorem immOk_of_memAlterable (h : ea.memAlterable = true) (sz : Size) : ea.immOk sz = true :=
  immOk_of_isAlterable ((Bool.and_eq_true _ _).mp h).2 sz

theorem immOk_of_alterableOk {sz : Size} (h : ea.alterableOk sz = true) (sz' : Size) : ea.immOk sz' = true :=
  immOk_of_isAlterable ((Bool.and_eq_true _ _).mp h).1 sz'

theorem immOk_of_dataNotImm (h : ea.dataNotImm = true) (sz : Size) : ea.immOk sz = true :=
  immOk_of_isImm (by simpa using ((Bool.and_eq_true _ _).mp h).2) sz

theorem immOk_of_movemStore (h : (ea.isControl && ea.isAlterable || ea.isPreDec) = true) (sz : Size) :
    ea.immOk sz = true := by
  cases ea <;> first | rfl | cases h

theorem immOk_of_movemLoad (h : (ea.isControl || ea.isPostInc) = true) (sz : Size) : ea.immOk sz = true := by
  cases ea <;> first | rfl | cases h

theorem immOk_of_dataOk {sz : Size} (h : ea.dataOk sz = true) : ea.immOk sz = true := ((Bool.and_eq_true _ _).mp h).2

theorem immOk_of_allOk {sz : Size} (h : ea.allOk sz = true) : ea.immOk sz = true := ((Bool.and_eq_true _ _).mp h).1

end

end Ea

/-! Decode of encode. The fields of each operation word select its row in the opcode map (R115); modes that the row does not
accept, which may be those of another row, contradict the well-formedness. -/

theorem readsBack_encode (i : Instr) (h : i.wellFormed = true) : ReadsBack decode (encode i) i := by
  cases i with
  -- line 0
  | ori sz v ea | andi sz v ea | subi sz v ea | addi sz v ea | eori sz v ea | cmpi sz v ea =>
    obtain ⟨hv, hdest⟩ := (Bool.and_eq_true _ _).mp h
    have hea := Ea.immOk_of_dataAlterable hdest sz
    cases ea <;> first | contradiction |
      (cases sz <;> exact readsBack_opEa h (by exact readsBack_withImmEa hv hea))
  | oriToCcr b | andiToCcr b | eoriToCcr b => exact readsBack_opWord h readsBack_withByte
  | oriToSr w | andiToSr w | eoriToSr w => exact readsBack_opWord h (by exact readsBack_withWord)
  | btstStatic b ea =>
    have hea := Ea.immOk_of_dataNotImm h .byte
    exact readsBack_opEa h (readsBack_withByteEa hea)
  | bchgStatic b ea | bclrStatic b ea | bsetStatic b ea =>
    have hea := Ea.immOk_of_dataAlterable h .byte
    exact readsBack_opEa h (readsBack_withByteEa hea)
  | btstDynamic dn ea =>
    have hea := Ea.immOk_of_dataOk h
    cases ea <;> first | contradiction | exact readsBack_opEa h (by exact readsBack_withEa hea)
  | bchgDynamic dn ea | bclrDynamic dn ea | bsetDynamic dn ea =>
    have hea := Ea.immOk_of_dataAlterable h .byte
    cases ea <;> first | contradiction | exact readsBack_opEa h (by exact readsBack_withEa hea)
  | movepLoadWord dn an d | movepLoadLong dn an d | movepStoreWord dn an d | movepStoreLong dn an d =>
    exact readsBack_opWord h (by exact readsBack_withWord)
  -- lines 1, 2, 3
  | moveByte src dst | moveWord src dst | moveLong src dst =>
    obtain ⟨hs, hd⟩ := (Bool.and_eq_true _ _).mp h
    have hsrc := Ea.immOk_of_allOk hs
    have hdst := Ea.immOk_of_dataAlterable hd
    cases dst <;> first | contradiction |
      exact readsBack_opEa h (readsBack_withMove hsrc (hdst _)) (ho := eaFields_fst_lt _)
  | moveaWord src an | moveaLong src an =>
    have hea := Ea.immOk_of_allOk h
    exact readsBack_opEa h (by exact readsBack_withEaReg hea)
  -- line 4
  | negx sz ea | clr sz ea | neg sz ea | notEa sz ea | tst sz ea =>
    have hea := Ea.immOk_of_dataAlterable h sz
    cases sz <;> exact readsBack_opEa h (by exact readsBack_withSizeEa rfl hea)
  | moveFromSr ea =>
    have hea := Ea.immOk_of_dataAlterable h .word
    exact readsBack_opEa h (by exact readsBack_withEa hea)
  | nbcd ea | tas ea =>
    have hea := Ea.immOk_of_dataAlterable h .byte
    exact readsBack_opEa h (by exact readsBack_withEa hea)
  | chk ea dn =>
    have hea := Ea.immOk_of_dataOk h
    exact readsBack_opEa h (by exact readsBack_withEaReg hea)
  | moveToCcr ea | moveToSr ea =>
    have hea := Ea.immOk_of_dataOk h
    exact readsBack_opEa h (by exact readsBack_withEa hea)
  | lea ea an =>
    have hea := Ea.immOk_of_isControl h .long
    exact readsBack_opEa h (by exact readsBack_withEaReg hea)
  | jsr ea | jmp ea =>
    have hea := Ea.immOk_of_isControl h .long
    exact readsBack_opEa h (by exact readsBack_withEa hea)
  | pea ea =>
    have hea := Ea.immOk_of_isControl h .long
    cases ea <;> first | contradiction | exact readsBack_opEa h (by exact readsBack_withEa hea)
  | swap dn | unlk an | moveToUsp an | moveFromUsp an => exact readsBack_opWord h (by exact readsBack_ok)
  | extReg sz dn => cases sz <;> exact readsBack_opWord h (by exact readsBack_ok)
  | movemStore sz mask ea =>
    have hea := Ea.immOk_of_movemStore h
    cases ea <;> first | contradiction |
      (cases sz <;> exact readsBack_opEa h (by exact readsBack_withWordEa (hea _)))
  | movemLoad sz mask ea =>
    have hea := Ea.immOk_of_movemLoad h
    cases sz <;> exact readsBack_opEa h (by exact readsBack_withWordEa (hea _))
  | trap v => exact readsBack_trap h
  | link an d => exact readsBack_opWord h (by exact readsBack_withWord)
  | stop w => exact readsBack_opWord h (by exact readsBack_withWord)
  | resetDevices | nop | rte | rts | trapv | rtr => exact readsBack_opWord h (by exact readsBack_ok)
  -- line 5
  | addq q sz ea | subq q sz ea =>
    have hea := Ea.immOk_of_alterableOk h sz
    cases sz <;> exact readsBack_opEa h (by exact readsBack_withSizeEa rfl hea)
  | scc c ea =>
    have hea := Ea.immOk_of_dataAlterable h .byte
    cases ea <;> first | contradiction |
      (cases c <;> exact readsBack_opEa h (by exact readsBack_withEa hea rfl) (hr := by decide))
  | dbcc c dn d =>
    have hreg (c : Cond) := congrArg (Instr.dbcc c · d) (toReg_val dn)
    cases c <;> exact readsBack_opWord h (by exact readsBack_withWord (hreg _)) (hr := by decide)
  -- line 6
  | bra d | bsr d =>
    exact readsBack_encodeBranch h (by decide) h fun f ws hl hcode => by simp only [parse, hl, parseLine6, hcode]
  | bcc c d =>
    obtain ⟨hc, hd⟩ := (Bool.and_eq_true _ _).mp h
    exact readsBack_encodeBranch h (condCode_lt c) hd (parse_bcc hc)
  -- line 7
  | moveq dn d => exact readsBack_moveq h
  -- lines 8, 9, 11, 12, 13
  | orToReg sz ea dn | andToReg sz ea dn =>
    have hea := Ea.immOk_of_dataOk h
    cases sz <;> exact readsBack_opEa h (by exact readsBack_withSizeEaReg rfl hea)
  | subToReg sz ea dn | addToReg sz ea dn | cmp sz ea dn =>
    have hea := Ea.immOk_of_allOk h
    cases sz <;> exact readsBack_opEa h (by exact readsBack_withSizeEaReg rfl hea)
  | orToMem sz dn ea | subToMem sz dn ea | andToMem sz dn ea | addToMem sz dn ea =>
    have hea := Ea.immOk_of_memAlterable h sz
    cases ea <;> first | contradiction |
      (cases sz <;> exact readsBack_opEa h (by exact readsBack_withSizeEa rfl hea))
  | eorToEa sz dn ea =>
    have hea := Ea.immOk_of_dataAlterable h sz
    cases ea <;> first | contradiction |
      (cases sz <;> exact readsBack_opEa h (by exact readsBack_withSizeEa rfl hea))
  | suba sz ea an | adda sz ea an | cmpa sz ea an =>
    have hea := Ea.immOk_of_allOk h
    cases sz <;> exact readsBack_opEa h (by exact readsBack_withEaReg hea)
  | divu ea dn | divs ea dn | mulu ea dn | muls ea dn =>
    have hea := Ea.immOk_of_dataOk h
    exact readsBack_opEa h (by exact readsBack_withEaReg hea)
  | sbcd mem ry rx | abcd mem ry rx => cases mem <;> exact readsBack_opWord h (by exact readsBack_ok)
  | subx sz mem ry rx | addx sz mem ry rx =>
    cases mem <;> cases sz <;> exact readsBack_opWord h (readsBack_withExtended rfl)
  | cmpm sz ay ax =>
    cases sz <;>
      exact readsBack_opWord h (readsBack_withExtended (k := fun sz _ ay ax => .cmpm sz ay ax) (mem := true) rfl)
  | exgData rx ry | exgAddr rx ry | exgDataAddr rx ry => exact readsBack_opWord h (by exact readsBack_ok)
  -- line 14
  | asrReg sz count dn | aslReg sz count dn | lsrReg sz count dn | lslReg sz count dn
  | roxrReg sz count dn | roxlReg sz count dn | rorReg sz count dn | rolReg sz count dn =>
    exact readsBack_encodeShift h (by decide) (by decide) fun f ws hl h3 h7 ho hm => by
      simp [parse, hl, parseLine14, h3, h7, ho, hm]
  | asrMem ea | aslMem ea | lsrMem ea | lslMem ea | roxrMem ea | roxlMem ea | rorMem ea | rolMem ea =>
    have hea := Ea.immOk_of_memAlterable h .word
    exact readsBack_opEa h (by exact readsBack_withEa hea)

/-- Settles O2: the row that the opcode map selects reads back the operand words that the encoder writes. -/
theorem decodeOfEncode : Obligations.DecodeOfEncode := fun i ws h => readsBack_encode i h ws

/-! The written words. -/

/-- Refutes O1: $4AFC is the operation word of TAS on an immediate, which no row accepts (R118), but the decoder first asks for
the word of that immediate, and the list holds no other word than $4AFC. -/
theorem not_writtenWordsDecode : ¬ Obligations.WrittenWordsDecode := by
  rintro ⟨-, -, -, -, -, -, -, -, -, -, -, hillegal, -, -⟩
  have htruncated : decode [0x4AFC] = .error .truncated := rfl
  cases htruncated.symm.trans hillegal

end Sys2Proof
end

section
/-! PROOFS. The family of spec 70: the reset sequence (O7). -/

namespace Sys2Proof.Machine

open Sys2Proof

section
variable {s : State} {a : Long}

/-! One long word of the reset vector, read in supervisor program space (R66, R491). -/

theorem readResetVector_ok (h : s.canAccess .program .read a .long = true) :
    readResetVector a s = .ok (s.longAt (s.code .program) a) s := by
  rw [readResetVector, if_pos h]

section
variable (hquiet : s.quiet = true) (hcode : s.code .program = .supervisorProgram)
include hquiet hcode

/-- What is read may be a device's (log 35). -/
theorem readResetVector_done (hhigh : s.cycle false (wordRead .supervisorProgram a) = .done)
    (hlow : s.cycle false (wordRead .supervisorProgram (a + 2)) = .done) :
    ∃ v k, readResetVector a s = .ok v { s with drawCount := k } := by
  unfold readResetVector
  split
  · exact ⟨_, s.drawCount, rfl⟩
  · obtain ⟨hi, k, hread⟩ := busCycle_read_done hquiet rfl hhigh (highWord 0)
    obtain ⟨lo, n, hread'⟩ := busCycle_read_done (s := { s with drawCount := k }) hquiet rfl hlow (lowWord 0)
    rw [hcode]
    exact ⟨hi ++ lo, n, (run_bind_ok hread).trans (run_bind_ok hread')⟩

/-- The low-order word is not asked for where the high-order word fails. -/
theorem readResetVector_berr (hsupposed : s.supposed = false)
    (hhigh : s.cycle false (wordRead .supervisorProgram a) = .done ∨ s.cycle false (wordRead .supervisorProgram a) = .berr)
    (hberr : s.cycle false (wordRead .supervisorProgram a) = .berr ∨
      s.cycle false (wordRead .supervisorProgram (a + 2)) = .berr) :
    ∃ f k, readResetVector a s = .error (.access f) { s with drawCount := k } := by
  have hnot : ¬ s.canAccess .program .read a .long = true := fun hcan => by
    have hdone := fun x => State.cycle_of_canAccess (x := x) hcan
    simp only [cycleAddresses, if_true, State.accessCycle, hcode, widthOf] at hdone
    rcases hberr with h | h
    · exact nomatch h.symm.trans (hdone a (by simp))
    · exact nomatch h.symm.trans (hdone (a + 2) (by simp))
  obtain ⟨e, k, -, -, hrun⟩ := busCycle_pair_berr hquiet hsupposed (c := wordRead .supervisorProgram a)
    (d := wordRead .supervisorProgram (a + 2)) (fun hi lo => hi ++ lo) (highWord 0) (lowWord 0) ⟨rfl, rfl⟩ hhigh hberr
  rw [readResetVector, if_neg hnot, hcode]
  exact ⟨_, k, hrun⟩

end

/-! The reset sequence. -/

theorem enterReset_code (level : Fin 8) (s : State) : (s.enterReset level).code .program = .supervisorProgram := rfl

theorem enterReset_quiet (level : Fin 8) (h : s.cycles = []) : (s.enterReset level).quiet = true :=
  (State.quiet_iff _).mpr ⟨h, rfl⟩

theorem resetException_ok {level : Fin 8} (h0 : (s.enterReset level).canAccess .program .read 0 .long = true)
    (h4 : (s.enterReset level).canAccess .program .read 4 .long = true) :
    resetException level s = .ok () { s.enterReset level with
      ssp := s.longAt .supervisorProgram 0
      pc := s.longAt .supervisorProgram 4
      procState := .normal } := by
  have hpc := readResetVector_ok (s := { s.enterReset level with ssp := s.longAt .supervisorProgram 0 }) h4
  exact (run_bind_ok (run_modify _ s)).trans ((run_bind_ok (readResetVector_ok h0)).trans
    ((run_bind_ok (run_modify _ _)).trans (run_bind_ok hpc)))

section
variable (hcycles : s.cycles = []) (hsupposed : s.supposed = false)
include hcycles hsupposed

/-- A bus error on a read of SSP cuts the sequence short. -/
theorem resetException_ssp_berr {level : Fin 8}
    (hhigh : s.cycle false (wordRead .supervisorProgram 0) = .done ∨ s.cycle false (wordRead .supervisorProgram 0) = .berr)
    (hberr : s.cycle false (wordRead .supervisorProgram 0) = .berr ∨
      s.cycle false (wordRead .supervisorProgram 2) = .berr) :
    ∃ f t, resetException level s = .error (.access f) t ∧ t.mem = s.mem := by
  obtain ⟨f, k, hrun⟩ := readResetVector_berr (s := s.enterReset level) (a := 0) (enterReset_quiet level hcycles) rfl
    hsupposed hhigh hberr
  exact ⟨f, _, (run_bind_ok (run_modify _ s)).trans (run_bind_error hrun), rfl⟩

/-- So does one on a read of PC, SSP being loaded. -/
theorem resetException_pc_berr {level : Fin 8} (h0 : s.cycle false (wordRead .supervisorProgram 0) = .done)
    (h2 : s.cycle false (wordRead .supervisorProgram 2) = .done)
    (hhigh : s.cycle false (wordRead .supervisorProgram 4) = .done ∨ s.cycle false (wordRead .supervisorProgram 4) = .berr)
    (hberr : s.cycle false (wordRead .supervisorProgram 4) = .berr ∨
      s.cycle false (wordRead .supervisorProgram 6) = .berr) :
    ∃ f t, resetException level s = .error (.access f) t ∧ t.mem = s.mem := by
  have hquiet := enterReset_quiet level hcycles
  obtain ⟨v, k, hssp⟩ := readResetVector_done (s := s.enterReset level) (a := 0) hquiet rfl h0 h2
  obtain ⟨f, n, hpc⟩ := readResetVector_berr (s := { s.enterReset level with drawCount := k, ssp := v }) (a := 4) hquiet rfl
    hsupposed hhigh hberr
  exact ⟨f, _, (run_bind_ok (run_modify _ s)).trans ((run_bind_ok hssp).trans
    ((run_bind_ok (run_modify _ _)).trans (run_bind_error hpc))), rfl⟩

/-- Nothing has been written where one of the four reads ends in a bus error, those before it done (R492). -/
theorem resetException_berr {level : Fin 8} {before : List Long} {a : Long}
    (hplace : (before, a) ∈ [([], 0), ([0], 2), ([0, 2], 4), ([0, 2, 4], (6 : Long))])
    (hdone : ∀ b ∈ before, s.cycle false (wordRead .supervisorProgram b) = .done)
    (hberr : s.cycle false (wordRead .supervisorProgram a) = .berr) :
    ∃ f t, resetException level s = .error (.access f) t ∧ t.mem = s.mem := by
  simp only [List.mem_cons, List.not_mem_nil, or_false, Prod.mk.injEq] at hplace
  obtain ⟨rfl, rfl⟩ | ⟨rfl, rfl⟩ | ⟨rfl, rfl⟩ | ⟨rfl, rfl⟩ := hplace
  · exact resetException_ssp_berr hcycles hsupposed (.inr hberr) (.inl hberr)
  · exact resetException_ssp_berr hcycles hsupposed (.inl (hdone 0 (by simp))) (.inr hberr)
  · exact resetException_pc_berr hcycles hsupposed (hdone 0 (by simp)) (hdone 2 (by simp)) (.inr hberr) (.inl hberr)
  · exact resetException_pc_berr hcycles hsupposed (hdone 0 (by simp)) (hdone 2 (by simp)) (.inl (hdone 4 (by simp)))
      (.inr hberr)

end

theorem runReset_ok {fuel : Nat} {level : Fin 8} {t : State} (h : resetException level s = .ok () t) :
    runReset fuel level s = .next t := by
  unfold runReset
  rw [h]

/-- A bus error in the sequence halts the processor (R492). -/
theorem runReset_access {fuel : Nat} {level : Fin 8} {f : AccessFault} {t : State}
    (h : resetException level s = .error (.access f) t) : runReset fuel level s = .next t.halt := by
  unfold runReset
  rw [h]

/-- The accesses of the sequence go through where its four reads complete. -/
theorem canAccess_resetVector (level : Fin 8) (ha : aligned a .long = true)
    (hhigh : s.completes (wordRead .supervisorProgram a) = true)
    (hlow : s.completes (wordRead .supervisorProgram (a + 2)) = true) :
    (s.enterReset level).canAccess .program .read a .long = true := by
  have hplatform : s.samePlatform (s.enterReset level) :=
    ⟨rfl, rfl, ((State.quiet_iff s).mp (State.quiet_of_completes hhigh)).2.symm⟩
  have hcompletes := State.completes_congr hplatform
  rw [State.canAccess, ha, enterReset_code]
  simp only [widthOf, Bool.true_and, Bool.and_eq_true, Bool.or_eq_true]
  exact ⟨(hcompletes _).trans hhigh, .inr ((hcompletes _).trans hlow)⟩

end

/-- Settles O7: the two long words are read in one go where all four reads complete; where one ends in a bus error, the sequence
stops there, with nothing written, and a halted processor reads no words ahead. -/
theorem resetSequence : Obligations.ResetSequence := by
  intro s level read hin hread
  subst hread
  obtain ⟨inputs, htaken⟩ := s.takeInput_snd
  rw [step_of_input hin, htaken]
  refine ⟨fun h0 h2 h4 h6 => ?_, fun before a hplace hcycles hsupposed hdone hberr => ?_⟩
  · have herror : s.fetchError = none := ((State.quiet_iff s).mp (State.quiet_of_completes h0)).2
    have hrun := resetException_ok (s := { s with inputs := inputs }) (canAccess_resetVector level rfl h0 h2)
      (canAccess_resetVector level rfl h4 h6)
    rw [stepInput, runReset_ok hrun, settled]
    simp only [State.enterReset, herror]
    rfl
  · obtain ⟨f, t, hrun, hmem⟩ := resetException_berr (s := { s with inputs := inputs }) (level := level) hcycles hsupposed
      hplace hdone hberr
    refine ⟨t.halt, ?_, rfl, hmem⟩
    rw [stepInput, runReset_access hrun]
    exact readTarget_halt _ t

end Sys2Proof.Machine
end
